-- ==== Sys2Proof/Word.lean ====
section
/-! DEFINITION. The words of the block: bytes, pin identifiers, command words and ROMs. -/

namespace Sys2Proof

/-- A byte (`u8`, rule R5). -/
abbrev Byte := BitVec 8

/-- A pin identifier (`u8`, rules R50 and R72). -/
abbrev PinId := BitVec 8

/-- A command word or a 32-bit register (rules R70 and R31). -/
abbrev Word := BitVec 32

/-- A 64-bit 1-Wire ROM. ROM bit position `n` (1 to 64) of rule R57 is bit `n - 1`, and `rom[i]` is bits
`8 i + 7` down to `8 i`, so that position `n` is bit `(n - 1) mod 8` of `rom[(n - 1) div 8]`. -/
abbrev Rom := BitVec 64

end Sys2Proof
end

