-- ==== Sys2Proof/Syntax.lean ====
section
/-! DEFINITION. The 29 commands of the opcode map (rule R73), with the operands of rule R72. -/

namespace Sys2Proof

/-- One constructor for each row of the opcode map (rule R73). An operand has the width rule R71's format gives
it; a 1-bit operand is a `Bool` (rule R72). -/
inductive Instr
  /-- `TW_INIT c, d` (R131) -/
  | twInit (c d : PinId)
  /-- `TW_SET_SPEED lvl` (R132) -/
  | twSetSpeed (lvl : BitVec 2)
  /-- `TW_START` (R133, R134) -/
  | twStart
  /-- `TW_STOP` (R135) -/
  | twStop
  /-- `TW_WRITE_BYTE x` (R136) -/
  | twWriteByte (x : Byte)
  /-- `TW_READ_BYTE k` (R137) -/
  | twReadByte (k : Bool)
  /-- `TW_WRITE_BYTES len` (R138) -/
  | twWriteBytes (len : Byte)
  /-- `TW_READ_BYTES len` (R139) -/
  | twReadBytes (len : Byte)
  /-- `TW_START_RW ab, son` (R140) -/
  | twStartRw (ab : Byte) (son : Bool)
  /-- `TW_START_WRITE a, r` (R141) -/
  | twStartWrite (a : BitVec 7) (r : Byte)
  /-- `TW_START_READ a, r` (R142) -/
  | twStartRead (a : BitVec 7) (r : Byte)
  /-- `TW_SCAN` (R143) -/
  | twScan
  /-- `TW_FREE` (R145) -/
  | twFree
  /-- `OW_INIT p` (R181) -/
  | owInit (p : PinId)
  /-- `OW_RESET p` (R183) -/
  | owReset (p : PinId)
  /-- `OW_READ_BIT p` (R184) -/
  | owReadBit (p : PinId)
  /-- `OW_WRITE_BIT p, b` (R185) -/
  | owWriteBit (p : PinId) (b : Bool)
  /-- `OW_READ p` (R186) -/
  | owRead (p : PinId)
  /-- `OW_WRITE p, x` (R187) -/
  | owWrite (p : PinId) (x : Byte)
  /-- `OW_READ_BYTES p, len` (R188) -/
  | owReadBytes (p : PinId) (len : Byte)
  /-- `OW_WRITE_BYTES p, len` (R189) -/
  | owWriteBytes (p : PinId) (len : Byte)
  /-- `OW_CRC8 c, x` (R191) -/
  | owCrc8 (c x : Byte)
  /-- `OW_MATCH_ROM p` (R193) -/
  | owMatchRom (p : PinId)
  /-- `OW_MATCH_DEVICE i` (R194) -/
  | owMatchDevice (idx : Byte)
  /-- `OW_READ_ROM p` (R195) -/
  | owReadRom (p : PinId)
  /-- `OW_SEARCH_PASS p, cmd, s` (R215) -/
  | owSearchPass (p : PinId) (cmd : Byte) (seed : Bool)
  /-- `OW_SEARCH p, cmd` (R216) -/
  | owSearch (p : PinId) (cmd : Byte)
  /-- `OW_SEARCH_FAMILY p, cmd, f` (R217) -/
  | owSearchFamily (p : PinId) (cmd : Byte) (f : Byte)
  /-- `OW_FREE` (R218) -/
  | owFree
  deriving DecidableEq, Repr

end Sys2Proof
end

