-- ==== Sys2Proof/WellFormed.lean ====
section
/-! DEFINITION. Assembly lines (rule R78) with their numeric operands as written, the check that every operand
fits its field, and the pseudo-commands of rule R80. A term of `Instr` fits by its types; what can be ill-formed is
the line it is written as, and `Asm.wf` refuses it (rule R78: no word is produced). -/

namespace Sys2Proof

/-- An assembly line: a mnemonic and its operands as numbers, in `A`, `B`, `C` order (rule R78), the six
pseudo-commands of rule R80 among them. -/
inductive Asm
  | twInit (c d : Nat) | twSetSpeed (lvl : Nat) | twStart | twStop | twWriteByte (x : Nat)
  | twReadByte (k : Nat) | twWriteBytes (len : Nat) | twReadBytes (len : Nat)
  | twStartRw (ab son : Nat) | twStartWrite (a r : Nat) | twStartRead (a r : Nat) | twScan | twFree
  | owInit (p : Nat) | owReset (p : Nat) | owReadBit (p : Nat) | owWriteBit (p b : Nat)
  | owRead (p : Nat) | owWrite (p x : Nat) | owReadBytes (p len : Nat) | owWriteBytes (p len : Nat)
  | owCrc8 (c x : Nat) | owMatchRom (p : Nat) | owMatchDevice (idx : Nat) | owReadRom (p : Nat)
  | owSearchPass (p cmd s : Nat) | owSearch (p cmd : Nat) | owSearchFamily (p cmd f : Nat) | owFree
  /-- `TW_WRITE_ADDR a` -/
  | twWriteAddr (a : Nat)
  /-- `TW_READ_ADDR a` -/
  | twReadAddr (a : Nat)
  /-- `TW_READ_ACK` -/
  | twReadAck
  /-- `TW_READ_NACK` -/
  | twReadNack
  /-- `OW_SEARCH_FIRST p, cmd` -/
  | owSearchFirst (p cmd : Nat)
  /-- `OW_SEARCH_NEXT p, cmd` -/
  | owSearchNext (p cmd : Nat)
  deriving DecidableEq, Repr

/-- The number fits a field of `n` bits. -/
def fits (n v : Nat) : Bool := v < 2 ^ n

/-- Every operand of the line fits its field (rules R71 and R78). -/
def Asm.wf : Asm → Bool
  | .twInit c d => fits 8 c && fits 8 d
  | .twSetSpeed lvl => fits 2 lvl
  | .twStart | .twStop | .twScan | .twFree | .owFree | .twReadAck | .twReadNack => true
  | .twWriteByte x => fits 8 x
  | .twReadByte k => fits 1 k
  | .twWriteBytes len => fits 8 len
  | .twReadBytes len => fits 8 len
  | .twStartRw ab son => fits 8 ab && fits 1 son
  | .twStartWrite a r => fits 7 a && fits 8 r
  | .twStartRead a r => fits 7 a && fits 8 r
  | .owInit p => fits 8 p
  | .owReset p => fits 8 p
  | .owReadBit p => fits 8 p
  | .owWriteBit p b => fits 8 p && fits 1 b
  | .owRead p => fits 8 p
  | .owWrite p x => fits 8 p && fits 8 x
  | .owReadBytes p len => fits 8 p && fits 8 len
  | .owWriteBytes p len => fits 8 p && fits 8 len
  | .owCrc8 c x => fits 8 c && fits 8 x
  | .owMatchRom p => fits 8 p
  | .owMatchDevice idx => fits 8 idx
  | .owReadRom p => fits 8 p
  | .owSearchPass p cmd s => fits 8 p && fits 8 cmd && fits 1 s
  | .owSearch p cmd => fits 8 p && fits 8 cmd
  | .owSearchFamily p cmd f => fits 8 p && fits 8 cmd && fits 8 f
  | .twWriteAddr a => fits 7 a
  | .twReadAddr a => fits 7 a
  | .owSearchFirst p cmd => fits 8 p && fits 8 cmd
  | .owSearchNext p cmd => fits 8 p && fits 8 cmd

end Sys2Proof
end

