-- ==== Sys2Proof/Decode.lean ====
section
/-! DEFINITION. The decoder of rules R70 to R77, total on every 32-bit word and rejecting by name, then the encoder
written from the same formats, the assembler of rules R78 and R80, and the opcode table of rule R73 as match and
mask. -/

namespace Sys2Proof

/-- Why a word spells no command (rules R75 and R76). -/
inductive DecodeError
  /-- an unassigned `OP` (rule R75) -/
  | illegalOpcode
  /-- a 1 in an operand bit the row requires to be 0 (rule R76) -/
  | reservedField
  deriving DecidableEq, Repr

/-- `OP`, bits 31..24 (rule R70). -/
def opField (w : Word) : Byte := w.extractLsb' 24 8
/-- Operand byte `A`, bits 23..16 (rule R70). -/
def aField (w : Word) : Byte := w.extractLsb' 16 8
/-- Operand byte `B`, bits 15..8 (rule R70). -/
def bField (w : Word) : Byte := w.extractLsb' 8 8
/-- Operand byte `C`, bits 7..0 (rule R70). -/
def cField (w : Word) : Byte := w.extractLsb' 0 8

/-- The command where the row's must-be-zero bits are 0, else rule R76's rejection. -/
def reserved (ok : Bool) (i : Instr) : Except DecodeError Instr :=
  if ok then .ok i else .error .reservedField

/-- The bits of an operand byte above a sub-field of `n` bits are 0 (rule R71). -/
def highZero (n : Nat) (x : Byte) : Bool := x >>> n == 0

/-- Format `N` (rule R71). -/
def fmtN (w : Word) (i : Instr) : Except DecodeError Instr :=
  reserved (aField w == 0 && bField w == 0 && cField w == 0) i
/-- Format `A` (rule R71). -/
def fmtA (w : Word) (f : Byte → Instr) : Except DecodeError Instr :=
  reserved (bField w == 0 && cField w == 0) (f (aField w))
/-- Format `A1` (rule R71). -/
def fmtA1 (w : Word) (f : Bool → Instr) : Except DecodeError Instr :=
  reserved (highZero 1 (aField w) && bField w == 0 && cField w == 0) (f ((aField w).getLsbD 0))
/-- Format `A2` (rule R71). -/
def fmtA2 (w : Word) (f : BitVec 2 → Instr) : Except DecodeError Instr :=
  reserved (highZero 2 (aField w) && bField w == 0 && cField w == 0) (f ((aField w).setWidth 2))
/-- Format `AB` (rule R71). -/
def fmtAB (w : Word) (f : Byte → Byte → Instr) : Except DecodeError Instr :=
  reserved (cField w == 0) (f (aField w) (bField w))
/-- Format `AB1` (rule R71). -/
def fmtAB1 (w : Word) (f : Byte → Bool → Instr) : Except DecodeError Instr :=
  reserved (highZero 1 (bField w) && cField w == 0) (f (aField w) ((bField w).getLsbD 0))
/-- Format `A7B` (rule R71). -/
def fmtA7B (w : Word) (f : BitVec 7 → Byte → Instr) : Except DecodeError Instr :=
  reserved (highZero 7 (aField w) && cField w == 0) (f ((aField w).setWidth 7) (bField w))
/-- Format `ABC` (rule R71). -/
def fmtABC (w : Word) (f : Byte → Byte → Byte → Instr) : Except DecodeError Instr :=
  .ok (f (aField w) (bField w) (cField w))
/-- Format `ABC1` (rule R71). -/
def fmtABC1 (w : Word) (f : Byte → Byte → Bool → Instr) : Except DecodeError Instr :=
  reserved (highZero 1 (cField w)) (f (aField w) (bField w) ((cField w).getLsbD 0))

/-- The decoder: reads `OP`, then checks that every operand bit the command's row does not use is 0
(rules R70 to R76). -/
def decode (w : Word) : Except DecodeError Instr :=
  match (opField w).toNat with
  | 0x10 => fmtAB w .twInit
  | 0x11 => fmtA2 w .twSetSpeed
  | 0x12 => fmtN w .twStart
  | 0x13 => fmtN w .twStop
  | 0x14 => fmtA w .twWriteByte
  | 0x15 => fmtA1 w .twReadByte
  | 0x16 => fmtA w .twWriteBytes
  | 0x17 => fmtA w .twReadBytes
  | 0x18 => fmtAB1 w .twStartRw
  | 0x19 => fmtA7B w .twStartWrite
  | 0x1A => fmtA7B w .twStartRead
  | 0x1B => fmtN w .twScan
  | 0x1C => fmtN w .twFree
  | 0x20 => fmtA w .owInit
  | 0x21 => fmtA w .owReset
  | 0x22 => fmtA w .owReadBit
  | 0x23 => fmtAB1 w .owWriteBit
  | 0x24 => fmtA w .owRead
  | 0x25 => fmtAB w .owWrite
  | 0x26 => fmtAB w .owReadBytes
  | 0x27 => fmtAB w .owWriteBytes
  | 0x28 => fmtAB w .owCrc8
  | 0x29 => fmtA w .owMatchRom
  | 0x2A => fmtA w .owMatchDevice
  | 0x2B => fmtA w .owReadRom
  | 0x2C => fmtABC1 w .owSearchPass
  | 0x2D => fmtAB w .owSearch
  | 0x2E => fmtABC w .owSearchFamily
  | 0x2F => fmtN w .owFree
  | _ => .error .illegalOpcode

/-- What the decoder reads from an instruction whose bits are `w`, of which the table gives `nbits`: the command
word is taken whole from the command port (rule R66), so bit 0 of `w` is bit 0 of the word. -/
def decodeTableWord (nbits w : Nat) : Option Instr :=
  (decode (BitVec.ofNat 32 (w % 2 ^ nbits))).toOption

/-- The word `{OP, A, B, C}` (rule R70). -/
def mkWord (op a b c : Byte) : Word := op ++ a ++ b ++ c

/-- A 1-bit operand in its byte: bit 0, the rest 0 (rule R71). -/
def bitByte (b : Bool) : Byte := (BitVec.ofBool b).setWidth 8

/-- The encoder (rules R70 to R73). -/
def encode : Instr → Word
  | .twInit c d => mkWord 0x10 c d 0
  | .twSetSpeed lvl => mkWord 0x11 (lvl.setWidth 8) 0 0
  | .twStart => mkWord 0x12 0 0 0
  | .twStop => mkWord 0x13 0 0 0
  | .twWriteByte x => mkWord 0x14 x 0 0
  | .twReadByte k => mkWord 0x15 (bitByte k) 0 0
  | .twWriteBytes len => mkWord 0x16 len 0 0
  | .twReadBytes len => mkWord 0x17 len 0 0
  | .twStartRw ab son => mkWord 0x18 ab (bitByte son) 0
  | .twStartWrite a r => mkWord 0x19 (a.setWidth 8) r 0
  | .twStartRead a r => mkWord 0x1A (a.setWidth 8) r 0
  | .twScan => mkWord 0x1B 0 0 0
  | .twFree => mkWord 0x1C 0 0 0
  | .owInit p => mkWord 0x20 p 0 0
  | .owReset p => mkWord 0x21 p 0 0
  | .owReadBit p => mkWord 0x22 p 0 0
  | .owWriteBit p b => mkWord 0x23 p (bitByte b) 0
  | .owRead p => mkWord 0x24 p 0 0
  | .owWrite p x => mkWord 0x25 p x 0
  | .owReadBytes p len => mkWord 0x26 p len 0
  | .owWriteBytes p len => mkWord 0x27 p len 0
  | .owCrc8 c x => mkWord 0x28 c x 0
  | .owMatchRom p => mkWord 0x29 p 0 0
  | .owMatchDevice idx => mkWord 0x2A idx 0 0
  | .owReadRom p => mkWord 0x2B p 0 0
  | .owSearchPass p cmd s => mkWord 0x2C p cmd (bitByte s)
  | .owSearch p cmd => mkWord 0x2D p cmd 0
  | .owSearchFamily p cmd f => mkWord 0x2E p cmd f
  | .owFree => mkWord 0x2F 0 0 0

/-- A 1-bit operand from the number written (rule R72). -/
def asmBit (n : Nat) : Bool := n % 2 == 1

/-- The command a line spells; a pseudo-command expands to exactly one (rule R80). -/
def Asm.instr : Asm → Instr
  | .twInit c d => .twInit (.ofNat 8 c) (.ofNat 8 d)
  | .twSetSpeed lvl => .twSetSpeed (.ofNat 2 lvl)
  | .twStart => .twStart
  | .twStop => .twStop
  | .twWriteByte x => .twWriteByte (.ofNat 8 x)
  | .twReadByte k => .twReadByte (asmBit k)
  | .twWriteBytes len => .twWriteBytes (.ofNat 8 len)
  | .twReadBytes len => .twReadBytes (.ofNat 8 len)
  | .twStartRw ab son => .twStartRw (.ofNat 8 ab) (asmBit son)
  | .twStartWrite a r => .twStartWrite (.ofNat 7 a) (.ofNat 8 r)
  | .twStartRead a r => .twStartRead (.ofNat 7 a) (.ofNat 8 r)
  | .twScan => .twScan
  | .twFree => .twFree
  | .owInit p => .owInit (.ofNat 8 p)
  | .owReset p => .owReset (.ofNat 8 p)
  | .owReadBit p => .owReadBit (.ofNat 8 p)
  | .owWriteBit p b => .owWriteBit (.ofNat 8 p) (asmBit b)
  | .owRead p => .owRead (.ofNat 8 p)
  | .owWrite p x => .owWrite (.ofNat 8 p) (.ofNat 8 x)
  | .owReadBytes p len => .owReadBytes (.ofNat 8 p) (.ofNat 8 len)
  | .owWriteBytes p len => .owWriteBytes (.ofNat 8 p) (.ofNat 8 len)
  | .owCrc8 c x => .owCrc8 (.ofNat 8 c) (.ofNat 8 x)
  | .owMatchRom p => .owMatchRom (.ofNat 8 p)
  | .owMatchDevice idx => .owMatchDevice (.ofNat 8 idx)
  | .owReadRom p => .owReadRom (.ofNat 8 p)
  | .owSearchPass p cmd s => .owSearchPass (.ofNat 8 p) (.ofNat 8 cmd) (asmBit s)
  | .owSearch p cmd => .owSearch (.ofNat 8 p) (.ofNat 8 cmd)
  | .owSearchFamily p cmd f => .owSearchFamily (.ofNat 8 p) (.ofNat 8 cmd) (.ofNat 8 f)
  | .owFree => .owFree
  | .twWriteAddr a => .twStartRw (.ofNat 8 (2 * a + 0)) true
  | .twReadAddr a => .twStartRw (.ofNat 8 (2 * a + 1)) true
  | .twReadAck => .twReadByte false
  | .twReadNack => .twReadByte true
  | .owSearchFirst p cmd => .owSearchPass (.ofNat 8 p) (.ofNat 8 cmd) true
  | .owSearchNext p cmd => .owSearchPass (.ofNat 8 p) (.ofNat 8 cmd) false

/-- The assembler: one word, or none where an operand does not fit its field (rule R78). -/
def assemble (l : Asm) : Option Word :=
  if l.wf then some (encode l.instr) else none

/-- A row of the opcode table: its `match` and `mask` (rule R73). -/
structure OpRow where
  matchBits : Word
  mask : Word
  deriving DecidableEq, Repr

/-- The word selects the row (rule R74). -/
def OpRow.selects (r : OpRow) (w : Word) : Bool := w &&& r.mask == r.matchBits

/-- The opcode table as the spec prints it (rule R73). -/
def opcodeTable : List OpRow :=
  [⟨0x10000000, 0xFF0000FF⟩, ⟨0x11000000, 0xFFFCFFFF⟩, ⟨0x12000000, 0xFFFFFFFF⟩, ⟨0x13000000, 0xFFFFFFFF⟩,
   ⟨0x14000000, 0xFF00FFFF⟩, ⟨0x15000000, 0xFFFEFFFF⟩, ⟨0x16000000, 0xFF00FFFF⟩, ⟨0x17000000, 0xFF00FFFF⟩,
   ⟨0x18000000, 0xFF00FEFF⟩, ⟨0x19000000, 0xFF8000FF⟩, ⟨0x1A000000, 0xFF8000FF⟩, ⟨0x1B000000, 0xFFFFFFFF⟩,
   ⟨0x1C000000, 0xFFFFFFFF⟩] ++
  [⟨0x20000000, 0xFF00FFFF⟩, ⟨0x21000000, 0xFF00FFFF⟩, ⟨0x22000000, 0xFF00FFFF⟩, ⟨0x23000000, 0xFF00FEFF⟩,
   ⟨0x24000000, 0xFF00FFFF⟩, ⟨0x25000000, 0xFF0000FF⟩, ⟨0x26000000, 0xFF0000FF⟩, ⟨0x27000000, 0xFF0000FF⟩,
   ⟨0x28000000, 0xFF0000FF⟩, ⟨0x29000000, 0xFF00FFFF⟩, ⟨0x2A000000, 0xFF00FFFF⟩, ⟨0x2B000000, 0xFF00FFFF⟩,
   ⟨0x2C000000, 0xFF0000FE⟩, ⟨0x2D000000, 0xFF0000FF⟩, ⟨0x2E000000, 0xFF000000⟩, ⟨0x2F000000, 0xFFFFFFFF⟩]

end Sys2Proof
end

