-- ==== Sys2Proof/Config.lean ====
section
/-! DEFINITION. The parameters of rule R3, the ROM command codes of rule R4, and the two things nothing
fixes: the parameters' values at reset and the levels the bus presents. -/

namespace Sys2Proof

/-- What a platform may place in a memory map (rule R62): the registers, buffers and lists the host names. -/
inductive HostName
  | status | result | faulted | faultReason
  | twInitialized | twSclPin | twSdaPin | twInTx | twMaxStretch | twSpeed | twShort | twLong
  | owPrevRom | owLastDisc | owLastDev
  | twDevCount | twDevList | owDevCount | owDevList
  | txbuf | rxbuf
  deriving DecidableEq, Repr

/-- The implementation parameters of rule R3. None changes while the block runs. -/
structure Params where
  /-- `NUM_PINS` -/
  numPins : Nat
  /-- `SHORT_DELAY[0]`, the slowest preset -/
  shortDelay0 : Nat
  /-- `SHORT_DELAY[1]` -/
  shortDelay1 : Nat
  /-- `SHORT_DELAY[2]` -/
  shortDelay2 : Nat
  /-- `SHORT_DELAY[3]`, the fastest preset -/
  shortDelay3 : Nat
  /-- `DEFAULT_SPEED` -/
  defaultSpeed : BitVec 2
  /-- `MAX_CLOCK_STRETCH_TICKS` -/
  maxStretch : Nat
  /-- `RESERVED_ADDRS`, any set of 7-bit addresses (rule R3, conflict C1) -/
  reservedAddrs : List (BitVec 7)
  /-- `MAX_TW_DEVICES` -/
  maxTwDevices : Nat
  /-- `MAX_OW_DEVICES` -/
  maxOwDevices : Nat
  /-- `TXBUF_SIZE` -/
  txbufSize : Nat
  /-- `RXBUF_SIZE` -/
  rxbufSize : Nat
  /-- `OW_RST_LOW` -/
  owRstLow : Nat
  /-- `OW_PRES_POLLS` -/
  owPresPolls : Nat
  /-- `OW_PRES_INTERVAL` -/
  owPresInterval : Nat
  /-- `OW_RST_HIGH` -/
  owRstHigh : Nat
  /-- `OW_W1_LOW` -/
  owW1Low : Nat
  /-- `OW_W1_REL` -/
  owW1Rel : Nat
  /-- `OW_W0_LOW` -/
  owW0Low : Nat
  /-- `OW_W0_REL` -/
  owW0Rel : Nat
  /-- `OW_R_LOW` -/
  owRLow : Nat
  /-- `OW_R_WAIT` -/
  owRWait : Nat
  /-- `OW_R_IDLE` -/
  owRIdle : Nat
  /-- `UNIT`, the real duration of one wait unit, in the deployment's own measure; no rule reads it (R105) -/
  unit : Nat
  /-- `HOST_MAP`, the addresses of what a platform maps; no rule reads it (R62) -/
  hostMap : List (HostName × Nat)
  deriving DecidableEq, Repr

/-- A placement is injective: no name twice, no address twice (rule R3, `HOST_MAP`). -/
abbrev injectivePlacement (m : List (HostName × Nat)) : Prop :=
  (m.map Prod.fst).Nodup ∧ (m.map Prod.snd).Nodup

/-- The constraints of rule R3's table. -/
abbrev Params.Valid (p : Params) : Prop :=
  (2 ≤ p.numPins ∧ p.numPins ≤ 256) ∧
  (p.shortDelay0 > p.shortDelay1 ∧ p.shortDelay1 > p.shortDelay2 ∧ p.shortDelay2 > p.shortDelay3 ∧
    p.shortDelay3 ≥ 1 ∧ p.shortDelay0 < 2 ^ 31) ∧
  (1 ≤ p.maxStretch ∧ p.maxStretch < 2 ^ 32) ∧
  p.maxTwDevices ≤ 128 ∧
  (8 ≤ p.txbufSize ∧ p.txbufSize ≤ 256) ∧
  (8 ≤ p.rxbufSize ∧ p.rxbufSize ≤ 256) ∧
  1 ≤ p.owRstLow ∧
  1 ≤ p.owPresPolls ∧
  p.owPresPolls * p.owPresInterval ≤ p.owRstHigh ∧
  p.owW1Low < p.owW0Low ∧ p.owW0Rel < p.owW1Rel ∧
  0 < p.unit ∧
  injectivePlacement p.hostMap

/-- `READ_ROM` (rule R4). -/
abbrev readRomCode : Byte := 0x33#8
/-- `MATCH_ROM` (rule R4). -/
abbrev matchRomCode : Byte := 0x55#8
/-- `SEARCH_ROM`, the standard search command (rule R4). -/
abbrev searchRomCode : Byte := 0xF0#8
/-- `ALARM_SEARCH`, the alerting search command (rule R4). -/
abbrev alarmSearchCode : Byte := 0xEC#8

/-- The default `RESERVED_ADDRS` = {0x00..0x07} ∪ {0x78..0x7F} (rule R3, conflict C1). -/
def defaultReservedAddrs : List (BitVec 7) :=
  (List.range' 0 8 ++ List.range' 0x78 8).map (BitVec.ofNat 7)

/-- One value for each OPEN parameter, counted from the least that rule R3 allows; `Config.params` makes the
parameters of them. -/
structure OpenValues where
  numPins : Fin 255
  gap0 : Nat
  gap1 : Nat
  gap2 : Nat
  short3 : Nat
  defaultSpeed : BitVec 2
  maxStretch : Fin 4294967295
  maxTwDevices : Fin 129
  maxOwDevices : Nat
  txbufSize : Fin 249
  rxbufSize : Fin 249
  w1Low : Nat
  w0Extra : Nat
  w0Rel : Nat
  w1Extra : Nat
  rLow : Nat
  rWait : Nat
  rIdle : Nat
  unit : Nat
  deriving Inhabited

/-- The OPEN parameters' values (rule R3): free, nothing fixes them (log 1). -/
opaque Config.openValues : OpenValues

/-- The level the bus presents at the `n`-th sample of a run, once the answers listed in the state are used up:
a free value, one for each sample (rule R106, log 2). -/
opaque Config.busLevel : Nat → Bool

/-- The platform's placement, if it makes one: free (rule R3, log 1). -/
opaque Config.openHostMap : List (HostName × Nat)

/-- `HOST_MAP` of the reset parameters: any injective placement is possible. -/
def Config.hostMap : List (HostName × Nat) :=
  if injectivePlacement Config.openHostMap then Config.openHostMap else []

/-- `SHORT_DELAY[3]` of the reset parameters, leaving room for three larger presets below 2^31. -/
def Config.short3 : Nat := Config.openValues.short3 % (2 ^ 31 - 4) + 1
/-- `SHORT_DELAY[2]` of the reset parameters. -/
def Config.short2 : Nat := Config.openValues.gap2 % (2 ^ 31 - 3 - Config.short3) + (Config.short3 + 1)
/-- `SHORT_DELAY[1]` of the reset parameters. -/
def Config.short1 : Nat := Config.openValues.gap1 % (2 ^ 31 - 2 - Config.short2) + (Config.short2 + 1)
/-- `SHORT_DELAY[0]` of the reset parameters. -/
def Config.short0 : Nat := Config.openValues.gap0 % (2 ^ 31 - 1 - Config.short1) + (Config.short1 + 1)

/-- The parameters the block has at reset: the values rule R3 gives, and for every OPEN parameter a free value in
the range its constraint allows, every allowed value being possible (log 1). -/
def Config.params : Params where
  numPins := Config.openValues.numPins.val + 2
  shortDelay0 := Config.short0
  shortDelay1 := Config.short1
  shortDelay2 := Config.short2
  shortDelay3 := Config.short3
  defaultSpeed := Config.openValues.defaultSpeed
  maxStretch := Config.openValues.maxStretch.val + 1
  reservedAddrs := defaultReservedAddrs
  maxTwDevices := Config.openValues.maxTwDevices.val
  maxOwDevices := Config.openValues.maxOwDevices
  txbufSize := Config.openValues.txbufSize.val + 8
  rxbufSize := Config.openValues.rxbufSize.val + 8
  owRstLow := 480
  owPresPolls := 48
  owPresInterval := 5
  owRstHigh := 480
  owW1Low := Config.openValues.w1Low
  owW1Rel := Config.openValues.w0Rel + Config.openValues.w1Extra + 1
  owW0Low := Config.openValues.w1Low + Config.openValues.w0Extra + 1
  owW0Rel := Config.openValues.w0Rel
  owRLow := Config.openValues.rLow
  owRWait := Config.openValues.rWait
  owRIdle := Config.openValues.rIdle
  unit := Config.openValues.unit + 1
  hostMap := Config.hostMap

end Sys2Proof
end

