-- ==== Sys2Proof/Machine/State.lean ====
section
/-! DEFINITION. The state of the block and of its surroundings as plain data, the ways a step can stop, and reset. -/

namespace Sys2Proof.Machine

/-- Why the machine stops. -/
inductive Fault
  /-- A command issued while `FAULTED = 1`: "every later command has no step" (rule R244). Raised by every command
  and by the port's rejection of a word. Safe: the block executes nothing there either (log 4). -/
  | blockFaulted
  /-- The host writes a `TXBUF` byte at an index that is not below `TXBUF_SIZE` (rule R50 gives no such byte).
  Raised by the host's write. Safe: nothing is claimed of it (log 9). -/
  | txbufOutOfRange
  /-- The host reads `TXBUF`, which rule R50 gives it for writing only. Raised by the host's read. Safe (log 9). -/
  | txbufNotReadable
  deriving DecidableEq, Repr

/-- Why an instruction has no meaning here. -/
inductive Refusal
  /-- An instruction of the table the model gives no meaning, by its mnemonic. Raised by no arm of `exec`: every
  command has its meaning. Safe. -/
  | notModelled (mnemonic : String)
  deriving DecidableEq, Repr

/-- The architectural errors (rule R241). -/
inductive Err
  | initConflict | badCommand | arbitrationLost | longClockStretch | noAck | badCrc | pinFlapping | noDevice
  | stopOutsideTransaction | rootNotEmpty | outOfMemory
  deriving DecidableEq, Repr

/-- The usage-fault reasons (rule R245). -/
inductive Usage
  | illegalOpcode | reservedField | twNotInit | twNotInTx | badPin | samePin | pinOwned | owNotInit | lenTooBig
  | txUnwritten | badIndex | absentRead
  deriving DecidableEq, Repr

/-- What ends a command early: `raise Err(E)` (rule R240) or `raise UsageFault(u)` (rule R244). -/
inductive Raise
  | err (e : Err)
  | usage (u : Usage)
  deriving DecidableEq, Repr

/-- `PIN_DRIVE[p]` (rule R36). -/
inductive Drive
  | low | rel
  deriving DecidableEq, Repr

/-- `PIN_MODE[p]` (rule R36). -/
inductive PinMode
  | unconf | input | inputPullup
  deriving DecidableEq, Repr

/-- The modes `configure` takes (rule R101). -/
inductive CfgMode
  | input | inputPullup
  deriving DecidableEq, Repr

/-- The block's side of one pin (rule R36). -/
structure Pin where
  drive : Drive
  mode : PinMode
  deriving DecidableEq, Repr

/-- A pin at reset: released and unconfigured (rule R36). -/
def Pin.atReset : Pin := ⟨.rel, .unconf⟩

/-- The events of a trace (rule R100). -/
inductive Event
  | cfg (p : PinId) (m : CfgMode)
  | low (p : PinId)
  | rel (p : PinId)
  | sample (p : PinId) (v : Bool)
  | wait (n : Nat)
  deriving DecidableEq, Repr

/-- Data held by key, keys strictly rising. -/
abbrev Cells (α : Type) := List (Nat × α)

/-- A buffer: the bytes written so far by index; an unlisted byte is absent (rule R58, log 10). -/
abbrev Memory := List Host.Cell

/-- A record of the one-wire device list (rule R53). -/
structure OwRecord where
  rom : Rom
  pin : PinId
  deriving DecidableEq, Repr

/-- What is observed of a completed command: its trace, its status and its result (rule R100). -/
structure Completed where
  trace : List Event
  status : Byte
  result : Byte
  deriving DecidableEq, Repr

/-- What the host does next (rules R20, R60, R79, R256). -/
inductive HostAction
  /-- present a command word on the command port (rule R90) -/
  | command (w : Word)
  /-- `host TXBUF[i..j] <- b_i, ..., b_j` (rule R79) -/
  | writeTx (i : Byte) (bytes : List Byte)
  /-- `host read X`, element `i` of `X`; a register of one element is read at 0 (rule R79) -/
  | read (n : HostName) (i : Nat)
  /-- a power cycle, which is a reset (rules R256 and R270) -/
  | powerCycle
  deriving DecidableEq, Repr

/-- What a host read returns: a value zero-extended, or a record of the one-wire list. -/
inductive HostValue
  | value (v : Nat)
  | record (r : OwRecord)
  deriving DecidableEq, Repr

/-- The two-wire engine's registers, `TwoWireBusState` (rules R27 to R31). -/
structure TwRegs where
  /-- `TW_INITIALIZED` (R27) -/
  initialized : Bool
  /-- `TW_SCL_PIN` (R28) -/
  sclPin : PinId
  /-- `TW_SDA_PIN` (R28) -/
  sdaPin : PinId
  /-- `TW_IN_TX` (R29) -/
  inTx : Bool
  /-- `TW_MAX_STRETCH` (R30) -/
  maxStretch : Word
  /-- `TW_SPEED` (R31) -/
  speed : BitVec 2
  /-- `TW_SHORT` (R31) -/
  short : Word
  /-- `TW_LONG` (R31) -/
  long : Word
  /-- The model's own: `TW_SPEED`, `TW_SHORT` and `TW_LONG` have been written since reset (R31, R39; log 8). -/
  speedWritten : Bool
  deriving DecidableEq, Repr

/-- The search cursor, `SearchCursor` (rules R32 to R34). -/
structure Cursor where
  /-- `OW_PREV_ROM[0..7]` (R32) -/
  prevRom : Rom
  /-- `OW_LAST_DISC` (R33) -/
  lastDisc : Byte
  /-- `OW_LAST_DEV` (R34) -/
  lastDev : Bool
  deriving DecidableEq, Repr

/-- The whole machine: the block's registers, pins, buffers and lists, what is observed of it, and the inputs from
outside. -/
structure State where
  /-- the parameters of rule R3, arguments of the model (R21, log 1); no step writes them -/
  params : Params
  /-- `STATUS` (R24) -/
  status : Byte
  /-- `RESULT` (R25) -/
  result : Byte
  /-- `FAULTED` (R26) -/
  faulted : Bool
  /-- `FAULT_REASON` (R26) -/
  faultReason : Byte
  /-- the two-wire engine's registers -/
  tw : TwRegs
  /-- the search cursor -/
  cursor : Cursor
  /-- `PIN_DRIVE` and `PIN_MODE`: the pins that differ from reset, by pin (R36, log 10) -/
  pins : Cells Pin
  /-- `TXBUF` (R50) -/
  txbuf : Memory
  /-- `RXBUF` (R50) -/
  rxbuf : Memory
  /-- `TW_DEVLIST`; `TW_DEVCOUNT` is its length (R52) -/
  twDevList : List Byte
  /-- `OW_DEVLIST`; `OW_DEVCOUNT` is its length (R53) -/
  owDevList : List OwRecord
  /-- the events of the last command issued, the newest first (R100, log 11) -/
  events : List Event
  /-- the completed commands, the newest first (R100, log 11) -/
  history : List Completed
  /-- `hpc`, the index of the host's next command word (R23, log 6) -/
  hpc : Nat
  /-- the host's actions to come, the next one first (R20, log 3) -/
  host : List HostAction
  /-- what the host's reads returned, the newest first (log 11) -/
  hostSeen : List HostValue
  /-- the bus's answers to come, the next one first; after them the free level (R106, log 2) -/
  bus : List Bool
  /-- how many samples have been answered (log 2) -/
  draws : Nat
  deriving DecidableEq, Repr

/-- The trace of the last command issued, in order (rule R100). -/
def State.trace (s : State) : List Event := s.events.reverse

/-- `TW_DEVCOUNT`, 8 bits (rule R52). -/
def State.twDevCount (s : State) : Byte := BitVec.ofNat 8 s.twDevList.length

/-- `OW_DEVCOUNT` (rule R53: 8 bits or wider). -/
def State.owDevCount (s : State) : Nat := s.owDevList.length

/-- The block right after reset with the given parameters (rules R39, R58, R270), nothing to do and no answer
listed. `TW_SCL_PIN`, `TW_SDA_PIN`, `TW_SPEED`, `TW_SHORT`, `TW_LONG` are unspecified by the spec: DESIGN CHOICE zero
(log 7, unsafe); `speedWritten` and `initialized` say that they are absent to the host (log 8). -/
def State.resetWith (p : Params) : State where
  params := p
  status := 0x00
  result := 0x00
  faulted := false
  faultReason := 0x00
  tw :=
    { initialized := false, sclPin := 0, sdaPin := 0, inTx := false, maxStretch := BitVec.ofNat 32 p.maxStretch
      speed := 0, short := 0, long := 0, speedWritten := false }
  cursor := { prevRom := 0, lastDisc := 0, lastDev := false }
  pins := []
  txbuf := []
  rxbuf := []
  twDevList := []
  owDevList := []
  events := []
  history := []
  hpc := 0
  host := []
  hostSeen := []
  bus := []
  draws := 0

/-- The machine right after reset (rule R270). -/
def State.reset : State := State.resetWith Config.params

end Sys2Proof.Machine
end

