-- ==== Sys2Proof/Machine/Operands.lean ====
section
/-! DEFINITION. Operand forms and bit helpers: how operands feed registers and bytes (rule R72), the bits of bytes
and ROMs (rules R56, R57, R210), the speed presets and the status and reason codes. -/

namespace Sys2Proof.Machine

/-- Bit `i` of `x` replaced by `b`. -/
def setBit {w : Nat} (x : BitVec w) (i : Nat) (b : Bool) : BitVec w :=
  if b then x ||| BitVec.twoPow w i else x &&& ~~~(BitVec.twoPow w i)

/-- `zext_8` of a bit (rules R5, R136, R183, R184). -/
def zext8 (b : Bool) : Byte := (BitVec.ofBool b).setWidth 8

/-- The address byte `{a[6:0], rw}` (rules R72, R141, R142). -/
def addressByte (a : BitVec 7) (rw : Bool) : Byte := a ++ BitVec.ofBool rw

/-- `rom[i]`: byte `i` of a ROM (rule R57). -/
def romByte (rom : Rom) (i : Nat) : Byte := rom.extractLsb' (8 * i) 8

/-- The eight bytes of a ROM, `rom[0]` first (rule R57). -/
def romBytes (rom : Rom) : List Byte := (List.range 8).map (romByte rom)

/-- `bit(rom, n)` for the ROM bit position `n`, 1 to 64 (rule R210). -/
def romBit (rom : Rom) (n : Nat) : Bool := (romByte rom ((n - 1) / 8)).getLsbD ((n - 1) % 8)

/-- `setbit(rom, n, d)` for the ROM bit position `n`, 1 to 64 (rule R210). -/
def setRomBit (rom : Rom) (n : Nat) (d : Bool) : Rom := setBit rom (8 * ((n - 1) / 8) + (n - 1) % 8) d

/-- `SHORT_DELAY[lvl]` (rule R114). -/
def shortDelay (p : Params) (lvl : BitVec 2) : Nat :=
  match lvl.toNat with
  | 0 => p.shortDelay0
  | 1 => p.shortDelay1
  | 2 => p.shortDelay2
  | _ => p.shortDelay3

/-- The command byte is `SEARCH_ROM` or `ALARM_SEARCH` (rules R4, R215, R216). -/
def isSearchCommand (cmd : Byte) : Bool := cmd == searchRomCode || cmd == alarmSearchCode

/-- The pin mode `configure` gives (rule R101). -/
def CfgMode.pinMode : CfgMode → PinMode
  | .input => .input
  | .inputPullup => .inputPullup

/-- The status code `OK` (rule R241). -/
def statusOk : Byte := 0x00

/-- The status code of an error (rule R241). -/
def Err.code : Err → Byte
  | .initConflict => 0x01
  | .badCommand => 0x02
  | .arbitrationLost => 0x03
  | .longClockStretch => 0x04
  | .noAck => 0x05
  | .badCrc => 0x06
  | .pinFlapping => 0x07
  | .noDevice => 0x08
  | .stopOutsideTransaction => 0x09
  | .rootNotEmpty => 0x0A
  | .outOfMemory => 0x0B

/-- The reason code of a usage fault (rule R245). -/
def Usage.code : Usage → Byte
  | .illegalOpcode => 0x01
  | .reservedField => 0x02
  | .twNotInit => 0x03
  | .twNotInTx => 0x04
  | .badPin => 0x05
  | .samePin => 0x06
  | .pinOwned => 0x07
  | .owNotInit => 0x08
  | .lenTooBig => 0x09
  | .txUnwritten => 0x0A
  | .badIndex => 0x0B
  | .absentRead => 0x0C

end Sys2Proof.Machine
end

