-- ==== Sys2Proof/Machine/Ops.lean ====
section
/-! DEFINITION. The named operations every command is built from: keyed data, pins, the bus's answers, events, the
buffers and lists, and how a command ends (rules R6, R240, R244). -/

namespace Sys2Proof.Machine

/-! ## Keyed data in canonical form -/

/-- The datum at key `k`, if one is listed. -/
def Cells.get? {α : Type} : Cells α → Nat → Option α
  | [], _ => none
  | (a, v) :: rest, k => if a = k then some v else Cells.get? rest k

/-- The datum at key `k` made `v`, keys staying in rising order. -/
def Cells.put {α : Type} : Cells α → Nat → α → Cells α
  | [], k, v => [(k, v)]
  | (a, u) :: rest, k, v =>
    if k < a then (k, v) :: (a, u) :: rest
    else if k = a then (k, v) :: rest
    else (a, u) :: Cells.put rest k v

/-- No datum at key `k` any more. -/
def Cells.erase {α : Type} : Cells α → Nat → Cells α
  | [], _ => []
  | (a, u) :: rest, k => if a = k then Cells.erase rest k else (a, u) :: Cells.erase rest k

/-- Keys strictly rising. -/
abbrev Cells.Sorted {α : Type} (m : Cells α) : Prop := m.Pairwise (fun x y => x.1 < y.1)

/-- The byte at index `i` of a buffer, none where nothing has been written since reset (rule R58). -/
def Memory.read (m : Memory) (i : Nat) : Option Byte := Cells.get? m i

/-- One byte written (rule R51). -/
def Memory.write (m : Memory) (i : Nat) (b : Byte) : Memory := Cells.put m i b

/-- The canonical form: indices strictly rising. An unlisted byte is absent, which no entry is. -/
abbrev Memory.wf (m : Memory) : Prop := Cells.Sorted m

/-! ## Pins, the bus and events as updates of the state -/

/-- Pin `p` of a pin map that lists only pins that differ from reset. -/
def pinOf (m : Cells Pin) (p : PinId) : Pin := (Cells.get? m p.toNat).getD Pin.atReset

/-- `PIN_DRIVE[p]` and `PIN_MODE[p]` (rule R36). -/
def State.pin (s : State) (p : PinId) : Pin := pinOf s.pins p

/-- A pin map with pin `p` made `v`, listing only pins that differ from reset. -/
def putPin (m : Cells Pin) (p : PinId) (v : Pin) : Cells Pin :=
  if v = Pin.atReset then Cells.erase m p.toNat else Cells.put m p.toNat v

/-- Pin `p` made `v`. -/
def State.setPin (s : State) (p : PinId) (v : Pin) : State := { s with pins := putPin s.pins p v }

/-- One event appended to the trace (rule R100). -/
def State.emit (s : State) (e : Event) : State := { s with events := e :: s.events }

/-- The level the bus presents at the next sample: the next listed answer, or the free level (rules R104, R106). -/
def State.level (s : State) : Bool := s.bus.headD (Config.busLevel s.draws)

/-- One answer of the bus used up (rule R104). -/
def State.drawn (s : State) : State := { s with bus := s.bus.tail, draws := s.draws + 1 }

/-! ## The shape of a command (rule R6) -/

/-- A piece of pseudocode: it runs on the state and ends with a value or a raise; every write made before a raise
stands (rule R240). -/
abbrev Op (α : Type) := EStateM Raise State α

/-- Read something off the state. -/
def look {α : Type} (f : State → α) : Op α := fun s => .ok (f s) s

/-- Update the state. -/
def update (f : State → State) : Op Unit := fun s => .ok () (f s)

/-- `raise Err(E)` (rules R6 and R240). -/
def raiseErr {α : Type} (e : Err) : Op α := fun s => .error (.err e) s

/-- `if c: raise Err(E)`. -/
def errIf (c : Bool) (e : Err) : Op Unit := fun s => if c then .error (.err e) s else .ok () s

/-- `if c: raise UsageFault(u)`, `c` read off the state (rule R6). -/
def usageIf (c : State → Bool) (u : Usage) : Op Unit :=
  fun s => if c s then .error (.usage u) s else .ok () s

/-- `try x` with every raise handed back as a value (rule R6's `try X() catch E`). -/
def attempt {α : Type} (x : Op α) : Op (Except Raise α) := fun s =>
  match x s with
  | .ok a t => .ok (.ok a) t
  | .error r t => .ok (.error r) t

/-- `raise` a caught raise again. -/
def reraise {α : Type} (r : Raise) : Op α := fun s => .error r s

/-! ## The pin port and the delay port -/

/-- `Cfg(p, m)`: `PIN_MODE[p] <- m`, `PIN_DRIVE[p] <- REL` (rule R101). -/
def cfg (p : PinId) (m : CfgMode) : Op Unit :=
  update fun s => (s.setPin p ⟨.rel, m.pinMode⟩).emit (.cfg p m)

/-- `Low(p)`: `PIN_DRIVE[p] <- LOW`, the mode unchanged (rule R102). -/
def low (p : PinId) : Op Unit :=
  update fun s => (s.setPin p ⟨.low, (s.pin p).mode⟩).emit (.low p)

/-- `Rel(p)`: `PIN_DRIVE[p] <- REL`, the mode unchanged (rule R103). -/
def rel (p : PinId) : Op Unit :=
  update fun s => (s.setPin p ⟨.rel, (s.pin p).mode⟩).emit (.rel p)

/-- `Sample(p)`: the level the bus presents, recorded in the trace (rule R104). -/
def sample (p : PinId) : Op Bool :=
  fun s => .ok s.level (s.drawn.emit (.sample p s.level))

/-- `Wait(n)`, recorded also for `n = 0` (rule R105). -/
def wait (n : Nat) : Op Unit := update fun s => s.emit (.wait n)

/-! ## Registers, buffers and lists -/

/-- `RESULT <- v` (rule R25). -/
def State.setResult (s : State) (v : Byte) : State := { s with result := v }

/-- `RXBUF[i] <- b` (rules R6 and R51). -/
def State.writeRx (s : State) (i : Nat) (b : Byte) : State := { s with rxbuf := Memory.write s.rxbuf i b }

/-- `TW_DEVLIST` made `l` (rules R54 and R55). -/
def State.setTwDevList (s : State) (l : List Byte) : State := { s with twDevList := l }

/-- `OW_DEVLIST` made `l` (rules R54 and R55). -/
def State.setOwDevList (s : State) (l : List OwRecord) : State := { s with owDevList := l }

/-- `RESULT <- v`. -/
def setResult (v : Byte) : Op Unit := update (·.setResult v)

/-- `RXBUF[i] <- b`. -/
def writeRx (i : Nat) (b : Byte) : Op Unit := update (·.writeRx i b)

/-- `TXBUF[i]`; absent, it is the usage fault `TX_UNWRITTEN` (rule R58). The checks of rules R130 and R180 come
before, so no command reaches an absent byte here. -/
def readTx (i : Nat) : Op Byte := fun s =>
  match Memory.read s.txbuf i with
  | some b => .ok b s
  | none => .error (.usage .txUnwritten) s

/-- A byte of `TXBUF[0 .. n-1]` has not been written by the host since reset (rules R130 and R180). -/
def State.txUnwritten (s : State) (n : Nat) : Bool :=
  (List.range n).any fun i => (Memory.read s.txbuf i).isNone

/-! ## How a command ends -/

/-- Issue: the trace of the command starts empty (rule R100). -/
def State.begin (s : State) : State := { s with events := [] }

/-- Completion with a status code: `STATUS` is written once, the host's index moves by 1, and the command's trace,
status and result are observed (rules R23, R24, R100, R240). -/
def State.complete (s : State) (code : Byte) : State :=
  { s with
    status := code
    hpc := s.hpc + 1
    history := ⟨s.trace, code, s.result⟩ :: s.history }

/-- Taking a usage fault: `FAULTED <- 1`, and `FAULT_REASON <- u` if `FAULTED` was 0; `STATUS` and `RESULT` stay, the
command does not complete (rules R26 and R244). There is no return from one but a reset (rules R250 and R271). -/
def State.raiseUsage (s : State) (u : Usage) : State :=
  { s with
    faulted := true
    faultReason := if s.faulted then s.faultReason else u.code }

/-- One command on the command port: none while `FAULTED = 1` (rule R244); else it runs to completion, an
architectural error being a completion with its code (rule R240), or takes a usage fault. -/
def runCommand (body : Op Unit) (s : State) : Host.Outcome State Fault Refusal :=
  if s.faulted then .fault .blockFaulted
  else
    match body s.begin with
    | .ok _ t => .next (t.complete statusOk)
    | .error (.err e) t => .next (t.complete e.code)
    | .error (.usage u) t => .next (t.raiseUsage u)

end Sys2Proof.Machine
end

