-- ==== Sys2Proof/Machine/Flags.lean ====
section
/-! DEFINITION. The flags and how each is set: `TW_IN_TX`, `TW_INITIALIZED`, `OW_LAST_DEV`, and the checks that read
flags and modes before a command runs (rules R130 and R180). -/

namespace Sys2Proof.Machine

/-- `TW_IN_TX <- b` (rule R29). -/
def State.setInTx (s : State) (b : Bool) : State := { s with tw := { s.tw with inTx := b } }

/-- `TW_IN_TX <- b`. -/
def setInTx (b : Bool) : Op Unit := update (·.setInTx b)

/-- `TW_SCL_PIN <- c; TW_SDA_PIN <- d` (rule R131). -/
def State.setTwPins (s : State) (c d : PinId) : State := { s with tw := { s.tw with sclPin := c, sdaPin := d } }

/-- `TW_INITIALIZED <- 1` (rule R27). -/
def State.setInitialized (s : State) : State := { s with tw := { s.tw with initialized := true } }

/-- `SpeedSet(lvl)`: the three speed registers together (rules R31 and R114). -/
def State.speedSet (s : State) (lvl : BitVec 2) : State :=
  { s with
    tw :=
      { s.tw with
        speed := lvl
        short := BitVec.ofNat 32 (shortDelay s.params lvl)
        long := BitVec.ofNat 32 (2 * shortDelay s.params lvl)
        speedWritten := true } }

/-- The cursor's three registers written together (rule R35). -/
def State.setCursor (s : State) (c : Cursor) : State := { s with cursor := c }

/-- `OW_LAST_DEV` of a pass whose last zero is `z`: no conflict remained unexplored (rules R34 and R214). -/
def lastDevFlag (z : Nat) : Bool := z == 0

/-- The cursor a seed leaves (rule R212). -/
def Cursor.seed : Cursor := ⟨0, 0, false⟩

/-- The cursor a successful pass leaves (rule R214). -/
def Cursor.after (rom : Rom) (z : Nat) : Cursor := ⟨rom, BitVec.ofNat 8 z, lastDevFlag z⟩

/-- A pin operand is out of range (rules R131 and R180: `p >= NUM_PINS`). -/
def State.badPin (s : State) (p : PinId) : Bool := s.params.numPins ≤ p.toNat

/-- The pin belongs to the initialised two-wire engine (rule R180, check 2). -/
def State.twOwns (s : State) (p : PinId) : Bool :=
  s.tw.initialized && (p == s.tw.sclPin || p == s.tw.sdaPin)

/-- `PIN_MODE[p] = INPUT_PULLUP` (rules R131 and R180). -/
def State.isOwPin (s : State) (p : PinId) : Bool := (s.pin p).mode == .inputPullup

/-- Rule R130, check 1. -/
def twReady : Op Unit := usageIf (fun s => !s.tw.initialized) .twNotInit

/-- Rule R130, checks 1 and 2. -/
def twInTransaction : Op Unit := do
  twReady
  usageIf (fun s => !s.tw.inTx) .twNotInTx

/-- Rule R180, checks 1 and 2: all that `OW_INIT` is checked for. -/
def owPinFree (p : PinId) : Op Unit := do
  usageIf (·.badPin p) .badPin
  usageIf (·.twOwns p) .pinOwned

/-- Rule R180, checks 1 to 3. -/
def owReady (p : PinId) : Op Unit := do
  owPinFree p
  usageIf (fun s => !s.isOwPin p) .owNotInit

end Sys2Proof.Machine
end

