-- ==== Sys2Proof/Machine/OneWireBus.lean ====
section
/-! DEFINITION. The one-wire slots, reset and presence, bytes (rules R182 and R183), and the CRC8 (rules R190 and
R192). -/

namespace Sys2Proof.Machine

/-- `OWWriteBit(p, b)`: a 1 is short low and long release, a 0 long low and short release (rule R182). -/
def owWriteBit (p : PinId) (b : Bool) : Op Unit := do
  let q ← look (·.params)
  low p
  wait (if b then q.owW1Low else q.owW0Low)
  rel p
  wait (if b then q.owW1Rel else q.owW0Rel)

/-- `OWReadBit(p)` (rule R182). -/
def owReadBit (p : PinId) : Op Bool := do
  let q ← look (·.params)
  low p
  wait q.owRLow
  rel p
  wait q.owRWait
  let v ← sample p
  wait q.owRIdle
  pure v

/-- Bits `i` up to 7 written, `n` of them (rules R57 and R182). -/
def owWriteBits (p : PinId) (x : Byte) : (n i : Nat) → Op Unit
  | 0, _ => pure ()
  | n + 1, i => do
    owWriteBit p (x.getLsbD i)
    owWriteBits p x n (i + 1)

/-- `OWWriteByte(p, x)`, LSB first (rule R182). -/
def owWriteByte (p : PinId) (x : Byte) : Op Unit := owWriteBits p x 8 0

/-- Bits `i` up to 7 received into `x`, `n` of them (rules R57 and R182). -/
def owReadBits (p : PinId) : (n i : Nat) → Byte → Op Byte
  | 0, _, x => pure x
  | n + 1, i, x => do
    let b ← owReadBit p
    owReadBits p n (i + 1) (setBit x i b)

/-- `OWReadByte(p)`, LSB first (rule R182). -/
def owReadByte (p : PinId) : Op Byte := owReadBits p 8 0 0x00

/-- At most `n` further presence polls after `k`, ending at the first that reads 0: whether presence was seen, and
how many polls were made in all (rule R183). -/
def presencePolls (p : PinId) : (n k : Nat) → Op (Bool × Nat)
  | 0, k => pure (false, k)
  | n + 1, k => do
    wait (← look (·.params.owPresInterval))
    let v ← sample p
    if v then presencePolls p n (k + 1) else pure (true, k + 1)

/-- `OWReset(p)`: whether presence was detected (rule R183). -/
def owReset (p : PinId) : Op Bool := do
  let q ← look (·.params)
  low p
  wait q.owRstLow
  rel p
  let (present, k) ← presencePolls p q.owPresPolls 0
  wait (q.owRstHigh - k * q.owPresInterval)
  pure present

/-- The bytes of a list written in order (rules R189 and R193). -/
def owWriteList (p : PinId) : List Byte → Op Unit
  | [] => pure ()
  | x :: rest => do
    owWriteByte p x
    owWriteList p rest

/-- `TXBUF[i ..]`, `n` bytes, written in increasing index (rule R189). -/
def owWriteTx (p : PinId) : (n i : Nat) → Op Unit
  | 0, _ => pure ()
  | n + 1, i => do
    owWriteByte p (← readTx i)
    owWriteTx p n (i + 1)

/-- `n` bytes read into `RXBUF[i ..]`; the bytes read (rules R188 and R195). -/
def owReadRx (p : PinId) : (n i : Nat) → Op (List Byte)
  | 0, _ => pure []
  | n + 1, i => do
    let x ← owReadByte p
    writeRx i x
    let rest ← owReadRx p n (i + 1)
    pure (x :: rest)

/-- `n` rounds of rule R190's loop on the running value `c` and the byte `x`. -/
def crcRounds : Nat → Byte → Byte → Byte
  | 0, c, _ => c
  | n + 1, c, x =>
    let mix := (c ^^^ x).getLsbD 0
    let c' := c >>> 1
    crcRounds n (if mix then c' ^^^ 0x8C#8 else c') (x >>> 1)

/-- `crc8(c, x)` (rule R190). -/
def crc8 (c x : Byte) : Byte := crcRounds 8 c x

/-- `CRC(m)`, the running CRC of a byte string from 0x00 (rule R190). -/
def crcOf (m : List Byte) : Byte := m.foldl crc8 0x00

/-- A ROM is CRC-valid (rule R192). -/
def crcValid (rom : Rom) : Bool := crcOf (romBytes rom) == 0x00

/-- `MatchRom(p, rom)` (rule R193). -/
def matchRom (p : PinId) (rom : List Byte) : Op Unit := do
  owWriteByte p matchRomCode
  owWriteList p rom

end Sys2Proof.Machine
end

