-- ==== Sys2Proof/Machine/OneWire.lean ====
section
/-! DEFINITION. The one-wire commands but the search, one meaning each (42_onewire.md). -/

namespace Sys2Proof.Machine

/-- `OW_INIT p` (rule R181). -/
def execOwInit (p : PinId) (s : State) : Host.Outcome State Fault Refusal :=
  runCommand (do
    owPinFree p
    cfg p .inputPullup) s

/-- `OW_RESET p` (rule R183). -/
def execOwReset (p : PinId) (s : State) : Host.Outcome State Fault Refusal :=
  runCommand (do
    owReady p
    setResult (zext8 (← owReset p))) s

/-- `OW_READ_BIT p` (rule R184). -/
def execOwReadBit (p : PinId) (s : State) : Host.Outcome State Fault Refusal :=
  runCommand (do
    owReady p
    setResult (zext8 (← owReadBit p))) s

/-- `OW_WRITE_BIT p, b` (rule R185). -/
def execOwWriteBit (p : PinId) (b : Bool) (s : State) : Host.Outcome State Fault Refusal :=
  runCommand (do
    owReady p
    owWriteBit p b) s

/-- `OW_READ p` (rule R186). -/
def execOwRead (p : PinId) (s : State) : Host.Outcome State Fault Refusal :=
  runCommand (do
    owReady p
    setResult (← owReadByte p)) s

/-- `OW_WRITE p, x` (rule R187). -/
def execOwWrite (p : PinId) (x : Byte) (s : State) : Host.Outcome State Fault Refusal :=
  runCommand (do
    owReady p
    owWriteByte p x) s

/-- `OW_READ_BYTES p, len` (rules R180 and R188). -/
def execOwReadBytes (p : PinId) (len : Byte) (s : State) : Host.Outcome State Fault Refusal :=
  runCommand (do
    owReady p
    usageIf (fun s => s.params.rxbufSize < len.toNat) .lenTooBig
    let _ ← owReadRx p len.toNat 0
    pure ()) s

/-- `OW_WRITE_BYTES p, len` (rules R180 and R189). -/
def execOwWriteBytes (p : PinId) (len : Byte) (s : State) : Host.Outcome State Fault Refusal :=
  runCommand (do
    owReady p
    usageIf (fun s => s.params.txbufSize < len.toNat) .lenTooBig
    usageIf (·.txUnwritten len.toNat) .txUnwritten
    owWriteTx p len.toNat 0) s

/-- `OW_CRC8 c, x` (rule R191). -/
def execOwCrc8 (c x : Byte) (s : State) : Host.Outcome State Fault Refusal :=
  runCommand (setResult (crc8 c x)) s

/-- `OW_MATCH_ROM p` (rules R180 and R193). -/
def execOwMatchRom (p : PinId) (s : State) : Host.Outcome State Fault Refusal :=
  runCommand (do
    owReady p
    usageIf (·.txUnwritten 8) .txUnwritten
    owWriteByte p matchRomCode
    owWriteTx p 8 0) s

/-- `OW_MATCH_DEVICE i` (rule R194). -/
def execOwMatchDevice (idx : Byte) (s : State) : Host.Outcome State Fault Refusal :=
  runCommand (do
    let found ← look (·.owDevList[idx.toNat]?)
    match found with
    | none => reraise (.usage .badIndex)
    | some r => do
      owReady r.pin
      matchRom r.pin (romBytes r.rom)) s

/-- `OW_READ_ROM p` (rule R195). -/
def execOwReadRom (p : PinId) (s : State) : Host.Outcome State Fault Refusal :=
  runCommand (do
    owReady p
    owWriteByte p readRomCode
    let rom ← owReadRx p 8 0
    errIf (crcOf rom != 0x00) .badCrc) s

end Sys2Proof.Machine
end

