-- ==== Sys2Proof/Machine/RomSearch.lean ====
section
/-! DEFINITION. The ROM search unit and its commands (43_rom_search.md). -/

namespace Sys2Proof.Machine

/-- `Direction(n, id, cmp)` with the cursor as it stood when the pass began: the direction and whether there was a
conflict, or none for `NoDevice` (rule R211). -/
def direction (c : Cursor) (n : Nat) (id cmp : Bool) : Option (Bool × Bool) :=
  match id, cmp with
  | true, true => none
  | true, false => some (true, false)
  | false, true => some (false, false)
  | false, false =>
    if n < c.lastDisc.toNat then some (romBit c.prevRom n, true)
    else if n = c.lastDisc.toNat then some (true, true)
    else some (false, true)

/-- The last zero after a step at position `n` (rules R211 and R213: a conflict at which `d = 0` records `n`). -/
def lastZeroAfter (z n : Nat) (d conflict : Bool) : Nat := if conflict && !d then n else z

/-- `k` steps of a pass from position `n` on: the ROM assembled and the last zero (rule R213). -/
def searchSteps (p : PinId) (c : Cursor) : (k n : Nat) → Rom → Nat → Op (Rom × Nat)
  | 0, _, rom, z => pure (rom, z)
  | k + 1, n, rom, z => do
    let id ← owReadBit p
    let cmp ← owReadBit p
    match direction c n id cmp with
    | none => raiseErr .noDevice
    | some (d, conflict) => do
      owWriteBit p d
      searchSteps p c k (n + 1) (setRomBit rom n d) (lastZeroAfter z n d conflict)

/-- `Seed()` (rule R212). -/
def seed : Op Unit := update (·.setCursor Cursor.seed)

/-- `SearchPass(p, cmd)` (rules R213 and R214). -/
def searchPass (p : PinId) (cmd : Byte) : Op Rom := do
  let c ← look (·.cursor)
  let present ← owReset p
  errIf (!present) .noDevice
  owWriteByte p cmd
  let (rom, z) ← searchSteps p c 64 1 0 0
  errIf (rom == 0) .pinFlapping
  errIf (!crcValid rom) .badCrc
  update (·.setCursor (Cursor.after rom z))
  pure rom

/-- `OW_DEVCOUNT <- 0`, then the caught raise again (rules R55 and R216). -/
def freeOwAndRaise (r : Raise) : Op Unit := do
  update (·.setOwDevList [])
  reraise r

/-- The passes of a search while `room` records still fit the list, ending at the pass that sets `OW_LAST_DEV` or at
an error (rules R216 and R219). -/
def searchLoop (p : PinId) (cmd : Byte) : (room : Nat) → Op Unit
  | 0 => do
    let r ← attempt (searchPass p cmd)
    match r with
    | .error e => freeOwAndRaise e
    | .ok _ => freeOwAndRaise (.err .outOfMemory)
  | room + 1 => do
    let r ← attempt (searchPass p cmd)
    match r with
    | .error e => freeOwAndRaise e
    | .ok rom => do
      update fun s => s.setOwDevList (s.owDevList ++ [⟨rom, p⟩])
      let last ← look (·.cursor.lastDev)
      if last then pure () else searchLoop p cmd room

/-- `Search(p, cmd)` (rule R216). The list is empty when the passes begin, so `MAX_OW_DEVICES` records fit it. -/
def search (p : PinId) (cmd : Byte) : Op Unit := do
  owReady p
  errIf (!isSearchCommand cmd) .badCommand
  let used ← look (·.owDevCount)
  errIf (used != 0) .rootNotEmpty
  seed
  searchLoop p cmd (← look (·.params.maxOwDevices))

/-- The low 8 bits of `OW_DEVCOUNT` (rules R216 and R217). -/
def owCountLow (s : State) : Byte := BitVec.ofNat 8 s.owDevCount

/-- `OW_SEARCH_PASS p, cmd, s` (rule R215). -/
def execOwSearchPass (p : PinId) (cmd : Byte) (sd : Bool) (s : State) : Host.Outcome State Fault Refusal :=
  runCommand (do
    owReady p
    errIf (!isSearchCommand cmd) .badCommand
    if sd then seed else pure ()
    let _ ← searchPass p cmd
    pure ()) s

/-- `OW_SEARCH p, cmd` (rule R216). -/
def execOwSearch (p : PinId) (cmd : Byte) (s : State) : Host.Outcome State Fault Refusal :=
  runCommand (do
    search p cmd
    setResult (← look owCountLow)) s

/-- `OW_SEARCH_FAMILY p, cmd, f` (rule R217). -/
def execOwSearchFamily (p : PinId) (cmd f : Byte) (s : State) : Host.Outcome State Fault Refusal :=
  runCommand (do
    search p cmd
    update fun s => s.setOwDevList (s.owDevList.filter fun r => romByte r.rom 0 == f)
    let kept ← look (·.owDevCount)
    errIf (kept == 0) .noDevice
    setResult (← look owCountLow)) s

/-- `OW_FREE` (rule R218). -/
def execOwFree (s : State) : Host.Outcome State Fault Refusal :=
  runCommand (update (·.setOwDevList [])) s

end Sys2Proof.Machine
end

