-- ==== Sys2Proof/Machine/TwoWireBus.lean ====
section
/-! DEFINITION. The two-wire primitives (40_bus_primitives.md), bus conditions and byte transfers (rules R110 to
R142). -/

namespace Sys2Proof.Machine

/-- `Low(SCL)` (rule R7). -/
def lowScl : Op Unit := do low (← look (·.tw.sclPin))
/-- `Rel(SCL)`. -/
def relScl : Op Unit := do rel (← look (·.tw.sclPin))
/-- `Sample(SCL)`. -/
def sampleScl : Op Bool := do sample (← look (·.tw.sclPin))
/-- `Low(SDA)`. -/
def lowSda : Op Unit := do low (← look (·.tw.sdaPin))
/-- `Rel(SDA)`. -/
def relSda : Op Unit := do rel (← look (·.tw.sdaPin))
/-- `Sample(SDA)`. -/
def sampleSda : Op Bool := do sample (← look (·.tw.sdaPin))
/-- `Wait(S)`, `S` being `TW_SHORT` as it stands (rule R7). -/
def waitShort : Op Unit := do wait (← look (·.tw.short.toNat))
/-- `Wait(L)`, `L` being `TW_LONG` as it stands (rule R7). -/
def waitLong : Op Unit := do wait (← look (·.tw.long.toNat))

/-- `FailFast()` (rule R120). -/
def failFast : Op Unit := do
  relScl
  relSda
  setInTx false

/-- At most `k` polls of the clock, ending at the first that reads 1 (rule R110). -/
def pollScl : Nat → Op Bool
  | 0 => pure false
  | k + 1 => do
    let v ← sampleScl
    if v then pure true else pollScl k

/-- `StretchWait()` (rule R110). -/
def stretchWait : Op Unit := do
  let up ← pollScl (← look (·.tw.maxStretch.toNat))
  if up then pure ()
  else do
    failFast
    raiseErr .longClockStretch

/-- `SetSDA(b)` (rule R111). -/
def setSda (b : Bool) : Op Unit := if b then relSda else lowSda

/-- The data line sampled when `smp` is `SAMPLE`; 1 when it is `NOSAMPLE` (rule R112). -/
def tickSample (smp : Bool) : Op Bool := if smp then sampleSda else pure true

/-- `Tick(smp)`, `true` being `SAMPLE` (rule R112). -/
def tick (smp : Bool) : Op Bool := do
  lowScl
  waitShort
  relScl
  stretchWait
  waitLong
  let v ← tickSample smp
  lowScl
  waitShort
  pure v

/-- `PutBit(b)` (rule R113). -/
def putBit (b : Bool) : Op Unit := do
  setSda b
  let _ ← tick false
  pure ()

/-- `GetBit()` (rule R113). -/
def getBit : Op Bool := do
  relSda
  tick true

/-- Low the data line while the clock is high, then the clock, then release data: the end of both STARTs (rules
R133 and R134). -/
def startCondition : Op Unit := do
  waitShort
  lowSda
  waitShort
  lowScl
  waitShort
  relSda

/-- `StartIdle()` (rule R133). -/
def startIdle : Op Unit := do
  relSda
  relScl
  waitShort
  let v ← sampleSda
  if v then do
    stretchWait
    startCondition
    setInTx true
  else do
    failFast
    raiseErr .arbitrationLost

/-- `StartRepeated()` (rule R134). -/
def startRepeated : Op Unit := do
  relSda
  waitShort
  relScl
  stretchWait
  startCondition

/-- `Start()` (rules R133 and R134). -/
def start : Op Unit := do
  let inTx ← look (·.tw.inTx)
  if inTx then startRepeated else startIdle

/-- `Stop()` (rule R135). -/
def stop : Op Unit := do
  let inTx ← look (·.tw.inTx)
  errIf (!inTx) .stopOutsideTransaction
  lowSda
  waitShort
  relScl
  stretchWait
  waitShort
  relSda
  waitShort
  setInTx false

/-- Bits `k - 1` down to 0 of `x` put on the line (rules R56 and R136). -/
def putBits (x : Byte) : Nat → Op Unit
  | 0 => pure ()
  | k + 1 => do
    putBit (x.getLsbD k)
    putBits x k

/-- `WriteByte(x)`: the acknowledge level (rule R136). -/
def writeByte (x : Byte) : Op Bool := do
  putBits x 8
  getBit

/-- Bits `k - 1` down to 0 received into `x` (rules R56 and R137). -/
def getBits : Nat → Byte → Op Byte
  | 0, x => pure x
  | k + 1, x => do
    let b ← getBit
    getBits k (setBit x k b)

/-- `ReadByte(k)` (rule R137). -/
def readByte (k : Bool) : Op Byte := do
  let x ← getBits 8 0x00
  putBit k
  relSda
  pure x

/-- What follows a NACK of an address byte (rules R140 and D21): a stop when `son` is 1, whose clock-stretch failure
is not reported, then `NoAck`. -/
def nackAddress (son : Bool) : Op Unit :=
  if son then do
    let r ← attempt stop
    match r with
    | .ok _ => raiseErr .noAck
    | .error (.err .longClockStretch) => raiseErr .noAck
    | .error e => reraise e
  else raiseErr .noAck

/-- `StartRW(ab, son)` (rule R140). -/
def startRw (ab : Byte) (son : Bool) : Op Unit := do
  start
  let a ← writeByte ab
  if a then nackAddress son else pure ()

/-- A NACK of a data byte: fail-fast, then `NoAck` (rules R138, R141 and R247). -/
def nackData : Op Unit := do
  failFast
  raiseErr .noAck

/-- `StartWrite(a, r)` (rule R141). -/
def startWrite (a : BitVec 7) (r : Byte) : Op Unit := do
  startRw (addressByte a false) true
  let k ← writeByte r
  if k then nackData else pure ()

/-- `TXBUF[i ..]`, `n` bytes, written in increasing index; the first NACK aborts (rule R138). -/
def writeTxBytes : (n i : Nat) → Op Unit
  | 0, _ => pure ()
  | n + 1, i => do
    let x ← readTx i
    let a ← writeByte x
    if a then nackData else writeTxBytes n (i + 1)

/-- `n` bytes read into `RXBUF[i ..]`, ACK after every byte except NACK after the last (rule R139). -/
def readRxBytes : (n i : Nat) → Op Unit
  | 0, _ => pure ()
  | n + 1, i => do
    let x ← readByte (n == 0)
    writeRx i x
    readRxBytes n (i + 1)

/-- `TW_DEVCOUNT <- 0`, then the caught raise again (rules R55 and R143). -/
def freeTwAndRaise (r : Raise) : Op Unit := do
  update (·.setTwDevList [])
  reraise r

/-- A device answered: stop the bus, then append the address or fail with `OutOfMemory` (rules R54 and R143). -/
def scanFound (a : BitVec 7) : Op Unit := do
  let r ← attempt stop
  match r with
  | .error e => freeTwAndRaise e
  | .ok _ => do
    let full ← look fun s => s.twDevList.length == s.params.maxTwDevices
    if full then freeTwAndRaise (.err .outOfMemory)
    else update fun s => s.setTwDevList (s.twDevList ++ [a.setWidth 8])

/-- One address of the scan (rule R143). -/
def scanProbe (a : BitVec 7) : Op Unit := do
  let skip ← look (·.params.reservedAddrs.contains a)
  if skip then pure ()
  else do
    let r ← attempt (startRw (addressByte a false) true)
    match r with
    | .error (.err .noAck) => pure ()
    | .error e => freeTwAndRaise e
    | .ok _ => scanFound a

/-- The addresses of a list probed in order (rule R143). -/
def scanProbes : List (BitVec 7) → Op Unit
  | [] => pure ()
  | a :: rest => do
    scanProbe a
    scanProbes rest

/-- The addresses 1 to 127, ascending (rules R143 and R144). -/
def scanAddresses : List (BitVec 7) := (List.range' 1 127).map (BitVec.ofNat 7)

end Sys2Proof.Machine
end

