-- ==== Sys2Proof/Machine/TwoWire.lean ====
section
/-! DEFINITION. The two-wire commands, one meaning each (41_twowire.md). -/

namespace Sys2Proof.Machine

/-- What `TW_INIT` does on an engine not yet initialised, once its checks have passed (rule R131). -/
def twConfigure (c d : PinId) : Op Unit := do
  cfg c .input
  cfg d .input
  update (·.setTwPins c d)
  update fun s => s.speedSet s.params.defaultSpeed
  setInTx false
  update (·.setInitialized)

/-- `TW_INIT c, d` (rule R131). -/
def execTwInit (c d : PinId) (s : State) : Host.Outcome State Fault Refusal :=
  runCommand (do
    usageIf (fun s => s.badPin c || s.badPin d) .badPin
    usageIf (fun _ => c == d) .samePin
    let tw ← look (·.tw)
    if tw.initialized then errIf (!(c == tw.sclPin && d == tw.sdaPin)) .initConflict
    else do
      usageIf (fun s => s.isOwPin c || s.isOwPin d) .pinOwned
      twConfigure c d) s

/-- `TW_SET_SPEED lvl` (rule R132). -/
def execTwSetSpeed (lvl : BitVec 2) (s : State) : Host.Outcome State Fault Refusal :=
  runCommand (update (·.speedSet lvl)) s

/-- `TW_START` (rules R133 and R134). -/
def execTwStart (s : State) : Host.Outcome State Fault Refusal :=
  runCommand (do
    twReady
    start) s

/-- `TW_STOP` (rule R135), exempt from the initialisation check (rule R130). -/
def execTwStop (s : State) : Host.Outcome State Fault Refusal :=
  runCommand stop s

/-- `TW_WRITE_BYTE x` (rule R136). -/
def execTwWriteByte (x : Byte) (s : State) : Host.Outcome State Fault Refusal :=
  runCommand (do
    twInTransaction
    let a ← writeByte x
    setResult (zext8 a)) s

/-- `TW_READ_BYTE k` (rule R137). -/
def execTwReadByte (k : Bool) (s : State) : Host.Outcome State Fault Refusal :=
  runCommand (do
    twInTransaction
    let x ← readByte k
    setResult x) s

/-- `TW_WRITE_BYTES len` (rules R130 and R138). -/
def execTwWriteBytes (len : Byte) (s : State) : Host.Outcome State Fault Refusal :=
  runCommand (do
    twInTransaction
    usageIf (fun s => s.params.txbufSize < len.toNat) .lenTooBig
    usageIf (·.txUnwritten len.toNat) .txUnwritten
    writeTxBytes len.toNat 0) s

/-- `TW_READ_BYTES len` (rules R130 and R139). -/
def execTwReadBytes (len : Byte) (s : State) : Host.Outcome State Fault Refusal :=
  runCommand (do
    twInTransaction
    usageIf (fun s => s.params.rxbufSize < len.toNat) .lenTooBig
    readRxBytes len.toNat 0) s

/-- `TW_START_RW ab, son` (rule R140). -/
def execTwStartRw (ab : Byte) (son : Bool) (s : State) : Host.Outcome State Fault Refusal :=
  runCommand (do
    twReady
    startRw ab son) s

/-- `TW_START_WRITE a, r` (rule R141). -/
def execTwStartWrite (a : BitVec 7) (r : Byte) (s : State) : Host.Outcome State Fault Refusal :=
  runCommand (do
    twReady
    startWrite a r) s

/-- `TW_START_READ a, r` (rule R142). -/
def execTwStartRead (a : BitVec 7) (r : Byte) (s : State) : Host.Outcome State Fault Refusal :=
  runCommand (do
    twReady
    startWrite a r
    startRw (addressByte a true) true) s

/-- `TW_SCAN` (rules R143 and R144). -/
def execTwScan (s : State) : Host.Outcome State Fault Refusal :=
  runCommand (do
    twReady
    update (·.setTwDevList [])
    scanProbes scanAddresses
    setResult (← look (·.twDevCount))) s

/-- `TW_FREE` (rule R145). -/
def execTwFree (s : State) : Host.Outcome State Fault Refusal :=
  runCommand (update (·.setTwDevList [])) s

end Sys2Proof.Machine
end

