-- ==== Sys2Proof/Machine/Dispatch.lean ====
section
/-! DEFINITION. One arm per command: the meaning it calls. -/

namespace Sys2Proof.Machine

def exec (i : Instr) (s : State) : Host.Outcome State Fault Refusal :=
  match i with
  | .twInit c d => Sys2Proof.Machine.execTwInit c d s
  | .twSetSpeed lvl => Sys2Proof.Machine.execTwSetSpeed lvl s
  | .twStart => Sys2Proof.Machine.execTwStart s
  | .twStop => Sys2Proof.Machine.execTwStop s
  | .twWriteByte x => Sys2Proof.Machine.execTwWriteByte x s
  | .twReadByte k => Sys2Proof.Machine.execTwReadByte k s
  | .twWriteBytes len => Sys2Proof.Machine.execTwWriteBytes len s
  | .twReadBytes len => Sys2Proof.Machine.execTwReadBytes len s
  | .twStartRw ab son => Sys2Proof.Machine.execTwStartRw ab son s
  | .twStartWrite a r => Sys2Proof.Machine.execTwStartWrite a r s
  | .twStartRead a r => Sys2Proof.Machine.execTwStartRead a r s
  | .twScan => Sys2Proof.Machine.execTwScan s
  | .twFree => Sys2Proof.Machine.execTwFree s
  | .owInit p => Sys2Proof.Machine.execOwInit p s
  | .owReset p => Sys2Proof.Machine.execOwReset p s
  | .owReadBit p => Sys2Proof.Machine.execOwReadBit p s
  | .owWriteBit p b => Sys2Proof.Machine.execOwWriteBit p b s
  | .owRead p => Sys2Proof.Machine.execOwRead p s
  | .owWrite p x => Sys2Proof.Machine.execOwWrite p x s
  | .owReadBytes p len => Sys2Proof.Machine.execOwReadBytes p len s
  | .owWriteBytes p len => Sys2Proof.Machine.execOwWriteBytes p len s
  | .owCrc8 c x => Sys2Proof.Machine.execOwCrc8 c x s
  | .owMatchRom p => Sys2Proof.Machine.execOwMatchRom p s
  | .owMatchDevice idx => Sys2Proof.Machine.execOwMatchDevice idx s
  | .owReadRom p => Sys2Proof.Machine.execOwReadRom p s
  | .owSearchPass p cmd sd => Sys2Proof.Machine.execOwSearchPass p cmd sd s
  | .owSearch p cmd => Sys2Proof.Machine.execOwSearch p cmd s
  | .owSearchFamily p cmd f => Sys2Proof.Machine.execOwSearchFamily p cmd f s
  | .owFree => Sys2Proof.Machine.execOwFree s

end Sys2Proof.Machine
end

