-- ==== Sys2Proof/Machine/HostPort.lean ====
section
/-! DEFINITION. What the host does to the block: presenting a command word, writing `TXBUF`, reading registers,
buffers and lists, and cycling the power (rules R60, R79, R90, R256). -/

namespace Sys2Proof.Machine

/-- A value of a register of one element, which is element 0. -/
def scalar (i v : Nat) : Option HostValue := if i = 0 then some (.value v) else none

/-- A value that is there only under a condition (rule R39: an unspecified register is absent). -/
def onlyIf (c : Bool) (v : Option HostValue) : Option HostValue := if c then v else none

/-- What the host reads as element `i` of `n`: none where the value is unspecified or absent (rules R39, R58, R60;
log 8). -/
def State.hostRead (s : State) (n : HostName) (i : Nat) : Option HostValue :=
  match n with
  | .status => scalar i s.status.toNat
  | .result => scalar i s.result.toNat
  | .faulted => scalar i s.faulted.toNat
  | .faultReason => scalar i s.faultReason.toNat
  | .twInitialized => scalar i s.tw.initialized.toNat
  | .twSclPin => onlyIf s.tw.initialized (scalar i s.tw.sclPin.toNat)
  | .twSdaPin => onlyIf s.tw.initialized (scalar i s.tw.sdaPin.toNat)
  | .twInTx => scalar i s.tw.inTx.toNat
  | .twMaxStretch => scalar i s.tw.maxStretch.toNat
  | .twSpeed => onlyIf s.tw.speedWritten (scalar i s.tw.speed.toNat)
  | .twShort => onlyIf s.tw.speedWritten (scalar i s.tw.short.toNat)
  | .twLong => onlyIf s.tw.speedWritten (scalar i s.tw.long.toNat)
  | .owPrevRom => onlyIf (i < 8) (some (.value (romByte s.cursor.prevRom i).toNat))
  | .owLastDisc => scalar i s.cursor.lastDisc.toNat
  | .owLastDev => scalar i s.cursor.lastDev.toNat
  | .twDevCount => scalar i s.twDevCount.toNat
  | .twDevList => s.twDevList[i]?.map fun b => .value b.toNat
  | .owDevCount => scalar i s.owDevCount
  | .owDevList => s.owDevList[i]?.map .record
  | .txbuf => none
  | .rxbuf => (Memory.read s.rxbuf i).map fun b => .value b.toNat

/-- The host reads: it sees the value, or, where the value is absent, takes the usage fault `ABSENT_READ` (rule
R245). `TXBUF` is not its to read (rule R50; log 9). -/
def hostReads (n : HostName) (i : Nat) (s : State) : Host.Outcome State Fault Refusal :=
  if n = .txbuf then .fault .txbufNotReadable
  else
    match s.hostRead n i with
    | some v => .next { s with hostSeen := v :: s.hostSeen }
    | none => .next (s.raiseUsage .absentRead)

/-- Bytes put into a buffer from index `i` on, in increasing index (rule R79). -/
def Memory.writeAll (m : Memory) (i : Nat) : List Byte → Memory
  | [] => m
  | b :: rest => Memory.writeAll (Memory.write m i b) (i + 1) rest

/-- The host writes `TXBUF[i ..]` (rule R79). A byte outside the buffer does not exist (rules R50 and R51; log 9). -/
def hostWritesTx (i : Byte) (bytes : List Byte) (s : State) : Host.Outcome State Fault Refusal :=
  if i.toNat + bytes.length ≤ s.params.txbufSize then
    .next { s with txbuf := Memory.writeAll s.txbuf i.toNat bytes }
  else .fault .txbufOutOfRange

/-- A power cycle: every piece of the block at its reset value, no event; what stands outside the block (its
parameters, the host, the bus and what has been observed) stays (rules R256 and R270; log 12). -/
def powerOn (s : State) : State :=
  { State.resetWith s.params with
    history := s.history
    hpc := s.hpc
    host := s.host
    hostSeen := s.hostSeen
    bus := s.bus
    draws := s.draws }

/-- The usage fault of a word that spells no command (rules R75 and R76). -/
def DecodeError.usage : DecodeError → Usage
  | .illegalOpcode => .illegalOpcode
  | .reservedField => .reservedField

/-- A word that spells no command: the usage fault, with no event (rules R75, R76, R246). -/
def rejectWord (e : DecodeError) (s : State) : Host.Outcome State Fault Refusal :=
  runCommand (reraise (.usage (DecodeError.usage e))) s

/-- A word on the command port, taken whole (rules R66 and R90). -/
def issueWord (w : Word) (s : State) : Host.Outcome State Fault Refusal :=
  match decode w with
  | .ok i => exec i s
  | .error e => rejectWord e s

/-- One action of the host. -/
def hostStep (a : HostAction) (s : State) : Host.Outcome State Fault Refusal :=
  match a with
  | .command w => issueWord w s
  | .writeTx i bytes => hostWritesTx i bytes s
  | .read n i => hostReads n i s
  | .powerCycle => .next (powerOn s)

/-- The host's next action taken off its list. -/
def State.withHost (s : State) (l : List HostAction) : State := { s with host := l }

end Sys2Proof.Machine
end

