-- ==== Sys2Proof/Machine/Step.lean ====
section
/-! DEFINITION. One step: the host's next action, or none (rules R20, R63, R271). -/

namespace Sys2Proof.Machine

/-- One step: the host's next action is taken off its list and happens; an idle block waits unchanged (rule R271,
log 5). -/
def step (s : State) : Host.Outcome State Fault Refusal :=
  match s.host with
  | [] => .next s
  | a :: rest => hostStep a (s.withHost rest)

/-- The word with the given low `nbits` bits put next on the command port, so that the next step takes it (log 3). -/
def State.withFetchWord (s : State) (nbits w : Nat) : State :=
  s.withHost (.command (BitVec.ofNat 32 (w % 2 ^ nbits)) :: s.host)

end Sys2Proof.Machine
end

