-- ==== Sys2Proof/Safety.lean ====
section
/-! DEFINITION. The terms claims are made in: what a completed command leaves, what it keeps, the invariants of rule
R38 and the rules around it, what a trace says about the pins, and when a command takes a usage fault. -/

namespace Sys2Proof.Machine

/-! ## What a command leaves and keeps -/

/-- The command completed with the given code, result and trace: `STATUS` written once, the host's index moved by 1,
the completion observed, no usage fault taken (rules R23, R24, R26, R100, R240). -/
def Completes (s t : State) (code result : Byte) (trace : List Event) : Prop :=
  t.status = code ∧ t.result = result ∧ t.trace = trace ∧ t.hpc = s.hpc + 1 ∧
  t.history = ⟨trace, code, result⟩ :: s.history ∧ t.faulted = s.faulted ∧ t.faultReason = s.faultReason

/-- The code of a reason, row by row as the table of rule R245 gives it: what claims compare `FAULT_REASON` with, apart
from `Usage.code`, by which the meanings write it. -/
def reasonCode : Usage → Byte
  | .illegalOpcode => 0x01
  | .reservedField => 0x02
  | .twNotInit => 0x03
  | .twNotInTx => 0x04
  | .badPin => 0x05
  | .samePin => 0x06
  | .pinOwned => 0x07
  | .owNotInit => 0x08
  | .lenTooBig => 0x09
  | .txUnwritten => 0x0A
  | .badIndex => 0x0B
  | .absentRead => 0x0C

/-- The command took the usage fault whose code is `reason`: no event, `FAULTED` and `FAULT_REASON` written, `STATUS`,
`RESULT` and all else as before, the command not completed (rules R244 and R245). -/
def TakesUsageFault (s t : State) (reason : Byte) : Prop :=
  t = { s with faulted := true, faultReason := reason, events := [] }

/-- What stands outside the block is as before: the parameters, the host's list and what it has read. -/
def KeepsOutside (s t : State) : Prop :=
  t.params = s.params ∧ t.host = s.host ∧ t.hostSeen = s.hostSeen

/-- Every byte of `TXBUF` reads as before. -/
def KeepsTx (s t : State) : Prop := ∀ i, Memory.read t.txbuf i = Memory.read s.txbuf i

/-- Every byte of `RXBUF` reads as before. -/
def KeepsRx (s t : State) : Prop := ∀ i, Memory.read t.rxbuf i = Memory.read s.rxbuf i

/-- `RXBUF[0 ..]` holds the bytes `xs`; every other byte of it reads as before. -/
def RxHolds (s t : State) (xs : List Byte) : Prop :=
  ∀ i, Memory.read t.rxbuf i = if i < xs.length then xs[i]? else Memory.read s.rxbuf i

/-- Every byte of both buffers reads as before. -/
def KeepsBuffers (s t : State) : Prop := KeepsTx s t ∧ KeepsRx s t

/-- Both device lists are as before. -/
def KeepsLists (s t : State) : Prop := t.twDevList = s.twDevList ∧ t.owDevList = s.owDevList

/-- Every pin but those named is as before. -/
def KeepsOtherPins (s t : State) (ps : List PinId) : Prop := ∀ q, q ∉ ps → t.pin q = s.pin q

/-- All but the result registers, the trace, the bus's answers and the named pins is as before. -/
def KeepsAllBut (s t : State) (ps : List PinId) : Prop :=
  KeepsOutside s t ∧ t.tw = s.tw ∧ t.cursor = s.cursor ∧ KeepsBuffers s t ∧ KeepsLists s t ∧ KeepsOtherPins s t ps

/-- As `KeepsAllBut`, and `TW_IN_TX` is `b` after. -/
def KeepsAllButTx (s t : State) (b : Bool) (ps : List PinId) : Prop :=
  KeepsOutside s t ∧ t.tw = { s.tw with inTx := b } ∧ t.cursor = s.cursor ∧ KeepsBuffers s t ∧ KeepsLists s t ∧
  KeepsOtherPins s t ps

/-- The pin `p` is released after, its mode as before. -/
def Releases (s t : State) (p : PinId) : Prop := t.pin p = ⟨.rel, (s.pin p).mode⟩

/-- After, the clock is driven `c` and the data line `d`, their modes as before. -/
def TwLinesAre (s t : State) (c d : Drive) : Prop :=
  t.pin s.tw.sclPin = ⟨c, (s.pin s.tw.sclPin).mode⟩ ∧ t.pin s.tw.sdaPin = ⟨d, (s.pin s.tw.sdaPin).mode⟩

/-- The two-wire pins of a state. -/
def State.twPins (s : State) : List PinId := [s.tw.sclPin, s.tw.sdaPin]

/-- A command with no event and no effect but its result: it completed with the code and the result given, all else as
before. -/
def QuietDone (s t : State) (code result : Byte) : Prop := Completes s t code result [] ∧ KeepsAllBut s t []

/-- A two-wire command completed: its code, result and trace, the flag and the two lines after, all else as before. -/
def TwDone (s t : State) (code result : Byte) (trace : List Event) (b : Bool) (c d : Drive) : Prop :=
  Completes s t code result trace ∧ KeepsAllButTx s t b s.twPins ∧ TwLinesAre s t c d

/-- A one-wire command on pin `p` completed: its code, result and trace, the pin released, all else as before. -/
def OwDone (s t : State) (code result : Byte) (trace : List Event) (p : PinId) : Prop :=
  Completes s t code result trace ∧ KeepsAllBut s t [p] ∧ Releases s t p

/-- A search command on pin `p` completed: its code, result and trace, the cursor `c` and the one-wire device list `l`
after, the pin released, all else as before. -/
def SearchDone (s t : State) (code result : Byte) (trace : List Event) (p : PinId) (c : Cursor)
    (l : List OwRecord) : Prop :=
  Completes s t code result trace ∧ KeepsOutside s t ∧ t.tw = s.tw ∧ t.cursor = c ∧ KeepsBuffers s t ∧
  t.twDevList = s.twDevList ∧ t.owDevList = l ∧ KeepsOtherPins s t [p] ∧ Releases s t p

/-! ## What a trace says about the pins -/

/-- What one event makes of pin `q` (rules R101 to R105). -/
def pinAfterEvent (q : PinId) (v : Pin) : Event → Pin
  | .cfg p m => if p = q then ⟨.rel, m.pinMode⟩ else v
  | .low p => if p = q then ⟨.low, v.mode⟩ else v
  | .rel p => if p = q then ⟨.rel, v.mode⟩ else v
  | .sample _ _ => v
  | .wait _ => v

/-- What a trace makes of pin `q`. -/
def pinAfter (q : PinId) (v : Pin) (es : List Event) : Pin := es.foldl (pinAfterEvent q) v

/-- A trace begun with pin `q` as `v` never samples `q` while `q` is driven low (rule R107). -/
def neverSamplesLow (q : PinId) : Pin → List Event → Prop
  | _, [] => True
  | v, e :: es =>
    (match e with
      | .sample p _ => p = q → v.drive = .rel
      | _ => True) ∧ neverSamplesLow q (pinAfterEvent q v e) es

/-- The sum of the `Wait` arguments of a trace (rule R280). -/
def waitTotal (es : List Event) : Nat :=
  (es.map fun e => match e with | .wait n => n | _ => 0).sum

/-- The level an event records, if it is a sample (rule R104). -/
def sampledLevel : Event → Option Bool
  | .sample _ v => some v
  | _ => none

/-- The answer of the bus to the `j`-th sample from this state on: the listed one, or the free level (rule R106). -/
def State.answer (s : State) (j : Nat) : Bool := s.bus[j]?.getD (Config.busLevel (s.draws + j))

/-- The bus answers the samples that come next with these levels: a claim's premise on its bus (rule R106). -/
def Presents (s : State) (ans : List Bool) : Prop := (List.range ans.length).map s.answer = ans

/-- How many samples a trace holds. -/
def sampleCount (es : List Event) : Nat :=
  es.countP fun e => match e with | .sample _ _ => true | _ => false

/-! ## The invariant -/

/-- The two-wire engine's state (rules R27 to R31 and R38 a, b, d; R131 for the pins' modes; the data line released
between the commands of a transaction, rules R133, R136, R137). -/
def State.TwInv (s : State) : Prop :=
  (s.tw.inTx = true → s.tw.initialized = true) ∧
  (s.tw.inTx = true → (s.pin s.tw.sclPin).drive = .low ∧ (s.pin s.tw.sdaPin).drive = .rel) ∧
  (s.tw.initialized = true →
    s.tw.sclPin ≠ s.tw.sdaPin ∧ s.tw.sclPin.toNat < s.params.numPins ∧ s.tw.sdaPin.toNat < s.params.numPins ∧
    (s.pin s.tw.sclPin).mode = .input ∧ (s.pin s.tw.sdaPin).mode = .input ∧ s.tw.speedWritten = true) ∧
  (s.tw.speedWritten = true →
    s.tw.short.toNat = shortDelay s.params s.tw.speed ∧ s.tw.long.toNat = 2 * s.tw.short.toNat) ∧
  s.tw.maxStretch.toNat = s.params.maxStretch

/-- A pin is driven low only inside a two-wire transaction and only if it is its clock (rule R38 c, and "every slot ends
with the line released", rules R182 and R247). -/
def State.LowOnlyInTx (s : State) : Prop :=
  ∀ p, (s.pin p).drive = .low → s.tw.inTx = true ∧ p = s.tw.sclPin

/-- The cursor (rules R33, R38 e, f). -/
def State.CursorInv (s : State) : Prop :=
  s.cursor.lastDisc.toNat ≤ 64 ∧ (s.cursor.lastDev = true → s.cursor.lastDisc = 0)

/-- The device lists: capacities, addresses 1..127 never a reserved one, CRC-valid ROMs on existing pins (rules R52 to
R54, R143, R144). -/
def State.ListInv (s : State) : Prop :=
  s.twDevList.length ≤ s.params.maxTwDevices ∧
  (∀ b ∈ s.twDevList, b ≠ 0 ∧ b.getLsbD 7 = false ∧ b.setWidth 7 ∉ s.params.reservedAddrs) ∧
  s.owDevList.length ≤ s.params.maxOwDevices ∧
  ∀ r ∈ s.owDevList, crcValid r.rom = true ∧ r.pin.toNat < s.params.numPins

/-- The canonical forms of the buffers and of the pin map, within their spaces (rules R50 and R51; log 10). -/
def State.DataInv (s : State) : Prop :=
  Memory.wf s.txbuf ∧ (∀ c ∈ s.txbuf, c.1 < s.params.txbufSize) ∧
  Memory.wf s.rxbuf ∧ (∀ c ∈ s.rxbuf, c.1 < s.params.rxbufSize) ∧
  Cells.Sorted s.pins ∧ ∀ c ∈ s.pins, c.1 < s.params.numPins ∧ c.2 ≠ Pin.atReset

/-- The result registers: `STATUS` a code of rule R241, `FAULT_REASON` 0 while there is no usage fault and a code of
rule R245 after one. -/
def State.ResultInv (s : State) : Prop :=
  s.status.toNat ≤ 0x0B ∧ s.faultReason.toNat ≤ 0x0C ∧ (s.faulted = true ↔ s.faultReason ≠ 0)

/-- The invariant of every state between commands (rule R38 and the rules its parts cite). -/
def State.Inv (s : State) : Prop :=
  s.params.Valid ∧ s.TwInv ∧ s.LowOnlyInTx ∧ s.CursorInv ∧ s.ListInv ∧ s.DataInv ∧ s.ResultInv

/-! ## When a command takes a usage fault -/

/-- The first condition of a list that holds names the reason (rule R246). -/
def firstOf : List (Bool × Usage) → Option Usage
  | [] => none
  | (c, u) :: rest => if c then some u else firstOf rest

/-- Rule R130, checks 1 and 2. -/
def txChecks (s : State) : List (Bool × Usage) :=
  [(!s.tw.initialized, .twNotInit), (!s.tw.inTx, .twNotInTx)]

/-- Rule R180, checks 1 to 3. -/
def pinChecks (s : State) (p : PinId) : List (Bool × Usage) :=
  [(decide (s.params.numPins ≤ p.toNat), .badPin),
   (s.tw.initialized && (p == s.tw.sclPin || p == s.tw.sdaPin), .pinOwned),
   ((s.pin p).mode != .inputPullup, .owNotInit)]

/-- A byte of `TXBUF[0 .. n-1]` is absent (rules R58, R130, R180). -/
def absentBelow (s : State) (n : Nat) : Bool := !(List.range n).all fun i => (Memory.read s.txbuf i).isSome

/-- The usage fault a command takes in a state, if any: the checks of rules R130, R131, R180 and R194 in their order
(rule R246). -/
def usageOf (i : Instr) (s : State) : Option Usage :=
  match i with
  | .twInit c d =>
    firstOf
      [(decide (s.params.numPins ≤ c.toNat) || decide (s.params.numPins ≤ d.toNat), .badPin),
       (c == d, .samePin),
       (!s.tw.initialized && ((s.pin c).mode == .inputPullup || (s.pin d).mode == .inputPullup), .pinOwned)]
  | .twSetSpeed _ => none
  | .twStart => firstOf [(!s.tw.initialized, .twNotInit)]
  | .twStop => none
  | .twWriteByte _ => firstOf (txChecks s)
  | .twReadByte _ => firstOf (txChecks s)
  | .twWriteBytes len =>
    firstOf
      (txChecks s ++
        [(decide (s.params.txbufSize < len.toNat), .lenTooBig), (absentBelow s len.toNat, .txUnwritten)])
  | .twReadBytes len => firstOf (txChecks s ++ [(decide (s.params.rxbufSize < len.toNat), .lenTooBig)])
  | .twStartRw _ _ => firstOf [(!s.tw.initialized, .twNotInit)]
  | .twStartWrite _ _ => firstOf [(!s.tw.initialized, .twNotInit)]
  | .twStartRead _ _ => firstOf [(!s.tw.initialized, .twNotInit)]
  | .twScan => firstOf [(!s.tw.initialized, .twNotInit)]
  | .twFree => none
  | .owInit p => firstOf ((pinChecks s p).take 2)
  | .owReset p => firstOf (pinChecks s p)
  | .owReadBit p => firstOf (pinChecks s p)
  | .owWriteBit p _ => firstOf (pinChecks s p)
  | .owRead p => firstOf (pinChecks s p)
  | .owWrite p _ => firstOf (pinChecks s p)
  | .owReadBytes p len => firstOf (pinChecks s p ++ [(decide (s.params.rxbufSize < len.toNat), .lenTooBig)])
  | .owWriteBytes p len =>
    firstOf
      (pinChecks s p ++
        [(decide (s.params.txbufSize < len.toNat), .lenTooBig), (absentBelow s len.toNat, .txUnwritten)])
  | .owCrc8 _ _ => none
  | .owMatchRom p => firstOf (pinChecks s p ++ [(absentBelow s 8, .txUnwritten)])
  | .owMatchDevice idx =>
    match s.owDevList[idx.toNat]? with
    | none => some .badIndex
    | some r => firstOf (pinChecks s r.pin)
  | .owReadRom p => firstOf (pinChecks s p)
  | .owSearchPass p _ _ => firstOf (pinChecks s p)
  | .owSearch p _ => firstOf (pinChecks s p)
  | .owSearchFamily p _ _ => firstOf (pinChecks s p)
  | .owFree => none

/-- The command may be issued and passes its usage checks. -/
def Ready (i : Instr) (s : State) : Prop := s.faulted = false ∧ usageOf i s = none

/-! ## How many events a command issues at most -/

/-- The bounds of rule R279: of a byte on the two-wire bus, each of its nine ticks polling at most `m` times. -/
def byteBound (m : Nat) : Nat := 9 * (m + 8) + 1

/-- A START, an address byte and, after a NACK or a probe, a STOP. -/
def addressBound (m : Nat) : Nat := (m + 10) + byteBound m + (m + 6)

/-- A reset of the one-wire bus. -/
def owResetBound (q : Params) : Nat := 2 * q.owPresPolls + 4

/-- A pass of the search: a reset, the command byte and 64 times two read slots and a write slot. -/
def searchPassBound (q : Params) : Nat := owResetBound q + 32 + 64 * 16

/-- The bound of each command's trace (rule R279). -/
def eventBound (i : Instr) (s : State) : Nat :=
  let m := s.tw.maxStretch.toNat
  match i with
  | .twInit _ _ => 2
  | .twSetSpeed _ => 0
  | .twStart => m + 10
  | .twStop => m + 6
  | .twWriteByte _ => byteBound m
  | .twReadByte _ => byteBound m
  | .twWriteBytes len => len.toNat * (byteBound m + 2)
  | .twReadBytes len => len.toNat * byteBound m
  | .twStartRw _ _ => addressBound m
  | .twStartWrite _ _ => addressBound m + byteBound m
  | .twStartRead _ _ => 2 * (addressBound m + byteBound m)
  | .twScan => 127 * addressBound m
  | .twFree => 0
  | .owInit _ => 1
  | .owReset _ => owResetBound s.params
  | .owReadBit _ => 6
  | .owWriteBit _ _ => 4
  | .owRead _ => 48
  | .owWrite _ _ => 32
  | .owReadBytes _ len => len.toNat * 48
  | .owWriteBytes _ len => len.toNat * 32
  | .owCrc8 _ _ => 0
  | .owMatchRom _ => 9 * 32
  | .owMatchDevice _ => 9 * 32
  | .owReadRom _ => 32 + 8 * 48
  | .owSearchPass _ _ _ => searchPassBound s.params
  | .owSearch _ _ => (s.params.maxOwDevices + 1) * searchPassBound s.params
  | .owSearchFamily _ _ _ => (s.params.maxOwDevices + 1) * searchPassBound s.params
  | .owFree => 0

/-! ## What each command may write -/

/-- The commands whose rule writes `RESULT` (rule R25). -/
def writesResult (i : Instr) : Bool :=
  match i with
  | .twWriteByte _ | .twReadByte _ | .twScan | .owReset _ | .owReadBit _ | .owRead _ | .owCrc8 _ _ | .owSearch _ _
  | .owSearchFamily _ _ _ => true
  | .twInit _ _ | .twSetSpeed _ | .twStart | .twStop | .twWriteBytes _ | .twReadBytes _ | .twStartRw _ _
  | .twStartWrite _ _ | .twStartRead _ _ | .twFree | .owInit _ | .owWriteBit _ _ | .owWrite _ _ | .owReadBytes _ _
  | .owWriteBytes _ _ | .owMatchRom _ | .owMatchDevice _ | .owReadRom _ | .owSearchPass _ _ _ | .owFree => false

/-- How many bytes of `RXBUF` a command may write, from index 0 on (rules R51, R139, R188, R195). -/
def rxLen (i : Instr) : Nat :=
  match i with
  | .twReadBytes len => len.toNat
  | .owReadBytes _ len => len.toNat
  | .owReadRom _ => 8
  | _ => 0

end Sys2Proof.Machine
end

