-- ==== Sys2Proof/Traces.lean ====
section
/-! DEFINITION. The traces of the rules' examples and of 95_test_vectors.md, and the answers of buses that bring
them about: what claims about a particular bus are stated with (rule R106: such a claim states its bus as a premise on
the answers). -/

namespace Sys2Proof.Machine

/-! ## The two-wire bus -/

/-- The pins and delays a two-wire trace is written with: `SCL`, `SDA`, `S`, `L` (rule R7). -/
structure TwLine where
  scl : PinId
  sda : PinId
  S : Nat
  L : Nat
  deriving DecidableEq, Repr

/-- The line the two-wire registers give. -/
def TwRegs.line (w : TwRegs) : TwLine := ⟨w.sclPin, w.sdaPin, w.short.toNat, w.long.toNat⟩

/-- The line of a state. -/
def State.line (s : State) : TwLine := s.tw.line

/-- The bus answers `k` clock polls with 0, then one with 1: a clock stretched for `k` polls (rule R110). -/
def riseAnswers (k : Nat) : List Bool := List.replicate k false ++ [true]

/-- The polls of such a clock. -/
def riseEvents (p : PinId) (k : Nat) : List Event := List.replicate k (.sample p false) ++ [.sample p true]

/-- The two events of fail-fast (rule R120). -/
def failFastEvents (l : TwLine) : List Event := [.rel l.scl, .rel l.sda]

/-- `n` polls of a clock held low, then fail-fast (rule R110). -/
def stretchOutEvents (l : TwLine) (n : Nat) : List Event :=
  List.replicate n (.sample l.scl false) ++ failFastEvents l

/-- A tick whose clock rises after `k` polls of 0; `smp` is the data sample, if one is taken (rule R112). -/
def tickEvents (l : TwLine) (k : Nat) (smp : List Event) : List Event :=
  [.low l.scl, .wait l.S, .rel l.scl] ++ riseEvents l.scl k ++ [.wait l.L] ++ smp ++ [.low l.scl, .wait l.S]

/-- `PutBit(b)` (rule R113). -/
def putBitEvents (l : TwLine) (k : Nat) (b : Bool) : List Event :=
  (if b then .rel l.sda else .low l.sda) :: tickEvents l k []

/-- `GetBit()` reading `v` (rule R113). -/
def getBitEvents (l : TwLine) (k : Nat) (v : Bool) : List Event :=
  .rel l.sda :: tickEvents l k [.sample l.sda v]

/-- `WriteByte(x)` answered `a`; the clock of its tick `j`, 0 to 8, is stretched for `st j` polls (rule R136). -/
def writeByteEvents (l : TwLine) (st : Nat → Nat) (x : Byte) (a : Bool) : List Event :=
  ((List.range 8).flatMap fun j => putBitEvents l (st j) (x.getLsbD (7 - j))) ++ getBitEvents l (st 8) a

/-- The answers of a slave that gives the acknowledge level `a` to such a byte. -/
def writeByteAnswers (st : Nat → Nat) (a : Bool) : List Bool :=
  ((List.range 9).flatMap fun j => riseAnswers (st j)) ++ [a]

/-- `ReadByte(k)` receiving `x` (rule R137). -/
def readByteEvents (l : TwLine) (st : Nat → Nat) (x : Byte) (k : Bool) : List Event :=
  ((List.range 8).flatMap fun j => getBitEvents l (st j) (x.getLsbD (7 - j))) ++ putBitEvents l (st 8) k ++
    [.rel l.sda]

/-- The answers of a slave that sends `x`, bit 7 first. -/
def readByteAnswers (st : Nat → Nat) (x : Byte) : List Bool :=
  ((List.range 8).flatMap fun j => riseAnswers (st j) ++ [x.getLsbD (7 - j)]) ++ riseAnswers (st 8)

/-- The end of both STARTs: the data line falls while the clock is high, the clock falls, data is released. -/
def startConditionEvents (l : TwLine) : List Event :=
  [.wait l.S, .low l.sda, .wait l.S, .low l.scl, .wait l.S, .rel l.sda]

/-- The start of a tick whose clock is held low for all its `n` polls, and fail-fast (rules R110, R112). -/
def heldTickEvents (l : TwLine) (n : Nat) : List Event :=
  [.low l.scl, .wait l.S, .rel l.scl] ++ stretchOutEvents l n

/-- `WriteByte(x)` whose tick `j` is held low for all its `n` polls (rule R136). -/
def writeHeldEvents (l : TwLine) (st : Nat → Nat) (x : Byte) (j n : Nat) : List Event :=
  ((List.range j).flatMap fun i => putBitEvents l (st i) (x.getLsbD (7 - i))) ++
    (if j < 8 ∧ x.getLsbD (7 - j) = false then .low l.sda else .rel l.sda) :: heldTickEvents l n

/-- The answers to such a byte. -/
def writeHeldAnswers (st : Nat → Nat) (j n : Nat) : List Bool :=
  ((List.range j).flatMap fun i => riseAnswers (st i)) ++ List.replicate n false

/-- `ReadByte(k)` whose tick `j` is held low for all its `n` polls, after the bits of `x` before it (rule R137). -/
def readHeldEvents (l : TwLine) (st : Nat → Nat) (x : Byte) (k : Bool) (j n : Nat) : List Event :=
  ((List.range j).flatMap fun i => getBitEvents l (st i) (x.getLsbD (7 - i))) ++
    (if j = 8 ∧ k = false then .low l.sda else .rel l.sda) :: heldTickEvents l n

/-- The answers to such a byte. -/
def readHeldAnswers (st : Nat → Nat) (x : Byte) (j n : Nat) : List Bool :=
  ((List.range j).flatMap fun i => riseAnswers (st i) ++ [x.getLsbD (7 - i)]) ++ List.replicate n false

/-- The events of a START before its clock is waited for (rules R133, R134). -/
def startHead (inTx : Bool) (l : TwLine) : List Event :=
  if inTx then [.rel l.sda, .wait l.S, .rel l.scl] else [.rel l.sda, .rel l.scl, .wait l.S, .sample l.sda true]

/-- A START on an idle bus (rule R133), or a repeated START (rule R134). -/
def startEvents (inTx : Bool) (l : TwLine) (k : Nat) : List Event :=
  startHead inTx l ++ riseEvents l.scl k ++ startConditionEvents l

/-- The answers that let such a START succeed. -/
def startAnswers (inTx : Bool) (k : Nat) : List Bool := (if inTx then [] else [true]) ++ riseAnswers k

/-- A STOP (rule R135). -/
def stopEvents (l : TwLine) (k : Nat) : List Event :=
  [.low l.sda, .wait l.S, .rel l.scl] ++ riseEvents l.scl k ++ [.wait l.S, .rel l.sda, .wait l.S]

/-- A START and an address byte answered `a`; the START's clock is stretched for `st 0` polls and the byte's tick `j`
for `st (j + 1)` (rule R140). -/
def addressEvents (inTx : Bool) (l : TwLine) (st : Nat → Nat) (ab : Byte) (a : Bool) : List Event :=
  startEvents inTx l (st 0) ++ writeByteEvents l (fun j => st (j + 1)) ab a

/-- The answers to such an address byte. -/
def addressAnswers (inTx : Bool) (st : Nat → Nat) (a : Bool) : List Bool :=
  startAnswers inTx (st 0) ++ writeByteAnswers (fun j => st (j + 1)) a

/-- The bytes written one after the other, all acknowledged; `st i` stretches the `i`-th (rule R138). -/
def writeBytesEvents (l : TwLine) (st : Nat → Nat → Nat) : Nat → List Byte → List Event
  | _, [] => []
  | i, x :: rest => writeByteEvents l (st i) x false ++ writeBytesEvents l st (i + 1) rest

/-- The answers of a slave that acknowledges `n` bytes from the `i`-th on. -/
def writeBytesAnswers (st : Nat → Nat → Nat) : (i n : Nat) → List Bool
  | _, 0 => []
  | i, n + 1 => writeByteAnswers (st i) false ++ writeBytesAnswers st (i + 1) n

/-- The bytes read one after the other, ACK after each: those a transfer reads before its last (rule R139). -/
def readAckedEvents (l : TwLine) (st : Nat → Nat → Nat) : Nat → List Byte → List Event
  | _, [] => []
  | i, x :: rest => readByteEvents l (st i) x false ++ readAckedEvents l st (i + 1) rest

/-- The bytes read one after the other, ACK after each but NACK after the last (rule R139). -/
def readBytesEvents (l : TwLine) (st : Nat → Nat → Nat) : Nat → List Byte → List Event
  | _, [] => []
  | i, x :: rest => readByteEvents l (st i) x rest.isEmpty ++ readBytesEvents l st (i + 1) rest

/-- The answers of a slave that sends the bytes. -/
def readBytesAnswers (st : Nat → Nat → Nat) : Nat → List Byte → List Bool
  | _, [] => []
  | i, x :: rest => readByteAnswers (st i) x ++ readBytesAnswers st (i + 1) rest

/-- The address byte `{a, 0}` of a write, `{a, 1}` of a read: twice the address plus the read bit (rules R80, R141,
R142). -/
def addrByte (a : BitVec 7) (rw : Nat) : Byte := BitVec.ofNat 8 (2 * a.toNat + rw)

/-- A STOP whose clock is held low for all its `n` polls, and fail-fast (rules R110, R135). -/
def stopHeldEvents (l : TwLine) (n : Nat) : List Event := [.low l.sda, .wait l.S, .rel l.scl] ++ stretchOutEvents l n

/-- How a probe that does not end the scan goes (rules R140 and R143): the address byte is acknowledged, or it is not,
or it is not and the clock of the STOP after it is held low, which is not reported. -/
inductive Probe
  | acked | nacked | nackedHeld
  deriving DecidableEq, Repr

/-- One probe of a scan: START, the write address byte, STOP whatever the answer; `n` is the number of polls of a
clock held low (rules R140 and R143). -/
def probeEvents (inTx : Bool) (l : TwLine) (n : Nat) (st : Nat → Nat) (a : BitVec 7) (pr : Probe) : List Event :=
  addressEvents inTx l st (addrByte a 0) (pr != .acked) ++
    if pr = .nackedHeld then stopHeldEvents l n else stopEvents l (st 10)

/-- The answers to one probe. -/
def probeAnswers (inTx : Bool) (n : Nat) (st : Nat → Nat) (pr : Probe) : List Bool :=
  addressAnswers inTx st (pr != .acked) ++
    if pr = .nackedHeld then List.replicate n false else riseAnswers (st 10)

/-- The probes of a list of addresses in order; only the first START can be a repeated one. -/
def scanEvents (l : TwLine) (n : Nat) (st : BitVec 7 → Nat → Nat) (pr : BitVec 7 → Probe) :
    Bool → List (BitVec 7) → List Event
  | _, [] => []
  | inTx, a :: rest => probeEvents inTx l n (st a) a (pr a) ++ scanEvents l n st pr false rest

/-- The answers to the probes of a list of addresses. -/
def scanAnswers (n : Nat) (st : BitVec 7 → Nat → Nat) (pr : BitVec 7 → Probe) : Bool → List (BitVec 7) → List Bool
  | _, [] => []
  | inTx, a :: rest => probeAnswers inTx n (st a) (pr a) ++ scanAnswers n st pr false rest

/-- The addresses a scan probes: 1 to 127 ascending, less the reserved ones (rule R144). -/
def probed (q : Params) : List (BitVec 7) :=
  ((List.range' 1 127).map (BitVec.ofNat 7)).filter fun a => a ∉ q.reservedAddrs

/-! ## The one-wire bus -/

/-- A write slot of bit `b` (rule R182). -/
def writeSlot (q : Params) (p : PinId) (b : Bool) : List Event :=
  if b then [.low p, .wait q.owW1Low, .rel p, .wait q.owW1Rel]
  else [.low p, .wait q.owW0Low, .rel p, .wait q.owW0Rel]

/-- A read slot sampling `v` (rule R182). -/
def readSlot (q : Params) (p : PinId) (v : Bool) : List Event :=
  [.low p, .wait q.owRLow, .rel p, .wait q.owRWait, .sample p v, .wait q.owRIdle]

/-- The bits of a byte, bit 0 first (rule R57). -/
def lsbBits (x : Byte) : List Bool := (List.range 8).map fun i => x.getLsbD i

/-- A byte written, LSB first. -/
def owWriteByteEvents (q : Params) (p : PinId) (x : Byte) : List Event := (lsbBits x).flatMap (writeSlot q p)

/-- A byte read, LSB first. -/
def owReadByteEvents (q : Params) (p : PinId) (x : Byte) : List Event := (lsbBits x).flatMap (readSlot q p)

/-- `n` presence polls that read 1. -/
def quietPolls (q : Params) (p : PinId) (n : Nat) : List Event :=
  (List.replicate n [Event.wait q.owPresInterval, Event.sample p true]).flatten

/-- A reset answered by a presence pulse at poll `k + 1`, or by none (rule R183). -/
def owResetEvents (q : Params) (p : PinId) : Option Nat → List Event
  | some k =>
    [.low p, .wait q.owRstLow, .rel p] ++ quietPolls q p k ++
      [.wait q.owPresInterval, .sample p false, .wait (q.owRstHigh - (k + 1) * q.owPresInterval)]
  | none =>
    [.low p, .wait q.owRstLow, .rel p] ++ quietPolls q p q.owPresPolls ++
      [.wait (q.owRstHigh - q.owPresPolls * q.owPresInterval)]

/-- The answers to such a reset. -/
def owResetAnswers (q : Params) : Option Nat → List Bool
  | some k => List.replicate k true ++ [false]
  | none => List.replicate q.owPresPolls true

/-- The `Wait` arguments of a write slot of bit `b` (rule R280). -/
def writeSlotTotal (q : Params) (b : Bool) : Nat := if b then q.owW1Low + q.owW1Rel else q.owW0Low + q.owW0Rel

/-- The `Wait` arguments of a read slot (rule R280). -/
def readSlotTotal (q : Params) : Nat := q.owRLow + q.owRWait + q.owRIdle

/-- The `Wait` arguments of a byte written, the sum of its eight slots (rule R280). -/
def owByteTotal (q : Params) (x : Byte) : Nat := ((lsbBits x).map (writeSlotTotal q)).sum

/-- The `Wait` arguments of a pass that ran its 64 steps and wrote the directions of `r` (rule R280). -/
def searchPassTotal (q : Params) (cmd : Byte) (r : Rom) : Nat :=
  q.owRstLow + q.owRstHigh + owByteTotal q cmd +
    ((List.range' 1 64).map fun n => 2 * readSlotTotal q + writeSlotTotal q (romBit r n)).sum

/-! ## The CRC table -/

/-- The table of rule R190, entry by entry: `crc8(c, x) = T[c xor x]`. -/
def crcTable : List Byte :=
  [0x00, 0x5E, 0xBC, 0xE2, 0x61, 0x3F, 0xDD, 0x83, 0xC2, 0x9C, 0x7E, 0x20, 0xA3, 0xFD, 0x1F, 0x41] ++
  [0x9D, 0xC3, 0x21, 0x7F, 0xFC, 0xA2, 0x40, 0x1E, 0x5F, 0x01, 0xE3, 0xBD, 0x3E, 0x60, 0x82, 0xDC] ++
  [0x23, 0x7D, 0x9F, 0xC1, 0x42, 0x1C, 0xFE, 0xA0, 0xE1, 0xBF, 0x5D, 0x03, 0x80, 0xDE, 0x3C, 0x62] ++
  [0xBE, 0xE0, 0x02, 0x5C, 0xDF, 0x81, 0x63, 0x3D, 0x7C, 0x22, 0xC0, 0x9E, 0x1D, 0x43, 0xA1, 0xFF] ++
  [0x46, 0x18, 0xFA, 0xA4, 0x27, 0x79, 0x9B, 0xC5, 0x84, 0xDA, 0x38, 0x66, 0xE5, 0xBB, 0x59, 0x07] ++
  [0xDB, 0x85, 0x67, 0x39, 0xBA, 0xE4, 0x06, 0x58, 0x19, 0x47, 0xA5, 0xFB, 0x78, 0x26, 0xC4, 0x9A] ++
  [0x65, 0x3B, 0xD9, 0x87, 0x04, 0x5A, 0xB8, 0xE6, 0xA7, 0xF9, 0x1B, 0x45, 0xC6, 0x98, 0x7A, 0x24] ++
  [0xF8, 0xA6, 0x44, 0x1A, 0x99, 0xC7, 0x25, 0x7B, 0x3A, 0x64, 0x86, 0xD8, 0x5B, 0x05, 0xE7, 0xB9] ++
  [0x8C, 0xD2, 0x30, 0x6E, 0xED, 0xB3, 0x51, 0x0F, 0x4E, 0x10, 0xF2, 0xAC, 0x2F, 0x71, 0x93, 0xCD] ++
  [0x11, 0x4F, 0xAD, 0xF3, 0x70, 0x2E, 0xCC, 0x92, 0xD3, 0x8D, 0x6F, 0x31, 0xB2, 0xEC, 0x0E, 0x50] ++
  [0xAF, 0xF1, 0x13, 0x4D, 0xCE, 0x90, 0x72, 0x2C, 0x6D, 0x33, 0xD1, 0x8F, 0x0C, 0x52, 0xB0, 0xEE] ++
  [0x32, 0x6C, 0x8E, 0xD0, 0x53, 0x0D, 0xEF, 0xB1, 0xF0, 0xAE, 0x4C, 0x12, 0x91, 0xCF, 0x2D, 0x73] ++
  [0xCA, 0x94, 0x76, 0x28, 0xAB, 0xF5, 0x17, 0x49, 0x08, 0x56, 0xB4, 0xEA, 0x69, 0x37, 0xD5, 0x8B] ++
  [0x57, 0x09, 0xEB, 0xB5, 0x36, 0x68, 0x8A, 0xD4, 0x95, 0xCB, 0x29, 0x77, 0xF4, 0xAA, 0x48, 0x16] ++
  [0xE9, 0xB7, 0x55, 0x0B, 0x88, 0xD6, 0x34, 0x6A, 0x2B, 0x75, 0x97, 0xC9, 0x4A, 0x14, 0xF6, 0xA8] ++
  [0x74, 0x2A, 0xC8, 0x96, 0x15, 0x4B, 0xA9, 0xF7, 0xB6, 0xE8, 0x0A, 0x54, 0xD7, 0x89, 0x6B, 0x35]

/-! ## Devices answering a ROM search -/

/-- The ROM as a number whose most significant bit is position 1 (rule R219). -/
def searchKey (r : Rom) : Nat := (List.range' 1 64).foldl (fun k n => 2 * k + (romBit r n).toNat) 0

/-- The devices still on the bus at step `n` of a pass whose earlier direction bits were those of `r` (rule R210). -/
def onBus (devs : List Rom) (r : Rom) (n : Nat) : List Rom :=
  devs.filter fun d => (List.range' 1 (n - 1)).all fun m => romBit d m == romBit r m

/-- The two read slots of step `n`: the wired-AND of the devices' bits and of their complements (rule R210). -/
def stepBits (devs : List Rom) (r : Rom) (n : Nat) : Bool × Bool :=
  ((onBus devs r n).all fun d => romBit d n, (onBus devs r n).all fun d => !romBit d n)

/-- A pass that finds `r`, its presence pulse at poll `k + 1`: the bus's answers. -/
def passAnswers (q : Params) (devs : List Rom) (k : Nat) (r : Rom) : List Bool :=
  owResetAnswers q (some k) ++
    (List.range' 1 64).flatMap fun n => [(stepBits devs r n).1, (stepBits devs r n).2]

/-- A pass that finds `r`: its trace (rule R213). -/
def passEvents (q : Params) (p : PinId) (cmd : Byte) (devs : List Rom) (k : Nat) (r : Rom) : List Event :=
  owResetEvents q p (some k) ++ owWriteByteEvents q p cmd ++
    (List.range' 1 64).flatMap fun n =>
      readSlot q p (stepBits devs r n).1 ++ readSlot q p (stepBits devs r n).2 ++ writeSlot q p (romBit r n)

/-- The direction of step `n` of a pass whose two read slots were `v`, not both 1, `c` being the cursor as it stood when
the pass began (rule R211, cases b and c). -/
def chosen (c : Cursor) (n : Nat) (v : Bool × Bool) : Bool :=
  if v.1 ≠ v.2 then v.1
  else if n < c.lastDisc.toNat then romBit c.prevRom n
  else decide (n = c.lastDisc.toNat)

/-- The first `m` steps of a pass, the two read slots of step `n` reading `vs n`: the bus's answers. -/
def stepsAnswers (vs : Nat → Bool × Bool) (m : Nat) : List Bool :=
  (List.range' 1 m).flatMap fun n => [(vs n).1, (vs n).2]

/-- Those steps' trace (rules R211 and R213). -/
def stepsEvents (q : Params) (p : PinId) (c : Cursor) (vs : Nat → Bool × Bool) (m : Nat) : List Event :=
  (List.range' 1 m).flatMap fun n =>
    readSlot q p (vs n).1 ++ readSlot q p (vs n).2 ++ writeSlot q p (chosen c n (vs n))

/-- A pass whose step `m + 1` meets silence, both slots reading 1: the bus's answers. -/
def silentAnswers (q : Params) (k : Nat) (vs : Nat → Bool × Bool) (m : Nat) : List Bool :=
  owResetAnswers q (some k) ++ stepsAnswers vs m ++ [true, true]

/-- Its trace: no write slot after the silent step (rule R213). -/
def silentEvents (q : Params) (p : PinId) (cmd : Byte) (c : Cursor) (k : Nat) (vs : Nat → Bool × Bool) (m : Nat) :
    List Event :=
  owResetEvents q p (some k) ++ owWriteByteEvents q p cmd ++ stepsEvents q p c vs m ++ readSlot q p true ++
    readSlot q p true

/-- The first `m` steps of a pass with the device `r` alone on the bus: the bus's answers. -/
def aloneAnswers (r : Rom) (m : Nat) : List Bool := (List.range' 1 m).flatMap fun n => [romBit r n, !romBit r n]

/-- Those steps' trace (rule R213). -/
def aloneEvents (q : Params) (p : PinId) (r : Rom) (m : Nat) : List Event :=
  (List.range' 1 m).flatMap fun n =>
    readSlot q p (romBit r n) ++ readSlot q p (!romBit r n) ++ writeSlot q p (romBit r n)

/-- The last position at which both slots read 0 and `r`, the ROM of the pass's directions, has a 0; 0 if there is none
(rule R211). -/
def lastZeroIn (vs : Nat → Bool × Bool) (r : Rom) : Nat :=
  (List.range' 1 64).foldl (fun z n => if vs n = (false, false) ∧ romBit r n = false then n else z) 0

/-- The last position at which devices still on the bus disagree and `r` has a 0; 0 if there is none (rule R211). -/
def lastZeroOf (devs : List Rom) (r : Rom) : Nat := lastZeroIn (stepBits devs r) r

/-- The cursor after a pass that found `r` (rule R214). -/
def cursorAt (devs : List Rom) (r : Rom) : Cursor :=
  ⟨r, BitVec.ofNat 8 (lastZeroOf devs r), lastZeroOf devs r == 0⟩

/-- The cursor a search begins its next pass with, the passes before it having found `pre`: the seed, or the cursor at
the last of them (rules R212, R214 and R216). -/
def cursorAfter (devs pre : List Rom) : Cursor :=
  match pre.getLast? with
  | some r => cursorAt devs r
  | none => ⟨0, 0, false⟩

/-- A set of devices as a search meets it: at least one, CRC-valid ROMs other than 00 x8, listed in increasing order
of their search key, so distinct (rule R219). -/
def SearchDevices (devs : List Rom) : Prop :=
  devs ≠ [] ∧ (∀ d ∈ devs, crcValid d = true ∧ d ≠ 0) ∧ devs.Pairwise fun a b => searchKey a < searchKey b

/-- The answers to a whole search, the `i`-th pass's presence pulse at poll `ks i + 1`. -/
def searchAnswers (q : Params) (devs : List Rom) (ks : Nat → Nat) : (i : Nat) → List Rom → List Bool
  | _, [] => []
  | i, r :: rest => passAnswers q devs (ks i) r ++ searchAnswers q devs ks (i + 1) rest

/-- The trace of a whole search. -/
def searchEvents (q : Params) (p : PinId) (cmd : Byte) (devs : List Rom) (ks : Nat → Nat) :
    (i : Nat) → List Rom → List Event
  | _, [] => []
  | i, r :: rest => passEvents q p cmd devs (ks i) r ++ searchEvents q p cmd devs ks (i + 1) rest

end Sys2Proof.Machine
end

