-- ==== Sys2Proof/Certificates/Slice0/Obligations.lean ====
section
/-! DEFINITION. The statements for the provers. A bus is a premise on the answers it gives (`Presents`, rule R106); the
parameters are those of the state, whatever they are (rule R21). -/

open Sys2Proof Sys2Proof.Machine

/-! ## Encoding (30_encoding.md) -/

/-- Decoding what the encoder writes gives the command back, for every command and every operand (R70 to R74). -/
def Obligations.DecodeOfEncodeIsTheInstruction : Prop := ∀ i : Instr, decode (encode i) = .ok i

/-- A word that decodes is the very word the encoder writes: no bit is dropped (R70, R71, R76). -/
def Obligations.EncodeOfDecodeIsTheWord : Prop := ∀ (w : Word) (i : Instr), decode w = .ok i → encode i = w

/-- At most one row of the table selects a word, and a word decodes exactly when one does (R74). -/
def Obligations.WordSelectsAtMostOneRow : Prop :=
  ∀ w : Word,
    (opcodeTable.filter fun r => r.selects w).length ≤ 1 ∧
    ((∃ i, decode w = .ok i) ↔ (opcodeTable.filter fun r => r.selects w).length = 1)

/-- An unassigned `OP` and a 1 in a must-be-zero bit are usage faults of their own, with the codes 0x01 and 0x02, no
event and no other change (R75, R76, R245). -/
def Obligations.UnassignedAndReservedWordsFault : Prop :=
  ∀ (w : Word) (s : State), s.faulted = false →
    let op := (opField w).toNat
    let assigned := (0x10 ≤ op ∧ op ≤ 0x1C) ∨ (0x20 ≤ op ∧ op ≤ 0x2F)
    (¬ assigned → ∃ t, issueWord w s = .next t ∧ TakesUsageFault s t 0x01) ∧
    (assigned → (∀ r ∈ opcodeTable, r.selects w = false) →
      ∃ t, issueWord w s = .next t ∧ TakesUsageFault s t 0x02)

/-- A line whose operands fit assembles to one word, which decodes to the command it spells; a pseudo-command's word is
its expansion's; a line with an operand that does not fit makes no word (R78, R80). -/
def Obligations.AssembledLinesDecode : Prop :=
  (∀ l : Asm, l.wf = true → ∃ w, assemble l = some w ∧ decode w = .ok l.instr) ∧
  (∀ l : Asm, l.wf = false → assemble l = none) ∧
  (∀ a : Nat, a < 128 →
    assemble (.twWriteAddr a) = assemble (.twStartRw (2 * a + 0) 1) ∧
    assemble (.twReadAddr a) = assemble (.twStartRw (2 * a + 1) 1)) ∧
  assemble .twReadAck = assemble (.twReadByte 0) ∧ assemble .twReadNack = assemble (.twReadByte 1) ∧
  ∀ p cmd : Nat,
    assemble (.owSearchFirst p cmd) = assemble (.owSearchPass p cmd 1) ∧
    assemble (.owSearchNext p cmd) = assemble (.owSearchPass p cmd 0)

/-- Words written out from the spec's formats decode to the commands they stand for (R71 to R73). -/
def Obligations.ListedWordsDecode : Prop :=
  decode 0x10040500 = .ok (.twInit 4 5) ∧ decode 0x11030000 = .ok (.twSetSpeed 3) ∧
  decode 0x15010000 = .ok (.twReadByte true) ∧ decode 0x18410100 = .ok (.twStartRw 0x41 true) ∧
  decode 0x19501000 = .ok (.twStartWrite 0x50 0x10) ∧ decode 0x2C02F001 = .ok (.owSearchPass 2 0xF0 true) ∧
  decode 0x2E02F028 = .ok (.owSearchFamily 2 0xF0 0x28) ∧ decode 0x12010000 = .error .reservedField ∧
  decode 0x19801000 = .error .reservedField ∧ decode 0x1D000000 = .error .illegalOpcode

/-! ## The host's steps (10_state.md, 20_memory.md) -/

/-- A step takes the host's next command word off its list (log 3) and runs the command it decodes to; a word that
spells none is its usage fault; a word placed by `withFetchWord` is the next step's (R63, R66, R90). -/
def Obligations.StepRunsTheDecodedCommand : Prop :=
  (∀ (s : State) (w : Word) (i : Instr) (rest : List HostAction),
    s.host = .command w :: rest → decode w = .ok i → step s = exec i (s.withHost rest)) ∧
  (∀ (s : State) (w : Word) (e : DecodeError) (rest : List HostAction),
    s.host = .command w :: rest → decode w = .error e → s.faulted = false →
    ∃ t, step s = .next t ∧
      TakesUsageFault (s.withHost rest) t (match e with | .illegalOpcode => 0x01 | .reservedField => 0x02)) ∧
  ∀ (s : State) (i : Instr), step (s.withFetchWord 32 (encode i).toNat) = exec i s

/-- The host's write puts the bytes into `TXBUF` in increasing index and changes nothing else (R51, R60, R79); a byte
outside the buffer is the model's fault (log 9). -/
def Obligations.HostWritesTheTransmitBuffer : Prop :=
  ∀ (s : State) (i : Byte) (bytes : List Byte) (rest : List HostAction), s.host = .writeTx i bytes :: rest →
    (i.toNat + bytes.length ≤ s.params.txbufSize →
      ∃ t, step s = .next t ∧ t = { s with txbuf := t.txbuf, host := rest } ∧
        ∀ j, Memory.read t.txbuf j =
          if i.toNat ≤ j ∧ j < i.toNat + bytes.length then bytes[j - i.toNat]? else Memory.read s.txbuf j) ∧
    (s.params.txbufSize < i.toNat + bytes.length → step s = .fault .txbufOutOfRange)

/-- Right after reset the host reads what R270 lists, and every register, byte and entry that is unspecified or absent
is the usage fault `ABSENT_READ` (R39, R58, R270). -/
def Obligations.ResetRegistersReadAsListed : Prop :=
  (∀ nv ∈ [(HostName.status, 0), (.result, 0), (.faulted, 0), (.faultReason, 0), (.twInitialized, 0), (.twInTx, 0),
      (.owLastDisc, 0), (.owLastDev, 0), (.twDevCount, 0), (.owDevCount, 0)],
    hostReads nv.1 0 State.reset = .next { State.reset with hostSeen := [.value nv.2] }) ∧
  (∀ i, i < 8 → hostReads .owPrevRom i State.reset = .next { State.reset with hostSeen := [.value 0] }) ∧
  hostReads .twMaxStretch 0 State.reset =
    .next { State.reset with hostSeen := [.value State.reset.params.maxStretch] } ∧
  (∀ p, State.reset.pin p = ⟨.rel, .unconf⟩) ∧
  (∀ n ∈ [HostName.twSclPin, .twSdaPin, .twSpeed, .twShort, .twLong, .twDevList, .owDevList, .rxbuf], ∀ i,
    ∃ t, hostReads n i State.reset = .next t ∧ t.faulted = true ∧ t.faultReason = 0x0C) ∧
  State.reset.trace = []

/-- In every state a host read of what is there returns it and changes nothing else, and a read of what is unspecified or
absent takes `ABSENT_READ`, code 0x0C, a reason already there staying (R39, R58, R60, R79, R245). When the speed
registers are there, and that an element other than 0 of a register of one element is absent, is log 8; that a faulted
block is read the same way is log 13; that reading `TXBUF` is a fault of the model is log 9. -/
def Obligations.HostReadsReturnWhatIsThere : Prop :=
  ∀ (s : State) (n : HostName) (i : Nat) (rest : List HostAction), s.host = .read n i :: rest →
    let sees (v : HostValue) := step s = .next { s with host := rest, hostSeen := v :: s.hostSeen }
    let absent :=
      step s = .next
        { s with host := rest, faulted := true, faultReason := if s.faulted then s.faultReason else 0x0C }
    let reads (present : Bool) (v : Nat) := if i = 0 ∧ present = true then sees (.value v) else absent
    match n with
    | .status => reads true s.status.toNat
    | .result => reads true s.result.toNat
    | .faulted => reads true s.faulted.toNat
    | .faultReason => reads true s.faultReason.toNat
    | .twInitialized => reads true s.tw.initialized.toNat
    | .twSclPin => reads s.tw.initialized s.tw.sclPin.toNat
    | .twSdaPin => reads s.tw.initialized s.tw.sdaPin.toNat
    | .twInTx => reads true s.tw.inTx.toNat
    | .twMaxStretch => reads true s.tw.maxStretch.toNat
    | .twSpeed => reads s.tw.speedWritten s.tw.speed.toNat
    | .twShort => reads s.tw.speedWritten s.tw.short.toNat
    | .twLong => reads s.tw.speedWritten s.tw.long.toNat
    | .owPrevRom => if i < 8 then sees (.value (s.cursor.prevRom.toNat / 256 ^ i % 256)) else absent
    | .owLastDisc => reads true s.cursor.lastDisc.toNat
    | .owLastDev => reads true s.cursor.lastDev.toNat
    | .twDevCount => reads true (s.twDevList.length % 256)
    | .owDevCount => reads true s.owDevList.length
    | .twDevList => (∀ b, s.twDevList[i]? = some b → sees (.value b.toNat)) ∧ (s.twDevList.length ≤ i → absent)
    | .owDevList => (∀ r, s.owDevList[i]? = some r → sees (.record r)) ∧ (s.owDevList.length ≤ i → absent)
    | .rxbuf =>
      (∀ b, Memory.read s.rxbuf i = some b → sees (.value b.toNat)) ∧ (Memory.read s.rxbuf i = none → absent)
    | .txbuf => step s = .fault .txbufNotReadable

/-- `FAULTED` and `TW_INITIALIZED` are cleared by no command and no action of the host but a power cycle,
`FAULT_REASON` keeps the first reason, and a faulted block runs no command: every command is the model's fault
`blockFaulted` (R26, R27, R244, R271; log 4). -/
def Obligations.OnlyResetClearsTheFault : Prop :=
  ∀ s : State,
    (∀ i, s.faulted = true → exec i s = .fault .blockFaulted) ∧
    ∀ t, step s = .next t → s.host.head? ≠ some .powerCycle →
      (s.faulted = true → t.faulted = true ∧ t.faultReason = s.faultReason) ∧
      (s.tw.initialized = true → t.tw.initialized = true)

/-- A power cycle leaves the block as it is right after reset, with the parameters it had; what the host and the bus
hold outside the block stays (R256, R270; the model's choice of what stays is log 12). -/
def Obligations.PowerCycleResetsTheBlock : Prop :=
  ∀ (s : State) (rest : List HostAction), s.host = .powerCycle :: rest →
    ∃ t, step s = .next t ∧
      t = { State.resetWith s.params with
        history := s.history, hpc := s.hpc, host := rest, hostSeen := s.hostSeen, bus := s.bus, draws := s.draws }

/-! ## Rules of the whole machine -/

/-- A command takes a usage fault exactly when a check of its family or of its own rule fails, the first in order naming
the reason, whose code R245's table gives, with no event and nothing else changed (R130, R180, R245, R246). -/
def Obligations.UsageFaultExactlyWhenChecked : Prop :=
  ∀ (i : Instr) (s : State), s.faulted = false →
    (∀ u, usageOf i s = some u → ∃ t, exec i s = .next t ∧ TakesUsageFault s t (reasonCode u)) ∧
    (usageOf i s = none → ∃ t, exec i s = .next t ∧ t.faulted = false)

/-- A command that passes its checks completes, whatever the bus answers: `STATUS` is written, the host's index moves
by 1 and the completion is observed; an error is a completion too (R23, R24, R240, R242). -/
def Obligations.CheckedCommandsComplete : Prop :=
  ∀ (i : Instr) (s : State), Ready i s →
    ∃ t, exec i s = .next t ∧ Completes s t t.status t.result t.trace ∧ t.status.toNat ≤ 0x0B ∧ KeepsOutside s t

/-- Every step keeps the invariant of the states between commands (R38 and the rules its parts cite; the canonical forms
of the model's own data are log 10). -/
def Obligations.EveryStepKeepsTheInvariant : Prop := ∀ s t : State, s.Inv → step s = .next t → t.Inv

/-- The state right after reset meets the invariant (R270, R38), whatever the free parameters of R3 are. -/
def Obligations.ResetMeetsTheInvariant : Prop := State.reset.Inv

/-- Whatever the bus answers, each pin ends as the command's trace says: `Cfg`, `Low` and `Rel` are the only changes of
a pin, and each is recorded (R36, R101 to R105). -/
def Obligations.PinsFollowTheTrace : Prop :=
  ∀ (i : Instr) (s t : State), exec i s = .next t → ∀ p, t.pin p = pinAfter p (s.pin p) t.trace

/-- No command samples a pin between a `Low` of it and its release, even if the pin was low when the command began
(R107). -/
def Obligations.NeverSamplesADrivenLine : Prop :=
  ∀ (i : Instr) (s t : State), exec i s = .next t → ∀ p m, neverSamplesLow p ⟨.low, m⟩ t.trace

/-- The levels a trace records are the bus's next answers, in order, each used once (R61, R104, R106). -/
def Obligations.SamplesAreTheBusAnswers : Prop :=
  ∀ (i : Instr) (s t : State), exec i s = .next t →
    t.trace.filterMap sampledLevel = (List.range (sampleCount t.trace)).map s.answer ∧
    ∀ j, t.answer j = s.answer (sampleCount t.trace + j)

/-- No command hangs, whatever the bus answers: its trace is no longer than its bound (R279). -/
def Obligations.EveryCommandIsBounded : Prop :=
  ∀ (i : Instr) (s t : State), s.TwInv → exec i s = .next t → t.trace.length ≤ eventBound i s

/-- `TW_MAX_STRETCH` and the parameters never change, and the two-wire pins only when `TW_INITIALIZED` goes from 0 to 1
(R28, R30). -/
def Obligations.FixedRegistersStay : Prop :=
  ∀ (i : Instr) (s t : State), exec i s = .next t →
    t.params = s.params ∧ t.tw.maxStretch = s.tw.maxStretch ∧
    (t.tw.sclPin ≠ s.tw.sclPin ∨ t.tw.sdaPin ≠ s.tw.sdaPin ∨ t.tw.initialized ≠ s.tw.initialized →
      s.tw.initialized = false ∧ t.tw.initialized = true)

/-- The transaction flag after each command that completed (R146; that a scan which probes no address leaves it is the
model's reading, log 21). -/
def Obligations.TransactionFlagFollowsTheStateMachine : Prop :=
  ∀ (i : Instr) (s t : State), s.TwInv → exec i s = .next t → t.faulted = false →
    match i with
    | .twStart | .twStartWrite _ _ | .twStartRead _ _ => t.tw.inTx = decide (t.status = 0x00)
    | .twStop => t.tw.inTx = false
    | .twWriteByte _ | .twReadByte _ | .twWriteBytes _ | .twReadBytes _ =>
      s.tw.inTx = true ∧ t.tw.inTx = decide (t.status = 0x00)
    | .twStartRw _ son => t.tw.inTx = (decide (t.status = 0x00) || decide (t.status = 0x05) && !son)
    | .twScan => probed s.params ≠ [] → t.tw.inTx = false
    | _ => t.tw.inTx = s.tw.inTx

/-- After every two-wire error but `InitConflict`, which leaves the bus untouched (R131, R247; log 20), and `NoAck` of
`TW_START_RW` with `son = 0`, the flag is clear and both lines are released; after that `NoAck` the transaction is open
and the clock driven low (R248). -/
def Obligations.TwoWireErrorsReleaseTheBus : Prop :=
  ∀ (i : Instr) (s t : State), s.Inv → exec i s = .next t → t.faulted = false →
    (match i with
      | .twStart | .twStop | .twWriteByte _ | .twReadByte _ | .twWriteBytes _ | .twReadBytes _ | .twStartRw _ _
      | .twStartWrite _ _ | .twStartRead _ _ | .twScan => True
      | _ => False) →
    t.status ≠ 0x00 →
    if (∃ ab, i = .twStartRw ab false) ∧ t.status = 0x05 then
      t.tw.inTx = true ∧ (t.pin t.tw.sclPin).drive = .low
    else
      t.tw.inTx = false ∧ (t.pin t.tw.sclPin).drive = .rel ∧ (t.pin t.tw.sdaPin).drive = .rel

/-- The cursor changes only when a search seeds it or a pass of one succeeds: after an `OW_SEARCH_PASS` that ends in an
error it is as it was, or the seed (R35, R214). -/
def Obligations.CursorChangesOnlyOnSuccessOrSeed : Prop :=
  ∀ (i : Instr) (s t : State), exec i s = .next t →
    t.cursor = s.cursor ∨
    (t.cursor = ⟨0, 0, false⟩ ∧
      ((∃ p cmd, i = .owSearchPass p cmd true) ∨ (∃ p cmd, i = .owSearch p cmd) ∨
        ∃ p cmd f, i = .owSearchFamily p cmd f)) ∨
    (((∃ p cmd sd, i = .owSearchPass p cmd sd) ∧ t.status = 0x00 ∨ (∃ p cmd, i = .owSearch p cmd) ∨
        ∃ p cmd f, i = .owSearchFamily p cmd f) ∧
      t.cursor.prevRom ≠ 0 ∧ crcValid t.cursor.prevRom = true ∧
      (t.cursor.lastDev = true ↔ t.cursor.lastDisc = 0))

/-- `RESULT` is unchanged by a command whose rule does not write it, by an error and by a usage fault (R25). -/
def Obligations.ResultIsWrittenOnlyOnSuccess : Prop :=
  ∀ (i : Instr) (s t : State), exec i s = .next t →
    writesResult i = false ∨ t.faulted = true ∨ t.status ≠ 0x00 → t.result = s.result

/-- No command writes `TXBUF`, and a command writes `RXBUF` only below its length (R50, R51). -/
def Obligations.CommandsKeepTheBuffers : Prop :=
  ∀ (i : Instr) (s t : State), exec i s = .next t →
    KeepsTx s t ∧ ∀ j, rxLen i ≤ j → Memory.read t.rxbuf j = Memory.read s.rxbuf j

/-- The device lists change only by the scan, the searches and the releases; a scan that fails leaves its list empty, and
so does a search that fails once its passes have begun (R54, R55). `BadCommand` and `RootNotEmpty`, status 0x02 and
0x0A, which a search raises before its passes, are excepted: that they leave the list is the model's reading of R216,
whose text says that the list is empty after an error (log 22). -/
def Obligations.FailuresEmptyTheLists : Prop :=
  ∀ (i : Instr) (s t : State), exec i s = .next t →
    (t.twDevList ≠ s.twDevList → i = .twScan ∨ i = .twFree) ∧
    (t.owDevList ≠ s.owDevList →
      (∃ p cmd, i = .owSearch p cmd) ∨ (∃ p cmd f, i = .owSearchFamily p cmd f) ∨ i = .owFree) ∧
    (i = .twScan → t.faulted = false → t.status ≠ 0x00 → t.twDevList = []) ∧
    ((∃ p cmd, i = .owSearch p cmd) ∨ (∃ p cmd f, i = .owSearchFamily p cmd f) → t.faulted = false →
      t.status ≠ 0x00 → t.status ≠ 0x02 → t.status ≠ 0x0A → t.owDevList = [])

/-! ## Two-wire commands (41_twowire.md) -/

/-- `TW_INIT`, case by case as its pseudocode lists them; 0x05 is `BAD_PIN`, 0x06 `SAME_PIN`, 0x07 `PIN_OWNED` (R131,
R245). -/
def Obligations.TwInitFollowsItsRule : Prop :=
  ∀ (c d : PinId) (s : State), s.faulted = false → s.params.Valid →
    ∃ t, exec (.twInit c d) s = .next t ∧
      if s.params.numPins ≤ c.toNat ∨ s.params.numPins ≤ d.toNat then TakesUsageFault s t 0x05
      else if c = d then TakesUsageFault s t 0x06
      else if s.tw.initialized = true then
        (if c = s.tw.sclPin ∧ d = s.tw.sdaPin then QuietDone s t 0x00 s.result else QuietDone s t 0x01 s.result)
      else if (s.pin c).mode = .inputPullup ∨ (s.pin d).mode = .inputPullup then TakesUsageFault s t 0x07
      else
        Completes s t 0x00 s.result [.cfg c .input, .cfg d .input] ∧ KeepsOutside s t ∧ t.cursor = s.cursor ∧
        KeepsBuffers s t ∧ KeepsLists s t ∧ KeepsOtherPins s t [c, d] ∧
        t.pin c = ⟨.rel, .input⟩ ∧ t.pin d = ⟨.rel, .input⟩ ∧
        t.tw.initialized = true ∧ t.tw.sclPin = c ∧ t.tw.sdaPin = d ∧ t.tw.inTx = false ∧
        t.tw.maxStretch = s.tw.maxStretch ∧ t.tw.speed = s.params.defaultSpeed ∧
        t.tw.short.toNat = shortDelay s.params s.params.defaultSpeed ∧
        t.tw.long.toNat = 2 * shortDelay s.params s.params.defaultSpeed

/-- `TW_SET_SPEED`: the three speed registers, at any time, with no event (R114, R132). -/
def Obligations.TwSetSpeedWritesTheDelays : Prop :=
  ∀ (lvl : BitVec 2) (s : State), s.faulted = false → s.params.Valid →
    ∃ t, exec (.twSetSpeed lvl) s = .next t ∧ Completes s t 0x00 s.result [] ∧ KeepsOutside s t ∧
      t.cursor = s.cursor ∧ KeepsBuffers s t ∧ KeepsLists s t ∧ KeepsOtherPins s t [] ∧
      t.tw.speed = lvl ∧ t.tw.short.toNat = shortDelay s.params lvl ∧ t.tw.long.toNat = 2 * shortDelay s.params lvl ∧
      t.tw.initialized = s.tw.initialized ∧ t.tw.sclPin = s.tw.sclPin ∧ t.tw.sdaPin = s.tw.sdaPin ∧
      t.tw.inTx = s.tw.inTx ∧ t.tw.maxStretch = s.tw.maxStretch

/-- `TW_START` on an idle bus: the START, `ArbitrationLost` where the data line reads low, `LongClockStretch` where the
clock stays low (R133). -/
def Obligations.TwStartOnAnIdleBus : Prop :=
  ∀ s : State, Ready .twStart s → s.TwInv → s.tw.inTx = false →
    (∀ k, k < s.tw.maxStretch.toNat → Presents s (startAnswers false k) →
      ∃ t, exec .twStart s = .next t ∧ TwDone s t 0x00 s.result (startEvents false s.line k) true .low .rel) ∧
    (Presents s [false] →
      ∃ t, exec .twStart s = .next t ∧
        TwDone s t 0x03 s.result
          ([.rel s.line.sda, .rel s.line.scl, .wait s.line.S, .sample s.line.sda false] ++ failFastEvents s.line)
          false .rel .rel) ∧
    (Presents s (true :: List.replicate s.tw.maxStretch.toNat false) →
      ∃ t, exec .twStart s = .next t ∧
        TwDone s t 0x04 s.result (startHead false s.line ++ stretchOutEvents s.line s.tw.maxStretch.toNat)
          false .rel .rel)

/-- `TW_START` inside a transaction: the repeated START, or `LongClockStretch`; the data line is not checked (R134). -/
def Obligations.TwStartInATransaction : Prop :=
  ∀ s : State, Ready .twStart s → s.TwInv → s.tw.inTx = true →
    (∀ k, k < s.tw.maxStretch.toNat → Presents s (startAnswers true k) →
      ∃ t, exec .twStart s = .next t ∧ TwDone s t 0x00 s.result (startEvents true s.line k) true .low .rel) ∧
    (Presents s (List.replicate s.tw.maxStretch.toNat false) →
      ∃ t, exec .twStart s = .next t ∧
        TwDone s t 0x04 s.result (startHead true s.line ++ stretchOutEvents s.line s.tw.maxStretch.toNat)
          false .rel .rel)

/-- `TW_STOP`: `StopOutsideTransaction` with no event outside a transaction, also before `TW_INIT`; the STOP inside one,
or `LongClockStretch` (R135). -/
def Obligations.TwStopFollowsItsRule : Prop :=
  ∀ s : State, s.faulted = false →
    (s.tw.inTx = false → ∃ t, exec .twStop s = .next t ∧ QuietDone s t 0x09 s.result) ∧
    (s.tw.inTx = true → s.TwInv →
      (∀ k, k < s.tw.maxStretch.toNat → Presents s (riseAnswers k) →
        ∃ t, exec .twStop s = .next t ∧ TwDone s t 0x00 s.result (stopEvents s.line k) false .rel .rel) ∧
      (Presents s (List.replicate s.tw.maxStretch.toNat false) →
        ∃ t, exec .twStop s = .next t ∧
          TwDone s t 0x04 s.result
            ([.low s.line.sda, .wait s.line.S, .rel s.line.scl] ++ stretchOutEvents s.line s.tw.maxStretch.toNat)
            false .rel .rel))

/-- `TW_WRITE_BYTE`: nine ticks, bit 7 first, the acknowledge level in `RESULT`, which a NACK does not make an error; or
`LongClockStretch` at any of the nine (R136). -/
def Obligations.TwWriteByteFollowsItsRule : Prop :=
  ∀ (x : Byte) (s : State) (st : Nat → Nat), Ready (.twWriteByte x) s → s.TwInv →
    (∀ j, st j < s.tw.maxStretch.toNat) →
    (∀ a : Bool, Presents s (writeByteAnswers st a) →
      ∃ t, exec (.twWriteByte x) s = .next t ∧
        TwDone s t 0x00 (if a then 0x01 else 0x00) (writeByteEvents s.line st x a) true .low .rel) ∧
    ∀ j, j < 9 → Presents s (writeHeldAnswers st j s.tw.maxStretch.toNat) →
      ∃ t, exec (.twWriteByte x) s = .next t ∧
        TwDone s t 0x04 s.result (writeHeldEvents s.line st x j s.tw.maxStretch.toNat) false .rel .rel

/-- `TW_READ_BYTE`: eight bits received, bit 7 first, then the acknowledge level sent; or `LongClockStretch` at any of
the nine ticks (R137). -/
def Obligations.TwReadByteFollowsItsRule : Prop :=
  ∀ (k : Bool) (x : Byte) (s : State) (st : Nat → Nat), Ready (.twReadByte k) s → s.TwInv →
    (∀ j, st j < s.tw.maxStretch.toNat) →
    (Presents s (readByteAnswers st x) →
      ∃ t, exec (.twReadByte k) s = .next t ∧
        TwDone s t 0x00 x (readByteEvents s.line st x k) true .low .rel) ∧
    ∀ j, j < 9 → Presents s (readHeldAnswers st x j s.tw.maxStretch.toNat) →
      ∃ t, exec (.twReadByte k) s = .next t ∧
        TwDone s t 0x04 s.result (readHeldEvents s.line st x k j s.tw.maxStretch.toNat) false .rel .rel

/-- `TW_WRITE_BYTES`: the bytes of `TXBUF` in increasing index; the first NACK fails fast with `NoAck` and the bytes
after it are not sent; or `LongClockStretch` in any tick (R138). -/
def Obligations.TwWriteBytesFollowsItsRule : Prop :=
  ∀ (len : Byte) (xs : List Byte) (s : State) (st : Nat → Nat → Nat), Ready (.twWriteBytes len) s → s.TwInv →
    xs.length = len.toNat → (∀ i, i < len.toNat → Memory.read s.txbuf i = xs[i]?) →
    (∀ i j, st i j < s.tw.maxStretch.toNat) →
    (Presents s (writeBytesAnswers st 0 len.toNat) →
      ∃ t, exec (.twWriteBytes len) s = .next t ∧
        TwDone s t 0x00 s.result (writeBytesEvents s.line st 0 xs) true .low .rel) ∧
    ∀ pre x post, xs = pre ++ x :: post →
      (Presents s (writeBytesAnswers st 0 pre.length ++ writeByteAnswers (st pre.length) true) →
        ∃ t, exec (.twWriteBytes len) s = .next t ∧
          TwDone s t 0x05 s.result
            (writeBytesEvents s.line st 0 pre ++ writeByteEvents s.line (st pre.length) x true ++
              failFastEvents s.line) false .rel .rel) ∧
      ∀ j, j < 9 →
        Presents s (writeBytesAnswers st 0 pre.length ++
          writeHeldAnswers (st pre.length) j s.tw.maxStretch.toNat) →
        ∃ t, exec (.twWriteBytes len) s = .next t ∧
          TwDone s t 0x04 s.result
            (writeBytesEvents s.line st 0 pre ++
              writeHeldEvents s.line (st pre.length) x j s.tw.maxStretch.toNat) false .rel .rel

/-- `TW_READ_BYTES`: `len` bytes into `RXBUF` from index 0, ACK after each but NACK after the last; at a
`LongClockStretch` the bytes completed stay written (R139). -/
def Obligations.TwReadBytesFollowsItsRule : Prop :=
  ∀ (len : Byte) (xs : List Byte) (s : State) (st : Nat → Nat → Nat), Ready (.twReadBytes len) s → s.TwInv →
    xs.length = len.toNat → (∀ i j, st i j < s.tw.maxStretch.toNat) →
    let rest (t : State) (b : Bool) (c : Drive) :=
      KeepsOutside s t ∧ t.tw = { s.tw with inTx := b } ∧ t.cursor = s.cursor ∧ KeepsTx s t ∧ KeepsLists s t ∧
      KeepsOtherPins s t s.twPins ∧ TwLinesAre s t c .rel
    (Presents s (readBytesAnswers st 0 xs) →
      ∃ t, exec (.twReadBytes len) s = .next t ∧
        Completes s t 0x00 s.result (readBytesEvents s.line st 0 xs) ∧ RxHolds s t xs ∧ rest t true .low) ∧
    ∀ pre x post, xs = pre ++ x :: post → ∀ j, j < 9 →
      Presents s (readBytesAnswers st 0 pre ++ readHeldAnswers (st pre.length) x j s.tw.maxStretch.toNat) →
      ∃ t, exec (.twReadBytes len) s = .next t ∧
        Completes s t 0x04 s.result
          (readAckedEvents s.line st 0 pre ++
            readHeldEvents s.line (st pre.length) x post.isEmpty j s.tw.maxStretch.toNat) ∧
        RxHolds s t pre ∧ rest t false .rel

/-- `TW_START_RW`: a START and the address byte; a NACK is `NoAck`, after a STOP when `son` is 1, whose clock-stretch
failure is not reported; or the failures of the START and of the byte (R140). -/
def Obligations.TwStartRwFollowsItsRule : Prop :=
  ∀ (ab : Byte) (son : Bool) (s : State) (st : Nat → Nat), Ready (.twStartRw ab son) s → s.TwInv →
    (∀ j, st j < s.tw.maxStretch.toNat) →
    let n := s.tw.maxStretch.toNat
    let done := fun (code : Byte) (trace : List Event) (b : Bool) (c : Drive) =>
      ∃ t, exec (.twStartRw ab son) s = .next t ∧ TwDone s t code s.result trace b c .rel
    (Presents s (addressAnswers s.tw.inTx st false) →
      done 0x00 (addressEvents s.tw.inTx s.line st ab false) true .low) ∧
    (son = false → Presents s (addressAnswers s.tw.inTx st true) →
      done 0x05 (addressEvents s.tw.inTx s.line st ab true) true .low) ∧
    (son = true → Presents s (addressAnswers s.tw.inTx st true ++ riseAnswers (st 10)) →
      done 0x05 (addressEvents s.tw.inTx s.line st ab true ++ stopEvents s.line (st 10)) false .rel) ∧
    (son = true → Presents s (addressAnswers s.tw.inTx st true ++ List.replicate n false) →
      done 0x05
        (addressEvents s.tw.inTx s.line st ab true ++ [.low s.line.sda, .wait s.line.S, .rel s.line.scl] ++
          stretchOutEvents s.line n) false .rel) ∧
    (s.tw.inTx = false → Presents s [false] →
      done 0x03
        ([.rel s.line.sda, .rel s.line.scl, .wait s.line.S, .sample s.line.sda false] ++ failFastEvents s.line)
        false .rel) ∧
    (Presents s ((if s.tw.inTx then [] else [true]) ++ List.replicate n false) →
      done 0x04 (startHead s.tw.inTx s.line ++ stretchOutEvents s.line n) false .rel) ∧
    ∀ j, j < 9 →
      Presents s (startAnswers s.tw.inTx (st 0) ++ writeHeldAnswers (fun i => st (i + 1)) j n) →
      done 0x04 (startEvents s.tw.inTx s.line (st 0) ++ writeHeldEvents s.line (fun i => st (i + 1)) ab j n) false .rel

/-- `TW_START_WRITE`: it ends as `TW_START_RW` on the write address byte with `son = 1` does where that fails; where the
address is acknowledged the register byte follows, whose NACK fails fast with `NoAck` (R141). -/
def Obligations.TwStartWriteFollowsItsRule : Prop :=
  ∀ (a : BitVec 7) (r : Byte) (s : State) (st st' : Nat → Nat), Ready (.twStartWrite a r) s → s.TwInv →
    (∀ j, st j < s.tw.maxStretch.toNat) → (∀ j, st' j < s.tw.maxStretch.toNat) →
    let n := s.tw.maxStretch.toNat
    let done := fun (code : Byte) (trace : List Event) (b : Bool) (c : Drive) =>
      ∃ t, exec (.twStartWrite a r) s = .next t ∧
        TwDone s t code s.result (addressEvents s.tw.inTx s.line st (addrByte a 0) false ++ trace) b c .rel
    (Presents s (addressAnswers s.tw.inTx st false ++ writeByteAnswers st' false) →
      done 0x00 (writeByteEvents s.line st' r false) true .low) ∧
    (Presents s (addressAnswers s.tw.inTx st false ++ writeByteAnswers st' true) →
      done 0x05 (writeByteEvents s.line st' r true ++ failFastEvents s.line) false .rel) ∧
    (∀ j, j < 9 → Presents s (addressAnswers s.tw.inTx st false ++ writeHeldAnswers st' j n) →
      done 0x04 (writeHeldEvents s.line st' r j n) false .rel) ∧
    ∀ t, exec (.twStartRw (addrByte a 0) true) s = .next t → t.status ≠ 0x00 → exec (.twStartWrite a r) s = .next t

/-- `TW_START_READ`: it ends as `TW_START_WRITE` does where that fails; else a repeated START and the read address byte
follow, whose NACK is stopped, with the failures of `TW_START_RW` (R142). -/
def Obligations.TwStartReadFollowsItsRule : Prop :=
  ∀ (a : BitVec 7) (r : Byte) (s : State) (st st' st'' : Nat → Nat), Ready (.twStartRead a r) s → s.TwInv →
    (∀ j, st j < s.tw.maxStretch.toNat) → (∀ j, st' j < s.tw.maxStretch.toNat) →
    (∀ j, st'' j < s.tw.maxStretch.toNat) →
    let n := s.tw.maxStretch.toNat
    let done := fun (ans : List Bool) (code : Byte) (trace : List Event) (b : Bool) (c : Drive) =>
      Presents s (addressAnswers s.tw.inTx st false ++ writeByteAnswers st' false ++ ans) →
      ∃ t, exec (.twStartRead a r) s = .next t ∧
        TwDone s t code s.result
          (addressEvents s.tw.inTx s.line st (addrByte a 0) false ++ writeByteEvents s.line st' r false ++ trace)
          b c .rel
    done (addressAnswers true st'' false) 0x00 (addressEvents true s.line st'' (addrByte a 1) false) true .low ∧
    done (addressAnswers true st'' true ++ riseAnswers (st'' 10)) 0x05
      (addressEvents true s.line st'' (addrByte a 1) true ++ stopEvents s.line (st'' 10)) false .rel ∧
    done (addressAnswers true st'' true ++ List.replicate n false) 0x05
      (addressEvents true s.line st'' (addrByte a 1) true ++ [.low s.line.sda, .wait s.line.S, .rel s.line.scl] ++
        stretchOutEvents s.line n) false .rel ∧
    done (List.replicate n false) 0x04 (startHead true s.line ++ stretchOutEvents s.line n) false .rel ∧
    (∀ j, j < 9 →
      done (startAnswers true (st'' 0) ++ writeHeldAnswers (fun i => st'' (i + 1)) j n) 0x04
        (startEvents true s.line (st'' 0) ++ writeHeldEvents s.line (fun i => st'' (i + 1)) (addrByte a 1) j n)
        false .rel) ∧
    ∀ t, exec (.twStartWrite a r) s = .next t → t.status ≠ 0x00 → exec (.twStartRead a r) s = .next t

/-- `TW_SCAN`: every address 1 to 127 that is not reserved is probed in ascending order and each that acknowledges is
listed; the bus is stopped after each probe, and a STOP after a NACK whose clock is held low is not reported (R140). A
device too many is `OutOfMemory`; a probe at which the bus is driven by another master or the clock held low is
`ArbitrationLost` or `LongClockStretch` and ends the scan; both empty the list (R143). A scan that probes no address
issues no event and leaves `TW_IN_TX`, which is the model's reading (log 21). -/
def Obligations.TwScanListsTheAnsweringAddresses : Prop :=
  ∀ (s : State) (st : BitVec 7 → Nat → Nat) (pr : BitVec 7 → Probe), Ready .twScan s → s.TwInv →
    (∀ a j, st a j < s.tw.maxStretch.toNat) →
    let n := s.tw.maxStretch.toNat
    let answers := scanAnswers n st pr s.tw.inTx
    let events := scanEvents s.line n st pr s.tw.inTx
    let found (as : List (BitVec 7)) := (as.filter fun a => pr a = .acked).map fun a => BitVec.ofNat 8 a.toNat
    let done (ans : List Bool) (code result : Byte) (trace : List Event) (l : List Byte) :=
      Presents s ans →
      ∃ t, exec .twScan s = .next t ∧
        Completes s t code result trace ∧ KeepsOutside s t ∧ t.tw = { s.tw with inTx := false } ∧
        t.cursor = s.cursor ∧ KeepsBuffers s t ∧ t.twDevList = l ∧ t.owDevList = s.owDevList ∧
        KeepsOtherPins s t s.twPins ∧ TwLinesAre s t .rel .rel
    (probed s.params ≠ [] → (found (probed s.params)).length ≤ s.params.maxTwDevices →
      done (answers (probed s.params)) 0x00 (BitVec.ofNat 8 (found (probed s.params)).length)
        (events (probed s.params)) (found (probed s.params))) ∧
    (probed s.params = [] →
      ∃ t, exec .twScan s = .next t ∧ Completes s t 0x00 0x00 [] ∧ KeepsOutside s t ∧ t.tw = s.tw ∧
        t.cursor = s.cursor ∧ KeepsBuffers s t ∧ t.twDevList = [] ∧ t.owDevList = s.owDevList ∧
        KeepsOtherPins s t []) ∧
    ∀ pre a post, probed s.params = pre ++ a :: post →
      (pr a = .acked → (found pre).length = s.params.maxTwDevices →
        done (answers (pre ++ [a])) 0x0B s.result (events (pre ++ [a])) []) ∧
      ((found pre).length ≤ s.params.maxTwDevices →
        let inTx := s.tw.inTx && pre.isEmpty
        let stops (ans : List Bool) (code : Byte) (trace : List Event) :=
          done (answers pre ++ ans) code s.result (events pre ++ trace) []
        (inTx = false →
          stops [false] 0x03
            ([.rel s.line.sda, .rel s.line.scl, .wait s.line.S, .sample s.line.sda false] ++ failFastEvents s.line)) ∧
        stops ((if inTx then [] else [true]) ++ List.replicate n false) 0x04
          (startHead inTx s.line ++ stretchOutEvents s.line n) ∧
        (∀ j, j < 9 →
          stops (startAnswers inTx (st a 0) ++ writeHeldAnswers (fun i => st a (i + 1)) j n) 0x04
            (startEvents inTx s.line (st a 0) ++
              writeHeldEvents s.line (fun i => st a (i + 1)) (addrByte a 0) j n)) ∧
        stops (addressAnswers inTx (st a) false ++ List.replicate n false) 0x04
          (addressEvents inTx s.line (st a) (addrByte a 0) false ++ stopHeldEvents s.line n))

/-- Under the default set the scan probes the 112 addresses 0x08 to 0x77 in ascending order (R144). -/
def Obligations.DefaultProbesAreTheMiddleAddresses : Prop :=
  ∀ q : Params, q.reservedAddrs = defaultReservedAddrs →
    probed q = (List.range' 0x08 112).map (BitVec.ofNat 7) ∧ (probed q).head? = some 0x08 ∧
    (probed q).getLast? = some 0x77

/-- `TW_FREE` and `OW_FREE` empty their list, with no event and no check (R145, R218). -/
def Obligations.ReleasesEmptyTheirList : Prop :=
  ∀ s : State, s.faulted = false →
    (∃ t, exec .twFree s = .next t ∧ Completes s t 0x00 s.result [] ∧ KeepsOutside s t ∧ t.tw = s.tw ∧
      t.cursor = s.cursor ∧ KeepsBuffers s t ∧ t.twDevList = [] ∧ t.owDevList = s.owDevList ∧
      KeepsOtherPins s t []) ∧
    ∃ t, exec .owFree s = .next t ∧ Completes s t 0x00 s.result [] ∧ KeepsOutside s t ∧ t.tw = s.tw ∧
      t.cursor = s.cursor ∧ KeepsBuffers s t ∧ t.twDevList = s.twDevList ∧ t.owDevList = [] ∧
      KeepsOtherPins s t []

/-! ## One-wire commands (42_onewire.md) -/

/-- `OW_INIT` configures its pin as an input with pull-up (R181). -/
def Obligations.OwInitConfiguresThePin : Prop :=
  ∀ (p : PinId) (s : State), Ready (.owInit p) s →
    ∃ t, exec (.owInit p) s = .next t ∧ Completes s t 0x00 s.result [.cfg p .inputPullup] ∧ KeepsAllBut s t [p] ∧
      t.pin p = ⟨.rel, .inputPullup⟩

/-- `OW_RESET`: the pulse, the polls up to the first that reads low, the pad to the full high period; `RESULT` says
whether presence was seen (R183). -/
def Obligations.OwResetFollowsItsRule : Prop :=
  ∀ (p : PinId) (s : State) (o : Option Nat), Ready (.owReset p) s → (∀ k, o = some k → k < s.params.owPresPolls) →
    Presents s (owResetAnswers s.params o) →
    ∃ t, exec (.owReset p) s = .next t ∧
      OwDone s t 0x00 (if o.isSome then 0x01 else 0x00) (owResetEvents s.params p o) p

/-- `OW_READ_BIT` and `OW_WRITE_BIT`: one slot each (R182, R184, R185). -/
def Obligations.OwBitsAreOneSlot : Prop :=
  ∀ (p : PinId) (s : State),
    (∀ v, Ready (.owReadBit p) s → Presents s [v] →
      ∃ t, exec (.owReadBit p) s = .next t ∧ OwDone s t 0x00 (if v then 0x01 else 0x00) (readSlot s.params p v) p) ∧
    ∀ b, Ready (.owWriteBit p b) s →
      ∃ t, exec (.owWriteBit p b) s = .next t ∧ OwDone s t 0x00 s.result (writeSlot s.params p b) p

/-- `OW_READ` and `OW_WRITE`: eight slots, bit 0 first (R57, R182, R186, R187). -/
def Obligations.OwBytesGoLsbFirst : Prop :=
  ∀ (p : PinId) (x : Byte) (s : State),
    (Ready (.owRead p) s → Presents s (lsbBits x) →
      ∃ t, exec (.owRead p) s = .next t ∧ OwDone s t 0x00 x (owReadByteEvents s.params p x) p) ∧
    (Ready (.owWrite p x) s →
      ∃ t, exec (.owWrite p x) s = .next t ∧ OwDone s t 0x00 s.result (owWriteByteEvents s.params p x) p)

/-- `OW_READ_BYTES` and `OW_WRITE_BYTES`: the bytes in increasing index; a length of 0 issues no event (R188, R189). -/
def Obligations.OwTransfersGoInIndexOrder : Prop :=
  ∀ (p : PinId) (len : Byte) (xs : List Byte) (s : State), s.LowOnlyInTx → s.TwInv → xs.length = len.toNat →
    (Ready (.owReadBytes p len) s → Presents s (xs.flatMap lsbBits) →
      ∃ t, exec (.owReadBytes p len) s = .next t ∧
        Completes s t 0x00 s.result (xs.flatMap (owReadByteEvents s.params p)) ∧ KeepsOutside s t ∧ t.tw = s.tw ∧
        t.cursor = s.cursor ∧ KeepsTx s t ∧ RxHolds s t xs ∧ KeepsLists s t ∧ KeepsOtherPins s t [p] ∧
        Releases s t p) ∧
    (Ready (.owWriteBytes p len) s → (∀ i, i < len.toNat → Memory.read s.txbuf i = xs[i]?) →
      ∃ t, exec (.owWriteBytes p len) s = .next t ∧
        OwDone s t 0x00 s.result (xs.flatMap (owWriteByteEvents s.params p)) p)

/-- `OW_CRC8` gives the table's entry at `c xor x`, at any time, with no event (R190, R191). -/
def Obligations.OwCrc8IsTheTable : Prop :=
  ∀ (c x : Byte) (s : State), s.faulted = false →
    ∃ t v, exec (.owCrc8 c x) s = .next t ∧ crcTable[(c ^^^ x).toNat]? = some v ∧ QuietDone s t 0x00 v

/-- A ROM is CRC-valid exactly when its last byte is the CRC of the seven before it; `crc8(c, x)` is 0 exactly when the
two are equal (R192). -/
def Obligations.CrcValidMeansLastByteIsTheCrc : Prop :=
  (∀ c x : Byte, crc8 c x = 0x00 ↔ x = c) ∧
  ∀ rom : Rom,
    crcValid rom = true ↔
      crcOf [romByte rom 0, romByte rom 1, romByte rom 2, romByte rom 3, romByte rom 4, romByte rom 5, romByte rom 6] =
        romByte rom 7

/-- `OW_MATCH_ROM` and `OW_MATCH_DEVICE`: the match command, then the eight bytes of the ROM in `TXBUF` or of the
record, with no reset (R193, R194). -/
def Obligations.OwMatchSendsTheRom : Prop :=
  ∀ s : State,
    (∀ (p : PinId) (xs : List Byte), Ready (.owMatchRom p) s → xs.length = 8 →
      (∀ i, i < 8 → Memory.read s.txbuf i = xs[i]?) →
      ∃ t, exec (.owMatchRom p) s = .next t ∧
        OwDone s t 0x00 s.result
          (owWriteByteEvents s.params p 0x55 ++ xs.flatMap (owWriteByteEvents s.params p)) p) ∧
    ∀ (idx : Byte) (r : OwRecord), Ready (.owMatchDevice idx) s → s.owDevList[idx.toNat]? = some r →
      ∃ t, exec (.owMatchDevice idx) s = .next t ∧
        OwDone s t 0x00 s.result
          (owWriteByteEvents s.params r.pin 0x55 ++
            (List.range 8).flatMap fun i => owWriteByteEvents s.params r.pin (romByte r.rom i)) r.pin

/-- `OW_READ_ROM`: the read command, eight bytes into `RXBUF` whatever the CRC, then `BadCrc` where it is not 0
(R195). -/
def Obligations.OwReadRomChecksTheCrc : Prop :=
  ∀ (p : PinId) (xs : List Byte) (s : State), Ready (.owReadRom p) s → xs.length = 8 →
    Presents s (xs.flatMap lsbBits) →
    ∃ t, exec (.owReadRom p) s = .next t ∧
      Completes s t (if crcOf xs = 0x00 then 0x00 else 0x06) s.result
        (owWriteByteEvents s.params p 0x33 ++ xs.flatMap (owReadByteEvents s.params p)) ∧
      KeepsOutside s t ∧ t.tw = s.tw ∧ t.cursor = s.cursor ∧ KeepsTx s t ∧ RxHolds s t xs ∧ KeepsLists s t ∧
      KeepsOtherPins s t [p] ∧ Releases s t p

/-! ## ROM search (43_rom_search.md) -/

/-- A bad search command is `BadCommand` for all three search commands, before a list that is not empty, which is
`RootNotEmpty` for the two that list; neither issues an event (R215 to R217, R246). That both leave the list as it was
is the model's reading of R216, whose text says that the list is empty after an error (log 22). -/
def Obligations.SearchChecksItsCommandFirst : Prop :=
  ∀ (p : PinId) (cmd f : Byte) (sd : Bool) (s : State),
    (cmd ≠ 0xF0 → cmd ≠ 0xEC →
      ∀ i ∈ [Instr.owSearchPass p cmd sd, .owSearch p cmd, .owSearchFamily p cmd f], Ready i s →
        ∃ t, exec i s = .next t ∧ QuietDone s t 0x02 s.result) ∧
    (cmd = 0xF0 ∨ cmd = 0xEC → s.owDevList ≠ [] →
      ∀ i ∈ [Instr.owSearch p cmd, .owSearchFamily p cmd f], Ready i s →
        ∃ t, exec i s = .next t ∧ QuietDone s t 0x0A s.result)

/-- A pass with one device on the bus finds it, or is `PinFlapping` where its ROM is 00 x8, or `BadCrc` where its CRC
fails; and so does a pass that is answered at every of its 64 steps by whatever bus, with conflicts or without, for the
ROM of its directions; a pass that fails leaves the cursor as it was, or seeded (R211, R213 to R215). A search whose
next pass fails so frees its list and leaves the cursor of the pass before it, or the seed (R55, R216, R217). -/
def Obligations.PassValidatesTheRom : Prop :=
  ∀ (p : PinId) (cmd : Byte) (s : State), cmd = 0xF0 ∨ cmd = 0xEC →
    let code (r : Rom) : Byte := if r = 0 then 0x07 else if crcValid r = true then 0x00 else 0x06
    let answered (c : Cursor) (vs : Nat → Bool × Bool) (r : Rom) :=
      ∀ n, 1 ≤ n → n ≤ 64 → vs n ≠ (true, true) ∧ romBit r n = chosen c n (vs n)
    (∀ (sd : Bool) (r : Rom) (k : Nat), Ready (.owSearchPass p cmd sd) s → k < s.params.owPresPolls →
      let c : Cursor := if sd then ⟨0, 0, false⟩ else s.cursor
      (Presents s (owResetAnswers s.params (some k) ++ aloneAnswers r 64) →
        ∃ t, exec (.owSearchPass p cmd sd) s = .next t ∧
          SearchDone s t (code r) s.result
            (owResetEvents s.params p (some k) ++ owWriteByteEvents s.params p cmd ++ aloneEvents s.params p r 64) p
            (if r ≠ 0 ∧ crcValid r = true then ⟨r, 0, true⟩ else c) s.owDevList) ∧
      ∀ vs, answered c vs r → Presents s (owResetAnswers s.params (some k) ++ stepsAnswers vs 64) →
        ∃ t, exec (.owSearchPass p cmd sd) s = .next t ∧
          SearchDone s t (code r) s.result
            (owResetEvents s.params p (some k) ++ owWriteByteEvents s.params p cmd ++
              stepsEvents s.params p c vs 64) p
            (if r ≠ 0 ∧ crcValid r = true then ⟨r, BitVec.ofNat 8 (lastZeroIn vs r), lastZeroIn vs r == 0⟩ else c)
            s.owDevList) ∧
    ∀ (f : Byte) (pre post : List Rom) (ks : Nat → Nat) (vs : Nat → Bool × Bool) (r : Rom) (k : Nat),
      s.owDevList = [] → SearchDevices (pre ++ post) → post ≠ [] → pre.length ≤ s.params.maxOwDevices →
      (∀ i, ks i < s.params.owPresPolls) → k < s.params.owPresPolls →
      answered (cursorAfter (pre ++ post) pre) vs r → code r ≠ 0x00 →
      Presents s
        (searchAnswers s.params (pre ++ post) ks 0 pre ++ owResetAnswers s.params (some k) ++ stepsAnswers vs 64) →
      ∀ i ∈ [Instr.owSearch p cmd, .owSearchFamily p cmd f], Ready i s →
        ∃ t, exec i s = .next t ∧
          SearchDone s t (code r) s.result
            (searchEvents s.params p cmd (pre ++ post) ks 0 pre ++ owResetEvents s.params p (some k) ++
              owWriteByteEvents s.params p cmd ++ stepsEvents s.params p (cursorAfter (pre ++ post) pre) vs 64) p
            (cursorAfter (pre ++ post) pre) []

/-- A pass is `NoDevice` where no presence pulse comes, and at the step at which both slots read 1, after its two read
slots, whatever the steps before it read, with conflicts or without; the cursor is as it was, or seeded (R211, R213,
R214). A search whose next pass ends so frees its list and leaves the cursor of the pass before it, or the seed (R55,
R216, R217). -/
def Obligations.PassFailsWhereNothingAnswers : Prop :=
  ∀ (p : PinId) (cmd : Byte) (s : State), cmd = 0xF0 ∨ cmd = 0xEC →
    (∀ sd : Bool, Ready (.owSearchPass p cmd sd) s →
      let c : Cursor := if sd then ⟨0, 0, false⟩ else s.cursor
      let fails (ans : List Bool) (trace : List Event) := Presents s ans →
        ∃ t, exec (.owSearchPass p cmd sd) s = .next t ∧ SearchDone s t 0x08 s.result trace p c s.owDevList
      fails (owResetAnswers s.params none) (owResetEvents s.params p none) ∧
      ∀ (vs : Nat → Bool × Bool) (k m : Nat), k < s.params.owPresPolls → m < 64 →
        (∀ n, 1 ≤ n → n ≤ m → vs n ≠ (true, true)) →
        fails (silentAnswers s.params k vs m) (silentEvents s.params p cmd c k vs m)) ∧
    ∀ (f : Byte) (pre post : List Rom) (ks : Nat → Nat),
      s.owDevList = [] → SearchDevices (pre ++ post) → post ≠ [] → pre.length ≤ s.params.maxOwDevices →
      (∀ i, ks i < s.params.owPresPolls) →
      ∀ i ∈ [Instr.owSearch p cmd, .owSearchFamily p cmd f], Ready i s →
        let c := cursorAfter (pre ++ post) pre
        let fails (ans : List Bool) (trace : List Event) :=
          Presents s (searchAnswers s.params (pre ++ post) ks 0 pre ++ ans) →
          ∃ t, exec i s = .next t ∧
            SearchDone s t 0x08 s.result (searchEvents s.params p cmd (pre ++ post) ks 0 pre ++ trace) p c []
        fails (owResetAnswers s.params none) (owResetEvents s.params p none) ∧
        ∀ (vs : Nat → Bool × Bool) (k m : Nat), k < s.params.owPresPolls → m < 64 →
          (∀ n, 1 ≤ n → n ≤ m → vs n ≠ (true, true)) →
          fails (silentAnswers s.params k vs m) (silentEvents s.params p cmd c k vs m)

/-- With several devices on the bus, a seeded pass finds the first of them in search order, a pass that continues from a
device's cursor finds the one after it, and a pass that continues from a cursor with no discrepancy finds the first
again (R211, R214, R215). -/
def Obligations.PassFindsTheNextDevice : Prop :=
  ∀ (p : PinId) (cmd : Byte) (devs : List Rom) (k : Nat) (s : State), SearchDevices devs → cmd = 0xF0 ∨ cmd = 0xEC →
    k < s.params.owPresPolls →
    let finds (sd : Bool) (r : Rom) := Presents s (passAnswers s.params devs k r) →
      ∃ t, exec (.owSearchPass p cmd sd) s = .next t ∧
        SearchDone s t 0x00 s.result (passEvents s.params p cmd devs k r) p (cursorAt devs r) s.owDevList
    (∀ r rest, devs = r :: rest → Ready (.owSearchPass p cmd true) s → finds true r) ∧
    (∀ pre a b post, devs = pre ++ a :: b :: post → Ready (.owSearchPass p cmd false) s → s.cursor = cursorAt devs a →
      finds false b) ∧
    ∀ r rest, devs = r :: rest → Ready (.owSearchPass p cmd false) s → s.cursor.lastDisc = 0 → finds false r

/-- With one device on the bus a pass, seeded or not, finds it, ends with `OW_LAST_DISC = 0` and `OW_LAST_DEV = 1`, and
the search returns that one ROM after one pass. With two that first differ at position `q` the first pass takes
direction 0 there, finds the device with a 0 and records `q`; the second, continuing, takes 1 there, finds the other and
is the last (R220; the ROM 00 x8 excepted: log 25). -/
def Obligations.TwoDevicesTakeTwoPasses : Prop :=
  ∀ (p : PinId) (cmd : Byte) (k : Nat) (s : State), cmd = 0xF0 ∨ cmd = 0xEC → k < s.params.owPresPolls →
    let finds (i : Instr) (result : Byte) (devs : List Rom) (r : Rom) (c : Cursor) (l : List OwRecord) :=
      Ready i s → Presents s (passAnswers s.params devs k r) →
      ∃ t, exec i s = .next t ∧ SearchDone s t 0x00 result (passEvents s.params p cmd devs k r) p c l
    (∀ a : Rom, a ≠ 0 → crcValid a = true →
      (∀ sd, finds (.owSearchPass p cmd sd) s.result [a] a ⟨a, 0, true⟩ s.owDevList) ∧
      (s.owDevList = [] → 1 ≤ s.params.maxOwDevices →
        finds (.owSearch p cmd) 0x01 [a] a ⟨a, 0, true⟩ [⟨a, p⟩])) ∧
    ∀ (a b : Rom) (q : Nat), a ≠ 0 → crcValid a = true → crcValid b = true → 1 ≤ q → q ≤ 64 →
      romBit a q = false → romBit b q = true → (∀ n, 1 ≤ n → n < q → romBit a n = romBit b n) →
      let first : Cursor := ⟨a, BitVec.ofNat 8 q, false⟩
      finds (.owSearchPass p cmd true) s.result [a, b] a first s.owDevList ∧
      (s.cursor = first → finds (.owSearchPass p cmd false) s.result [a, b] b ⟨b, 0, true⟩ s.owDevList)

/-- `OW_SEARCH` on a bus of devices with distinct CRC-valid ROMs other than 00 x8 that answer every pass ends after one
pass for each and lists every one once, in the order of the ROM read from position 1 on (R216, R219). -/
def Obligations.SearchFindsEveryDeviceInOrder : Prop :=
  ∀ (p : PinId) (cmd : Byte) (devs : List Rom) (ks : Nat → Nat) (s : State), Ready (.owSearch p cmd) s →
    cmd = 0xF0 ∨ cmd = 0xEC → s.owDevList = [] → SearchDevices devs → devs.length ≤ s.params.maxOwDevices →
    (∀ i, ks i < s.params.owPresPolls) → Presents s (searchAnswers s.params devs ks 0 devs) →
    ∃ t last, exec (.owSearch p cmd) s = .next t ∧ devs.getLast? = some last ∧
      SearchDone s t 0x00 (BitVec.ofNat 8 devs.length) (searchEvents s.params p cmd devs ks 0 devs) p ⟨last, 0, true⟩
        (devs.map fun r => ⟨r, p⟩)

/-- A search that finds more devices than the list holds ends with `OutOfMemory` after one pass more than it holds, the
list emptied and the cursor at the last pass (R54, R216, R219). -/
def Obligations.SearchStopsWhenTheListIsFull : Prop :=
  ∀ (p : PinId) (cmd f : Byte) (pre post : List Rom) (r : Rom) (ks : Nat → Nat) (s : State),
    cmd = 0xF0 ∨ cmd = 0xEC → s.owDevList = [] → SearchDevices (pre ++ r :: post) →
    pre.length = s.params.maxOwDevices → (∀ i, ks i < s.params.owPresPolls) →
    Presents s (searchAnswers s.params (pre ++ r :: post) ks 0 (pre ++ [r])) →
    ∀ i ∈ [Instr.owSearch p cmd, .owSearchFamily p cmd f], Ready i s →
      ∃ t, exec i s = .next t ∧
        SearchDone s t 0x0B s.result (searchEvents s.params p cmd (pre ++ r :: post) ks 0 (pre ++ [r])) p
          (cursorAt (pre ++ r :: post) r) []

/-- `OW_SEARCH_FAMILY` runs the whole search, then keeps in order the records whose ROM byte 0 is the family code; none
is `NoDevice` with an empty list (R217). -/
def Obligations.FamilySearchKeepsItsFamily : Prop :=
  ∀ (p : PinId) (cmd f : Byte) (devs : List Rom) (ks : Nat → Nat) (s : State), Ready (.owSearchFamily p cmd f) s →
    cmd = 0xF0 ∨ cmd = 0xEC → s.owDevList = [] → SearchDevices devs → devs.length ≤ s.params.maxOwDevices →
    (∀ i, ks i < s.params.owPresPolls) → Presents s (searchAnswers s.params devs ks 0 devs) →
    let kept := devs.filter fun r => romByte r 0 == f
    ∃ t last, exec (.owSearchFamily p cmd f) s = .next t ∧ devs.getLast? = some last ∧
      SearchDone s t (if kept = [] then 0x08 else 0x00) (if kept = [] then s.result else BitVec.ofNat 8 kept.length)
        (searchEvents s.params p cmd devs ks 0 devs) p ⟨last, 0, true⟩ (kept.map fun r => ⟨r, p⟩)

/-! ## Timing (70_reset_and_hazards.md) -/

/-- The `Wait` arguments of the commands that complete with `OK` sum to the totals of R280, and to sums of its rows for
the commands that have no row of their own but `OW_SEARCH_FAMILY`, of which nothing is said. All but the scan's hold
whatever the bus answers; a scan's is 43 times `S` for each probe, and 41 where the STOP after a NACK finds its clock
held low (R140), so 4816 times `S` where none of the 112 addresses of the default set is present and no clock is
held. -/
def Obligations.WaitTotalsAreTheTables : Prop :=
  ∀ (i : Instr) (s t : State), s.Inv → exec i s = .next t → t.faulted = false → t.status = 0x00 →
    let S := s.tw.short.toNat
    let q := s.params
    let total := waitTotal t.trace
    let txTotal (len : Nat) := ((List.range len).map fun j => owByteTotal q ((Memory.read s.txbuf j).getD 0)).sum
    match i with
    | .twStart => total = 4 * S
    | .twStop => total = 3 * S
    | .twWriteByte _ | .twReadByte _ => total = 36 * S
    | .twStartRw _ _ => total = 40 * S
    | .twWriteBytes len | .twReadBytes len => total = len.toNat * (36 * S)
    | .twStartWrite _ _ => total = 76 * S
    | .twStartRead _ _ => total = 116 * S
    | .twScan =>
      ∀ (st : BitVec 7 → Nat → Nat) (pr : BitVec 7 → Probe), (∀ a j, st a j < s.tw.maxStretch.toNat) →
        Presents s (scanAnswers s.tw.maxStretch.toNat st pr s.tw.inTx (probed q)) →
        total = ((probed q).map fun a => if pr a = .nackedHeld then 41 * S else 43 * S).sum ∧
        (q.reservedAddrs = defaultReservedAddrs → (∀ a, pr a = .nacked) → total = 4816 * S)
    | .owReset _ => total = q.owRstLow + q.owRstHigh
    | .owReadBit _ => total = readSlotTotal q
    | .owWriteBit _ b => total = writeSlotTotal q b
    | .owRead _ => total = 8 * readSlotTotal q
    | .owWrite _ x => total = owByteTotal q x
    | .owReadBytes _ len => total = len.toNat * (8 * readSlotTotal q)
    | .owWriteBytes _ len => total = txTotal len.toNat
    | .owMatchRom _ => total = owByteTotal q 0x55 + txTotal 8
    | .owMatchDevice idx =>
      ∀ r, s.owDevList[idx.toNat]? = some r →
        total = owByteTotal q 0x55 + ((List.range 8).map fun j => owByteTotal q (romByte r.rom j)).sum
    | .owReadRom _ => total = owByteTotal q 0x33 + 8 * (8 * readSlotTotal q)
    | .owSearchPass _ cmd _ => total = searchPassTotal q cmd t.cursor.prevRom
    | .owSearch _ cmd => total = (t.owDevList.map fun r => searchPassTotal q cmd r.rom).sum
    | .owSearchFamily _ _ _ => True
    | .twInit _ _ | .twSetSpeed _ | .twFree | .owInit _ | .owCrc8 _ _ | .owFree => total = 0
end

