-- ==== Sys2Proof/Laws/State.lean ====
section
/-! SUPPORT. One lemma for each field of State under each named update, true by rfl. -/

namespace Sys2Proof.Machine

/-! ### `State.setPin` -/

@[simp] theorem State.setPin_params (s : State) (p : PinId) (v : Pin) : (s.setPin p v).params = s.params := rfl
@[simp] theorem State.setPin_status (s : State) (p : PinId) (v : Pin) : (s.setPin p v).status = s.status := rfl
@[simp] theorem State.setPin_result (s : State) (p : PinId) (v : Pin) : (s.setPin p v).result = s.result := rfl
@[simp] theorem State.setPin_faulted (s : State) (p : PinId) (v : Pin) : (s.setPin p v).faulted = s.faulted := rfl
@[simp] theorem State.setPin_faultReason (s : State) (p : PinId) (v : Pin) : (s.setPin p v).faultReason = s.faultReason := rfl
@[simp] theorem State.setPin_tw (s : State) (p : PinId) (v : Pin) : (s.setPin p v).tw = s.tw := rfl
@[simp] theorem State.setPin_cursor (s : State) (p : PinId) (v : Pin) : (s.setPin p v).cursor = s.cursor := rfl
@[simp] theorem State.setPin_pins (s : State) (p : PinId) (v : Pin) : (s.setPin p v).pins = putPin s.pins p v := rfl
@[simp] theorem State.setPin_txbuf (s : State) (p : PinId) (v : Pin) : (s.setPin p v).txbuf = s.txbuf := rfl
@[simp] theorem State.setPin_rxbuf (s : State) (p : PinId) (v : Pin) : (s.setPin p v).rxbuf = s.rxbuf := rfl
@[simp] theorem State.setPin_twDevList (s : State) (p : PinId) (v : Pin) : (s.setPin p v).twDevList = s.twDevList := rfl
@[simp] theorem State.setPin_owDevList (s : State) (p : PinId) (v : Pin) : (s.setPin p v).owDevList = s.owDevList := rfl
@[simp] theorem State.setPin_events (s : State) (p : PinId) (v : Pin) : (s.setPin p v).events = s.events := rfl
@[simp] theorem State.setPin_history (s : State) (p : PinId) (v : Pin) : (s.setPin p v).history = s.history := rfl
@[simp] theorem State.setPin_hpc (s : State) (p : PinId) (v : Pin) : (s.setPin p v).hpc = s.hpc := rfl
@[simp] theorem State.setPin_host (s : State) (p : PinId) (v : Pin) : (s.setPin p v).host = s.host := rfl
@[simp] theorem State.setPin_hostSeen (s : State) (p : PinId) (v : Pin) : (s.setPin p v).hostSeen = s.hostSeen := rfl
@[simp] theorem State.setPin_bus (s : State) (p : PinId) (v : Pin) : (s.setPin p v).bus = s.bus := rfl
@[simp] theorem State.setPin_draws (s : State) (p : PinId) (v : Pin) : (s.setPin p v).draws = s.draws := rfl

/-! ### `State.emit` -/

@[simp] theorem State.emit_params (s : State) (e : Event) : (s.emit e).params = s.params := rfl
@[simp] theorem State.emit_status (s : State) (e : Event) : (s.emit e).status = s.status := rfl
@[simp] theorem State.emit_result (s : State) (e : Event) : (s.emit e).result = s.result := rfl
@[simp] theorem State.emit_faulted (s : State) (e : Event) : (s.emit e).faulted = s.faulted := rfl
@[simp] theorem State.emit_faultReason (s : State) (e : Event) : (s.emit e).faultReason = s.faultReason := rfl
@[simp] theorem State.emit_tw (s : State) (e : Event) : (s.emit e).tw = s.tw := rfl
@[simp] theorem State.emit_cursor (s : State) (e : Event) : (s.emit e).cursor = s.cursor := rfl
@[simp] theorem State.emit_pins (s : State) (e : Event) : (s.emit e).pins = s.pins := rfl
@[simp] theorem State.emit_txbuf (s : State) (e : Event) : (s.emit e).txbuf = s.txbuf := rfl
@[simp] theorem State.emit_rxbuf (s : State) (e : Event) : (s.emit e).rxbuf = s.rxbuf := rfl
@[simp] theorem State.emit_twDevList (s : State) (e : Event) : (s.emit e).twDevList = s.twDevList := rfl
@[simp] theorem State.emit_owDevList (s : State) (e : Event) : (s.emit e).owDevList = s.owDevList := rfl
@[simp] theorem State.emit_events (s : State) (e : Event) : (s.emit e).events = e :: s.events := rfl
@[simp] theorem State.emit_history (s : State) (e : Event) : (s.emit e).history = s.history := rfl
@[simp] theorem State.emit_hpc (s : State) (e : Event) : (s.emit e).hpc = s.hpc := rfl
@[simp] theorem State.emit_host (s : State) (e : Event) : (s.emit e).host = s.host := rfl
@[simp] theorem State.emit_hostSeen (s : State) (e : Event) : (s.emit e).hostSeen = s.hostSeen := rfl
@[simp] theorem State.emit_bus (s : State) (e : Event) : (s.emit e).bus = s.bus := rfl
@[simp] theorem State.emit_draws (s : State) (e : Event) : (s.emit e).draws = s.draws := rfl

/-! ### `State.drawn` -/

@[simp] theorem State.drawn_params (s : State) : s.drawn.params = s.params := rfl
@[simp] theorem State.drawn_status (s : State) : s.drawn.status = s.status := rfl
@[simp] theorem State.drawn_result (s : State) : s.drawn.result = s.result := rfl
@[simp] theorem State.drawn_faulted (s : State) : s.drawn.faulted = s.faulted := rfl
@[simp] theorem State.drawn_faultReason (s : State) : s.drawn.faultReason = s.faultReason := rfl
@[simp] theorem State.drawn_tw (s : State) : s.drawn.tw = s.tw := rfl
@[simp] theorem State.drawn_cursor (s : State) : s.drawn.cursor = s.cursor := rfl
@[simp] theorem State.drawn_pins (s : State) : s.drawn.pins = s.pins := rfl
@[simp] theorem State.drawn_txbuf (s : State) : s.drawn.txbuf = s.txbuf := rfl
@[simp] theorem State.drawn_rxbuf (s : State) : s.drawn.rxbuf = s.rxbuf := rfl
@[simp] theorem State.drawn_twDevList (s : State) : s.drawn.twDevList = s.twDevList := rfl
@[simp] theorem State.drawn_owDevList (s : State) : s.drawn.owDevList = s.owDevList := rfl
@[simp] theorem State.drawn_events (s : State) : s.drawn.events = s.events := rfl
@[simp] theorem State.drawn_history (s : State) : s.drawn.history = s.history := rfl
@[simp] theorem State.drawn_hpc (s : State) : s.drawn.hpc = s.hpc := rfl
@[simp] theorem State.drawn_host (s : State) : s.drawn.host = s.host := rfl
@[simp] theorem State.drawn_hostSeen (s : State) : s.drawn.hostSeen = s.hostSeen := rfl
@[simp] theorem State.drawn_bus (s : State) : s.drawn.bus = s.bus.tail := rfl
@[simp] theorem State.drawn_draws (s : State) : s.drawn.draws = s.draws + 1 := rfl

/-! ### `State.setResult` -/

@[simp] theorem State.setResult_params (s : State) (v : Byte) : (s.setResult v).params = s.params := rfl
@[simp] theorem State.setResult_status (s : State) (v : Byte) : (s.setResult v).status = s.status := rfl
@[simp] theorem State.setResult_result (s : State) (v : Byte) : (s.setResult v).result = v := rfl
@[simp] theorem State.setResult_faulted (s : State) (v : Byte) : (s.setResult v).faulted = s.faulted := rfl
@[simp] theorem State.setResult_faultReason (s : State) (v : Byte) : (s.setResult v).faultReason = s.faultReason := rfl
@[simp] theorem State.setResult_tw (s : State) (v : Byte) : (s.setResult v).tw = s.tw := rfl
@[simp] theorem State.setResult_cursor (s : State) (v : Byte) : (s.setResult v).cursor = s.cursor := rfl
@[simp] theorem State.setResult_pins (s : State) (v : Byte) : (s.setResult v).pins = s.pins := rfl
@[simp] theorem State.setResult_txbuf (s : State) (v : Byte) : (s.setResult v).txbuf = s.txbuf := rfl
@[simp] theorem State.setResult_rxbuf (s : State) (v : Byte) : (s.setResult v).rxbuf = s.rxbuf := rfl
@[simp] theorem State.setResult_twDevList (s : State) (v : Byte) : (s.setResult v).twDevList = s.twDevList := rfl
@[simp] theorem State.setResult_owDevList (s : State) (v : Byte) : (s.setResult v).owDevList = s.owDevList := rfl
@[simp] theorem State.setResult_events (s : State) (v : Byte) : (s.setResult v).events = s.events := rfl
@[simp] theorem State.setResult_history (s : State) (v : Byte) : (s.setResult v).history = s.history := rfl
@[simp] theorem State.setResult_hpc (s : State) (v : Byte) : (s.setResult v).hpc = s.hpc := rfl
@[simp] theorem State.setResult_host (s : State) (v : Byte) : (s.setResult v).host = s.host := rfl
@[simp] theorem State.setResult_hostSeen (s : State) (v : Byte) : (s.setResult v).hostSeen = s.hostSeen := rfl
@[simp] theorem State.setResult_bus (s : State) (v : Byte) : (s.setResult v).bus = s.bus := rfl
@[simp] theorem State.setResult_draws (s : State) (v : Byte) : (s.setResult v).draws = s.draws := rfl

/-! ### `State.writeRx` -/

@[simp] theorem State.writeRx_params (s : State) (i : Nat) (b : Byte) : (s.writeRx i b).params = s.params := rfl
@[simp] theorem State.writeRx_status (s : State) (i : Nat) (b : Byte) : (s.writeRx i b).status = s.status := rfl
@[simp] theorem State.writeRx_result (s : State) (i : Nat) (b : Byte) : (s.writeRx i b).result = s.result := rfl
@[simp] theorem State.writeRx_faulted (s : State) (i : Nat) (b : Byte) : (s.writeRx i b).faulted = s.faulted := rfl
@[simp] theorem State.writeRx_faultReason (s : State) (i : Nat) (b : Byte) : (s.writeRx i b).faultReason = s.faultReason := rfl
@[simp] theorem State.writeRx_tw (s : State) (i : Nat) (b : Byte) : (s.writeRx i b).tw = s.tw := rfl
@[simp] theorem State.writeRx_cursor (s : State) (i : Nat) (b : Byte) : (s.writeRx i b).cursor = s.cursor := rfl
@[simp] theorem State.writeRx_pins (s : State) (i : Nat) (b : Byte) : (s.writeRx i b).pins = s.pins := rfl
@[simp] theorem State.writeRx_txbuf (s : State) (i : Nat) (b : Byte) : (s.writeRx i b).txbuf = s.txbuf := rfl
@[simp] theorem State.writeRx_rxbuf (s : State) (i : Nat) (b : Byte) : (s.writeRx i b).rxbuf = Memory.write s.rxbuf i b := rfl
@[simp] theorem State.writeRx_twDevList (s : State) (i : Nat) (b : Byte) : (s.writeRx i b).twDevList = s.twDevList := rfl
@[simp] theorem State.writeRx_owDevList (s : State) (i : Nat) (b : Byte) : (s.writeRx i b).owDevList = s.owDevList := rfl
@[simp] theorem State.writeRx_events (s : State) (i : Nat) (b : Byte) : (s.writeRx i b).events = s.events := rfl
@[simp] theorem State.writeRx_history (s : State) (i : Nat) (b : Byte) : (s.writeRx i b).history = s.history := rfl
@[simp] theorem State.writeRx_hpc (s : State) (i : Nat) (b : Byte) : (s.writeRx i b).hpc = s.hpc := rfl
@[simp] theorem State.writeRx_host (s : State) (i : Nat) (b : Byte) : (s.writeRx i b).host = s.host := rfl
@[simp] theorem State.writeRx_hostSeen (s : State) (i : Nat) (b : Byte) : (s.writeRx i b).hostSeen = s.hostSeen := rfl
@[simp] theorem State.writeRx_bus (s : State) (i : Nat) (b : Byte) : (s.writeRx i b).bus = s.bus := rfl
@[simp] theorem State.writeRx_draws (s : State) (i : Nat) (b : Byte) : (s.writeRx i b).draws = s.draws := rfl

/-! ### `State.setTwDevList` -/

@[simp] theorem State.setTwDevList_params (s : State) (l : List Byte) : (s.setTwDevList l).params = s.params := rfl
@[simp] theorem State.setTwDevList_status (s : State) (l : List Byte) : (s.setTwDevList l).status = s.status := rfl
@[simp] theorem State.setTwDevList_result (s : State) (l : List Byte) : (s.setTwDevList l).result = s.result := rfl
@[simp] theorem State.setTwDevList_faulted (s : State) (l : List Byte) : (s.setTwDevList l).faulted = s.faulted := rfl
@[simp] theorem State.setTwDevList_faultReason (s : State) (l : List Byte) : (s.setTwDevList l).faultReason = s.faultReason := rfl
@[simp] theorem State.setTwDevList_tw (s : State) (l : List Byte) : (s.setTwDevList l).tw = s.tw := rfl
@[simp] theorem State.setTwDevList_cursor (s : State) (l : List Byte) : (s.setTwDevList l).cursor = s.cursor := rfl
@[simp] theorem State.setTwDevList_pins (s : State) (l : List Byte) : (s.setTwDevList l).pins = s.pins := rfl
@[simp] theorem State.setTwDevList_txbuf (s : State) (l : List Byte) : (s.setTwDevList l).txbuf = s.txbuf := rfl
@[simp] theorem State.setTwDevList_rxbuf (s : State) (l : List Byte) : (s.setTwDevList l).rxbuf = s.rxbuf := rfl
@[simp] theorem State.setTwDevList_twDevList (s : State) (l : List Byte) : (s.setTwDevList l).twDevList = l := rfl
@[simp] theorem State.setTwDevList_owDevList (s : State) (l : List Byte) : (s.setTwDevList l).owDevList = s.owDevList := rfl
@[simp] theorem State.setTwDevList_events (s : State) (l : List Byte) : (s.setTwDevList l).events = s.events := rfl
@[simp] theorem State.setTwDevList_history (s : State) (l : List Byte) : (s.setTwDevList l).history = s.history := rfl
@[simp] theorem State.setTwDevList_hpc (s : State) (l : List Byte) : (s.setTwDevList l).hpc = s.hpc := rfl
@[simp] theorem State.setTwDevList_host (s : State) (l : List Byte) : (s.setTwDevList l).host = s.host := rfl
@[simp] theorem State.setTwDevList_hostSeen (s : State) (l : List Byte) : (s.setTwDevList l).hostSeen = s.hostSeen := rfl
@[simp] theorem State.setTwDevList_bus (s : State) (l : List Byte) : (s.setTwDevList l).bus = s.bus := rfl
@[simp] theorem State.setTwDevList_draws (s : State) (l : List Byte) : (s.setTwDevList l).draws = s.draws := rfl

/-! ### `State.setOwDevList` -/

@[simp] theorem State.setOwDevList_params (s : State) (l : List OwRecord) : (s.setOwDevList l).params = s.params := rfl
@[simp] theorem State.setOwDevList_status (s : State) (l : List OwRecord) : (s.setOwDevList l).status = s.status := rfl
@[simp] theorem State.setOwDevList_result (s : State) (l : List OwRecord) : (s.setOwDevList l).result = s.result := rfl
@[simp] theorem State.setOwDevList_faulted (s : State) (l : List OwRecord) : (s.setOwDevList l).faulted = s.faulted := rfl
@[simp] theorem State.setOwDevList_faultReason (s : State) (l : List OwRecord) : (s.setOwDevList l).faultReason = s.faultReason := rfl
@[simp] theorem State.setOwDevList_tw (s : State) (l : List OwRecord) : (s.setOwDevList l).tw = s.tw := rfl
@[simp] theorem State.setOwDevList_cursor (s : State) (l : List OwRecord) : (s.setOwDevList l).cursor = s.cursor := rfl
@[simp] theorem State.setOwDevList_pins (s : State) (l : List OwRecord) : (s.setOwDevList l).pins = s.pins := rfl
@[simp] theorem State.setOwDevList_txbuf (s : State) (l : List OwRecord) : (s.setOwDevList l).txbuf = s.txbuf := rfl
@[simp] theorem State.setOwDevList_rxbuf (s : State) (l : List OwRecord) : (s.setOwDevList l).rxbuf = s.rxbuf := rfl
@[simp] theorem State.setOwDevList_twDevList (s : State) (l : List OwRecord) : (s.setOwDevList l).twDevList = s.twDevList := rfl
@[simp] theorem State.setOwDevList_owDevList (s : State) (l : List OwRecord) : (s.setOwDevList l).owDevList = l := rfl
@[simp] theorem State.setOwDevList_events (s : State) (l : List OwRecord) : (s.setOwDevList l).events = s.events := rfl
@[simp] theorem State.setOwDevList_history (s : State) (l : List OwRecord) : (s.setOwDevList l).history = s.history := rfl
@[simp] theorem State.setOwDevList_hpc (s : State) (l : List OwRecord) : (s.setOwDevList l).hpc = s.hpc := rfl
@[simp] theorem State.setOwDevList_host (s : State) (l : List OwRecord) : (s.setOwDevList l).host = s.host := rfl
@[simp] theorem State.setOwDevList_hostSeen (s : State) (l : List OwRecord) : (s.setOwDevList l).hostSeen = s.hostSeen := rfl
@[simp] theorem State.setOwDevList_bus (s : State) (l : List OwRecord) : (s.setOwDevList l).bus = s.bus := rfl
@[simp] theorem State.setOwDevList_draws (s : State) (l : List OwRecord) : (s.setOwDevList l).draws = s.draws := rfl

/-! ### `State.begin` -/

@[simp] theorem State.begin_params (s : State) : s.begin.params = s.params := rfl
@[simp] theorem State.begin_status (s : State) : s.begin.status = s.status := rfl
@[simp] theorem State.begin_result (s : State) : s.begin.result = s.result := rfl
@[simp] theorem State.begin_faulted (s : State) : s.begin.faulted = s.faulted := rfl
@[simp] theorem State.begin_faultReason (s : State) : s.begin.faultReason = s.faultReason := rfl
@[simp] theorem State.begin_tw (s : State) : s.begin.tw = s.tw := rfl
@[simp] theorem State.begin_cursor (s : State) : s.begin.cursor = s.cursor := rfl
@[simp] theorem State.begin_pins (s : State) : s.begin.pins = s.pins := rfl
@[simp] theorem State.begin_txbuf (s : State) : s.begin.txbuf = s.txbuf := rfl
@[simp] theorem State.begin_rxbuf (s : State) : s.begin.rxbuf = s.rxbuf := rfl
@[simp] theorem State.begin_twDevList (s : State) : s.begin.twDevList = s.twDevList := rfl
@[simp] theorem State.begin_owDevList (s : State) : s.begin.owDevList = s.owDevList := rfl
@[simp] theorem State.begin_events (s : State) : s.begin.events = [] := rfl
@[simp] theorem State.begin_history (s : State) : s.begin.history = s.history := rfl
@[simp] theorem State.begin_hpc (s : State) : s.begin.hpc = s.hpc := rfl
@[simp] theorem State.begin_host (s : State) : s.begin.host = s.host := rfl
@[simp] theorem State.begin_hostSeen (s : State) : s.begin.hostSeen = s.hostSeen := rfl
@[simp] theorem State.begin_bus (s : State) : s.begin.bus = s.bus := rfl
@[simp] theorem State.begin_draws (s : State) : s.begin.draws = s.draws := rfl

/-! ### `State.complete` -/

@[simp] theorem State.complete_params (s : State) (c : Byte) : (s.complete c).params = s.params := rfl
@[simp] theorem State.complete_status (s : State) (c : Byte) : (s.complete c).status = c := rfl
@[simp] theorem State.complete_result (s : State) (c : Byte) : (s.complete c).result = s.result := rfl
@[simp] theorem State.complete_faulted (s : State) (c : Byte) : (s.complete c).faulted = s.faulted := rfl
@[simp] theorem State.complete_faultReason (s : State) (c : Byte) : (s.complete c).faultReason = s.faultReason := rfl
@[simp] theorem State.complete_tw (s : State) (c : Byte) : (s.complete c).tw = s.tw := rfl
@[simp] theorem State.complete_cursor (s : State) (c : Byte) : (s.complete c).cursor = s.cursor := rfl
@[simp] theorem State.complete_pins (s : State) (c : Byte) : (s.complete c).pins = s.pins := rfl
@[simp] theorem State.complete_txbuf (s : State) (c : Byte) : (s.complete c).txbuf = s.txbuf := rfl
@[simp] theorem State.complete_rxbuf (s : State) (c : Byte) : (s.complete c).rxbuf = s.rxbuf := rfl
@[simp] theorem State.complete_twDevList (s : State) (c : Byte) : (s.complete c).twDevList = s.twDevList := rfl
@[simp] theorem State.complete_owDevList (s : State) (c : Byte) : (s.complete c).owDevList = s.owDevList := rfl
@[simp] theorem State.complete_events (s : State) (c : Byte) : (s.complete c).events = s.events := rfl
@[simp] theorem State.complete_history (s : State) (c : Byte) : (s.complete c).history = ⟨s.trace, c, s.result⟩ :: s.history := rfl
@[simp] theorem State.complete_hpc (s : State) (c : Byte) : (s.complete c).hpc = s.hpc + 1 := rfl
@[simp] theorem State.complete_host (s : State) (c : Byte) : (s.complete c).host = s.host := rfl
@[simp] theorem State.complete_hostSeen (s : State) (c : Byte) : (s.complete c).hostSeen = s.hostSeen := rfl
@[simp] theorem State.complete_bus (s : State) (c : Byte) : (s.complete c).bus = s.bus := rfl
@[simp] theorem State.complete_draws (s : State) (c : Byte) : (s.complete c).draws = s.draws := rfl

/-! ### `State.raiseUsage` -/

@[simp] theorem State.raiseUsage_params (s : State) (u : Usage) : (s.raiseUsage u).params = s.params := rfl
@[simp] theorem State.raiseUsage_status (s : State) (u : Usage) : (s.raiseUsage u).status = s.status := rfl
@[simp] theorem State.raiseUsage_result (s : State) (u : Usage) : (s.raiseUsage u).result = s.result := rfl
@[simp] theorem State.raiseUsage_faulted (s : State) (u : Usage) : (s.raiseUsage u).faulted = true := rfl
@[simp] theorem State.raiseUsage_faultReason (s : State) (u : Usage) : (s.raiseUsage u).faultReason = if s.faulted then s.faultReason else u.code := rfl
@[simp] theorem State.raiseUsage_tw (s : State) (u : Usage) : (s.raiseUsage u).tw = s.tw := rfl
@[simp] theorem State.raiseUsage_cursor (s : State) (u : Usage) : (s.raiseUsage u).cursor = s.cursor := rfl
@[simp] theorem State.raiseUsage_pins (s : State) (u : Usage) : (s.raiseUsage u).pins = s.pins := rfl
@[simp] theorem State.raiseUsage_txbuf (s : State) (u : Usage) : (s.raiseUsage u).txbuf = s.txbuf := rfl
@[simp] theorem State.raiseUsage_rxbuf (s : State) (u : Usage) : (s.raiseUsage u).rxbuf = s.rxbuf := rfl
@[simp] theorem State.raiseUsage_twDevList (s : State) (u : Usage) : (s.raiseUsage u).twDevList = s.twDevList := rfl
@[simp] theorem State.raiseUsage_owDevList (s : State) (u : Usage) : (s.raiseUsage u).owDevList = s.owDevList := rfl
@[simp] theorem State.raiseUsage_events (s : State) (u : Usage) : (s.raiseUsage u).events = s.events := rfl
@[simp] theorem State.raiseUsage_history (s : State) (u : Usage) : (s.raiseUsage u).history = s.history := rfl
@[simp] theorem State.raiseUsage_hpc (s : State) (u : Usage) : (s.raiseUsage u).hpc = s.hpc := rfl
@[simp] theorem State.raiseUsage_host (s : State) (u : Usage) : (s.raiseUsage u).host = s.host := rfl
@[simp] theorem State.raiseUsage_hostSeen (s : State) (u : Usage) : (s.raiseUsage u).hostSeen = s.hostSeen := rfl
@[simp] theorem State.raiseUsage_bus (s : State) (u : Usage) : (s.raiseUsage u).bus = s.bus := rfl
@[simp] theorem State.raiseUsage_draws (s : State) (u : Usage) : (s.raiseUsage u).draws = s.draws := rfl

/-! ### `State.setInTx` -/

@[simp] theorem State.setInTx_params (s : State) (b : Bool) : (s.setInTx b).params = s.params := rfl
@[simp] theorem State.setInTx_status (s : State) (b : Bool) : (s.setInTx b).status = s.status := rfl
@[simp] theorem State.setInTx_result (s : State) (b : Bool) : (s.setInTx b).result = s.result := rfl
@[simp] theorem State.setInTx_faulted (s : State) (b : Bool) : (s.setInTx b).faulted = s.faulted := rfl
@[simp] theorem State.setInTx_faultReason (s : State) (b : Bool) : (s.setInTx b).faultReason = s.faultReason := rfl
@[simp] theorem State.setInTx_tw (s : State) (b : Bool) : (s.setInTx b).tw = { s.tw with inTx := b } := rfl
@[simp] theorem State.setInTx_cursor (s : State) (b : Bool) : (s.setInTx b).cursor = s.cursor := rfl
@[simp] theorem State.setInTx_pins (s : State) (b : Bool) : (s.setInTx b).pins = s.pins := rfl
@[simp] theorem State.setInTx_txbuf (s : State) (b : Bool) : (s.setInTx b).txbuf = s.txbuf := rfl
@[simp] theorem State.setInTx_rxbuf (s : State) (b : Bool) : (s.setInTx b).rxbuf = s.rxbuf := rfl
@[simp] theorem State.setInTx_twDevList (s : State) (b : Bool) : (s.setInTx b).twDevList = s.twDevList := rfl
@[simp] theorem State.setInTx_owDevList (s : State) (b : Bool) : (s.setInTx b).owDevList = s.owDevList := rfl
@[simp] theorem State.setInTx_events (s : State) (b : Bool) : (s.setInTx b).events = s.events := rfl
@[simp] theorem State.setInTx_history (s : State) (b : Bool) : (s.setInTx b).history = s.history := rfl
@[simp] theorem State.setInTx_hpc (s : State) (b : Bool) : (s.setInTx b).hpc = s.hpc := rfl
@[simp] theorem State.setInTx_host (s : State) (b : Bool) : (s.setInTx b).host = s.host := rfl
@[simp] theorem State.setInTx_hostSeen (s : State) (b : Bool) : (s.setInTx b).hostSeen = s.hostSeen := rfl
@[simp] theorem State.setInTx_bus (s : State) (b : Bool) : (s.setInTx b).bus = s.bus := rfl
@[simp] theorem State.setInTx_draws (s : State) (b : Bool) : (s.setInTx b).draws = s.draws := rfl

/-! ### `State.setTwPins` -/

@[simp] theorem State.setTwPins_params (s : State) (c d : PinId) : (s.setTwPins c d).params = s.params := rfl
@[simp] theorem State.setTwPins_status (s : State) (c d : PinId) : (s.setTwPins c d).status = s.status := rfl
@[simp] theorem State.setTwPins_result (s : State) (c d : PinId) : (s.setTwPins c d).result = s.result := rfl
@[simp] theorem State.setTwPins_faulted (s : State) (c d : PinId) : (s.setTwPins c d).faulted = s.faulted := rfl
@[simp] theorem State.setTwPins_faultReason (s : State) (c d : PinId) : (s.setTwPins c d).faultReason = s.faultReason := rfl
@[simp] theorem State.setTwPins_tw (s : State) (c d : PinId) : (s.setTwPins c d).tw = { s.tw with sclPin := c, sdaPin := d } := rfl
@[simp] theorem State.setTwPins_cursor (s : State) (c d : PinId) : (s.setTwPins c d).cursor = s.cursor := rfl
@[simp] theorem State.setTwPins_pins (s : State) (c d : PinId) : (s.setTwPins c d).pins = s.pins := rfl
@[simp] theorem State.setTwPins_txbuf (s : State) (c d : PinId) : (s.setTwPins c d).txbuf = s.txbuf := rfl
@[simp] theorem State.setTwPins_rxbuf (s : State) (c d : PinId) : (s.setTwPins c d).rxbuf = s.rxbuf := rfl
@[simp] theorem State.setTwPins_twDevList (s : State) (c d : PinId) : (s.setTwPins c d).twDevList = s.twDevList := rfl
@[simp] theorem State.setTwPins_owDevList (s : State) (c d : PinId) : (s.setTwPins c d).owDevList = s.owDevList := rfl
@[simp] theorem State.setTwPins_events (s : State) (c d : PinId) : (s.setTwPins c d).events = s.events := rfl
@[simp] theorem State.setTwPins_history (s : State) (c d : PinId) : (s.setTwPins c d).history = s.history := rfl
@[simp] theorem State.setTwPins_hpc (s : State) (c d : PinId) : (s.setTwPins c d).hpc = s.hpc := rfl
@[simp] theorem State.setTwPins_host (s : State) (c d : PinId) : (s.setTwPins c d).host = s.host := rfl
@[simp] theorem State.setTwPins_hostSeen (s : State) (c d : PinId) : (s.setTwPins c d).hostSeen = s.hostSeen := rfl
@[simp] theorem State.setTwPins_bus (s : State) (c d : PinId) : (s.setTwPins c d).bus = s.bus := rfl
@[simp] theorem State.setTwPins_draws (s : State) (c d : PinId) : (s.setTwPins c d).draws = s.draws := rfl

/-! ### `State.setInitialized` -/

@[simp] theorem State.setInitialized_params (s : State) : s.setInitialized.params = s.params := rfl
@[simp] theorem State.setInitialized_status (s : State) : s.setInitialized.status = s.status := rfl
@[simp] theorem State.setInitialized_result (s : State) : s.setInitialized.result = s.result := rfl
@[simp] theorem State.setInitialized_faulted (s : State) : s.setInitialized.faulted = s.faulted := rfl
@[simp] theorem State.setInitialized_faultReason (s : State) : s.setInitialized.faultReason = s.faultReason := rfl
@[simp] theorem State.setInitialized_tw (s : State) : s.setInitialized.tw = { s.tw with initialized := true } := rfl
@[simp] theorem State.setInitialized_cursor (s : State) : s.setInitialized.cursor = s.cursor := rfl
@[simp] theorem State.setInitialized_pins (s : State) : s.setInitialized.pins = s.pins := rfl
@[simp] theorem State.setInitialized_txbuf (s : State) : s.setInitialized.txbuf = s.txbuf := rfl
@[simp] theorem State.setInitialized_rxbuf (s : State) : s.setInitialized.rxbuf = s.rxbuf := rfl
@[simp] theorem State.setInitialized_twDevList (s : State) : s.setInitialized.twDevList = s.twDevList := rfl
@[simp] theorem State.setInitialized_owDevList (s : State) : s.setInitialized.owDevList = s.owDevList := rfl
@[simp] theorem State.setInitialized_events (s : State) : s.setInitialized.events = s.events := rfl
@[simp] theorem State.setInitialized_history (s : State) : s.setInitialized.history = s.history := rfl
@[simp] theorem State.setInitialized_hpc (s : State) : s.setInitialized.hpc = s.hpc := rfl
@[simp] theorem State.setInitialized_host (s : State) : s.setInitialized.host = s.host := rfl
@[simp] theorem State.setInitialized_hostSeen (s : State) : s.setInitialized.hostSeen = s.hostSeen := rfl
@[simp] theorem State.setInitialized_bus (s : State) : s.setInitialized.bus = s.bus := rfl
@[simp] theorem State.setInitialized_draws (s : State) : s.setInitialized.draws = s.draws := rfl

/-! ### `State.speedSet` -/

@[simp] theorem State.speedSet_params (s : State) (lvl : BitVec 2) : (s.speedSet lvl).params = s.params := rfl
@[simp] theorem State.speedSet_status (s : State) (lvl : BitVec 2) : (s.speedSet lvl).status = s.status := rfl
@[simp] theorem State.speedSet_result (s : State) (lvl : BitVec 2) : (s.speedSet lvl).result = s.result := rfl
@[simp] theorem State.speedSet_faulted (s : State) (lvl : BitVec 2) : (s.speedSet lvl).faulted = s.faulted := rfl
@[simp] theorem State.speedSet_faultReason (s : State) (lvl : BitVec 2) : (s.speedSet lvl).faultReason = s.faultReason := rfl
@[simp] theorem State.speedSet_tw (s : State) (lvl : BitVec 2) : (s.speedSet lvl).tw = { s.tw with speed := lvl, short := BitVec.ofNat 32 (shortDelay s.params lvl), long := BitVec.ofNat 32 (2 * shortDelay s.params lvl), speedWritten := true } := rfl
@[simp] theorem State.speedSet_cursor (s : State) (lvl : BitVec 2) : (s.speedSet lvl).cursor = s.cursor := rfl
@[simp] theorem State.speedSet_pins (s : State) (lvl : BitVec 2) : (s.speedSet lvl).pins = s.pins := rfl
@[simp] theorem State.speedSet_txbuf (s : State) (lvl : BitVec 2) : (s.speedSet lvl).txbuf = s.txbuf := rfl
@[simp] theorem State.speedSet_rxbuf (s : State) (lvl : BitVec 2) : (s.speedSet lvl).rxbuf = s.rxbuf := rfl
@[simp] theorem State.speedSet_twDevList (s : State) (lvl : BitVec 2) : (s.speedSet lvl).twDevList = s.twDevList := rfl
@[simp] theorem State.speedSet_owDevList (s : State) (lvl : BitVec 2) : (s.speedSet lvl).owDevList = s.owDevList := rfl
@[simp] theorem State.speedSet_events (s : State) (lvl : BitVec 2) : (s.speedSet lvl).events = s.events := rfl
@[simp] theorem State.speedSet_history (s : State) (lvl : BitVec 2) : (s.speedSet lvl).history = s.history := rfl
@[simp] theorem State.speedSet_hpc (s : State) (lvl : BitVec 2) : (s.speedSet lvl).hpc = s.hpc := rfl
@[simp] theorem State.speedSet_host (s : State) (lvl : BitVec 2) : (s.speedSet lvl).host = s.host := rfl
@[simp] theorem State.speedSet_hostSeen (s : State) (lvl : BitVec 2) : (s.speedSet lvl).hostSeen = s.hostSeen := rfl
@[simp] theorem State.speedSet_bus (s : State) (lvl : BitVec 2) : (s.speedSet lvl).bus = s.bus := rfl
@[simp] theorem State.speedSet_draws (s : State) (lvl : BitVec 2) : (s.speedSet lvl).draws = s.draws := rfl

/-! ### `State.setCursor` -/

@[simp] theorem State.setCursor_params (s : State) (c : Cursor) : (s.setCursor c).params = s.params := rfl
@[simp] theorem State.setCursor_status (s : State) (c : Cursor) : (s.setCursor c).status = s.status := rfl
@[simp] theorem State.setCursor_result (s : State) (c : Cursor) : (s.setCursor c).result = s.result := rfl
@[simp] theorem State.setCursor_faulted (s : State) (c : Cursor) : (s.setCursor c).faulted = s.faulted := rfl
@[simp] theorem State.setCursor_faultReason (s : State) (c : Cursor) : (s.setCursor c).faultReason = s.faultReason := rfl
@[simp] theorem State.setCursor_tw (s : State) (c : Cursor) : (s.setCursor c).tw = s.tw := rfl
@[simp] theorem State.setCursor_cursor (s : State) (c : Cursor) : (s.setCursor c).cursor = c := rfl
@[simp] theorem State.setCursor_pins (s : State) (c : Cursor) : (s.setCursor c).pins = s.pins := rfl
@[simp] theorem State.setCursor_txbuf (s : State) (c : Cursor) : (s.setCursor c).txbuf = s.txbuf := rfl
@[simp] theorem State.setCursor_rxbuf (s : State) (c : Cursor) : (s.setCursor c).rxbuf = s.rxbuf := rfl
@[simp] theorem State.setCursor_twDevList (s : State) (c : Cursor) : (s.setCursor c).twDevList = s.twDevList := rfl
@[simp] theorem State.setCursor_owDevList (s : State) (c : Cursor) : (s.setCursor c).owDevList = s.owDevList := rfl
@[simp] theorem State.setCursor_events (s : State) (c : Cursor) : (s.setCursor c).events = s.events := rfl
@[simp] theorem State.setCursor_history (s : State) (c : Cursor) : (s.setCursor c).history = s.history := rfl
@[simp] theorem State.setCursor_hpc (s : State) (c : Cursor) : (s.setCursor c).hpc = s.hpc := rfl
@[simp] theorem State.setCursor_host (s : State) (c : Cursor) : (s.setCursor c).host = s.host := rfl
@[simp] theorem State.setCursor_hostSeen (s : State) (c : Cursor) : (s.setCursor c).hostSeen = s.hostSeen := rfl
@[simp] theorem State.setCursor_bus (s : State) (c : Cursor) : (s.setCursor c).bus = s.bus := rfl
@[simp] theorem State.setCursor_draws (s : State) (c : Cursor) : (s.setCursor c).draws = s.draws := rfl

/-! ### `State.withHost` -/

@[simp] theorem State.withHost_params (s : State) (l : List HostAction) : (s.withHost l).params = s.params := rfl
@[simp] theorem State.withHost_status (s : State) (l : List HostAction) : (s.withHost l).status = s.status := rfl
@[simp] theorem State.withHost_result (s : State) (l : List HostAction) : (s.withHost l).result = s.result := rfl
@[simp] theorem State.withHost_faulted (s : State) (l : List HostAction) : (s.withHost l).faulted = s.faulted := rfl
@[simp] theorem State.withHost_faultReason (s : State) (l : List HostAction) : (s.withHost l).faultReason = s.faultReason := rfl
@[simp] theorem State.withHost_tw (s : State) (l : List HostAction) : (s.withHost l).tw = s.tw := rfl
@[simp] theorem State.withHost_cursor (s : State) (l : List HostAction) : (s.withHost l).cursor = s.cursor := rfl
@[simp] theorem State.withHost_pins (s : State) (l : List HostAction) : (s.withHost l).pins = s.pins := rfl
@[simp] theorem State.withHost_txbuf (s : State) (l : List HostAction) : (s.withHost l).txbuf = s.txbuf := rfl
@[simp] theorem State.withHost_rxbuf (s : State) (l : List HostAction) : (s.withHost l).rxbuf = s.rxbuf := rfl
@[simp] theorem State.withHost_twDevList (s : State) (l : List HostAction) : (s.withHost l).twDevList = s.twDevList := rfl
@[simp] theorem State.withHost_owDevList (s : State) (l : List HostAction) : (s.withHost l).owDevList = s.owDevList := rfl
@[simp] theorem State.withHost_events (s : State) (l : List HostAction) : (s.withHost l).events = s.events := rfl
@[simp] theorem State.withHost_history (s : State) (l : List HostAction) : (s.withHost l).history = s.history := rfl
@[simp] theorem State.withHost_hpc (s : State) (l : List HostAction) : (s.withHost l).hpc = s.hpc := rfl
@[simp] theorem State.withHost_host (s : State) (l : List HostAction) : (s.withHost l).host = l := rfl
@[simp] theorem State.withHost_hostSeen (s : State) (l : List HostAction) : (s.withHost l).hostSeen = s.hostSeen := rfl
@[simp] theorem State.withHost_bus (s : State) (l : List HostAction) : (s.withHost l).bus = s.bus := rfl
@[simp] theorem State.withHost_draws (s : State) (l : List HostAction) : (s.withHost l).draws = s.draws := rfl

end Sys2Proof.Machine
end

