-- ==== Sys2Proof/Laws/Cells.lean ====
section
/-! SUPPORT. Keyed data, buffers and pins: a read after a write, and that every operation keeps the canonical form. -/

namespace Sys2Proof.Machine

variable {α : Type}

@[simp] theorem Cells.get?_nil (k : Nat) : Cells.get? ([] : Cells α) k = none := rfl

theorem Cells.get?_cons (a : Nat) (v : α) (m : Cells α) (k : Nat) :
    Cells.get? ((a, v) :: m) k = if a = k then some v else Cells.get? m k := rfl

theorem Cells.get?_put (m : Cells α) (k : Nat) (v : α) (j : Nat) :
    Cells.get? (Cells.put m k v) j = if j = k then some v else Cells.get? m j := by
  induction m with
  | nil => simp only [Cells.put, Cells.get?_cons, Cells.get?_nil, eq_comm]
  | cons c m ih =>
    obtain ⟨a, u⟩ := c
    simp only [Cells.put]
    split
    · simp only [Cells.get?_cons, eq_comm]
    · split
      · subst_vars; simp only [Cells.get?_cons]; split <;> simp_all [eq_comm]
      · simp only [Cells.get?_cons, ih]; split <;> simp_all [eq_comm]

theorem Cells.get?_erase (m : Cells α) (k j : Nat) :
    Cells.get? (Cells.erase m k) j = if j = k then none else Cells.get? m j := by
  induction m with
  | nil => simp [Cells.erase]
  | cons c m ih =>
    obtain ⟨a, u⟩ := c
    simp only [Cells.erase]
    split
    · rw [ih, Cells.get?_cons]; split <;> simp_all [eq_comm]
    · simp only [Cells.get?_cons, ih]; split <;> simp_all [eq_comm]

theorem Cells.mem_put {m : Cells α} {k : Nat} {v : α} {c : Nat × α} (h : c ∈ Cells.put m k v) :
    c = (k, v) ∨ c ∈ m := by
  induction m with
  | nil => simpa [Cells.put] using h
  | cons d m ih =>
    simp only [Cells.put] at h
    split at h
    · simpa using h
    · split at h
      · rcases List.mem_cons.mp h with h | h
        · exact .inl h
        · exact .inr (List.mem_cons_of_mem _ h)
      · rcases List.mem_cons.mp h with h | h
        · exact .inr (h ▸ List.mem_cons_self)
        · exact (ih h).imp_right (List.mem_cons_of_mem _)

theorem Cells.erase_sublist (m : Cells α) (k : Nat) : (Cells.erase m k).Sublist m := by
  induction m with
  | nil => exact .slnil
  | cons c m ih =>
    simp only [Cells.erase]
    split
    · exact ih.cons _
    · exact ih.cons_cons _

theorem Cells.sorted_put {m : Cells α} (h : Cells.Sorted m) (k : Nat) (v : α) :
    Cells.Sorted (Cells.put m k v) := by
  induction m with
  | nil => simp [Cells.put, Cells.Sorted]
  | cons c m ih =>
    obtain ⟨ha, hm⟩ := List.pairwise_cons.mp h
    simp only [Cells.put]
    split
    · rename_i hk
      refine List.pairwise_cons.mpr ⟨fun d hd => ?_, h⟩
      rcases List.mem_cons.mp hd with rfl | hd
      · exact hk
      · exact Nat.lt_trans hk (ha d hd)
    · split
      · rename_i hk
        exact List.pairwise_cons.mpr ⟨fun d hd => by simpa [hk] using ha d hd, hm⟩
      · rename_i h1 h2
        refine List.pairwise_cons.mpr ⟨fun d hd => ?_, ih hm⟩
        rcases Cells.mem_put hd with rfl | hd
        · exact Nat.lt_of_le_of_ne (Nat.not_lt.mp h1) (Ne.symm h2)
        · exact ha d hd

theorem Cells.sorted_erase {m : Cells α} (h : Cells.Sorted m) (k : Nat) : Cells.Sorted (Cells.erase m k) :=
  h.sublist (Cells.erase_sublist m k)

/-- The basic law of a buffer: a read after a write. -/
theorem Memory.read_write (m : Memory) (i : Nat) (b : Byte) (j : Nat) :
    Memory.read (Memory.write m i b) j = if j = i then some b else Memory.read m j :=
  Cells.get?_put m i b j

theorem Memory.wf_write {m : Memory} (h : Memory.wf m) (i : Nat) (b : Byte) : Memory.wf (Memory.write m i b) :=
  Cells.sorted_put h i b

theorem Memory.mem_write {m : Memory} {i : Nat} {b : Byte} {c : Host.Cell} (h : c ∈ Memory.write m i b) :
    c = (i, b) ∨ c ∈ m := Cells.mem_put h

theorem Memory.wf_writeAll {m : Memory} (h : Memory.wf m) (i : Nat) (bs : List Byte) :
    Memory.wf (Memory.writeAll m i bs) := by
  induction bs generalizing m i with
  | nil => exact h
  | cons b bs ih => exact ih (Memory.wf_write h i b) (i + 1)

theorem Memory.mem_writeAll {m : Memory} {i : Nat} {bs : List Byte} {c : Host.Cell}
    (h : c ∈ Memory.writeAll m i bs) : (i ≤ c.1 ∧ c.1 < i + bs.length) ∨ c ∈ m := by
  induction bs generalizing m i with
  | nil => exact .inr h
  | cons b bs ih =>
    rcases ih h with h | h
    · left; simp only [List.length_cons]; omega
    · rcases Memory.mem_write h with rfl | h
      · left; simp
      · exact .inr h

/-- What a buffer reads after a run of bytes is written from `i` on. -/
theorem Memory.read_writeAll (m : Memory) (i : Nat) (bs : List Byte) (j : Nat) :
    Memory.read (Memory.writeAll m i bs) j =
      if i ≤ j ∧ j < i + bs.length then bs[j - i]? else Memory.read m j := by
  induction bs generalizing m i with
  | nil => simp [Memory.writeAll]
  | cons b bs ih =>
    rw [Memory.writeAll, ih, Memory.read_write]
    by_cases h : j = i
    · subst h; simp
    · by_cases h2 : i + 1 ≤ j ∧ j < i + 1 + bs.length
      · rw [if_pos h2, if_pos (by simp only [List.length_cons]; omega), show j - i = (j - (i + 1)) + 1 by omega]
        rfl
      · rw [if_neg h2, if_neg h, if_neg (by simp only [List.length_cons]; omega)]

theorem pinOf_putPin (m : Cells Pin) (p : PinId) (v : Pin) (q : PinId) :
    pinOf (putPin m p v) q = if p = q then v else pinOf m q := by
  have inj : q.toNat = p.toNat ↔ p = q := by rw [← BitVec.toNat_inj, eq_comm]
  unfold pinOf putPin
  split
  · rename_i hv
    rw [Cells.get?_erase]
    by_cases h : p = q
    · simp [h, hv]
    · simp [h, inj]
  · rw [Cells.get?_put]
    by_cases h : p = q
    · simp [h]
    · simp [h, inj]

/-- A pin after another is set. -/
theorem State.pin_setPin (s : State) (p : PinId) (v : Pin) (q : PinId) :
    (s.setPin p v).pin q = if p = q then v else s.pin q := pinOf_putPin s.pins p v q

theorem sorted_putPin {m : Cells Pin} (h : Cells.Sorted m) (p : PinId) (v : Pin) : Cells.Sorted (putPin m p v) := by
  unfold putPin
  split
  · exact Cells.sorted_erase h _
  · exact Cells.sorted_put h _ _

theorem mem_putPin {m : Cells Pin} {p : PinId} {v : Pin} {c : Nat × Pin} (h : c ∈ putPin m p v) :
    (c = (p.toNat, v) ∧ v ≠ Pin.atReset) ∨ c ∈ m := by
  unfold putPin at h
  split at h
  · exact .inr ((Cells.erase_sublist _ _).mem h)
  · rename_i hv
    exact (Cells.mem_put h).imp_left (⟨·, hv⟩)

end Sys2Proof.Machine
end

