-- ==== Sys2Proof/Laws/Decode.lean ====
section
/-! SUPPORT. The fields of an encoded word, and the sub-fields of an operand byte. -/

namespace Sys2Proof

@[simp] theorem opField_mkWord (op a b c : Byte) : opField (mkWord op a b c) = op := by
  unfold opField mkWord
  ext i hi
  simp only [BitVec.getElem_extractLsb', BitVec.getLsbD_append]
  rw [if_neg (by omega), if_neg (by omega), if_neg (by omega)]
  simp [show 24 + i - 8 - 8 - 8 = i by omega, hi]

@[simp] theorem aField_mkWord (op a b c : Byte) : aField (mkWord op a b c) = a := by
  unfold aField mkWord
  ext i hi
  simp only [BitVec.getElem_extractLsb', BitVec.getLsbD_append]
  rw [if_neg (by omega), if_neg (by omega), if_pos (by omega)]
  simp [show 16 + i - 8 - 8 = i by omega, hi]

@[simp] theorem bField_mkWord (op a b c : Byte) : bField (mkWord op a b c) = b := by
  unfold bField mkWord
  ext i hi
  simp only [BitVec.getElem_extractLsb', BitVec.getLsbD_append]
  rw [if_neg (by omega), if_pos (by omega)]
  simp [show 8 + i - 8 = i by omega, hi]

@[simp] theorem cField_mkWord (op a b c : Byte) : cField (mkWord op a b c) = c := by
  unfold cField mkWord
  ext i hi
  simp only [BitVec.getElem_extractLsb', BitVec.getLsbD_append]
  rw [if_pos (by omega)]
  simp [hi]

/-- A word is its four fields. -/
theorem mkWord_fields (w : Word) : mkWord (opField w) (aField w) (bField w) (cField w) = w := by
  unfold mkWord opField aField bField cField
  ext i hi
  simp only [← BitVec.getLsbD_eq_getElem, BitVec.getLsbD_append, BitVec.getLsbD_extractLsb']
  split
  · simp [*]
  · split
    · rename_i h; simp [h, show 8 + (i - 8) = i by omega]
    · split
      · rename_i h; simp [h, show 16 + (i - 8 - 8) = i by omega]
      · rename_i h1 h2 h3
        simp [show i - 8 - 8 - 8 < 8 by omega, show 24 + (i - 8 - 8 - 8) = i by omega]

@[simp] theorem highZero_bitByte (b : Bool) : highZero 1 (bitByte b) = true := by cases b <;> decide
@[simp] theorem bitByte_bit (b : Bool) : (bitByte b)[0] = b := by cases b <;> decide
@[simp] theorem highZero_setWidth2 (x : BitVec 2) : highZero 2 (x.setWidth 8) = true := by
  revert x; decide
@[simp] theorem setWidth2_setWidth8 (x : BitVec 2) : (x.setWidth 8).setWidth 2 = x := by revert x; decide
@[simp] theorem highZero_setWidth7 (x : BitVec 7) : highZero 7 (x.setWidth 8) = true := by
  revert x; decide
@[simp] theorem setWidth7_setWidth8 (x : BitVec 7) : (x.setWidth 8).setWidth 7 = x := by revert x; decide

/-- A byte whose bits above bit 0 are 0 is its bit 0. -/
theorem bitByte_of_highZero {x : Byte} (h : highZero 1 x = true) : bitByte x[0] = x := by
  revert x; decide
/-- A byte whose bits above bit 1 are 0 is its low two bits. -/
theorem setWidth2_of_highZero {x : Byte} (h : highZero 2 x = true) : (x.setWidth 2).setWidth 8 = x := by
  revert x; decide
/-- A byte whose bit 7 is 0 is its low seven bits. -/
theorem setWidth7_of_highZero {x : Byte} (h : highZero 7 x = true) : (x.setWidth 7).setWidth 8 = x := by
  revert x; decide

theorem reserved_ok {c : Bool} {i j : Instr} (h : reserved c i = .ok j) : c = true ∧ j = i := by
  unfold reserved at h
  split at h
  · exact ⟨‹_›, by simpa using h.symm⟩
  · cases h

/-- Masking works field by field. -/
theorem mkWord_and (a b c d a' b' c' d' : Byte) :
    mkWord a b c d &&& mkWord a' b' c' d' = mkWord (a &&& a') (b &&& b') (c &&& c') (d &&& d') := by
  unfold mkWord
  ext i hi
  simp only [← BitVec.getLsbD_eq_getElem, BitVec.getLsbD_and, BitVec.getLsbD_append]
  split
  · rfl
  · split
    · rfl
    · split <;> rfl

theorem mkWord_inj {a b c d a' b' c' d' : Byte} :
    mkWord a b c d = mkWord a' b' c' d' ↔ a = a' ∧ b = b' ∧ c = c' ∧ d = d' := by
  refine ⟨fun h => ⟨?_, ?_, ?_, ?_⟩, fun ⟨h1, h2, h3, h4⟩ => by rw [h1, h2, h3, h4]⟩
  · simpa using congrArg opField h
  · simpa using congrArg aField h
  · simpa using congrArg bField h
  · simpa using congrArg cField h

/-- A row selects a word when each field, masked, is the row's (rule R74). -/
theorem selects_iff (m n : Word) (w : Word) :
    OpRow.selects ⟨m, n⟩ w = true ↔
      opField w &&& opField n = opField m ∧ aField w &&& aField n = aField m ∧
      bField w &&& bField n = bField m ∧ cField w &&& cField n = cField m := by
  rw [OpRow.selects, beq_iff_eq]
  conv_lhs => rw [← mkWord_fields w, ← mkWord_fields n, ← mkWord_fields m, mkWord_and, mkWord_inj]

end Sys2Proof
end

