-- ==== Sys2Proof/Laws/Run.lean ====
section
/-! SUPPORT. How a piece of pseudocode runs: sequencing, the primitives, and `play`, the state a list of events
leaves. -/

namespace Sys2Proof.Machine

variable {α β : Type}

/-! ## Sequencing -/

theorem bind_run (x : Op α) (f : α → Op β) (s : State) :
    (x >>= f) s = match x s with
      | .ok a t => f a t
      | .error r t => .error r t := by
  show EStateM.bind x f s = _
  unfold EStateM.bind
  cases x s <;> rfl

theorem bind_ok {x : Op α} {f : α → Op β} {s t : State} {a : α} (h : x s = .ok a t) : (x >>= f) s = f a t := by
  rw [bind_run, h]

theorem bind_error {x : Op α} {f : α → Op β} {s t : State} {r : Raise} (h : x s = .error r t) :
    (x >>= f) s = .error r t := by rw [bind_run, h]

@[simp] theorem pure_run (a : α) (s : State) : (pure a : Op α) s = .ok a s := rfl
@[simp] theorem look_run (f : State → α) (s : State) : look f s = .ok (f s) s := rfl
@[simp] theorem update_run (f : State → State) (s : State) : update f s = .ok () (f s) := rfl
@[simp] theorem raiseErr_run (e : Err) (s : State) : (raiseErr e : Op α) s = .error (.err e) s := rfl
@[simp] theorem reraise_run (r : Raise) (s : State) : (reraise r : Op α) s = .error r s := rfl
@[simp] theorem setResult_run (v : Byte) (s : State) : setResult v s = .ok () (s.setResult v) := rfl
@[simp] theorem writeRx_run (i : Nat) (b : Byte) (s : State) : writeRx i b s = .ok () (s.writeRx i b) := rfl
@[simp] theorem setInTx_run (b : Bool) (s : State) : setInTx b s = .ok () (s.setInTx b) := rfl
@[simp] theorem errIf_true (e : Err) (s : State) : errIf true e s = .error (.err e) s := rfl
@[simp] theorem errIf_false (e : Err) (s : State) : errIf false e s = .ok () s := rfl

theorem usageIf_pass {c : State → Bool} {u : Usage} {s : State} (h : c s = false) : usageIf c u s = .ok () s := by
  simp [usageIf, h]

theorem usageIf_stop {c : State → Bool} {u : Usage} {s : State} (h : c s = true) :
    usageIf c u s = .error (.usage u) s := by simp [usageIf, h]

theorem attempt_ok {x : Op α} {s t : State} {a : α} (h : x s = .ok a t) : attempt x s = .ok (.ok a) t := by
  simp [attempt, h]

theorem attempt_error {x : Op α} {s t : State} {r : Raise} (h : x s = .error r t) :
    attempt x s = .ok (.error r) t := by simp [attempt, h]

theorem readTx_run {i : Nat} {b : Byte} {s : State} (h : Memory.read s.txbuf i = some b) :
    readTx i s = .ok b s := by simp [readTx, h]

/-! ## How a command ends -/

theorem runCommand_ok {body : Op Unit} {s t : State} (hf : s.faulted = false) (h : body s.begin = .ok () t) :
    runCommand body s = .next (t.complete statusOk) := by simp [runCommand, hf, h]

theorem runCommand_err {body : Op Unit} {s t : State} {e : Err} (hf : s.faulted = false)
    (h : body s.begin = .error (.err e) t) : runCommand body s = .next (t.complete e.code) := by
  simp [runCommand, hf, h]

theorem runCommand_usage {body : Op Unit} {s t : State} {u : Usage} (hf : s.faulted = false)
    (h : body s.begin = .error (.usage u) t) : runCommand body s = .next (t.raiseUsage u) := by
  simp [runCommand, hf, h]

theorem runCommand_faulted {body : Op Unit} {s : State} (hf : s.faulted = true) :
    runCommand body s = .fault .blockFaulted := by simp [runCommand, hf]

/-- Everything a command can do: it answers a next state only from an unfaulted block, completing with `OK` or an
error's code, or taking a usage fault. -/
theorem runCommand_next {body : Op Unit} {s u : State} (h : runCommand body s = .next u) :
    s.faulted = false ∧
      ((∃ t, body s.begin = .ok () t ∧ u = t.complete statusOk) ∨
       (∃ e t, body s.begin = .error (.err e) t ∧ u = t.complete e.code) ∨
       ∃ r t, body s.begin = .error (.usage r) t ∧ u = t.raiseUsage r) := by
  cases hf : s.faulted with
  | true => rw [runCommand_faulted hf] at h; cases h
  | false =>
    refine ⟨rfl, ?_⟩
    match hb : body s.begin with
    | .ok _ t =>
      rw [runCommand_ok hf hb] at h
      exact .inl ⟨t, rfl, (by simpa using h.symm)⟩
    | .error (.err e) t =>
      rw [runCommand_err hf hb] at h
      exact .inr (.inl ⟨e, t, rfl, (by simpa using h.symm)⟩)
    | .error (.usage r) t =>
      rw [runCommand_usage hf hb] at h
      exact .inr (.inr ⟨r, t, rfl, (by simpa using h.symm)⟩)

/-! ## The state a list of events leaves -/

/-- What one event makes of the pin map (rules R101 to R105). -/
def pinsEvent (m : Cells Pin) : Event → Cells Pin
  | .cfg p md => putPin m p ⟨.rel, md.pinMode⟩
  | .low p => putPin m p ⟨.low, (pinOf m p).mode⟩
  | .rel p => putPin m p ⟨.rel, (pinOf m p).mode⟩
  | .sample _ _ => m
  | .wait _ => m

/-- The state after the events: the pins they make, the events recorded, one answer used up for each sample. -/
def State.play (s : State) (es : List Event) : State :=
  { s with
    pins := es.foldl pinsEvent s.pins
    events := es.reverse ++ s.events
    bus := s.bus.drop (sampleCount es)
    draws := s.draws + sampleCount es }

@[simp] theorem sampleCount_nil : sampleCount [] = 0 := rfl
@[simp] theorem sampleCount_append (a b : List Event) : sampleCount (a ++ b) = sampleCount a + sampleCount b := by
  simp [sampleCount]
@[simp] theorem sampleCount_cfg (p : PinId) (m : CfgMode) (es : List Event) :
    sampleCount (.cfg p m :: es) = sampleCount es := by simp [sampleCount]
@[simp] theorem sampleCount_low (p : PinId) (es : List Event) : sampleCount (.low p :: es) = sampleCount es := by
  simp [sampleCount]
@[simp] theorem sampleCount_rel (p : PinId) (es : List Event) : sampleCount (.rel p :: es) = sampleCount es := by
  simp [sampleCount]
@[simp] theorem sampleCount_wait (n : Nat) (es : List Event) : sampleCount (.wait n :: es) = sampleCount es := by
  simp [sampleCount]
@[simp] theorem sampleCount_sample (p : PinId) (v : Bool) (es : List Event) :
    sampleCount (.sample p v :: es) = sampleCount es + 1 := by simp [sampleCount]

@[simp] theorem State.play_nil (s : State) : s.play [] = s := rfl

@[simp] theorem State.play_play (s : State) (a b : List Event) : (s.play a).play b = s.play (a ++ b) := by
  simp [State.play, Nat.add_assoc]

@[simp] theorem State.play_params (s : State) (es : List Event) : (s.play es).params = s.params := rfl
@[simp] theorem State.play_status (s : State) (es : List Event) : (s.play es).status = s.status := rfl
@[simp] theorem State.play_result (s : State) (es : List Event) : (s.play es).result = s.result := rfl
@[simp] theorem State.play_faulted (s : State) (es : List Event) : (s.play es).faulted = s.faulted := rfl
@[simp] theorem State.play_faultReason (s : State) (es : List Event) : (s.play es).faultReason = s.faultReason := rfl
@[simp] theorem State.play_tw (s : State) (es : List Event) : (s.play es).tw = s.tw := rfl
@[simp] theorem State.play_cursor (s : State) (es : List Event) : (s.play es).cursor = s.cursor := rfl
@[simp] theorem State.play_pins (s : State) (es : List Event) : (s.play es).pins = es.foldl pinsEvent s.pins := rfl
@[simp] theorem State.play_txbuf (s : State) (es : List Event) : (s.play es).txbuf = s.txbuf := rfl
@[simp] theorem State.play_rxbuf (s : State) (es : List Event) : (s.play es).rxbuf = s.rxbuf := rfl
@[simp] theorem State.play_twDevList (s : State) (es : List Event) : (s.play es).twDevList = s.twDevList := rfl
@[simp] theorem State.play_owDevList (s : State) (es : List Event) : (s.play es).owDevList = s.owDevList := rfl
@[simp] theorem State.play_events (s : State) (es : List Event) : (s.play es).events = es.reverse ++ s.events := rfl
@[simp] theorem State.play_history (s : State) (es : List Event) : (s.play es).history = s.history := rfl
@[simp] theorem State.play_hpc (s : State) (es : List Event) : (s.play es).hpc = s.hpc := rfl
@[simp] theorem State.play_host (s : State) (es : List Event) : (s.play es).host = s.host := rfl
@[simp] theorem State.play_hostSeen (s : State) (es : List Event) : (s.play es).hostSeen = s.hostSeen := rfl
@[simp] theorem State.play_bus (s : State) (es : List Event) : (s.play es).bus = s.bus.drop (sampleCount es) := rfl
@[simp] theorem State.play_draws (s : State) (es : List Event) : (s.play es).draws = s.draws + sampleCount es := rfl

/-- One event's pin map, pin by pin, is what rules R101 to R105 say. -/
theorem pinOf_pinsEvent (m : Cells Pin) (e : Event) (q : PinId) :
    pinOf (pinsEvent m e) q = pinAfterEvent q (pinOf m q) e := by
  cases e with
  | cfg p md => exact pinOf_putPin ..
  | low p => rw [pinsEvent, pinOf_putPin, pinAfterEvent]; split <;> simp_all
  | rel p => rw [pinsEvent, pinOf_putPin, pinAfterEvent]; split <;> simp_all
  | sample p v => rfl
  | wait n => rfl

/-- Any pin after the events. -/
theorem State.play_pin (s : State) (es : List Event) (q : PinId) : (s.play es).pin q = pinAfter q (s.pin q) es := by
  show pinOf (es.foldl pinsEvent s.pins) q = pinAfter q (pinOf s.pins q) es
  generalize s.pins = m
  induction es generalizing m with
  | nil => rfl
  | cons e es ih => rw [List.foldl_cons, ih, pinOf_pinsEvent]; rfl

/-! ## The primitives as events -/

@[simp] theorem cfg_run (p : PinId) (m : CfgMode) (s : State) : cfg p m s = .ok () (s.play [.cfg p m]) := rfl
@[simp] theorem low_run (p : PinId) (s : State) : low p s = .ok () (s.play [.low p]) := rfl
@[simp] theorem rel_run (p : PinId) (s : State) : rel p s = .ok () (s.play [.rel p]) := rfl
@[simp] theorem wait_run (n : Nat) (s : State) : wait n s = .ok () (s.play [.wait n]) := rfl
@[simp] theorem sample_run (p : PinId) (s : State) :
    sample p s = .ok s.level (s.play [.sample p s.level]) := by
  simp [sample, State.play, State.emit, State.drawn, pinsEvent, sampleCount]

theorem State.level_eq_answer (s : State) : s.level = s.answer 0 := by
  simp [State.level, State.answer, List.headD_eq_head?_getD, List.head?_eq_getElem?]

theorem State.answer_play (s : State) (es : List Event) (j : Nat) :
    (s.play es).answer j = s.answer (sampleCount es + j) := by simp [State.answer, Nat.add_assoc]

theorem Presents.nil (s : State) : Presents s [] := rfl

theorem Presents.append {s : State} {a b : List Bool} (h : Presents s (a ++ b)) :
    Presents s a ∧ (List.range b.length).map (fun j => s.answer (a.length + j)) = b := by
  unfold Presents at h
  rw [List.length_append, List.range_add, List.map_append, List.map_map] at h
  exact List.append_inj h (by simp)

/-- The answers that come after those a run of events has used up. -/
theorem Presents.play {s : State} {a b : List Bool} {es : List Event} (h : Presents s (a ++ b))
    (he : sampleCount es = a.length) : Presents (s.play es) b := by
  show (List.range b.length).map (fun j => (s.play es).answer j) = b
  simp only [State.answer_play, he]
  exact h.append.2

theorem Presents.level {s : State} {v : Bool} {rest : List Bool} (h : Presents s (v :: rest)) : s.level = v := by
  have := (Presents.append (a := [v]) h).1
  simpa [Presents, State.level_eq_answer, List.range_succ] using this

@[simp] theorem lowScl_run (s : State) : lowScl s = .ok () (s.play [.low s.tw.sclPin]) := rfl
@[simp] theorem relScl_run (s : State) : relScl s = .ok () (s.play [.rel s.tw.sclPin]) := rfl
@[simp] theorem lowSda_run (s : State) : lowSda s = .ok () (s.play [.low s.tw.sdaPin]) := rfl
@[simp] theorem relSda_run (s : State) : relSda s = .ok () (s.play [.rel s.tw.sdaPin]) := rfl
@[simp] theorem sampleScl_run (s : State) :
    sampleScl s = .ok s.level (s.play [.sample s.tw.sclPin s.level]) := sample_run _ _
@[simp] theorem sampleSda_run (s : State) :
    sampleSda s = .ok s.level (s.play [.sample s.tw.sdaPin s.level]) := sample_run _ _
@[simp] theorem waitShort_run (s : State) : waitShort s = .ok () (s.play [.wait s.tw.short.toNat]) := rfl
@[simp] theorem waitLong_run (s : State) : waitLong s = .ok () (s.play [.wait s.tw.long.toNat]) := rfl

@[simp] theorem State.setInTx_play (s : State) (b : Bool) (es : List Event) :
    (s.setInTx b).play es = (s.play es).setInTx b := rfl
@[simp] theorem State.setInTx_setInTx (s : State) (a b : Bool) : (s.setInTx a).setInTx b = s.setInTx b := rfl

/-- Fail-fast never fails; both lines are released and the flag is cleared (rule R120). -/
@[simp] theorem failFast_run (s : State) :
    failFast s = .ok () ((s.play (failFastEvents s.line)).setInTx false) := rfl

end Sys2Proof.Machine
end

