-- ==== Sys2Proof/Laws/Triple.lean ====
section
/-! SUPPORT. What a piece of pseudocode can end in, whatever the bus answers: `Triple P x Q E` says that `x`, run on a
state that satisfies `P`, ends with a value and a state that satisfy `Q`, or in a raise and a state that satisfy `E`. -/

namespace Sys2Proof.Machine

variable {α β : Type}

/-- From `P`, `x` ends with `Q` or raises with `E`. -/
structure Triple (P : State → Prop) (x : Op α) (Q : α → State → Prop) (E : Raise → State → Prop) : Prop where
  run : ∀ s, P s → match x s with
    | .ok a t => Q a t
    | .error r t => E r t

variable {P P' : State → Prop} {Q Q' : α → State → Prop} {E E' : Raise → State → Prop}

theorem Triple.ok {x : Op α} {s t : State} {a : α} (h : Triple P x Q E) (hs : P s) (hx : x s = .ok a t) : Q a t := by
  have := h.run s hs; rwa [hx] at this

theorem Triple.error {x : Op α} {s t : State} {r : Raise} (h : Triple P x Q E) (hs : P s) (hx : x s = .error r t) :
    E r t := by
  have := h.run s hs; rwa [hx] at this

theorem Triple.of {x : Op α} (ho : ∀ s a t, P s → x s = .ok a t → Q a t)
    (he : ∀ s r t, P s → x s = .error r t → E r t) : Triple P x Q E := ⟨fun s hs => by
  match h : x s with
  | .ok a t => exact ho s a t hs h
  | .error r t => exact he s r t hs h⟩

theorem Triple.imp {x : Op α} (h : Triple P x Q E) (hp : ∀ s, P' s → P s) (hq : ∀ a t, Q a t → Q' a t)
    (he : ∀ r t, E r t → E' r t) : Triple P' x Q' E' :=
  Triple.of (fun _ _ _ hs hx => hq _ _ (h.ok (hp _ hs) hx)) (fun _ _ _ hs hx => he _ _ (h.error (hp _ hs) hx))

theorem Triple.pre {x : Op α} (h : Triple P x Q E) (hp : ∀ s, P' s → P s) : Triple P' x Q E :=
  h.imp hp (fun _ _ => id) (fun _ _ => id)

theorem Triple.post {x : Op α} (h : Triple P x Q E) (hq : ∀ a t, Q a t → Q' a t) : Triple P x Q' E :=
  h.imp (fun _ => id) hq (fun _ _ => id)

theorem Triple.bind {x : Op α} {f : α → Op β} {R : β → State → Prop} (hx : Triple P x Q E)
    (hf : ∀ a, Triple (Q a) (f a) R E) : Triple P (x >>= f) R E := ⟨fun s hs => by
  rw [bind_run]
  match h : x s with
  | .ok a t => exact (hf a).run t (hx.ok hs h)
  | .error r t => exact hx.error hs h⟩

theorem Triple.pure {a : α} (h : ∀ s, P s → Q a s) : Triple P (pure a : Op α) Q E := ⟨fun s hs => h s hs⟩

theorem Triple.look {f : State → α} (h : ∀ s, P s → Q (f s) s) : Triple P (look f) Q E := ⟨fun s hs => h s hs⟩

theorem Triple.update {f : State → State} {Q : Unit → State → Prop} (h : ∀ s, P s → Q () (f s)) :
    Triple P (update f) Q E := ⟨fun s hs => h s hs⟩

theorem Triple.raiseErr {e : Err} (h : ∀ s, P s → E (.err e) s) : Triple P (raiseErr e : Op α) Q E :=
  ⟨fun s hs => h s hs⟩

theorem Triple.reraise {r : Raise} (h : ∀ s, P s → E r s) : Triple P (reraise r : Op α) Q E := ⟨fun s hs => h s hs⟩

theorem Triple.errIf {c : Bool} {e : Err} {Q : Unit → State → Prop} (hq : ∀ s, P s → c = false → Q () s)
    (he : ∀ s, P s → c = true → E (.err e) s) : Triple P (errIf c e) Q E := ⟨fun s hs => by
  cases c
  · exact hq s hs rfl
  · exact he s hs rfl⟩

theorem Triple.usageIf {c : State → Bool} {u : Usage} {Q : Unit → State → Prop}
    (hq : ∀ s, P s → c s = false → Q () s) (he : ∀ s, P s → c s = true → E (.usage u) s) :
    Triple P (usageIf c u) Q E := ⟨fun s hs => by
  cases h : c s
  · rw [usageIf_pass h]; exact hq s hs h
  · rw [usageIf_stop h]; exact he s hs h⟩

theorem Triple.readTx {i : Nat} {Q : Byte → State → Prop} (hq : ∀ s b, P s → Memory.read s.txbuf i = some b → Q b s)
    (he : ∀ s, P s → Memory.read s.txbuf i = none → E (.usage .txUnwritten) s) :
    Triple P (readTx i) Q E := ⟨fun s hs => by
  match h : Memory.read s.txbuf i with
  | some b => rw [readTx_run h]; exact hq s b hs h
  | none => simp only [Machine.readTx, h]; exact he s hs h⟩

theorem Triple.attempt {x : Op α} {Q' : Except Raise α → State → Prop} (h : Triple P x Q E)
    (hq : ∀ a t, Q a t → Q' (.ok a) t) (he : ∀ r t, E r t → Q' (.error r) t) :
    Triple P (attempt x) Q' E' := ⟨fun s hs => by
  match hx : x s with
  | .ok a t => rw [attempt_ok hx]; exact hq a t (h.ok hs hx)
  | .error r t => rw [attempt_error hx]; exact he r t (h.error hs hx)⟩

theorem Triple.ite {c : Bool} {x y : Op α} (hx : c = true → Triple P x Q E) (hy : c = false → Triple P y Q E) :
    Triple P (if c then x else y) Q E := by
  cases c
  · simpa using hy rfl
  · simpa using hx rfl

theorem Triple.or {x : Op α} (h : Triple P x Q E) (h' : Triple P' x Q E) : Triple (fun s => P s ∨ P' s) x Q E :=
  ⟨fun s hs => hs.elim (h.run s) (h'.run s)⟩

theorem Triple.exists {γ : Type} {P : γ → State → Prop} {x : Op α} (h : ∀ g, Triple (P g) x Q E) :
    Triple (fun s => ∃ g, P g s) x Q E := ⟨fun s ⟨g, hs⟩ => (h g).run s hs⟩

/-- A premise read off the state. -/
theorem Triple.assume {x : Op α} {p : Prop} (h : p → Triple P x Q E) : Triple (fun s => p ∧ P s) x Q E :=
  ⟨fun s hs => (h hs.1).run s hs.2⟩

end Sys2Proof.Machine
end

