-- ==== Sys2Proof/Laws/Lines.lean ====
section
/-! SUPPORT. Everything the two-wire operations can do, whatever the bus answers: `At s₀ n i c d` says that since `s₀`
only events on the two lines and delays have happened, at most `n` of them, and how the flag and the lines stand. -/

namespace Sys2Proof.Machine

/-- An event of the two-wire engine on the lines of `w` (40_bus_primitives.md). -/
def TwEvent (w : TwRegs) : Event → Prop
  | .cfg _ _ => False
  | .low p => p = w.sclPin ∨ p = w.sdaPin
  | .rel p => p = w.sclPin ∨ p = w.sdaPin
  | .sample p _ => p = w.sclPin ∨ p = w.sdaPin
  | .wait _ => True

/-- From `s₀` to `s` at most `n` two-wire events happened, and nothing else but the transaction flag changed. -/
def TwFrom (s₀ : State) (n : Nat) (s : State) : Prop :=
  ∃ es b, s = (s₀.play es).setInTx b ∧ (∀ e ∈ es, TwEvent s₀.tw e) ∧ es.length ≤ n

/-- `TwFrom`, with the transaction flag `i`, the clock driven `c` and the data line driven `d`. -/
def At (s₀ : State) (n : Nat) (i : Bool) (c d : Drive) (s : State) : Prop :=
  TwFrom s₀ n s ∧ s.tw.inTx = i ∧ (s.pin s₀.tw.sclPin).drive = c ∧ (s.pin s₀.tw.sdaPin).drive = d

variable {s₀ s : State} {n m : Nat} {i : Bool} {c d : Drive}

theorem TwFrom.mono (h : TwFrom s₀ n s) (hm : n ≤ m) : TwFrom s₀ m s := by
  obtain ⟨es, b, h1, h2, h3⟩ := h
  exact ⟨es, b, h1, h2, h3.trans hm⟩

theorem At.mono (h : At s₀ n i c d s) (hm : n ≤ m) : At s₀ m i c d s := ⟨h.1.mono hm, h.2⟩

theorem TwFrom.refl (s : State) : TwFrom s 0 s := ⟨[], s.tw.inTx, rfl, by simp, Nat.le_refl _⟩

theorem TwFrom.tw (h : TwFrom s₀ n s) : s.tw = { s₀.tw with inTx := s.tw.inTx } := by
  obtain ⟨es, b, rfl, -, -⟩ := h; rfl

theorem TwFrom.scl (h : TwFrom s₀ n s) : s.tw.sclPin = s₀.tw.sclPin := by rw [h.tw]
theorem TwFrom.sda (h : TwFrom s₀ n s) : s.tw.sdaPin = s₀.tw.sdaPin := by rw [h.tw]
theorem TwFrom.maxStretch (h : TwFrom s₀ n s) : s.tw.maxStretch = s₀.tw.maxStretch := by rw [h.tw]

theorem TwFrom.event (h : TwFrom s₀ n s) {e : Event} (he : TwEvent s₀.tw e) : TwFrom s₀ (n + 1) (s.play [e]) := by
  obtain ⟨es, b, rfl, h2, h3⟩ := h
  refine ⟨es ++ [e], b, by rw [State.setInTx_play, State.play_play], fun x hx => ?_, by simpa using h3⟩
  rcases List.mem_append.mp hx with hx | hx
  · exact h2 x hx
  · rw [List.mem_singleton.mp hx]; exact he

theorem TwFrom.setInTx (h : TwFrom s₀ n s) (b : Bool) : TwFrom s₀ n (s.setInTx b) := by
  obtain ⟨es, b', rfl, h2, h3⟩ := h
  exact ⟨es, b, rfl, h2, h3⟩

theorem At.setInTx (h : At s₀ n i c d s) (b : Bool) : At s₀ n b c d (s.setInTx b) :=
  ⟨h.1.setInTx b, rfl, h.2.2⟩

/-- The lines of `s₀` are two different pins. -/
def TwoLines (s₀ : State) : Prop := s₀.tw.sclPin ≠ s₀.tw.sdaPin

theorem At.lowScl (hd : TwoLines s₀) (h : At s₀ n i c d s) : At s₀ (n + 1) i .low d (s.play [.low s.tw.sclPin]) := by
  refine ⟨h.1.event (.inl h.1.scl), h.2.1, ?_, ?_⟩ <;>
    simp only [State.play_pin, pinAfter, List.foldl_cons, List.foldl_nil, pinAfterEvent, h.1.scl]
  · simp
  · rw [if_neg hd]; exact h.2.2.2

theorem At.relScl (hd : TwoLines s₀) (h : At s₀ n i c d s) : At s₀ (n + 1) i .rel d (s.play [.rel s.tw.sclPin]) := by
  refine ⟨h.1.event (.inl h.1.scl), h.2.1, ?_, ?_⟩ <;>
    simp only [State.play_pin, pinAfter, List.foldl_cons, List.foldl_nil, pinAfterEvent, h.1.scl]
  · simp
  · rw [if_neg hd]; exact h.2.2.2

theorem At.lowSda (hd : TwoLines s₀) (h : At s₀ n i c d s) : At s₀ (n + 1) i c .low (s.play [.low s.tw.sdaPin]) := by
  refine ⟨h.1.event (.inr h.1.sda), h.2.1, ?_, ?_⟩ <;>
    simp only [State.play_pin, pinAfter, List.foldl_cons, List.foldl_nil, pinAfterEvent, h.1.sda]
  · rw [if_neg (Ne.symm hd)]; exact h.2.2.1
  · simp

theorem At.relSda (hd : TwoLines s₀) (h : At s₀ n i c d s) : At s₀ (n + 1) i c .rel (s.play [.rel s.tw.sdaPin]) := by
  refine ⟨h.1.event (.inr h.1.sda), h.2.1, ?_, ?_⟩ <;>
    simp only [State.play_pin, pinAfter, List.foldl_cons, List.foldl_nil, pinAfterEvent, h.1.sda]
  · rw [if_neg (Ne.symm hd)]; exact h.2.2.1
  · simp

theorem At.wait (h : At s₀ n i c d s) (k : Nat) : At s₀ (n + 1) i c d (s.play [.wait k]) :=
  ⟨h.1.event trivial, h.2.1, by simpa [State.play_pin, pinAfter, pinAfterEvent] using h.2.2.1,
    by simpa [State.play_pin, pinAfter, pinAfterEvent] using h.2.2.2⟩

theorem At.sample (h : At s₀ n i c d s) {p : PinId} (hp : p = s.tw.sclPin ∨ p = s.tw.sdaPin) (v : Bool) :
    At s₀ (n + 1) i c d (s.play [.sample p v]) :=
  ⟨h.1.event (hp.imp (·.trans h.1.scl) (·.trans h.1.sda)), h.2.1,
    by simpa [State.play_pin, pinAfter, pinAfterEvent] using h.2.2.1,
    by simpa [State.play_pin, pinAfter, pinAfterEvent] using h.2.2.2⟩

/-! ## The operations -/

/-- The two-wire engine idle: the flag clear and both lines released. -/
def IdleAt (s₀ : State) (n : Nat) (s : State) : Prop := At s₀ n false .rel .rel s

/-- A transaction open between bytes: the flag set, the clock driven low, the data line released. -/
def OpenAt (s₀ : State) (n : Nat) (s : State) : Prop := At s₀ n true .low .rel s

/-- The only raise is a clock-stretch failure, after fail-fast (rule R110). -/
def StretchOut (s₀ : State) (n : Nat) (r : Raise) (s : State) : Prop := r = .err .longClockStretch ∧ IdleAt s₀ n s

theorem StretchOut.mono {r : Raise} (h : StretchOut s₀ n r s) (hm : n ≤ m) : StretchOut s₀ m r s :=
  ⟨h.1, h.2.mono hm⟩

variable {α : Type} {E : Raise → State → Prop}

theorem triple_lowScl (hd : TwoLines s₀) :
    Triple (At s₀ n i c d) lowScl (fun _ => At s₀ (n + 1) i .low d) E := ⟨fun s h => by
  rw [lowScl_run]; exact h.lowScl hd⟩
theorem triple_relScl (hd : TwoLines s₀) :
    Triple (At s₀ n i c d) relScl (fun _ => At s₀ (n + 1) i .rel d) E := ⟨fun s h => by
  rw [relScl_run]; exact h.relScl hd⟩
theorem triple_lowSda (hd : TwoLines s₀) :
    Triple (At s₀ n i c d) lowSda (fun _ => At s₀ (n + 1) i c .low) E := ⟨fun s h => by
  rw [lowSda_run]; exact h.lowSda hd⟩
theorem triple_relSda (hd : TwoLines s₀) :
    Triple (At s₀ n i c d) relSda (fun _ => At s₀ (n + 1) i c .rel) E := ⟨fun s h => by
  rw [relSda_run]; exact h.relSda hd⟩
theorem triple_waitShort : Triple (At s₀ n i c d) waitShort (fun _ => At s₀ (n + 1) i c d) E := ⟨fun s h => by
  rw [waitShort_run]; exact h.wait _⟩
theorem triple_waitLong : Triple (At s₀ n i c d) waitLong (fun _ => At s₀ (n + 1) i c d) E := ⟨fun s h => by
  rw [waitLong_run]; exact h.wait _⟩
theorem triple_sampleScl : Triple (At s₀ n i c d) sampleScl (fun _ => At s₀ (n + 1) i c d) E := ⟨fun s h => by
  rw [sampleScl_run]; exact h.sample (.inl rfl) _⟩
theorem triple_sampleSda : Triple (At s₀ n i c d) sampleSda (fun _ => At s₀ (n + 1) i c d) E := ⟨fun s h => by
  rw [sampleSda_run]; exact h.sample (.inr rfl) _⟩
theorem triple_setInTx (b : Bool) : Triple (At s₀ n i c d) (setInTx b) (fun _ => At s₀ n b c d) E :=
  ⟨fun _ h => h.setInTx b⟩

/-- Fail-fast: two events, both lines released, the flag clear (rule R120). -/
theorem triple_failFast (hd : TwoLines s₀) :
    Triple (At s₀ n i c d) failFast (fun _ => IdleAt s₀ (n + 2)) E :=
  (triple_relScl hd).bind fun _ => (triple_relSda hd).bind fun _ => triple_setInTx false

/-- The poll loop: one event for each poll (rule R110). -/
theorem triple_pollScl (k : Nat) :
    Triple (At s₀ n i c d) (pollScl k) (fun _ => At s₀ (n + k) i c d) E := by
  induction k generalizing n with
  | zero => exact Triple.pure fun s h => h
  | succ k ih =>
    refine triple_sampleScl.bind fun v => Triple.ite (fun _ => Triple.pure fun s h => h.mono (by omega)) fun _ => ?_
    exact ih.post fun a t h => h.mono (by omega)

/-- The stretch wait: at most `TW_MAX_STRETCH` polls, then fail-fast and `LongClockStretch` (rule R110). -/
theorem triple_stretchWait (hd : TwoLines s₀) :
    Triple (At s₀ n i c d) stretchWait (fun _ => At s₀ (n + s₀.tw.maxStretch.toNat) i c d)
      (StretchOut s₀ (n + s₀.tw.maxStretch.toNat + 2)) := by
  refine (Triple.look (Q := fun k s => k = s₀.tw.maxStretch.toNat ∧ At s₀ n i c d s)
    fun _ h => ⟨by rw [h.1.maxStretch], h⟩).bind fun k => Triple.assume fun hk => ?_
  subst hk
  refine (triple_pollScl _).bind fun v => Triple.ite (fun _ => Triple.pure fun s h => h) fun _ => ?_
  exact (triple_failFast hd).bind fun _ => Triple.raiseErr fun s h => ⟨rfl, h⟩

/-- A tick ends with the clock driven low and the data line as it was (rule R112). -/
theorem triple_tick (hd : TwoLines s₀) (smp : Bool) :
    Triple (At s₀ n i c d) (tick smp) (fun _ => At s₀ (n + s₀.tw.maxStretch.toNat + 7) i .low d)
      (StretchOut s₀ (n + s₀.tw.maxStretch.toNat + 5)) := by
  refine (triple_lowScl hd).bind fun _ => triple_waitShort.bind fun _ => (triple_relScl hd).bind fun _ =>
    ((triple_stretchWait hd).imp (fun _ => id) (fun _ _ => id) fun r t h => h.mono (by omega)).bind fun _ =>
    triple_waitLong.bind fun _ => ?_
  have hs : Triple (At s₀ (n + 1 + 1 + 1 + s₀.tw.maxStretch.toNat + 1) i .rel d) (tickSample smp)
      (fun _ => At s₀ (n + s₀.tw.maxStretch.toNat + 5) i .rel d) (StretchOut s₀ (n + s₀.tw.maxStretch.toNat + 5)) :=
    Triple.ite (fun _ => triple_sampleSda.post fun _ _ h => h.mono (by omega))
      fun _ => Triple.pure fun _ h => h.mono (by omega)
  exact hs.bind fun v => (triple_lowScl hd).bind fun _ => triple_waitShort.bind fun _ => Triple.pure fun _ h => h

/-- A bit put on the line (rule R113). -/
theorem triple_putBit (hd : TwoLines s₀) (b : Bool) :
    Triple (At s₀ n i c d) (putBit b)
      (fun _ => At s₀ (n + s₀.tw.maxStretch.toNat + 8) i .low (if b then .rel else .low))
      (StretchOut s₀ (n + s₀.tw.maxStretch.toNat + 8)) := by
  have hs : Triple (At s₀ n i c d) (setSda b) (fun _ => At s₀ (n + 1) i c (if b then .rel else .low))
      (StretchOut s₀ (n + s₀.tw.maxStretch.toNat + 8)) := by
    cases b
    · exact triple_lowSda hd
    · exact triple_relSda hd
  exact hs.bind fun _ => ((triple_tick hd false).imp (fun _ => id) (fun _ _ h => h.mono (by omega))
    fun _ _ h => h.mono (by omega)).bind fun _ => Triple.pure fun _ h => h

/-- A bit read: the data line is released after (rule R113). -/
theorem triple_getBit (hd : TwoLines s₀) :
    Triple (At s₀ n i c d) getBit (fun _ => At s₀ (n + s₀.tw.maxStretch.toNat + 8) i .low .rel)
      (StretchOut s₀ (n + s₀.tw.maxStretch.toNat + 8)) :=
  (triple_relSda hd).bind fun _ => (triple_tick hd true).imp (fun _ => id) (fun _ _ h => h.mono (by omega))
    fun _ _ h => h.mono (by omega)

/-- How many events one bit takes at most. -/
def bitEvents (s₀ : State) : Nat := s₀.tw.maxStretch.toNat + 8

theorem triple_putBits (hd : TwoLines s₀) (x : Byte) (k : Nat) :
    Triple (fun s => ∃ d, At s₀ n i .low d s) (putBits x k) (fun _ s => ∃ d, At s₀ (n + k * bitEvents s₀) i .low d s)
      (StretchOut s₀ (n + k * bitEvents s₀)) := by
  induction k generalizing n with
  | zero => exact Triple.pure fun s ⟨d, h⟩ => ⟨d, h.mono (by omega)⟩
  | succ k ih =>
    have e : n + (k + 1) * bitEvents s₀ = n + bitEvents s₀ + k * bitEvents s₀ := by ring
    have := Nat.zero_le (k * bitEvents s₀)
    rw [e]
    refine Triple.bind (Q := fun _ s => ∃ d, At s₀ (n + bitEvents s₀) i .low d s) (Triple.exists fun d => ?_) fun _ => ih
    exact (triple_putBit hd _).imp (fun _ => id) (fun _ _ h => ⟨_, h⟩)
      (fun _ _ h => h.mono (by unfold bitEvents at *; omega))

/-- A byte written leaves the clock low and the data line released (rule R136). -/
theorem triple_writeByte (hd : TwoLines s₀) (x : Byte) :
    Triple (At s₀ n i .low d) (writeByte x) (fun _ => At s₀ (n + 9 * bitEvents s₀) i .low .rel)
      (StretchOut s₀ (n + 9 * bitEvents s₀)) := by
  refine Triple.bind ((triple_putBits hd x 8).imp (fun s h => ⟨d, h⟩) (fun _ _ => id)
    fun _ _ h => h.mono (by omega)) fun _ => Triple.exists fun d => ?_
  exact (triple_getBit hd).imp (fun _ => id) (fun _ _ h => h.mono (by unfold bitEvents; omega))
    (fun _ _ h => h.mono (by unfold bitEvents; omega))

theorem triple_getBits (hd : TwoLines s₀) (k : Nat) (x : Byte) :
    Triple (fun s => ∃ d, At s₀ n i .low d s) (getBits k x) (fun _ s => ∃ d, At s₀ (n + k * bitEvents s₀) i .low d s)
      (StretchOut s₀ (n + k * bitEvents s₀)) := by
  induction k generalizing n x with
  | zero => exact Triple.pure fun s ⟨d, h⟩ => ⟨d, h.mono (by omega)⟩
  | succ k ih =>
    have e : n + (k + 1) * bitEvents s₀ = n + bitEvents s₀ + k * bitEvents s₀ := by ring
    have := Nat.zero_le (k * bitEvents s₀)
    rw [e]
    refine Triple.bind (Q := fun _ s => ∃ d, At s₀ (n + bitEvents s₀) i .low d s) (Triple.exists fun d => ?_) fun b => ih _
    exact (triple_getBit hd).imp (fun _ => id) (fun _ _ h => ⟨_, h⟩)
      (fun _ _ h => h.mono (by unfold bitEvents at *; omega))

/-- A byte read leaves the clock low and the data line released (rule R137). -/
theorem triple_readByte (hd : TwoLines s₀) (k : Bool) :
    Triple (At s₀ n i .low d) (readByte k) (fun _ => At s₀ (n + 9 * bitEvents s₀ + 1) i .low .rel)
      (StretchOut s₀ (n + 9 * bitEvents s₀ + 1)) := by
  refine Triple.bind ((triple_getBits hd 8 0).imp (fun s h => ⟨d, h⟩) (fun _ _ => id)
    fun _ _ h => h.mono (by omega)) fun x => Triple.exists fun d => ?_
  refine Triple.bind ((triple_putBit hd k).imp (fun _ => id) (fun _ _ h => h)
    (fun _ _ h => h.mono (by unfold bitEvents; omega))) (fun _ => (triple_relSda hd).bind fun _ => ?_)
  exact Triple.pure fun _ h => h.mono (by unfold bitEvents; omega)

theorem triple_startCondition (hd : TwoLines s₀) :
    Triple (At s₀ n i c d) startCondition (fun _ => At s₀ (n + 6) i .low .rel) E :=
  triple_waitShort.bind fun _ => (triple_lowSda hd).bind fun _ => triple_waitShort.bind fun _ =>
    (triple_lowScl hd).bind fun _ => triple_waitShort.bind fun _ => triple_relSda hd

/-- The raises of a START, after fail-fast (rules R133, R134). -/
def StartFails (s₀ : State) (n : Nat) (r : Raise) (s : State) : Prop :=
  (r = .err .longClockStretch ∨ r = .err .arbitrationLost) ∧ IdleAt s₀ n s

theorem StartFails.mono {r : Raise} (h : StartFails s₀ n r s) (hm : n ≤ m) : StartFails s₀ m r s :=
  ⟨h.1, h.2.mono hm⟩

theorem StretchOut.startFails {r : Raise} (h : StretchOut s₀ n r s) : StartFails s₀ n r s := ⟨.inl h.1, h.2⟩

/-- A START on an idle bus opens a transaction, or fails with both lines released (rule R133). -/
theorem triple_startIdle (hd : TwoLines s₀) :
    Triple (At s₀ n i c d) startIdle (fun _ => OpenAt s₀ (n + s₀.tw.maxStretch.toNat + 10))
      (StartFails s₀ (n + s₀.tw.maxStretch.toNat + 10)) := by
  refine (triple_relSda hd).bind fun _ => (triple_relScl hd).bind fun _ => triple_waitShort.bind fun _ =>
    triple_sampleSda.bind fun v => Triple.ite (fun _ => ?_) fun _ => ?_
  · refine ((triple_stretchWait hd).imp (fun _ => id) (fun _ _ => id)
      fun _ _ h => h.startFails.mono (by omega)).bind fun _ => (triple_startCondition hd).bind fun _ => ?_
    exact (triple_setInTx true).post fun _ _ h => h.mono (by omega)
  · exact (triple_failFast hd).bind fun _ => Triple.raiseErr fun _ h => ⟨.inr rfl, h.mono (by omega)⟩

/-- A repeated START keeps the transaction open, or fails with both lines released (rule R134). -/
theorem triple_startRepeated (hd : TwoLines s₀) :
    Triple (At s₀ n i c d) startRepeated (fun _ => At s₀ (n + s₀.tw.maxStretch.toNat + 10) i .low .rel)
      (StretchOut s₀ (n + s₀.tw.maxStretch.toNat + 10)) := by
  refine (triple_relSda hd).bind fun _ => triple_waitShort.bind fun _ => (triple_relScl hd).bind fun _ =>
    ((triple_stretchWait hd).imp (fun _ => id) (fun _ _ => id) fun _ _ h => h.mono (by omega)).bind fun _ => ?_
  exact (triple_startCondition hd).post fun _ _ h => h.mono (by omega)

/-- A START opens or keeps open a transaction, or fails with both lines released (rules R133, R134). -/
theorem triple_start (hd : TwoLines s₀) :
    Triple (At s₀ n i c d) start (fun _ => OpenAt s₀ (n + s₀.tw.maxStretch.toNat + 10))
      (StartFails s₀ (n + s₀.tw.maxStretch.toNat + 10)) := by
  refine (Triple.look (Q := fun b s => b = i ∧ At s₀ n i c d s) fun s h => ⟨h.2.1, h⟩).bind fun b =>
    Triple.assume fun hb => ?_
  subst hb
  refine Triple.ite (fun hb => ?_) fun _ => triple_startIdle hd
  subst hb
  exact (triple_startRepeated hd).imp (fun _ => id) (fun _ _ => id) fun _ _ h => h.startFails

/-- A STOP in a transaction leaves the bus idle, also when its stretch wait fails (rule R135). -/
theorem triple_stop (hd : TwoLines s₀) :
    Triple (At s₀ n true c d) stop (fun _ => IdleAt s₀ (n + s₀.tw.maxStretch.toNat + 6))
      (StretchOut s₀ (n + s₀.tw.maxStretch.toNat + 6)) := by
  refine (Triple.look (Q := fun b s => b = true ∧ At s₀ n true c d s) fun s h => ⟨h.2.1, h⟩).bind fun b =>
    Triple.assume fun hb => ?_
  subst hb
  refine (Triple.errIf (Q := fun _ => At s₀ n true c d) (fun s h _ => h) (fun s h hc => by simp at hc)).bind fun _ => ?_
  refine (triple_lowSda hd).bind fun _ => triple_waitShort.bind fun _ => (triple_relScl hd).bind fun _ =>
    ((triple_stretchWait hd).imp (fun _ => id) (fun _ _ => id) fun _ _ h => h.mono (by omega)).bind fun _ => ?_
  exact triple_waitShort.bind fun _ => (triple_relSda hd).bind fun _ => triple_waitShort.bind fun _ =>
    (triple_setInTx false).post fun _ _ h => h.mono (by omega)

/-- A STOP outside a transaction: nothing but its error (rule R135). -/
theorem stop_idle {s : State} (h : s.tw.inTx = false) : stop s = .error (.err .stopOutsideTransaction) s := by
  simp [stop, bind_run, h]

/-! ## Addressed transactions -/

/-- The most events a START with its address byte, or a STOP, takes. -/
def addressEventBound (s₀ : State) : Nat := s₀.tw.maxStretch.toNat + 10 + 9 * bitEvents s₀

/-- What an address byte can raise: the failures with the bus idle, or `NoAck`, with the transaction left open where
no stop was asked for (rule R140). -/
def AddressFails (s₀ : State) (n : Nat) (son : Bool) (r : Raise) (s : State) : Prop :=
  StartFails s₀ n r s ∨ r = .err .noAck ∧ (if son then IdleAt s₀ n s else OpenAt s₀ n s)

theorem AddressFails.mono {son : Bool} {r : Raise} (h : AddressFails s₀ n son r s) (hm : n ≤ m) :
    AddressFails s₀ m son r s := by
  refine h.imp (fun h => h.mono hm) fun h => ⟨h.1, ?_⟩
  cases son
  · exact At.mono h.2 hm
  · exact At.mono h.2 hm

/-- The NACK of an address byte: `NoAck`, after a stop when one was asked for (rule R140). -/
theorem triple_nackAddress (hd : TwoLines s₀) (son : Bool) {Q : Unit → State → Prop} :
    Triple (OpenAt s₀ n) (nackAddress son) Q (AddressFails s₀ (n + s₀.tw.maxStretch.toNat + 6) son) := by
  refine Triple.ite (fun hs => ?_) fun hs => Triple.raiseErr fun s h => .inr ⟨rfl, by
    subst hs; exact At.mono h (by omega)⟩
  subst hs
  refine Triple.bind (Q := fun r s => (r = .ok () ∨ r = .error (.err .longClockStretch)) ∧
    IdleAt s₀ (n + s₀.tw.maxStretch.toNat + 6) s) ((triple_stop hd).attempt (fun _ t h => ⟨.inl rfl, h⟩)
      fun r t h => ⟨.inr (by rw [h.1]), h.2⟩) fun r => Triple.assume fun hr => ?_
  rcases hr with rfl | rfl <;> exact Triple.raiseErr fun s h => .inr ⟨rfl, by simpa using h⟩

/-- A START and an address byte (rule R140). -/
theorem triple_startRw (hd : TwoLines s₀) (ab : Byte) (son : Bool) :
    Triple (At s₀ n i c d) (startRw ab son) (fun _ => OpenAt s₀ (n + addressEventBound s₀))
      (AddressFails s₀ (n + addressEventBound s₀ + s₀.tw.maxStretch.toNat + 6) son) := by
  have e : ∀ k, n + addressEventBound s₀ + k = n + s₀.tw.maxStretch.toNat + 10 + 9 * bitEvents s₀ + k := fun k => by
    unfold addressEventBound; omega
  rw [e, ← Nat.add_zero (n + addressEventBound s₀), e]
  refine ((triple_start hd).imp (fun _ => id) (fun _ _ => id) fun _ _ h => .inl (h.mono (by omega))).bind fun _ =>
    ((triple_writeByte hd ab).imp (fun _ => id) (fun _ _ => id)
      fun _ _ h => .inl (h.startFails.mono (by omega))).bind fun a => Triple.ite (fun _ => ?_) fun _ => ?_
  · exact triple_nackAddress hd son
  · exact Triple.pure fun _ h => h

/-- The NACK of a data byte: fail-fast, then `NoAck` (rules R138, R141). -/
theorem triple_nackData (hd : TwoLines s₀) {Q : Unit → State → Prop} :
    Triple (At s₀ n i c d) nackData Q (fun r s => r = .err .noAck ∧ IdleAt s₀ (n + 2) s) :=
  (triple_failFast hd).bind fun _ => Triple.raiseErr fun _ h => ⟨rfl, h⟩

/-- What a data or register byte can raise, with the bus idle after (rule R247). -/
def DataFails (s₀ : State) (n : Nat) (r : Raise) (s : State) : Prop :=
  (r = .err .longClockStretch ∨ r = .err .arbitrationLost ∨ r = .err .noAck) ∧ IdleAt s₀ n s

theorem DataFails.mono {r : Raise} (h : DataFails s₀ n r s) (hm : n ≤ m) : DataFails s₀ m r s :=
  ⟨h.1, h.2.mono hm⟩

theorem StretchOut.dataFails {r : Raise} (h : StretchOut s₀ n r s) : DataFails s₀ n r s := ⟨.inl h.1, h.2⟩

theorem AddressFails.dataFails {r : Raise} (h : AddressFails s₀ n true r s) : DataFails s₀ n r s := by
  rcases h with h | h
  · exact ⟨h.1.imp_right .inl, h.2⟩
  · exact ⟨.inr (.inr h.1), by simpa using h.2⟩

/-- The most events `StartWrite` takes. -/
def startWriteBound (s₀ : State) : Nat := addressEventBound s₀ + s₀.tw.maxStretch.toNat + 6 + 9 * bitEvents s₀

/-- Address and register byte (rule R141). -/
theorem triple_startWrite (hd : TwoLines s₀) (a : BitVec 7) (r : Byte) :
    Triple (At s₀ n i c d) (startWrite a r) (fun _ => OpenAt s₀ (n + startWriteBound s₀))
      (DataFails s₀ (n + startWriteBound s₀)) := by
  refine ((triple_startRw hd _ true).imp (fun _ => id) (fun _ _ => id)
    fun _ _ h => h.dataFails.mono (by unfold startWriteBound; omega)).bind fun _ =>
    ((triple_writeByte hd r).imp (fun _ => id) (fun _ _ => id)
      fun _ _ h => h.dataFails.mono (by unfold startWriteBound; omega)).bind fun k => Triple.ite (fun _ => ?_) fun _ => ?_
  · exact (triple_nackData hd).imp (fun _ => id) (fun _ _ => id) fun _ _ h =>
      ⟨.inr (.inr h.1), h.2.mono (by unfold startWriteBound bitEvents; omega)⟩
  · exact Triple.pure fun _ h => At.mono h (by unfold startWriteBound; omega)

/-- `StartWrite`, then the read address: what `TW_START_READ` does (rule R142). -/
theorem triple_startRead (hd : TwoLines s₀) (a : BitVec 7) (r : Byte) :
    Triple (At s₀ n i c d) (do startWrite a r; startRw (addressByte a true) true)
      (fun _ => OpenAt s₀ (n + 2 * startWriteBound s₀)) (DataFails s₀ (n + 2 * startWriteBound s₀)) := by
  refine ((triple_startWrite hd a r).imp (fun _ => id) (fun _ _ => id) fun _ _ h => h.mono (by omega)).bind fun _ => ?_
  exact (triple_startRw hd _ true).imp (fun _ => id) (fun _ _ h => At.mono h (by unfold startWriteBound; omega))
    fun _ _ h => h.dataFails.mono (by unfold startWriteBound; omega)

end Sys2Proof.Machine
end

