-- ==== Sys2Proof/Laws/Plays.lean ====
section
/-! SUPPORT. What each primitive does on a bus whose answers are known: `Plays w q x ans a es` says that `x`, run on any
state with two-wire registers `w` and parameters `q` whose bus answers `ans` next, ends with the value `a` and the
events `es`, and changes nothing but what the events change. -/

namespace Sys2Proof.Machine

variable {α β : Type} {w : TwRegs} {q : Params}

structure Plays (w : TwRegs) (q : Params) (x : Op α) (ans : List Bool) (a : α) (es : List Event) : Prop where
  count : sampleCount es = ans.length
  runs_to : ∀ s, s.tw = w → s.params = q → Presents s ans → x s = .ok a (s.play es)

theorem Plays.run {x : Op α} {ans : List Bool} {a : α} {es : List Event} {s : State}
    (h : Plays s.tw s.params x ans a es) (hb : Presents s ans) : x s = .ok a (s.play es) :=
  h.2 s rfl rfl hb

/-- The answers that come after. -/
theorem Plays.after {x : Op α} {ans rest : List Bool} {a : α} {es : List Event} {s : State}
    (h : Plays w q x ans a es) (hb : Presents s (ans ++ rest)) : Presents (s.play es) rest := hb.play h.1

theorem Plays.cast {x : Op α} {ans ans' : List Bool} {a : α} {es es' : List Event} (h : Plays w q x ans a es)
    (ha : ans = ans') (he : es = es') : Plays w q x ans' a es' := by subst ha he; exact h

theorem Plays.pure (a : α) : Plays w q (pure a : Op α) [] a [] :=
  ⟨rfl, fun _ _ _ _ => rfl⟩

theorem Plays.bind {x : Op α} {f : α → Op β} {a1 a2 : List Bool} {e1 e2 : List Event} {a : α} {b : β}
    (hx : Plays w q x a1 a e1) (hf : Plays w q (f a) a2 b e2) : Plays w q (x >>= f) (a1 ++ a2) b (e1 ++ e2) := by
  refine ⟨by simp [hx.1, hf.1], fun s hw hq hb => ?_⟩
  rw [bind_ok (hx.2 s hw hq hb.append.1), hf.2 (s.play e1) hw hq (hx.after hb), State.play_play]

theorem Plays.look {f : State → α} {a : α} (h : ∀ s : State, s.tw = w → s.params = q → f s = a) :
    Plays w q (look f) [] a [] :=
  ⟨rfl, fun s hw hq _ => by simp [h s hw hq]⟩

theorem Plays.wait (n : Nat) : Plays w q (wait n) [] () [.wait n] := ⟨rfl, fun _ _ _ _ => rfl⟩
theorem Plays.low (p : PinId) : Plays w q (low p) [] () [.low p] := ⟨rfl, fun _ _ _ _ => rfl⟩
theorem Plays.rel (p : PinId) : Plays w q (rel p) [] () [.rel p] := ⟨rfl, fun _ _ _ _ => rfl⟩
theorem Plays.cfg (p : PinId) (m : CfgMode) : Plays w q (cfg p m) [] () [.cfg p m] := ⟨rfl, fun _ _ _ _ => rfl⟩

theorem Plays.sample (p : PinId) (v : Bool) : Plays w q (sample p) [v] v [.sample p v] :=
  ⟨rfl, fun s _ _ hb => by rw [sample_run, hb.level]⟩

theorem Plays.lowScl : Plays w q lowScl [] () [.low w.line.scl] := ⟨rfl, fun s hw _ _ => by simp [← hw, TwRegs.line]⟩
theorem Plays.relScl : Plays w q relScl [] () [.rel w.line.scl] := ⟨rfl, fun s hw _ _ => by simp [← hw, TwRegs.line]⟩
theorem Plays.lowSda : Plays w q lowSda [] () [.low w.line.sda] := ⟨rfl, fun s hw _ _ => by simp [← hw, TwRegs.line]⟩
theorem Plays.relSda : Plays w q relSda [] () [.rel w.line.sda] := ⟨rfl, fun s hw _ _ => by simp [← hw, TwRegs.line]⟩
theorem Plays.waitShort : Plays w q waitShort [] () [.wait w.line.S] :=
  ⟨rfl, fun s hw _ _ => by simp [← hw, TwRegs.line]⟩
theorem Plays.waitLong : Plays w q waitLong [] () [.wait w.line.L] :=
  ⟨rfl, fun s hw _ _ => by simp [← hw, TwRegs.line]⟩
theorem Plays.sampleScl (v : Bool) : Plays w q sampleScl [v] v [.sample w.line.scl v] :=
  ⟨rfl, fun s hw _ hb => by rw [sampleScl_run, hb.level]; simp [← hw, TwRegs.line]⟩
theorem Plays.sampleSda (v : Bool) : Plays w q sampleSda [v] v [.sample w.line.sda v] :=
  ⟨rfl, fun s hw _ hb => by rw [sampleSda_run, hb.level]; simp [← hw, TwRegs.line]⟩

/-! ## Two-wire primitives (rules R110 to R137) -/

/-- A clock that rises after `k` polls of 0, `k` below the bound (rule R110). -/
theorem Plays.pollScl {k n : Nat} (h : k < n) :
    Plays w q (pollScl n) (riseAnswers k) true (riseEvents w.line.scl k) := by
  induction k generalizing n with
  | zero =>
    obtain ⟨n, rfl⟩ : ∃ m, n = m + 1 := ⟨n - 1, by omega⟩
    exact (Plays.sampleScl true).bind (by simpa using Plays.pure true)
  | succ k ih =>
    obtain ⟨n, rfl⟩ : ∃ m, n = m + 1 := ⟨n - 1, by omega⟩
    exact ((Plays.sampleScl false).bind (by simpa using ih (by omega))).cast
      (by simp [riseAnswers, List.replicate_succ]) (by simp [riseEvents, List.replicate_succ])

theorem Plays.stretchWait {k : Nat} (h : k < w.maxStretch.toNat) :
    Plays w q stretchWait (riseAnswers k) () (riseEvents w.line.scl k) := by
  have hl : Plays w q (Machine.look fun s => s.tw.maxStretch.toNat) [] w.maxStretch.toNat [] :=
    Plays.look fun s hw _ => by rw [hw]
  have hr : Plays w q (if true = true then Pure.pure () else do failFast; raiseErr .longClockStretch) [] () [] := by
    simpa using Plays.pure ()
  exact (hl.bind ((Plays.pollScl h).bind hr)).cast (by simp) (by simp)

theorem Plays.tick {k : Nat} (h : k < w.maxStretch.toNat) :
    Plays w q (tick false) (riseAnswers k) true (tickEvents w.line k []) :=
  (Plays.lowScl.bind <| Plays.waitShort.bind <| Plays.relScl.bind <| (Plays.stretchWait h).bind <|
    Plays.waitLong.bind <| (Plays.pure true).bind <| Plays.lowScl.bind <| Plays.waitShort.bind <|
    Plays.pure true).cast (by simp) (by simp [tickEvents])

theorem Plays.tickSampling {k : Nat} (h : k < w.maxStretch.toNat) (v : Bool) :
    Plays w q (Machine.tick true) (riseAnswers k ++ [v]) v (tickEvents w.line k [.sample w.line.sda v]) :=
  (Plays.lowScl.bind <| Plays.waitShort.bind <| Plays.relScl.bind <| (Plays.stretchWait h).bind <|
    Plays.waitLong.bind <| (Plays.sampleSda v).bind <| Plays.lowScl.bind <| Plays.waitShort.bind <|
    Plays.pure v).cast (by simp) (by simp [tickEvents])

theorem Plays.setSda (b : Bool) :
    Plays w q (setSda b) [] () [if b then .rel w.line.sda else .low w.line.sda] := by
  cases b
  · exact Plays.lowSda
  · exact Plays.relSda

theorem Plays.putBit {k : Nat} (h : k < w.maxStretch.toNat) (b : Bool) :
    Plays w q (putBit b) (riseAnswers k) () (putBitEvents w.line k b) :=
  ((Plays.setSda b).bind ((Plays.tick h).bind (Plays.pure ()))).cast (by simp) (by simp [putBitEvents])

theorem Plays.getBit {k : Nat} (h : k < w.maxStretch.toNat) (v : Bool) :
    Plays w q getBit (riseAnswers k ++ [v]) v (getBitEvents w.line k v) :=
  (Plays.relSda.bind (Plays.tickSampling h v)).cast (by simp) (by simp [getBitEvents])

/-- `n` bits from bit `n - 1` down; tick `j` of the byte is stretched for `st j` polls. -/
theorem Plays.putBits {st : Nat → Nat} (h : ∀ j, st j < w.maxStretch.toNat) (x : Byte) (n : Nat) (hn : n ≤ 8) :
    Plays w q (putBits x n) ((List.range' (8 - n) n).flatMap fun j => riseAnswers (st j)) ()
      ((List.range' (8 - n) n).flatMap fun j => putBitEvents w.line (st j) (x.getLsbD (7 - j))) := by
  induction n with
  | zero => exact Plays.pure ()
  | succ n ih =>
    refine ((Plays.putBit (h (8 - (n + 1))) (x.getLsbD n)).bind (ih (by omega))).cast ?_ ?_ <;>
      rw [List.range'_succ, List.flatMap_cons, show 8 - (n + 1) + 1 = 8 - n by omega]
    rw [show 7 - (8 - (n + 1)) = n by omega]

theorem Plays.writeByte {st : Nat → Nat} (h : ∀ j, st j < w.maxStretch.toNat) (x : Byte) (a : Bool) :
    Plays w q (writeByte x) (writeByteAnswers st a) a (writeByteEvents w.line st x a) := by
  refine ((Plays.putBits h x 8 (Nat.le_refl _)).bind (Plays.getBit (h 8) a)).cast ?_ ?_
  · simp [writeByteAnswers, List.range_succ, List.range'_succ]
  · simp [writeByteEvents, List.range_eq_range']

/-- The byte received bit by bit, bit 7 first. -/
def recvBits (x : Byte) : Nat → Byte → Byte
  | 0, y => y
  | n + 1, y => recvBits x n (setBit y n (x.getLsbD n))

theorem Plays.getBits {st : Nat → Nat} (h : ∀ j, st j < w.maxStretch.toNat) (x : Byte) (n : Nat) (hn : n ≤ 8)
    (y : Byte) :
    Plays w q (getBits n y)
      ((List.range' (8 - n) n).flatMap fun j => riseAnswers (st j) ++ [x.getLsbD (7 - j)]) (recvBits x n y)
      ((List.range' (8 - n) n).flatMap fun j => getBitEvents w.line (st j) (x.getLsbD (7 - j))) := by
  induction n generalizing y with
  | zero => exact Plays.pure y
  | succ n ih =>
    refine ((Plays.getBit (h (8 - (n + 1))) (x.getLsbD n)).bind (ih (by omega) _)).cast ?_ ?_ <;>
      rw [List.range'_succ, List.flatMap_cons, show 8 - (n + 1) + 1 = 8 - n by omega,
        show 7 - (8 - (n + 1)) = n by omega]

/-- Eight bits received one by one are the byte. -/
theorem recvBits_eight (x : Byte) : recvBits x 8 0 = x := by revert x; decide +kernel

theorem Plays.readByte {st : Nat → Nat} (h : ∀ j, st j < w.maxStretch.toNat) (x : Byte) (k : Bool) :
    Plays w q (readByte k) (readByteAnswers st x) x (readByteEvents w.line st x k) := by
  have hb := Plays.getBits (q := q) h x 8 (Nat.le_refl _) 0
  rw [recvBits_eight] at hb
  refine (hb.bind <| (Plays.putBit (h 8) k).bind <| Plays.relSda.bind (Plays.pure x)).cast ?_ ?_
  · simp [readByteAnswers, List.range_eq_range']
  · simp [readByteEvents, List.range_eq_range']

theorem Plays.startCondition : Plays w q startCondition [] () (startConditionEvents w.line) :=
  Plays.waitShort.bind <| Plays.lowSda.bind <| Plays.waitShort.bind <| Plays.lowScl.bind <|
    Plays.waitShort.bind Plays.relSda

theorem Plays.startRepeated {k : Nat} (h : k < w.maxStretch.toNat) :
    Plays w q startRepeated (riseAnswers k) () (startEvents true w.line k) := by
  refine Plays.cast (ans := [] ++ ([] ++ ([] ++ (riseAnswers k ++ [])))) (Plays.bind Plays.relSda <|
    Plays.bind Plays.waitShort <| Plays.bind Plays.relScl <| Plays.bind (Plays.stretchWait h)
    Plays.startCondition) ?_ ?_ <;> simp [startEvents, startHead]

/-! ## One-wire primitives (rules R182, R183) -/

theorem Plays.owWriteBit (p : PinId) (b : Bool) : Plays w q (owWriteBit p b) [] () (writeSlot q p b) := by
  cases b <;> exact Plays.bind (Plays.look fun _ _ hq => hq) <|
    (Plays.low p).bind <| (Plays.wait _).bind <| (Plays.rel p).bind (Plays.wait _)

theorem Plays.owReadBit (p : PinId) (v : Bool) : Plays w q (owReadBit p) [v] v (readSlot q p v) :=
  Plays.bind (Plays.look fun _ _ hq => hq) <| (Plays.low p).bind <| (Plays.wait _).bind <| (Plays.rel p).bind <|
    (Plays.wait _).bind <| (Plays.sample p v).bind <| (Plays.wait _).bind (Plays.pure v)

theorem Plays.owWriteBits (p : PinId) (x : Byte) (n i : Nat) :
    Plays w q (owWriteBits p x n i) [] () ((List.range' i n).flatMap fun j => writeSlot q p (x.getLsbD j)) := by
  induction n generalizing i with
  | zero => exact Plays.pure ()
  | succ n ih =>
    exact ((Plays.owWriteBit p _).bind (ih (i + 1))).cast (by simp) (by rw [List.range'_succ, List.flatMap_cons])

theorem Plays.owWriteByte (p : PinId) (x : Byte) :
    Plays w q (owWriteByte p x) [] () (owWriteByteEvents q p x) :=
  (Plays.owWriteBits p x 8 0).cast rfl (by
    simp [owWriteByteEvents, lsbBits, List.range_eq_range', List.flatMap_map])

/-- The byte received bit by bit, bit 0 first. -/
def recvLow (x : Byte) : (n i : Nat) → Byte → Byte
  | 0, _, y => y
  | n + 1, i, y => recvLow x n (i + 1) (setBit y i (x.getLsbD i))

theorem Plays.owReadBits (p : PinId) (x : Byte) (n i : Nat) (y : Byte) :
    Plays w q (owReadBits p n i y) ((List.range' i n).map fun j => x.getLsbD j) (recvLow x n i y)
      ((List.range' i n).flatMap fun j => readSlot q p (x.getLsbD j)) := by
  induction n generalizing i y with
  | zero => exact Plays.pure y
  | succ n ih =>
    exact ((Plays.owReadBit p _).bind (ih (i + 1) _)).cast (by rw [List.range'_succ]; rfl)
      (by rw [List.range'_succ, List.flatMap_cons])

theorem recvLow_eight (x : Byte) : recvLow x 8 0 0 = x := by revert x; decide +kernel

theorem Plays.owReadByte (p : PinId) (x : Byte) :
    Plays w q (owReadByte p) (lsbBits x) x (owReadByteEvents q p x) := by
  have h := Plays.owReadBits (w := w) (q := q) p x 8 0 0
  rw [recvLow_eight] at h
  exact h.cast (by simp [lsbBits, List.range_eq_range'])
    (by simp [owReadByteEvents, lsbBits, List.range_eq_range', List.flatMap_map])

theorem Plays.presInterval : Plays w q (Machine.look (·.params.owPresInterval)) [] q.owPresInterval [] :=
  Plays.look fun _ _ hq => by rw [hq]

/-- One presence poll (rule R183). -/
theorem Plays.presencePoll (p : PinId) (n k : Nat) (v : Bool) {ans : List Bool} {a : Bool × Nat} {es : List Event}
    (h : Plays w q (if v then presencePolls p n (k + 1) else Pure.pure (true, k + 1)) ans a es) :
    Plays w q (presencePolls p (n + 1) k) (v :: ans) a ([.wait q.owPresInterval, .sample p v] ++ es) :=
  Plays.cast (ans := [] ++ ([] ++ ([v] ++ ans)))
    (Plays.bind Plays.presInterval (Plays.bind (Plays.wait _) (Plays.bind (Plays.sample p v) h))) rfl rfl

/-- Presence seen after `j` polls that read 1. -/
theorem Plays.presenceSeen (p : PinId) {j n : Nat} (h : j < n) (k : Nat) :
    Plays w q (presencePolls p n k) (List.replicate j true ++ [false]) (true, k + j + 1)
      (quietPolls q p j ++ [.wait q.owPresInterval, .sample p false]) := by
  induction j generalizing n k with
  | zero =>
    obtain ⟨n, rfl⟩ : ∃ m, n = m + 1 := ⟨n - 1, by omega⟩
    exact Plays.presencePoll p n k false (Plays.pure (true, k + 1))
  | succ j ih =>
    obtain ⟨n, rfl⟩ : ∃ m, n = m + 1 := ⟨n - 1, by omega⟩
    have := ih (n := n) (by omega) (k + 1)
    rw [show k + 1 + j + 1 = k + (j + 1) + 1 by omega] at this
    exact (Plays.presencePoll p n k true this).cast (by simp [List.replicate_succ])
      (by simp [quietPolls, List.replicate_succ])

/-- No presence in `n` polls. -/
theorem Plays.presenceNone (p : PinId) (n k : Nat) :
    Plays w q (presencePolls p n k) (List.replicate n true) (false, k + n) (quietPolls q p n) := by
  induction n generalizing k with
  | zero => exact Plays.pure (false, k)
  | succ n ih =>
    have := ih (k + 1)
    rw [show k + 1 + n = k + (n + 1) by omega] at this
    exact (Plays.presencePoll p n k true this).cast (by simp [List.replicate_succ])
      (by simp [quietPolls, List.replicate_succ])

theorem Plays.owResetSeen (p : PinId) {k : Nat} (h : k < q.owPresPolls) :
    Plays w q (owReset p) (owResetAnswers q (some k)) true (owResetEvents q p (some k)) := by
  have hp := Plays.presenceSeen (w := w) (q := q) p h 0
  rw [Nat.zero_add] at hp
  exact (Plays.bind (Plays.look fun _ _ hq => hq) <| (Plays.low p).bind <| (Plays.wait _).bind <|
    (Plays.rel p).bind <| hp.bind <| (Plays.wait _).bind (Plays.pure true)).cast (by simp [owResetAnswers])
    (by simp [owResetEvents])

theorem Plays.owResetNone (p : PinId) :
    Plays w q (owReset p) (owResetAnswers q none) false (owResetEvents q p none) := by
  have hp := Plays.presenceNone (w := w) (q := q) p q.owPresPolls 0
  rw [Nat.zero_add] at hp
  exact (Plays.bind (Plays.look fun _ _ hq => hq) <| (Plays.low p).bind <| (Plays.wait _).bind <|
    (Plays.rel p).bind <| hp.bind <| (Plays.wait _).bind (Plays.pure false)).cast (by simp [owResetAnswers])
    (by simp [owResetEvents])

theorem Plays.owWriteList (p : PinId) (xs : List Byte) :
    Plays w q (owWriteList p xs) [] () (xs.flatMap (owWriteByteEvents q p)) := by
  induction xs with
  | nil => exact Plays.pure ()
  | cons x xs ih => exact ((Plays.owWriteByte p x).bind ih).cast (by simp) (by simp)

end Sys2Proof.Machine
end

