-- ==== Sys2Proof/Laws/Outcomes.lean ====
section
/-! SUPPORT. How the two-wire operations end on a bus whose answers are known, failures included: `Runs w q x ans r es b`
says that `x`, run on any state with two-wire registers `w` and parameters `q` whose bus presents `ans`, ends with `r`
after the events `es`, with the transaction flag `b` and nothing else changed. -/

namespace Sys2Proof.Machine

variable {α β : Type} {w : TwRegs} {q : Params}

/-- How a run ends: with a value or in a raise. -/
def ends (r : Except Raise α) (t : State) : EStateM.Result Raise State α :=
  match r with
  | .ok a => .ok a t
  | .error e => .error e t

structure Runs (w : TwRegs) (q : Params) (x : Op α) (ans : List Bool) (r : Except Raise α) (es : List Event)
    (b : Bool) : Prop where
  count : sampleCount es = ans.length
  runs_to : ∀ s, s.tw = w → s.params = q → Presents s ans → x s = ends r ((s.play es).setInTx b)

theorem Runs.run {x : Op α} {ans : List Bool} {r : Except Raise α} {es : List Event} {b : Bool} {s : State}
    (h : Runs s.tw s.params x ans r es b) (hb : Presents s ans) : x s = ends r ((s.play es).setInTx b) :=
  h.2 s rfl rfl hb

/-- The answers that come after. -/
theorem Runs.after {x : Op α} {ans rest : List Bool} {r : Except Raise α} {es : List Event} {b : Bool} {s : State}
    (h : Runs w q x ans r es b) (hb : Presents s (ans ++ rest)) : Presents ((s.play es).setInTx b) rest :=
  hb.play h.1

theorem Runs.cast {x : Op α} {ans ans' : List Bool} {r : Except Raise α} {es es' : List Event} {b : Bool}
    (h : Runs w q x ans r es b) (ha : ans = ans') (he : es = es') : Runs w q x ans' r es' b := by subst ha he; exact h

theorem Plays.runs {x : Op α} {ans : List Bool} {a : α} {es : List Event} (h : Plays w q x ans a es) :
    Runs w q x ans (.ok a) es w.inTx :=
  ⟨h.1, fun s hw hq hb => by rw [h.2 s hw hq hb, ← hw]; rfl⟩

theorem Runs.bind {x : Op α} {f : α → Op β} {a1 a2 : List Bool} {e1 e2 : List Event} {a : α} {r : Except Raise β}
    {b1 b2 : Bool} (hx : Runs w q x a1 (.ok a) e1 b1) (hf : Runs { w with inTx := b1 } q (f a) a2 r e2 b2) :
    Runs w q (x >>= f) (a1 ++ a2) r (e1 ++ e2) b2 := by
  refine ⟨by simp [hx.1, hf.1], fun s hw hq hb => ?_⟩
  rw [bind_ok (hx.2 s hw hq hb.append.1), hf.2 ((s.play e1).setInTx b1) (by rw [← hw]; rfl) hq (hx.after hb)]
  simp

/-- As `Runs.bind`, the flag unchanged by the first part. -/
theorem Runs.step {x : Op α} {f : α → Op β} {a1 a2 : List Bool} {e1 e2 : List Event} {a : α} {r : Except Raise β}
    {b : Bool} (hx : Plays w q x a1 a e1) (hf : Runs w q (f a) a2 r e2 b) :
    Runs w q (x >>= f) (a1 ++ a2) r (e1 ++ e2) b := Runs.bind hx.runs hf

theorem Runs.fail {x : Op α} {f : α → Op β} {ans : List Bool} {es : List Event} {e : Raise} {b : Bool}
    (hx : Runs w q x ans (.error e) es b) : Runs w q (x >>= f) ans (.error e) es b :=
  ⟨hx.1, fun s hw hq hb => by rw [bind_error (hx.2 s hw hq hb)]; rfl⟩

theorem Runs.attempt {x : Op α} {ans : List Bool} {r : Except Raise α} {es : List Event} {b : Bool}
    (h : Runs w q x ans r es b) : Runs w q (attempt x) ans (.ok r) es b :=
  ⟨h.1, fun s hw hq hb => by
    have := h.2 s hw hq hb
    cases r with
    | ok a => rw [attempt_ok this]; rfl
    | error e => rw [attempt_error this]; rfl⟩

theorem Runs.raiseErr (e : Err) : Runs w q (raiseErr e : Op α) [] (.error (.err e)) [] w.inTx :=
  ⟨rfl, fun s hw _ _ => by rw [raiseErr_run, ← hw]; rfl⟩

theorem Runs.setInTx (b : Bool) : Runs w q (setInTx b) [] (.ok ()) [] b := ⟨rfl, fun _ _ _ _ => rfl⟩

theorem Runs.failFast : Runs w q failFast [] (.ok ()) (failFastEvents w.line) false :=
  ⟨rfl, fun s hw _ _ => by rw [failFast_run, State.line, hw]; rfl⟩

/-- Fail-fast, then an error. -/
theorem Runs.failFastThen (e : Err) :
    Runs w q (do Machine.failFast; Machine.raiseErr e : Op α) [] (.error (.err e)) (failFastEvents w.line) false :=
  Runs.cast (es := failFastEvents w.line ++ []) (Runs.bind Runs.failFast (Runs.raiseErr e)) rfl (by simp)

/-! ## Clocks held low (rule R110) -/

theorem Plays.pollHeld (n : Nat) :
    Plays w q (Machine.pollScl n) (List.replicate n false) false (List.replicate n (.sample w.line.scl false)) := by
  induction n with
  | zero => exact Plays.pure false
  | succ n ih =>
    refine Plays.cast (ans := [false] ++ List.replicate n false) (Plays.bind (Plays.sampleScl false) ?_) rfl rfl
    simpa using ih

/-- The polls a held clock takes. -/
abbrev TwRegs.polls (w : TwRegs) : Nat := w.maxStretch.toNat

theorem Runs.stretchHeld :
    Runs w q stretchWait (List.replicate w.polls false) (.error (.err .longClockStretch))
      (stretchOutEvents w.line w.polls) false := by
  have hl : Plays w q (Machine.look fun s => s.tw.maxStretch.toNat) [] w.maxStretch.toNat [] :=
    Plays.look fun s hw _ => by rw [hw]
  have hf : Runs w q (if false = true then Pure.pure () else do Machine.failFast; Machine.raiseErr .longClockStretch) []
      (.error (.err .longClockStretch)) (failFastEvents w.line) false := Runs.failFastThen .longClockStretch
  exact Runs.cast (ans := [] ++ (List.replicate w.polls false ++ [])) (Runs.step hl <| Runs.step (Plays.pollHeld _) hf)
    (by simp) (by simp [stretchOutEvents])

theorem Runs.tickHeld (smp : Bool) :
    Runs w q (tick smp) (List.replicate w.polls false) (.error (.err .longClockStretch))
      (heldTickEvents w.line w.polls) false :=
  Runs.cast (ans := [] ++ ([] ++ ([] ++ List.replicate w.polls false))) (Runs.step Plays.lowScl <|
    Runs.step Plays.waitShort <| Runs.step Plays.relScl <| Runs.fail Runs.stretchHeld) (by simp)
    (by simp [heldTickEvents])

theorem Runs.putHeld (b : Bool) :
    Runs w q (putBit b) (List.replicate w.polls false) (.error (.err .longClockStretch))
      ((if b then .rel w.line.sda else .low w.line.sda) :: heldTickEvents w.line w.polls) false :=
  Runs.cast (ans := [] ++ List.replicate w.polls false) (Runs.step (Plays.setSda b) (Runs.fail (Runs.tickHeld false)))
    (by simp) (by simp)

theorem Runs.getHeld :
    Runs w q getBit (List.replicate w.polls false) (.error (.err .longClockStretch))
      (.rel w.line.sda :: heldTickEvents w.line w.polls) false :=
  Runs.cast (ans := [] ++ List.replicate w.polls false) (Runs.step Plays.relSda (Runs.tickHeld true))
    (by simp) (by simp)

theorem Runs.putBitsHeld {st : Nat → Nat} (h : ∀ j, st j < w.polls) (x : Byte) (n j : Nat) (hj : j < n) (hn : n ≤ 8) :
    Runs w q (putBits x n) (((List.range' (8 - n) j).flatMap fun i => riseAnswers (st i)) ++
        List.replicate w.polls false) (.error (.err .longClockStretch))
      (((List.range' (8 - n) j).flatMap fun i => putBitEvents w.line (st i) (x.getLsbD (7 - i))) ++
        (if x.getLsbD (7 - (8 - n + j)) then .rel w.line.sda else .low w.line.sda) ::
          heldTickEvents w.line w.polls) false := by
  induction j generalizing n with
  | zero =>
    obtain ⟨n, rfl⟩ : ∃ m, n = m + 1 := ⟨n - 1, by omega⟩
    refine Runs.cast (Runs.fail (Runs.putHeld (x.getLsbD n))) (by simp) ?_
    rw [show 7 - (8 - (n + 1) + 0) = n by omega]; simp
  | succ j ih =>
    obtain ⟨n, rfl⟩ : ∃ m, n = m + 1 := ⟨n - 1, by omega⟩
    refine Runs.cast (Runs.step (Plays.putBit (h (8 - (n + 1))) (x.getLsbD n)) (ih n (by omega) (by omega))) ?_ ?_ <;>
      rw [List.range'_succ, List.flatMap_cons, show 8 - (n + 1) + 1 = 8 - n by omega, List.append_assoc]
    rw [show 7 - (8 - (n + 1)) = n by omega, show 8 - (n + 1) + (j + 1) = 8 - n + j by omega]

/-- A byte written whose tick `j` is held (rule R136). -/
theorem Runs.writeHeld {st : Nat → Nat} (h : ∀ j, st j < w.polls) (x : Byte) {j : Nat} (hj : j < 9) :
    Runs w q (writeByte x) (writeHeldAnswers st j w.polls) (.error (.err .longClockStretch))
      (writeHeldEvents w.line st x j w.polls) false := by
  by_cases h8 : j = 8
  · subst h8
    refine Runs.cast (Runs.step (Plays.putBits h x 8 (Nat.le_refl _)) Runs.getHeld) ?_ ?_
    · simp [writeHeldAnswers, List.range_eq_range']
    · simp [writeHeldEvents, List.range_eq_range']
  · refine Runs.cast (Runs.fail (Runs.putBitsHeld h x 8 j (by omega) (Nat.le_refl _))) ?_ ?_
    · simp [writeHeldAnswers, List.range_eq_range']
    · simp only [writeHeldEvents, List.range_eq_range', show j < 8 by omega, true_and, Nat.sub_self, Nat.zero_add]
      cases x.getLsbD (7 - j) <;> simp

theorem Runs.getBitsHeld {st : Nat → Nat} (h : ∀ j, st j < w.polls) (x y : Byte) (n j : Nat) (hj : j < n) (hn : n ≤ 8) :
    Runs w q (getBits n y) (((List.range' (8 - n) j).flatMap fun i => riseAnswers (st i) ++ [x.getLsbD (7 - i)]) ++
        List.replicate w.polls false) (.error (.err .longClockStretch))
      (((List.range' (8 - n) j).flatMap fun i => getBitEvents w.line (st i) (x.getLsbD (7 - i))) ++
        .rel w.line.sda :: heldTickEvents w.line w.polls) false := by
  induction j generalizing n y with
  | zero =>
    obtain ⟨n, rfl⟩ : ∃ m, n = m + 1 := ⟨n - 1, by omega⟩
    exact Runs.cast (Runs.fail Runs.getHeld) (by simp) (by simp)
  | succ j ih =>
    obtain ⟨n, rfl⟩ : ∃ m, n = m + 1 := ⟨n - 1, by omega⟩
    refine Runs.cast (Runs.step (Plays.getBit (h (8 - (n + 1))) (x.getLsbD n)) (ih _ n (by omega) (by omega))) ?_ ?_ <;>
      rw [List.range'_succ, List.flatMap_cons, show 8 - (n + 1) + 1 = 8 - n by omega,
        show 7 - (8 - (n + 1)) = n by omega] <;> simp only [List.append_assoc]

/-- A byte read whose tick `j` is held, after the bits of `x` before it (rule R137). -/
theorem Runs.readHeld {st : Nat → Nat} (h : ∀ j, st j < w.polls) (x : Byte) (k : Bool) {j : Nat} (hj : j < 9) :
    Runs w q (readByte k) (readHeldAnswers st x j w.polls) (.error (.err .longClockStretch))
      (readHeldEvents w.line st x k j w.polls) false := by
  by_cases h8 : j = 8
  · subst h8
    refine Runs.cast (Runs.step (Plays.getBits h x 8 (Nat.le_refl _) 0) (Runs.fail (Runs.putHeld k))) ?_ ?_
    · simp [readHeldAnswers, List.range_eq_range']
    · simp only [readHeldEvents, List.range_eq_range', true_and, Nat.sub_self]
      cases k <;> simp
  · refine Runs.cast (Runs.fail (Runs.getBitsHeld h x 0 8 j (by omega) (Nat.le_refl _))) ?_ ?_
    · simp [readHeldAnswers, List.range_eq_range']
    · simp [readHeldEvents, List.range_eq_range', h8]

/-! ## Bus conditions (rules R133 to R135) -/

/-- A START that succeeds (rules R133, R134). -/
theorem Runs.startOk {k : Nat} (h : k < w.polls) :
    Runs w q start (startAnswers w.inTx k) (.ok ()) (startEvents w.inTx w.line k) true := by
  have hl : Plays w q (Machine.look (·.tw.inTx)) [] w.inTx [] := Plays.look fun s hw _ => by rw [hw]
  refine Runs.cast (ans := [] ++ startAnswers w.inTx k) (es := [] ++ startEvents w.inTx w.line k)
    (Runs.step hl ?_) rfl rfl
  cases hi : w.inTx with
  | true => simpa [startAnswers, hi] using (Plays.startRepeated (q := q) h).runs
  | false =>
    refine Runs.cast (ans := [] ++ ([] ++ ([] ++ ([true] ++ (riseAnswers k ++ ([] ++ []))))))
      (Runs.step Plays.relSda <| Runs.step Plays.relScl <| Runs.step Plays.waitShort <|
        Runs.step (Plays.sampleSda true) <| Runs.step (Plays.stretchWait h) <| Runs.step Plays.startCondition <|
        Runs.setInTx true) ?_ ?_
    · simp [startAnswers]
    · simp [startEvents, startHead]

/-- A START on an idle bus whose data line reads low (rule R133). -/
theorem Runs.startLost (hi : w.inTx = false) :
    Runs w q start [false] (.error (.err .arbitrationLost))
      ([.rel w.line.sda, .rel w.line.scl, .wait w.line.S, .sample w.line.sda false] ++ failFastEvents w.line) false := by
  have hl : Plays w q (Machine.look (·.tw.inTx)) [] false [] := Plays.look fun s hw _ => by rw [hw, hi]
  refine Runs.cast (ans := [] ++ ([] ++ ([] ++ ([] ++ ([false] ++ [])))))
    (Runs.step hl <| Runs.step Plays.relSda <| Runs.step Plays.relScl <| Runs.step Plays.waitShort <|
      Runs.step (Plays.sampleSda false) <| Runs.failFastThen .arbitrationLost) ?_ ?_
  · simp
  · simp

/-- A START whose clock is held low (rules R133, R134). -/
theorem Runs.startHeld :
    Runs w q start ((if w.inTx then [] else [true]) ++ List.replicate w.polls false) (.error (.err .longClockStretch))
      (startHead w.inTx w.line ++ stretchOutEvents w.line w.polls) false := by
  have hl : Plays w q (Machine.look (·.tw.inTx)) [] w.inTx [] := Plays.look fun s hw _ => by rw [hw]
  refine Runs.cast (ans := [] ++ _) (es := [] ++ _) (Runs.step hl ?_) (List.nil_append _) (List.nil_append _)
  cases hi : w.inTx with
  | true =>
    refine Runs.cast (ans := [] ++ ([] ++ ([] ++ List.replicate w.polls false))) (Runs.step Plays.relSda <|
      Runs.step Plays.waitShort <| Runs.step Plays.relScl <| Runs.fail Runs.stretchHeld) ?_ ?_
    · simp
    · simp [startHead]
  | false =>
    refine Runs.cast (ans := [] ++ ([] ++ ([] ++ ([true] ++ List.replicate w.polls false))))
      (Runs.step Plays.relSda <| Runs.step Plays.relScl <| Runs.step Plays.waitShort <|
        Runs.step (Plays.sampleSda true) <| Runs.fail Runs.stretchHeld) ?_ ?_
    · simp
    · simp [startHead]

/-- A STOP in a transaction (rule R135). -/
theorem Runs.stopOk (hi : w.inTx = true) {k : Nat} (h : k < w.polls) :
    Runs w q stop (riseAnswers k) (.ok ()) (stopEvents w.line k) false := by
  have hl : Plays w q (Machine.look (·.tw.inTx)) [] true [] := Plays.look fun s hw _ => by rw [hw, hi]
  have he : Plays w q (errIf (!true) .stopOutsideTransaction) [] () [] := Plays.pure ()
  refine Runs.cast (ans := [] ++ ([] ++ ([] ++ ([] ++ ([] ++ (riseAnswers k ++ ([] ++ ([] ++ ([] ++ [])))))))))
    (Runs.step hl <| Runs.step he <| Runs.step Plays.lowSda <| Runs.step Plays.waitShort <|
      Runs.step Plays.relScl <| Runs.step (Plays.stretchWait h) <| Runs.step Plays.waitShort <|
      Runs.step Plays.relSda <| Runs.step Plays.waitShort <| Runs.setInTx false) ?_ ?_
  · simp
  · simp [stopEvents]

/-- A STOP whose clock is held low (rule R135). -/
theorem Runs.stopHeld (hi : w.inTx = true) :
    Runs w q stop (List.replicate w.polls false) (.error (.err .longClockStretch))
      ([.low w.line.sda, .wait w.line.S, .rel w.line.scl] ++ stretchOutEvents w.line w.polls) false := by
  have hl : Plays w q (Machine.look (·.tw.inTx)) [] true [] := Plays.look fun s hw _ => by rw [hw, hi]
  have he : Plays w q (errIf (!true) .stopOutsideTransaction) [] () [] := Plays.pure ()
  refine Runs.cast (ans := [] ++ ([] ++ ([] ++ ([] ++ ([] ++ List.replicate w.polls false)))))
    (Runs.step hl <| Runs.step he <| Runs.step Plays.lowSda <| Runs.step Plays.waitShort <|
      Runs.step Plays.relScl <| Runs.fail Runs.stretchHeld) ?_ ?_
  · simp
  · simp

/-! ## Addressed transactions (rules R140 to R142) -/

theorem TwRegs.line_inTx (w : TwRegs) (b : Bool) : ({ w with inTx := b } : TwRegs).line = w.line := rfl

/-- An address byte that is acknowledged. -/
theorem Runs.startRwAck {st : Nat → Nat} (h : ∀ j, st j < w.polls) (ab : Byte) (son : Bool) :
    Runs w q (startRw ab son) (addressAnswers w.inTx st false) (.ok ()) (addressEvents w.inTx w.line st ab false)
      true := by
  have hw := (Plays.writeByte (w := { w with inTx := true }) (q := q) (st := fun j => st (j + 1))
    (fun j => h (j + 1)) ab false).runs
  exact Runs.cast (Runs.bind (Runs.startOk (h 0)) (Runs.bind hw (Plays.pure ()).runs)) (by simp [addressAnswers])
    (by simp [addressEvents, TwRegs.line_inTx])

/-- An address byte that is not acknowledged, and what the NACK brings about. -/
theorem Runs.startRwNack {st : Nat → Nat} (h : ∀ j, st j < w.polls) (ab : Byte) {son b : Bool} {ans : List Bool}
    {es : List Event} (hn : Runs { w with inTx := true } q (nackAddress son) ans (.error (.err .noAck)) es b) :
    Runs w q (startRw ab son) (addressAnswers w.inTx st true ++ ans) (.error (.err .noAck))
      (addressEvents w.inTx w.line st ab true ++ es) b := by
  have hw := (Plays.writeByte (w := { w with inTx := true }) (q := q) (st := fun j => st (j + 1))
    (fun j => h (j + 1)) ab true).runs
  exact Runs.cast (Runs.bind (Runs.startOk (h 0)) (Runs.bind hw hn)) (by simp [addressAnswers])
    (by simp [addressEvents, TwRegs.line_inTx])

theorem Runs.nackOpen : Runs w q (nackAddress false) [] (.error (.err .noAck)) [] w.inTx := Runs.raiseErr _

theorem Runs.nackStopped (hi : w.inTx = true) {k : Nat} (h : k < w.polls) :
    Runs w q (nackAddress true) (riseAnswers k) (.error (.err .noAck)) (stopEvents w.line k) false :=
  Runs.cast (ans := riseAnswers k ++ []) (es := stopEvents w.line k ++ [])
    (Runs.bind (Runs.stopOk hi h).attempt (Runs.raiseErr .noAck)) (by simp) (by simp)

theorem Runs.nackStopHeld (hi : w.inTx = true) :
    Runs w q (nackAddress true) (List.replicate w.polls false) (.error (.err .noAck))
      ([.low w.line.sda, .wait w.line.S, .rel w.line.scl] ++ stretchOutEvents w.line w.polls) false :=
  Runs.cast (ans := List.replicate w.polls false ++ []) (es := _ ++ [])
    (Runs.bind (Runs.stopHeld hi).attempt (Runs.raiseErr .noAck)) (by simp) (List.append_nil _)

theorem addressByte_eq (a : BitVec 7) : addressByte a false = addrByte a 0 ∧ addressByte a true = addrByte a 1 := by
  revert a; decide +kernel

end Sys2Proof.Machine
end

