-- ==== Sys2Proof/Laws/PerInstr.lean ====
section
/-! SUPPORT. A statement about every instruction, one lemma for each constructor. -/

namespace Sys2Proof.Laws.EncodingRow

/-- The row of the opcode table the instruction's mnemonic has (rule R73). -/
def rowOf : Instr → OpRow
  | .twInit _ _ => ⟨0x10000000, 0xFF0000FF⟩
  | .twSetSpeed _ => ⟨0x11000000, 0xFFFCFFFF⟩
  | .twStart => ⟨0x12000000, 0xFFFFFFFF⟩
  | .twStop => ⟨0x13000000, 0xFFFFFFFF⟩
  | .twWriteByte _ => ⟨0x14000000, 0xFF00FFFF⟩
  | .twReadByte _ => ⟨0x15000000, 0xFFFEFFFF⟩
  | .twWriteBytes _ => ⟨0x16000000, 0xFF00FFFF⟩
  | .twReadBytes _ => ⟨0x17000000, 0xFF00FFFF⟩
  | .twStartRw _ _ => ⟨0x18000000, 0xFF00FEFF⟩
  | .twStartWrite _ _ => ⟨0x19000000, 0xFF8000FF⟩
  | .twStartRead _ _ => ⟨0x1A000000, 0xFF8000FF⟩
  | .twScan => ⟨0x1B000000, 0xFFFFFFFF⟩
  | .twFree => ⟨0x1C000000, 0xFFFFFFFF⟩
  | .owInit _ => ⟨0x20000000, 0xFF00FFFF⟩
  | .owReset _ => ⟨0x21000000, 0xFF00FFFF⟩
  | .owReadBit _ => ⟨0x22000000, 0xFF00FFFF⟩
  | .owWriteBit _ _ => ⟨0x23000000, 0xFF00FEFF⟩
  | .owRead _ => ⟨0x24000000, 0xFF00FFFF⟩
  | .owWrite _ _ => ⟨0x25000000, 0xFF0000FF⟩
  | .owReadBytes _ _ => ⟨0x26000000, 0xFF0000FF⟩
  | .owWriteBytes _ _ => ⟨0x27000000, 0xFF0000FF⟩
  | .owCrc8 _ _ => ⟨0x28000000, 0xFF0000FF⟩
  | .owMatchRom _ => ⟨0x29000000, 0xFF00FFFF⟩
  | .owMatchDevice _ => ⟨0x2A000000, 0xFF00FFFF⟩
  | .owReadRom _ => ⟨0x2B000000, 0xFF00FFFF⟩
  | .owSearchPass _ _ _ => ⟨0x2C000000, 0xFF0000FE⟩
  | .owSearch _ _ => ⟨0x2D000000, 0xFF0000FF⟩
  | .owSearchFamily _ _ _ => ⟨0x2E000000, 0xFF000000⟩
  | .owFree => ⟨0x2F000000, 0xFFFFFFFF⟩

/-- The instruction's word selects the instruction's row, and the row is in the table (rules R73 and R74). -/
def Statement (i : Instr) : Prop := rowOf i ∈ opcodeTable ∧ (rowOf i).selects (encode i) = true

theorem bitByte_and (b : Bool) : bitByte b &&& 0xFE#8 = 0 := by cases b <;> decide
theorem level_and (x : BitVec 2) : x.setWidth 8 &&& 0xFC#8 = 0 := by revert x; decide
theorem address_and (x : BitVec 7) : x.setWidth 8 &&& 0x80#8 = 0 := by revert x; decide

/-- A row selects a word written from its fields. -/
theorem selects_mkWord {m n : Word} {op a b c : Byte} (h0 : op &&& opField n = opField m)
    (h1 : a &&& aField n = aField m) (h2 : b &&& bField n = bField m) (h3 : c &&& cField n = cField m) :
    OpRow.selects ⟨m, n⟩ (mkWord op a b c) = true := by
  rw [selects_iff]; simp [h0, h1, h2, h3]

theorem twInit (c d : PinId) : Statement (.twInit c d) :=
  ⟨by simp only [rowOf]; decide, selects_mkWord (by decide) (by exact BitVec.and_zero) (by exact BitVec.and_zero) (by decide)⟩
theorem twSetSpeed (lvl : BitVec 2) : Statement (.twSetSpeed lvl) :=
  ⟨by simp only [rowOf]; decide, selects_mkWord (by decide) (level_and _) (by decide) (by decide)⟩
theorem twStart : Statement .twStart :=
  ⟨by simp only [rowOf]; decide, selects_mkWord (by decide) (by decide) (by decide) (by decide)⟩
theorem twStop : Statement .twStop :=
  ⟨by simp only [rowOf]; decide, selects_mkWord (by decide) (by decide) (by decide) (by decide)⟩
theorem twWriteByte (x : Byte) : Statement (.twWriteByte x) :=
  ⟨by simp only [rowOf]; decide, selects_mkWord (by decide) (by exact BitVec.and_zero) (by decide) (by decide)⟩
theorem twReadByte (k : Bool) : Statement (.twReadByte k) :=
  ⟨by simp only [rowOf]; decide, selects_mkWord (by decide) (bitByte_and _) (by decide) (by decide)⟩
theorem twWriteBytes (len : Byte) : Statement (.twWriteBytes len) :=
  ⟨by simp only [rowOf]; decide, selects_mkWord (by decide) (by exact BitVec.and_zero) (by decide) (by decide)⟩
theorem twReadBytes (len : Byte) : Statement (.twReadBytes len) :=
  ⟨by simp only [rowOf]; decide, selects_mkWord (by decide) (by exact BitVec.and_zero) (by decide) (by decide)⟩
theorem twStartRw (ab : Byte) (son : Bool) : Statement (.twStartRw ab son) :=
  ⟨by simp only [rowOf]; decide, selects_mkWord (by decide) (by exact BitVec.and_zero) (bitByte_and _) (by decide)⟩
theorem twStartWrite (a : BitVec 7) (r : Byte) : Statement (.twStartWrite a r) :=
  ⟨by simp only [rowOf]; decide, selects_mkWord (by decide) (address_and _) (by exact BitVec.and_zero) (by decide)⟩
theorem twStartRead (a : BitVec 7) (r : Byte) : Statement (.twStartRead a r) :=
  ⟨by simp only [rowOf]; decide, selects_mkWord (by decide) (address_and _) (by exact BitVec.and_zero) (by decide)⟩
theorem twScan : Statement .twScan :=
  ⟨by simp only [rowOf]; decide, selects_mkWord (by decide) (by decide) (by decide) (by decide)⟩
theorem twFree : Statement .twFree :=
  ⟨by simp only [rowOf]; decide, selects_mkWord (by decide) (by decide) (by decide) (by decide)⟩
theorem owInit (p : PinId) : Statement (.owInit p) :=
  ⟨by simp only [rowOf]; decide, selects_mkWord (by decide) (by exact BitVec.and_zero) (by decide) (by decide)⟩
theorem owReset (p : PinId) : Statement (.owReset p) :=
  ⟨by simp only [rowOf]; decide, selects_mkWord (by decide) (by exact BitVec.and_zero) (by decide) (by decide)⟩
theorem owReadBit (p : PinId) : Statement (.owReadBit p) :=
  ⟨by simp only [rowOf]; decide, selects_mkWord (by decide) (by exact BitVec.and_zero) (by decide) (by decide)⟩
theorem owWriteBit (p : PinId) (b : Bool) : Statement (.owWriteBit p b) :=
  ⟨by simp only [rowOf]; decide, selects_mkWord (by decide) (by exact BitVec.and_zero) (bitByte_and _) (by decide)⟩
theorem owRead (p : PinId) : Statement (.owRead p) :=
  ⟨by simp only [rowOf]; decide, selects_mkWord (by decide) (by exact BitVec.and_zero) (by decide) (by decide)⟩
theorem owWrite (p : PinId) (x : Byte) : Statement (.owWrite p x) :=
  ⟨by simp only [rowOf]; decide, selects_mkWord (by decide) (by exact BitVec.and_zero) (by exact BitVec.and_zero) (by decide)⟩
theorem owReadBytes (p : PinId) (len : Byte) : Statement (.owReadBytes p len) :=
  ⟨by simp only [rowOf]; decide, selects_mkWord (by decide) (by exact BitVec.and_zero) (by exact BitVec.and_zero) (by decide)⟩
theorem owWriteBytes (p : PinId) (len : Byte) : Statement (.owWriteBytes p len) :=
  ⟨by simp only [rowOf]; decide, selects_mkWord (by decide) (by exact BitVec.and_zero) (by exact BitVec.and_zero) (by decide)⟩
theorem owCrc8 (c x : Byte) : Statement (.owCrc8 c x) :=
  ⟨by simp only [rowOf]; decide, selects_mkWord (by decide) (by exact BitVec.and_zero) (by exact BitVec.and_zero) (by decide)⟩
theorem owMatchRom (p : PinId) : Statement (.owMatchRom p) :=
  ⟨by simp only [rowOf]; decide, selects_mkWord (by decide) (by exact BitVec.and_zero) (by decide) (by decide)⟩
theorem owMatchDevice (idx : Byte) : Statement (.owMatchDevice idx) :=
  ⟨by simp only [rowOf]; decide, selects_mkWord (by decide) (by exact BitVec.and_zero) (by decide) (by decide)⟩
theorem owReadRom (p : PinId) : Statement (.owReadRom p) :=
  ⟨by simp only [rowOf]; decide, selects_mkWord (by decide) (by exact BitVec.and_zero) (by decide) (by decide)⟩
theorem owSearchPass (p : PinId) (cmd : Byte) (seed : Bool) : Statement (.owSearchPass p cmd seed) :=
  ⟨by simp only [rowOf]; decide, selects_mkWord (by decide) (by exact BitVec.and_zero) (by exact BitVec.and_zero) (bitByte_and _)⟩
theorem owSearch (p : PinId) (cmd : Byte) : Statement (.owSearch p cmd) :=
  ⟨by simp only [rowOf]; decide, selects_mkWord (by decide) (by exact BitVec.and_zero) (by exact BitVec.and_zero) (by decide)⟩
theorem owSearchFamily (p : PinId) (cmd : Byte) (f : Byte) : Statement (.owSearchFamily p cmd f) :=
  ⟨by simp only [rowOf]; decide, selects_mkWord (by decide) (by exact BitVec.and_zero) (by exact BitVec.and_zero) (by exact BitVec.and_zero)⟩
theorem owFree : Statement .owFree :=
  ⟨by simp only [rowOf]; decide, selects_mkWord (by decide) (by decide) (by decide) (by decide)⟩

end Sys2Proof.Laws.EncodingRow
end

