-- ==== Sys2Proof/Laws/Transfers.lean ====
section
/-! SUPPORT. Everything the buffered transfers and the scan can do, whatever the bus answers. -/

namespace Sys2Proof.Machine

variable {s₀ s : State} {n m : Nat} {i : Bool} {c d : Drive}

/-! ## Buffered transfers -/

/-- `RXBUF[i ..]` made the bytes `xs`. -/
def State.writeRxs (s : State) (i : Nat) (xs : List Byte) : State := { s with rxbuf := Memory.writeAll s.rxbuf i xs }

theorem TwFrom.writeRx (h : TwFrom s₀ n s) (j : Nat) (b : Byte) : TwFrom (s₀.writeRx j b) n (s.writeRx j b) := by
  obtain ⟨es, b', rfl, h2, h3⟩ := h
  exact ⟨es, b', rfl, h2, h3⟩

theorem At.writeRx (h : At s₀ n i c d s) (j : Nat) (b : Byte) : At (s₀.writeRx j b) n i c d (s.writeRx j b) :=
  ⟨h.1.writeRx j b, h.2⟩

/-- The bytes of `TXBUF` written one after the other: at the first NACK fail-fast and `NoAck` (rule R138). -/
theorem triple_writeTxBytes (hd : TwoLines s₀) (k j : Nat)
    (htx : ∀ x, j ≤ x → x < j + k → (Memory.read s₀.txbuf x).isSome) :
    Triple (OpenAt s₀ n) (writeTxBytes k j) (fun _ => OpenAt s₀ (n + k * (9 * bitEvents s₀ + 2)))
      (DataFails s₀ (n + k * (9 * bitEvents s₀ + 2))) := by
  induction k generalizing n j with
  | zero => exact Triple.pure fun _ h => At.mono h (by omega)
  | succ k ih =>
    have e : n + (k + 1) * (9 * bitEvents s₀ + 2) =
        n + (9 * bitEvents s₀ + 2) + k * (9 * bitEvents s₀ + 2) := by ring
    have := Nat.zero_le (k * (9 * bitEvents s₀ + 2))
    rw [e]
    refine (Triple.readTx (Q := fun _ => OpenAt s₀ n) (fun _ _ h _ => h) fun s h hn => ?_).bind fun x => ?_
    · obtain ⟨es, b, rfl, -, -⟩ := h.1
      have := htx j (Nat.le_refl _) (by omega)
      simp only [State.setInTx_txbuf, State.play_txbuf] at hn
      simp [hn] at this
    · refine ((triple_writeByte hd x).imp (fun _ => id) (fun _ _ => id)
        fun _ _ h => h.dataFails.mono (by omega)).bind fun a => Triple.ite (fun _ => ?_) fun _ => ?_
      · exact (triple_nackData hd).imp (fun _ => id) (fun _ _ => id) fun _ _ h =>
          ⟨.inr (.inr h.1), h.2.mono (by omega)⟩
      · exact (ih (j + 1) fun x h1 h2 => htx x (by omega) (by omega)).imp
          (fun _ h => At.mono h (by omega)) (fun _ _ => id) fun _ _ => id

/-- The bytes read into `RXBUF`, one after the other; at a clock-stretch failure those completed stay (rule R139). -/
theorem triple_readRxBytes (hd : TwoLines s₀) (k j : Nat) :
    Triple (OpenAt s₀ n) (readRxBytes k j)
      (fun _ s => ∃ xs, xs.length = k ∧ OpenAt (s₀.writeRxs j xs) (n + k * (9 * bitEvents s₀ + 1)) s)
      (fun r s => r = .err .longClockStretch ∧
        ∃ xs, xs.length < k ∧ IdleAt (s₀.writeRxs j xs) (n + k * (9 * bitEvents s₀ + 1)) s) := by
  induction k generalizing s₀ n j with
  | zero => exact Triple.pure fun _ h => ⟨[], rfl, At.mono h (by omega)⟩
  | succ k ih =>
    have e : n + (k + 1) * (9 * bitEvents s₀ + 1) =
        n + (9 * bitEvents s₀ + 1) + k * (9 * bitEvents s₀ + 1) := by ring
    have := Nat.zero_le (k * (9 * bitEvents s₀ + 1))
    rw [e]
    refine ((triple_readByte hd _).imp (fun _ => id) (fun _ _ => id)
      fun _ _ h => ⟨h.1, [], by simp, h.2.mono (by omega)⟩).bind fun x => ?_
    refine (Triple.update (Q := fun _ => OpenAt (s₀.writeRx j x) (n + (9 * bitEvents s₀ + 1)))
      fun s h => At.writeRx h j x).bind fun _ => ?_
    refine (ih (s₀ := s₀.writeRx j x) hd (j + 1)).imp (fun _ => id) (fun _ t h => ?_) fun r t h => ?_
    · obtain ⟨xs, hl, h⟩ := h
      exact ⟨x :: xs, by simp [hl], h⟩
    · obtain ⟨hr, xs, hl, h⟩ := h
      exact ⟨hr, x :: xs, by simpa using hl, h⟩

/-! ## The scan -/

theorem TwFrom.setTwDevList (h : TwFrom s₀ n s) (l : List Byte) :
    TwFrom (s₀.setTwDevList l) n (s.setTwDevList l) := by
  obtain ⟨es, b', rfl, h2, h3⟩ := h
  exact ⟨es, b', rfl, h2, h3⟩

theorem At.setTwDevList (h : At s₀ n i c d s) (l : List Byte) :
    At (s₀.setTwDevList l) n i c d (s.setTwDevList l) := ⟨h.1.setTwDevList l, h.2⟩

theorem At.twDevList (h : At s₀ n i c d s) : s.twDevList = s₀.twDevList := by
  obtain ⟨⟨es, b, rfl, -, -⟩, -⟩ := h; rfl

theorem At.params (h : At s₀ n i c d s) : s.params = s₀.params := by
  obtain ⟨⟨es, b, rfl, -, -⟩, -⟩ := h; rfl

/-- The most events one probe takes. -/
def probeBound (s₀ : State) : Nat := addressEventBound s₀ + s₀.tw.maxStretch.toNat + 6

/-- What a scan can raise, its list emptied and the bus idle (rule R143). -/
def ScanFails (s₀ : State) (n : Nat) (r : Raise) (s : State) : Prop :=
  (r = .err .longClockStretch ∨ r = .err .arbitrationLost ∨ r = .err .outOfMemory) ∧
    IdleAt (s₀.setTwDevList []) n s

theorem ScanFails.mono {r : Raise} (h : ScanFails s₀ n r s) (hm : n ≤ m) : ScanFails s₀ m r s := ⟨h.1, h.2.mono hm⟩

theorem triple_freeTwAndRaise {l : List Byte} {e : Raise} {Q : Unit → State → Prop}
    (he : e = .err .longClockStretch ∨ e = .err .arbitrationLost ∨ e = .err .outOfMemory) :
    Triple (IdleAt (s₀.setTwDevList l) n) (freeTwAndRaise e) Q (ScanFails s₀ n) :=
  Triple.bind (Q := fun _ => IdleAt (s₀.setTwDevList []) n)
    (Triple.update fun _ h => (At.setTwDevList h [] : At ((s₀.setTwDevList l).setTwDevList []) ..))
    fun _ => Triple.reraise fun _ h => ⟨he, h⟩

/-- What one probe can leave of the list `l` (rules R54, R143). -/
def ProbeLeaves (s₀ : State) (l : List Byte) (a : BitVec 7) (n : Nat) (s : State) : Prop :=
  ∃ l', (l' = l ∨ l.length ≠ s₀.params.maxTwDevices ∧ l' = l ++ [a.setWidth 8]) ∧
    IdleAt (s₀.setTwDevList l') n s

/-- A device answered: the bus is stopped, then the address appended or the list found full (rule R143). -/
theorem triple_scanFound (hd : TwoLines s₀) {l : List Byte} {a : BitVec 7} :
    Triple (OpenAt (s₀.setTwDevList l) n) (scanFound a) (fun _ => ProbeLeaves s₀ l a (n + s₀.tw.maxStretch.toNat + 6))
      (ScanFails s₀ (n + s₀.tw.maxStretch.toNat + 6)) := by
  refine Triple.bind (Q := fun r s => (r = .ok () ∨ r = .error (.err .longClockStretch)) ∧
      IdleAt (s₀.setTwDevList l) (n + s₀.tw.maxStretch.toNat + 6) s)
    ((triple_stop (s₀ := s₀.setTwDevList l) hd).attempt (fun _ t h => ⟨.inl rfl, h⟩)
      fun r t h => ⟨.inr (by rw [h.1]), h.2⟩) fun r => Triple.assume fun hr => ?_
  rcases hr with rfl | rfl
  · refine (Triple.look (Q := fun b s => b = (l.length == s₀.params.maxTwDevices) ∧
        IdleAt (s₀.setTwDevList l) (n + s₀.tw.maxStretch.toNat + 6) s) fun s h => ⟨?_, h⟩).bind
      fun b => Triple.assume fun hb => ?_
    · rw [At.twDevList h, At.params h]; rfl
    subst hb
    refine Triple.ite (fun _ => triple_freeTwAndRaise (.inr (.inr rfl))) fun hb => ?_
    refine Triple.update fun s h => ⟨l ++ [a.setWidth 8], .inr ⟨by simpa using hb, rfl⟩, ?_⟩
    have := At.setTwDevList h (l ++ [a.setWidth 8])
    rw [At.twDevList h]
    exact this
  · exact triple_freeTwAndRaise (.inl rfl)

/-- One probe of an address that is not reserved: the bus is idle after; the address is appended if it answered and
the list had room (rule R143). -/
theorem triple_scanProbe (hd : TwoLines s₀) {l : List Byte} {a : BitVec 7} (ha : a ∉ s₀.params.reservedAddrs) :
    Triple (At (s₀.setTwDevList l) n i c d) (scanProbe a) (fun _ => ProbeLeaves s₀ l a (n + probeBound s₀))
      (ScanFails s₀ (n + probeBound s₀)) := by
  have hb : n + probeBound s₀ = n + addressEventBound s₀ + s₀.tw.maxStretch.toNat + 6 := by unfold probeBound; omega
  rw [hb]
  refine (Triple.look (Q := fun b s => b = false ∧ At (s₀.setTwDevList l) n i c d s) fun s h => ⟨?_, h⟩).bind
    fun b => Triple.assume fun hb => ?_
  · rw [At.params h]; simpa using ha
  subst hb
  refine Triple.ite (fun h => absurd h (by simp)) fun _ => ?_
  refine Triple.bind (Q := fun r s =>
      (r = .ok () ∧ OpenAt (s₀.setTwDevList l) (n + addressEventBound s₀) s) ∨
      ((r = .error (.err .noAck) ∨ r = .error (.err .longClockStretch) ∨ r = .error (.err .arbitrationLost)) ∧
        IdleAt (s₀.setTwDevList l) (n + addressEventBound s₀ + s₀.tw.maxStretch.toNat + 6) s))
    ((triple_startRw (s₀ := s₀.setTwDevList l) hd _ true).attempt (fun _ t h => .inl ⟨rfl, h⟩) fun r t h => ?_)
    fun r => (Triple.assume fun hr => ?_).or (Triple.assume fun hr => ?_)
  · rcases h with h | h
    · exact .inr ⟨h.1.elim (fun e => .inr (.inl (by rw [e]))) (fun e => .inr (.inr (by rw [e]))), h.2⟩
    · exact .inr ⟨.inl (by rw [h.1]), h.2⟩
  · subst hr
    exact triple_scanFound hd
  · rcases hr with rfl | rfl | rfl
    · exact Triple.pure fun s h => ⟨l, .inl rfl, h⟩
    · exact triple_freeTwAndRaise (.inl rfl)
    · exact triple_freeTwAndRaise (.inr (.inl rfl))

/-- A reserved address: nothing happens (rule R143). -/
theorem scanProbe_reserved {a : BitVec 7} {s : State} (ha : a ∈ s.params.reservedAddrs) :
    scanProbe a s = .ok () s := by
  simp [scanProbe, bind_run, ha]

/-- What the list of a scan holds: no more than its capacity, and only the addresses probed (rules R52, R143). -/
def ScanList (q : Params) (l : List Byte) : Prop :=
  l.length ≤ q.maxTwDevices ∧ ∀ b ∈ l, b ≠ 0 ∧ b.getLsbD 7 = false ∧ b.setWidth 7 ∉ q.reservedAddrs

/-- A probed address keeps the list within its capacity and its addresses. -/
theorem ScanList.append {q : Params} {l l' : List Byte} {a : BitVec 7} (hl : ScanList q l) (h0 : a ≠ 0)
    (ha : a ∉ q.reservedAddrs) (h : l' = l ∨ l.length ≠ q.maxTwDevices ∧ l' = l ++ [a.setWidth 8]) :
    ScanList q l' := by
  have back : (a.setWidth 8).setWidth 7 = a := by
    rw [BitVec.setWidth_setWidth_of_le _ (by decide), BitVec.setWidth_eq]
  rcases h with rfl | ⟨hr, rfl⟩
  · exact hl
  · refine ⟨by have := hl.1; simp only [List.length_append, List.length_singleton]; omega, fun b hb => ?_⟩
    rcases List.mem_append.mp hb with hb | hb
    · exact hl.2 b hb
    · rw [List.mem_singleton.mp hb]
      refine ⟨fun h => h0 ?_, by simp, by rwa [back]⟩
      rw [← back, h]; rfl

/-- The probes of a list of addresses in order: once one is not reserved, the bus is idle after (rules R143, R144). -/
theorem triple_scanProbes (hd : TwoLines s₀) (as : List (BitVec 7)) (hz : ∀ a ∈ as, a ≠ 0) :
    Triple (fun s => ∃ l, ScanList s₀.params l ∧
        (At (s₀.setTwDevList l) n i c d s ∨ IdleAt (s₀.setTwDevList l) n s)) (scanProbes as)
      (fun _ s => ∃ l, ScanList s₀.params l ∧
        ((∀ a ∈ as, a ∈ s₀.params.reservedAddrs) ∧
            At (s₀.setTwDevList l) (n + as.length * probeBound s₀) i c d s ∨
          IdleAt (s₀.setTwDevList l) (n + as.length * probeBound s₀) s))
      (ScanFails s₀ (n + as.length * probeBound s₀)) := by
  induction as generalizing n i c d with
  | nil => exact Triple.pure fun s ⟨l, hl, h⟩ => ⟨l, hl, by simpa using h⟩
  | cons a as ih =>
    have e : n + (a :: as).length * probeBound s₀ = n + probeBound s₀ + as.length * probeBound s₀ := by
      simp only [List.length_cons]; ring
    have := Nat.zero_le (as.length * probeBound s₀)
    rw [e]
    by_cases ha : a ∈ s₀.params.reservedAddrs
    · refine Triple.bind (Q := fun _ s => ∃ l, ScanList s₀.params l ∧
          (At (s₀.setTwDevList l) (n + probeBound s₀) i c d s ∨ IdleAt (s₀.setTwDevList l) (n + probeBound s₀) s))
        ⟨fun s ⟨l, hl, h⟩ => ?_⟩ fun _ => ?_
      · have hp : s.params = s₀.params := by rcases h with h | h <;> exact (At.params h).trans rfl
        rw [scanProbe_reserved (by rw [hp]; exact ha)]
        exact ⟨l, hl, h.imp (fun h => h.mono (by omega)) (fun h => At.mono h (by omega))⟩
      · refine (ih fun a h => hz a (List.mem_cons_of_mem _ h)).post fun _ t ⟨l, hl, h⟩ => ⟨l, hl, ?_⟩
        refine h.imp_left fun h => ⟨fun x hx => ?_, h.2⟩
        rcases List.mem_cons.mp hx with rfl | hx
        · exact ha
        · exact h.1 x hx
    · refine Triple.bind (Q := fun _ s => ∃ l, ScanList s₀.params l ∧
          (At (s₀.setTwDevList l) (n + probeBound s₀) false .rel .rel s ∨
            IdleAt (s₀.setTwDevList l) (n + probeBound s₀) s)) (Triple.exists fun l => Triple.assume fun hl => ?_)
        fun _ => ?_
      · have key : ∀ {i c d}, Triple (At (s₀.setTwDevList l) n i c d) (scanProbe a)
            (fun _ s => ∃ l, ScanList s₀.params l ∧
              (At (s₀.setTwDevList l) (n + probeBound s₀) false .rel .rel s ∨
                IdleAt (s₀.setTwDevList l) (n + probeBound s₀) s))
            (ScanFails s₀ (n + probeBound s₀ + as.length * probeBound s₀)) := fun {i c d} =>
          (triple_scanProbe (i := i) (c := c) (d := d) hd ha).imp (fun _ => id)
            (fun _ t ⟨l', hl', h⟩ => ⟨l', hl.append (hz a List.mem_cons_self) ha hl', .inr h⟩)
            fun _ _ h => h.mono (Nat.le_add_right _ (as.length * probeBound s₀))
        exact key.or key
      · refine (ih fun a h => hz a (List.mem_cons_of_mem _ h)).post fun _ t ⟨l, hl, h⟩ => ⟨l, hl, .inr ?_⟩
        rcases h with h | h
        · exact h.2
        · exact h

end Sys2Proof.Machine
end

