-- ==== Sys2Proof/Laws/Slots.lean ====
section
/-! SUPPORT. Everything the one-wire operations and the ROM search can do, whatever the bus answers: `OwAt s₀ p n` says
that since `s₀` only events on pin `p` and delays have happened, at most `n` of them, and that the pin is released. -/

namespace Sys2Proof.Machine

/-- An event of the one-wire engine on pin `p` (rules R182, R183). -/
def OwEvent (p : PinId) : Event → Prop
  | .cfg _ _ => False
  | .low q => q = p
  | .rel q => q = p
  | .sample q _ => q = p
  | .wait _ => True

/-- From `s₀` to `s` at most `n` events on pin `p` happened and nothing else changed; the pin is released. -/
def OwAt (s₀ : State) (p : PinId) (n : Nat) (s : State) : Prop :=
  (∃ es, s = s₀.play es ∧ (∀ e ∈ es, OwEvent p e) ∧ es.length ≤ n) ∧ (s.pin p).drive = .rel

variable {α : Type} {s₀ s : State} {p : PinId} {n m : Nat} {E : Raise → State → Prop}

theorem OwAt.mono (h : OwAt s₀ p n s) (hm : n ≤ m) : OwAt s₀ p m s := by
  obtain ⟨⟨es, h1, h2, h3⟩, hr⟩ := h
  exact ⟨⟨es, h1, h2, h3.trans hm⟩, hr⟩

theorem OwAt.refl (h : (s.pin p).drive = .rel) : OwAt s p 0 s := ⟨⟨[], rfl, by simp, Nat.le_refl _⟩, h⟩

/-- A run of events on `p` that leaves the pin released. -/
theorem OwAt.run (h : OwAt s₀ p n s) {es : List Event} (he : ∀ e ∈ es, OwEvent p e)
    (hr : (pinAfter p (s.pin p) es).drive = .rel) : OwAt s₀ p (n + es.length) (s.play es) := by
  obtain ⟨⟨es₀, rfl, h2, h3⟩, -⟩ := h
  refine ⟨⟨es₀ ++ es, by rw [State.play_play], fun e h => ?_, by simp; omega⟩, by rw [State.play_pin]; exact hr⟩
  rcases List.mem_append.mp h with h | h
  · exact h2 e h
  · exact he e h

theorem OwAt.params (h : OwAt s₀ p n s) : s.params = s₀.params := by obtain ⟨⟨es, rfl, -, -⟩, -⟩ := h; rfl
theorem OwAt.txbuf (h : OwAt s₀ p n s) : s.txbuf = s₀.txbuf := by obtain ⟨⟨es, rfl, -, -⟩, -⟩ := h; rfl
theorem OwAt.cursor (h : OwAt s₀ p n s) : s.cursor = s₀.cursor := by obtain ⟨⟨es, rfl, -, -⟩, -⟩ := h; rfl
theorem OwAt.owDevList (h : OwAt s₀ p n s) : s.owDevList = s₀.owDevList := by obtain ⟨⟨es, rfl, -, -⟩, -⟩ := h; rfl

theorem OwAt.writeRx (h : OwAt s₀ p n s) (j : Nat) (b : Byte) : OwAt (s₀.writeRx j b) p n (s.writeRx j b) := by
  obtain ⟨⟨es, rfl, h2, h3⟩, hr⟩ := h
  exact ⟨⟨es, rfl, h2, h3⟩, hr⟩

theorem OwAt.setCursor (h : OwAt s₀ p n s) (c : Cursor) : OwAt (s₀.setCursor c) p n (s.setCursor c) := by
  obtain ⟨⟨es, rfl, h2, h3⟩, hr⟩ := h
  exact ⟨⟨es, rfl, h2, h3⟩, hr⟩

theorem OwAt.setOwDevList (h : OwAt s₀ p n s) (l : List OwRecord) :
    OwAt (s₀.setOwDevList l) p n (s.setOwDevList l) := by
  obtain ⟨⟨es, rfl, h2, h3⟩, hr⟩ := h
  exact ⟨⟨es, rfl, h2, h3⟩, hr⟩

theorem OwAt.wait (h : OwAt s₀ p n s) (k : Nat) : OwAt s₀ p (n + 1) (s.play [.wait k]) :=
  h.run (es := [.wait k]) (by simp [OwEvent]) (by simpa [pinAfter, pinAfterEvent] using h.2)

theorem OwAt.sample (h : OwAt s₀ p n s) (v : Bool) : OwAt s₀ p (n + 1) (s.play [.sample p v]) :=
  h.run (es := [.sample p v]) (by simp [OwEvent]) (by simpa [pinAfter, pinAfterEvent] using h.2)

/-- A low and a release of the pin with a wait between. -/
theorem OwAt.pulse (h : OwAt s₀ p n s) (k : Nat) :
    OwAt s₀ p (n + 3) (((s.play [.low p]).play [.wait k]).play [.rel p]) := by
  rw [State.play_play, State.play_play]
  exact h.run (es := [.low p, .wait k, .rel p]) (by simp [OwEvent]) (by simp [pinAfter, pinAfterEvent])

/-! ## Slots, bytes, reset -/

theorem triple_owWait (k : Nat) : Triple (OwAt s₀ p n) (wait k) (fun _ => OwAt s₀ p (n + 1)) E :=
  ⟨fun s h => by rw [wait_run]; exact h.wait k⟩

theorem triple_owSample : Triple (OwAt s₀ p n) (sample p) (fun _ => OwAt s₀ p (n + 1)) E :=
  ⟨fun s h => by rw [sample_run]; exact h.sample _⟩

/-- The line driven low for `k` units, then released, and what follows. -/
theorem triple_pulse {Q : α → State → Prop} {x : Op α} (k : Nat) (h : Triple (OwAt s₀ p (n + 3)) x Q E) :
    Triple (OwAt s₀ p n) (do low p; wait k; rel p; x) Q E := ⟨fun s hs => by
  rw [bind_ok (low_run ..), bind_ok (wait_run ..), bind_ok (rel_run ..)]
  exact h.run _ (hs.pulse k)⟩

/-- The parameters read off the state. -/
theorem triple_owParams {Q : α → State → Prop} {f : Params → Op α} (h : Triple (OwAt s₀ p n) (f s₀.params) Q E) :
    Triple (OwAt s₀ p n) (look (·.params) >>= f) Q E := ⟨fun s hs => by
  rw [bind_ok (look_run ..), hs.params]; exact h.run s hs⟩

/-- A write slot: four events (rule R182). -/
theorem triple_owWriteBit (b : Bool) : Triple (OwAt s₀ p n) (owWriteBit p b) (fun _ => OwAt s₀ p (n + 4)) E := by
  refine triple_owParams ?_
  refine triple_pulse _ ?_
  exact triple_owWait _

/-- A read slot: six events (rule R182). -/
theorem triple_owReadBit : Triple (OwAt s₀ p n) (owReadBit p) (fun _ => OwAt s₀ p (n + 6)) E := by
  refine triple_owParams ?_
  refine triple_pulse _ ?_
  refine (triple_owWait _).bind fun _ => ?_
  refine triple_owSample.bind fun _ => ?_
  exact (triple_owWait _).bind fun _ => Triple.pure fun _ h => h

theorem triple_owWriteBits (x : Byte) (k j : Nat) :
    Triple (OwAt s₀ p n) (owWriteBits p x k j) (fun _ => OwAt s₀ p (n + k * 4)) E := by
  induction k generalizing n j with
  | zero => exact Triple.pure fun _ h => h.mono (by omega)
  | succ k ih =>
    refine Triple.bind (triple_owWriteBit _) fun _ => ?_
    exact (ih (j + 1)).post fun _ _ h => h.mono (by omega)

/-- A byte written: eight write slots (rule R182). -/
theorem triple_owWriteByte (x : Byte) : Triple (OwAt s₀ p n) (owWriteByte p x) (fun _ => OwAt s₀ p (n + 32)) E := by
  have h := triple_owWriteBits (E := E) (s₀ := s₀) (p := p) (n := n) x 8 0
  rwa [show n + 8 * 4 = n + 32 by omega] at h

theorem triple_owReadBits (k j : Nat) (x : Byte) :
    Triple (OwAt s₀ p n) (owReadBits p k j x) (fun _ => OwAt s₀ p (n + k * 6)) E := by
  induction k generalizing n j x with
  | zero => exact Triple.pure fun _ h => h.mono (by omega)
  | succ k ih =>
    refine Triple.bind triple_owReadBit fun b => ?_
    exact (ih (j + 1) _).post fun _ _ h => h.mono (by omega)

/-- A byte read: eight read slots (rule R182). -/
theorem triple_owReadByte : Triple (OwAt s₀ p n) (owReadByte p) (fun _ => OwAt s₀ p (n + 48)) E := by
  have h := triple_owReadBits (E := E) (s₀ := s₀) (p := p) (n := n) 8 0 0
  rwa [show n + 8 * 6 = n + 48 by omega] at h

theorem triple_presencePolls (k j : Nat) :
    Triple (OwAt s₀ p n) (presencePolls p k j) (fun r s => r.2 ≤ j + k ∧ OwAt s₀ p (n + k * 2) s) E := by
  induction k generalizing n j with
  | zero => exact Triple.pure fun _ h => ⟨Nat.le_refl _, h.mono (by omega)⟩
  | succ k ih =>
    refine Triple.bind (Triple.look (Q := fun _ => OwAt s₀ p n) fun _ h => h) fun t => ?_
    refine Triple.bind (triple_owWait t) fun _ => ?_
    refine Triple.bind triple_owSample fun v => ?_
    refine Triple.ite (fun _ => ?_) fun _ => Triple.pure fun _ h => ?_
    · exact (ih (j + 1)).post fun _ _ h => ⟨by have := h.1; omega, h.2.mono (by omega)⟩
    · exact ⟨by simp, h.mono (by omega)⟩

/-- The most events a reset takes. -/
def resetBound (q : Params) : Nat := q.owPresPolls * 2 + 4

/-- A reset: at most two events for each poll and four more (rule R183). -/
theorem triple_owReset :
    Triple (OwAt s₀ p n) (owReset p) (fun _ => OwAt s₀ p (n + resetBound s₀.params)) E := by
  refine triple_owParams ?_
  refine triple_pulse _ ?_
  refine (triple_presencePolls _ 0).bind fun r => Triple.assume fun _ => ?_
  exact (triple_owWait _).bind fun _ => Triple.pure fun _ h => h.mono (by unfold resetBound; omega)

theorem triple_owWriteList (xs : List Byte) :
    Triple (OwAt s₀ p n) (owWriteList p xs) (fun _ => OwAt s₀ p (n + xs.length * 32)) E := by
  induction xs generalizing n with
  | nil => exact Triple.pure fun _ h => h.mono (by omega)
  | cons x xs ih =>
    refine Triple.bind (triple_owWriteByte x) fun _ => ?_
    exact ih.post fun _ _ h => h.mono (by simp only [List.length_cons]; omega)

/-- Bytes of `TXBUF` that the host has written, sent one after the other (rule R189). -/
theorem triple_owWriteTx (k j : Nat) (htx : ∀ x, j ≤ x → x < j + k → (Memory.read s₀.txbuf x).isSome) :
    Triple (OwAt s₀ p n) (owWriteTx p k j) (fun _ => OwAt s₀ p (n + k * 32)) E := by
  induction k generalizing n j with
  | zero => exact Triple.pure fun _ h => h.mono (by omega)
  | succ k ih =>
    refine Triple.bind (Triple.readTx (Q := fun _ => OwAt s₀ p n) (fun _ _ h _ => h) fun s h hn => ?_) fun x => ?_
    · have := htx j (Nat.le_refl _) (by omega)
      rw [h.txbuf] at hn
      simp [hn] at this
    · refine Triple.bind (triple_owWriteByte x) fun _ => ?_
      exact (ih (j + 1) fun x h1 h2 => htx x (by omega) (by omega)).post fun _ _ h => h.mono (by omega)

/-- Bytes received into `RXBUF`, which are also the bytes answered (rules R188, R195). -/
theorem triple_owReadRx (k j : Nat) :
    Triple (OwAt s₀ p n) (owReadRx p k j) (fun xs s => xs.length = k ∧ OwAt (s₀.writeRxs j xs) p (n + k * 48) s) E := by
  induction k generalizing s₀ n j with
  | zero => exact Triple.pure fun _ h => ⟨rfl, h.mono (by omega)⟩
  | succ k ih =>
    refine Triple.bind triple_owReadByte fun x => ?_
    refine Triple.bind (Q := fun _ => OwAt (s₀.writeRx j x) p (n + 48))
      (Triple.update fun _ h => h.writeRx j x) fun _ => ?_
    refine Triple.bind (ih (s₀ := s₀.writeRx j x) (j + 1)) fun xs => ?_
    exact Triple.pure fun s h => ⟨by simp [h.1], h.2.mono (by omega)⟩

/-! ## The ROM search -/

/-- The cursor's registers as rules R33 and R38 (e, f) have them. -/
def CursorOk (c : Cursor) : Prop := c.lastDisc.toNat ≤ 64 ∧ (c.lastDev = true → c.lastDisc = 0)

theorem CursorOk.after (rom : Rom) {z : Nat} (h : z ≤ 64) : CursorOk (Cursor.after rom z) := by
  refine ⟨?_, fun hz => ?_⟩
  · show (BitVec.ofNat 8 z).toNat ≤ 64
    rw [BitVec.toNat_ofNat]; omega
  · have : z = 0 := by simpa [Cursor.after, lastDevFlag] using hz
    subst this; rfl

theorem CursorOk.seed : CursorOk Cursor.seed := ⟨by decide, by decide⟩

/-- The steps of a pass: at most sixteen events each, and a last zero that is a position or 0 (rules R211, R213). -/
theorem triple_searchSteps (c : Cursor) (k j : Nat) (rom : Rom) (z : Nat) (hz : z ≤ 64) (hj : j + k ≤ 65) :
    Triple (OwAt s₀ p n) (searchSteps p c k j rom z) (fun r s => r.2 ≤ 64 ∧ OwAt s₀ p (n + k * 16) s)
      (fun r s => r = .err .noDevice ∧ OwAt s₀ p (n + k * 16) s) := by
  induction k generalizing n j rom z with
  | zero => exact Triple.pure fun _ h => ⟨hz, h.mono (by omega)⟩
  | succ k ih =>
    refine Triple.bind triple_owReadBit fun id => ?_
    refine Triple.bind triple_owReadBit fun cmp => ?_
    match direction c j id cmp with
    | none => exact Triple.raiseErr fun _ h => ⟨rfl, h.mono (by omega)⟩
    | some (d, b) =>
      refine Triple.bind (triple_owWriteBit d) fun _ => ?_
      refine (ih (j + 1) _ _ ?_ (by omega)).imp (fun _ h => h)
        (fun _ _ h => ⟨h.1, h.2.mono (by omega)⟩) fun _ _ h => ⟨h.1, h.2.mono (by omega)⟩
      unfold lastZeroAfter
      split <;> omega

/-- The most events a pass takes. -/
def passBound (q : Params) : Nat := resetBound q + 32 + 1024

/-- The errors of a pass, which leave the cursor as it was (rules R213, R214). -/
def PassFails (s₀ : State) (p : PinId) (n : Nat) (r : Raise) (s : State) : Prop :=
  (r = .err .noDevice ∨ r = .err .pinFlapping ∨ r = .err .badCrc) ∧ OwAt s₀ p n s

theorem PassFails.mono {r : Raise} (h : PassFails s₀ p n r s) (hm : n ≤ m) : PassFails s₀ p m r s :=
  ⟨h.1, h.2.mono hm⟩

/-- One pass: a CRC-valid ROM with a 1 in it and a cursor that holds it, or an error (rules R213, R214). -/
theorem triple_searchPass (cmd : Byte) :
    Triple (OwAt s₀ p n) (searchPass p cmd)
      (fun rom s => crcValid rom = true ∧ rom ≠ 0 ∧
        ∃ z, z ≤ 64 ∧ OwAt (s₀.setCursor (Cursor.after rom z)) p (n + passBound s₀.params) s)
      (PassFails s₀ p (n + passBound s₀.params)) := by
  refine Triple.bind (Triple.look (Q := fun _ => OwAt s₀ p n) fun _ h => h) fun c => ?_
  refine Triple.bind triple_owReset fun present => ?_
  refine Triple.bind (Triple.errIf (Q := fun _ => OwAt s₀ p (n + resetBound s₀.params)) (fun _ h _ => h)
      fun _ h _ => ⟨.inl rfl, h.mono (by unfold passBound; omega)⟩) fun _ => ?_
  refine Triple.bind (triple_owWriteByte cmd) fun _ => ?_
  refine Triple.bind ((triple_searchSteps c 64 1 0 0 (by omega) (by omega)).imp
      (fun _ h => h) (fun _ _ h => h) fun _ _ h => ⟨.inl h.1, h.2.mono (by unfold passBound; omega)⟩)
      fun r => Triple.assume fun hz => ?_
  obtain ⟨rom, z⟩ := r
  refine Triple.bind (Q := fun _ s => rom ≠ 0 ∧ OwAt s₀ p (n + passBound s₀.params) s)
    (Triple.errIf (fun _ h hc => ⟨by simpa using hc, h.mono (by unfold passBound; omega)⟩)
      fun _ h _ => ⟨.inr (.inl rfl), h.mono (by unfold passBound; omega)⟩) fun _ => Triple.assume fun h0 => ?_
  refine Triple.bind (Q := fun _ s => crcValid rom = true ∧ OwAt s₀ p (n + passBound s₀.params) s)
    (Triple.errIf (fun _ h hc => ⟨by simpa using hc, h⟩) fun _ h _ => ⟨.inr (.inr rfl), h⟩)
    fun _ => Triple.assume fun hv => ?_
  exact Triple.bind (Q := fun _ => OwAt (s₀.setCursor (Cursor.after rom z)) p (n + passBound s₀.params))
    (Triple.update fun _ h => h.setCursor _) fun _ => Triple.pure fun _ h => ⟨hv, h0, z, hz, h⟩

/-- `s₀` with another cursor and another device list. -/
def State.searched (s : State) (c : Cursor) (l : List OwRecord) : State := (s.setCursor c).setOwDevList l

/-- What a search lists: CRC-valid ROMs other than 00 x8, on its pin, no more than fit (rules R53, R213, R216). -/
def SearchList (q : Params) (p : PinId) (l : List OwRecord) : Prop :=
  l.length ≤ q.maxOwDevices ∧ ∀ r ∈ l, crcValid r.rom = true ∧ r.rom ≠ 0 ∧ r.pin = p

/-- What a search can raise once its passes have begun: its list is emptied (rule R216). -/
def SearchFails (s₀ : State) (p : PinId) (n : Nat) (r : Raise) (s : State) : Prop :=
  (r = .err .noDevice ∨ r = .err .pinFlapping ∨ r = .err .badCrc ∨ r = .err .outOfMemory) ∧
    ∃ c, CursorOk c ∧ OwAt (s₀.searched c []) p n s

theorem SearchFails.mono {r : Raise} (h : SearchFails s₀ p n r s) (hm : n ≤ m) : SearchFails s₀ p m r s := by
  obtain ⟨h1, c, h2, h3⟩ := h
  exact ⟨h1, c, h2, h3.mono hm⟩

theorem triple_freeOwAndRaise {c : Cursor} {l : List OwRecord} (hc : CursorOk c) {e : Raise} {Q : Unit → State → Prop}
    (he : e = .err .noDevice ∨ e = .err .pinFlapping ∨ e = .err .badCrc ∨ e = .err .outOfMemory) :
    Triple (OwAt (s₀.searched c l) p n) (freeOwAndRaise e) Q (SearchFails s₀ p n) :=
  Triple.bind (Q := fun _ => OwAt (s₀.searched c []) p n)
    (Triple.update fun _ h => (h.setOwDevList [] : OwAt ((s₀.searched c l).setOwDevList []) p n _))
    fun _ => Triple.reraise fun _ h => ⟨he, c, hc, h⟩

/-- The passes of a search: a list within its capacity whose last pass left no conflict, or an error with the list
emptied (rules R216, R219). -/
theorem triple_searchLoop (cmd : Byte) (k : Nat) {l : List OwRecord} {c : Cursor} (hc : CursorOk c)
    (hl : ∀ r ∈ l, crcValid r.rom = true ∧ r.rom ≠ 0 ∧ r.pin = p) (hk : l.length + k = s₀.params.maxOwDevices) :
    Triple (OwAt (s₀.searched c l) p n) (searchLoop p cmd k)
      (fun _ s => ∃ l' c', l' ≠ [] ∧ SearchList s₀.params p l' ∧ CursorOk c' ∧ c'.lastDev = true ∧
        OwAt (s₀.searched c' l') p (n + (k + 1) * passBound s₀.params) s)
      (SearchFails s₀ p (n + (k + 1) * passBound s₀.params)) := by
  induction k generalizing n l c with
  | zero =>
    refine Triple.bind (Q := fun r s =>
        (∃ e, r = .error e ∧ (e = .err .noDevice ∨ e = .err .pinFlapping ∨ e = .err .badCrc) ∧
          OwAt (s₀.searched c l) p (n + (0 + 1) * passBound s₀.params) s) ∨
        (∃ rom c', r = .ok rom ∧ CursorOk c' ∧
          OwAt (s₀.searched c' l) p (n + (0 + 1) * passBound s₀.params) s))
      ((triple_searchPass cmd).attempt (fun rom t ⟨_, _, z, hz, h⟩ => .inr ⟨rom, _, rfl, CursorOk.after rom hz, ?_⟩)
        fun r t h => .inl ⟨r, rfl, h.1, ?_⟩)
      fun r => (Triple.exists fun e => Triple.assume fun hr => Triple.assume fun he => ?_).or
        (Triple.exists fun rom => Triple.exists fun c' => Triple.assume fun hr => Triple.assume fun hc' => ?_)
    · rw [Nat.zero_add, Nat.one_mul]; exact h
    · rw [Nat.zero_add, Nat.one_mul]; exact h.2
    · subst hr
      exact triple_freeOwAndRaise hc (he.imp (fun h => h) (·.imp (fun h => h) .inl))
    · subst hr
      exact triple_freeOwAndRaise hc' (.inr (.inr (.inr rfl)))
  | succ k ih =>
    have e : n + (k + 1 + 1) * passBound s₀.params =
        n + passBound s₀.params + (k + 1) * passBound s₀.params := by ring
    have hge := Nat.zero_le ((k + 1) * passBound s₀.params)
    rw [e]
    refine Triple.bind (Q := fun r s =>
        (∃ e, r = .error e ∧ (e = .err .noDevice ∨ e = .err .pinFlapping ∨ e = .err .badCrc) ∧
          OwAt (s₀.searched c l) p (n + passBound s₀.params) s) ∨
        (∃ rom c', r = .ok rom ∧ crcValid rom = true ∧ rom ≠ 0 ∧ CursorOk c' ∧
          OwAt (s₀.searched c' l) p (n + passBound s₀.params) s))
      ((triple_searchPass cmd).attempt
        (fun rom t ⟨hv, h0, z, hz, h⟩ => .inr ⟨rom, _, rfl, hv, h0, CursorOk.after rom hz, h⟩)
        fun r t h => .inl ⟨r, rfl, h.1, h.2⟩)
      fun r => (Triple.exists fun e => Triple.assume fun hr => Triple.assume fun he => ?_).or
        (Triple.exists fun rom => Triple.exists fun c' => Triple.assume fun hr => Triple.assume fun hv =>
          Triple.assume fun h0 => Triple.assume fun hc' => ?_)
    · subst hr
      refine (triple_freeOwAndRaise hc (he.imp (fun h => h) (·.imp (fun h => h) .inl))).imp (fun _ h => h)
        (fun _ _ h => h) fun _ _ h => h.mono (by omega)
    · subst hr
      have hl' : ∀ r ∈ l ++ [⟨rom, p⟩], crcValid r.rom = true ∧ r.rom ≠ 0 ∧ r.pin = p := fun r hr => by
        rcases List.mem_append.mp hr with hr | hr
        · exact hl r hr
        · rw [List.mem_singleton.mp hr]; exact ⟨hv, h0, rfl⟩
      refine Triple.bind (Q := fun _ => OwAt (s₀.searched c' (l ++ [⟨rom, p⟩])) p (n + passBound s₀.params))
        (Triple.update fun s h => ?_) fun _ => ?_
      · have := h.setOwDevList (l ++ [⟨rom, p⟩])
        rw [h.owDevList]
        exact this
      refine (Triple.look (Q := fun b s => b = c'.lastDev ∧
        OwAt (s₀.searched c' (l ++ [⟨rom, p⟩])) p (n + passBound s₀.params) s) fun s h => ⟨?_, h⟩).bind fun b =>
          Triple.assume fun hb => Triple.ite (fun hlast => Triple.pure fun _ h => ?_) fun _ => ?_
      · rw [h.cursor]; rfl
      · exact ⟨_, c', by simp, ⟨by simp; omega, hl'⟩, hc', by rw [← hb, hlast], h.mono (by omega)⟩
      · exact ih hc' hl' (by simp; omega)

end Sys2Proof.Machine
end

