-- ==== Sys2Proof/Laws/Record.lean ====
section
/-! SUPPORT. What every command's trace records, whatever the bus answers: each pin is what the trace's events make
of it, each sample is the bus's next answer, and no pin is sampled between a `Low` and a release. -/

namespace Sys2Proof.Machine

variable {α β : Type} {s₀ s : State} {p q : PinId}

/-- The pin `q` has been released in this command since it was last driven low in it. -/
def Free (q : PinId) (s : State) : Prop := ∀ m, (pinAfter q ⟨.low, m⟩ s.trace).drive = .rel

/-- The trace so far samples no pin between a `Low` and a release (rule R107). -/
def Clean (s : State) : Prop := ∀ q m, neverSamplesLow q ⟨.low, m⟩ s.trace

/-- From `s₀` on, the trace records every change of the pins and every answer of the bus. -/
def Recorded (s₀ s : State) : Prop :=
  ∃ es, s.events = es.reverse ++ s₀.events ∧ s.pins = es.foldl pinsEvent s₀.pins ∧
    s.bus = s₀.bus.drop (sampleCount es) ∧ s.draws = s₀.draws + sampleCount es ∧
    es.filterMap sampledLevel = (List.range (sampleCount es)).map s₀.answer

/-- All of it, from the issue of the command on. -/
def Rec (s₀ s : State) : Prop := Recorded s₀ s ∧ Clean s

theorem neverSamplesLow_append (q : PinId) (v : Pin) (a b : List Event) :
    neverSamplesLow q v (a ++ b) ↔ neverSamplesLow q v a ∧ neverSamplesLow q (pinAfter q v a) b := by
  induction a generalizing v with
  | nil => simp [neverSamplesLow, pinAfter]
  | cons e a ih => simp only [List.cons_append, neverSamplesLow, ih, pinAfter, List.foldl_cons, and_assoc]

theorem pinAfter_append (q : PinId) (v : Pin) (a b : List Event) :
    pinAfter q v (a ++ b) = pinAfter q (pinAfter q v a) b := by simp [pinAfter, List.foldl_append]

theorem State.trace_play (s : State) (es : List Event) : (s.play es).trace = s.trace ++ es := by
  simp [State.trace]

theorem Recorded.refl (s : State) : Recorded s s := ⟨[], rfl, rfl, rfl, rfl, rfl⟩

theorem Recorded.trans {t u : State} (h : Recorded s t) (h' : Recorded t u) : Recorded s u := by
  obtain ⟨a, a1, a2, a3, a4, a5⟩ := h
  obtain ⟨b, b1, b2, b3, b4, b5⟩ := h'
  refine ⟨a ++ b, by simp [b1, a1], by simp [b2, a2], by simp [b3, a3], by simp [b4, a4]; omega, ?_⟩
  rw [List.filterMap_append, a5, b5, sampleCount_append, List.range_add, List.map_append, List.map_map]
  congr 1
  refine List.map_congr_left fun j _ => ?_
  simp [State.answer, a3, a4, Nat.add_assoc]

/-- An event other than a sample. -/
theorem Rec.event (h : Rec s₀ s) {e : Event} (hs : sampledLevel e = none) : Rec s₀ (s.play [e]) := by
  refine ⟨h.1.trans ⟨[e], by simp [State.play], rfl, rfl, rfl, ?_⟩, fun q m => ?_⟩
  · cases e <;> first | rfl | cases hs
  · rw [State.trace_play, neverSamplesLow_append]
    refine ⟨h.2 q m, ?_⟩
    cases e <;> first | exact ⟨trivial, trivial⟩ | cases hs

/-- A sample of a released pin. -/
theorem Rec.sample (h : Rec s₀ s) (hp : Free p s) : Rec s₀ (s.play [.sample p s.level]) := by
  refine ⟨h.1.trans ⟨[.sample p s.level], by simp [State.play], rfl, rfl, rfl, ?_⟩, fun q m => ?_⟩
  · simp [sampledLevel, sampleCount, State.answer, State.level, List.range_succ, List.headD_eq_head?_getD,
      List.head?_eq_getElem?]
  · rw [State.trace_play, neverSamplesLow_append]
    exact ⟨h.2 q m, fun e => by subst e; exact hp m, trivial⟩

theorem Rec.update (h : Rec s₀ s) {f : State → State} (he : (f s).events = s.events) (hp : (f s).pins = s.pins)
    (hb : (f s).bus = s.bus) (hd : (f s).draws = s.draws) : Rec s₀ (f s) := by
  refine ⟨h.1.trans ⟨[], by simp [he], by simp [hp], by simp [hb], by simp [hd], rfl⟩, fun q m => ?_⟩
  have := h.2 q m
  rwa [State.trace, he]

theorem Free.low (h : Free q s) (hne : p ≠ q) : Free q (s.play [.low p]) := fun m => by
  rw [State.trace_play, pinAfter_append]; simpa [pinAfter, pinAfterEvent, hne] using h m

theorem Free.rel_self : Free p (s.play [.rel p]) := fun m => by
  rw [State.trace_play, pinAfter_append]; simp [pinAfter, pinAfterEvent]

theorem Free.rel (h : Free q s) : Free q (s.play [.rel p]) := fun m => by
  rw [State.trace_play, pinAfter_append]
  simp only [pinAfter, pinAfterEvent, List.foldl_cons, List.foldl_nil]
  split
  · rfl
  · exact h m

theorem Free.wait (h : Free q s) (k : Nat) : Free q (s.play [.wait k]) := fun m => by
  rw [State.trace_play, pinAfter_append]; exact h m

theorem Free.sample (h : Free q s) (v : Bool) : Free q (s.play [.sample p v]) := fun m => by
  rw [State.trace_play, pinAfter_append]; exact h m

/-! ## Every operation records -/

/-- `x` keeps `Rec`. -/
def Records (x : Op α) : Prop := ∀ s₀, Triple (Rec s₀) x (fun _ => Rec s₀) (fun _ => Rec s₀)

theorem Records.bind {x : Op α} {f : α → Op β} (hx : Records x) (hf : ∀ a, Records (f a)) : Records (x >>= f) :=
  fun s₀ => Triple.bind (hx s₀) fun a => hf a s₀

theorem Records.pure (a : α) : Records (Pure.pure a : Op α) := fun _ => Triple.pure fun _ h => h
theorem Records.look (f : State → α) : Records (look f) := fun _ => Triple.look fun _ h => h
theorem Records.raiseErr (e : Err) : Records (raiseErr e : Op α) := fun _ => Triple.raiseErr fun _ h => h
theorem Records.reraise (r : Raise) : Records (reraise r : Op α) := fun _ => Triple.reraise fun _ h => h
theorem Records.errIf (c : Bool) (e : Err) : Records (errIf c e) :=
  fun _ => Triple.errIf (fun _ h _ => h) fun _ h _ => h
theorem Records.usageIf (c : State → Bool) (u : Usage) : Records (usageIf c u) :=
  fun _ => Triple.usageIf (fun _ h _ => h) fun _ h _ => h
theorem Records.readTx (i : Nat) : Records (readTx i) :=
  fun _ => Triple.readTx (fun _ _ h _ => h) fun _ h _ => h
theorem Records.attempt {x : Op α} (h : Records x) : Records (attempt x) :=
  fun s₀ => (h s₀).attempt (fun _ _ h => h) fun _ _ h => h
theorem Records.ite {c : Bool} {x y : Op α} (hx : Records x) (hy : Records y) : Records (if c then x else y) :=
  fun s₀ => Triple.ite (fun _ => hx s₀) fun _ => hy s₀
theorem Records.update {f : State → State} (he : ∀ s, (f s).events = s.events) (hp : ∀ s, (f s).pins = s.pins)
    (hb : ∀ s, (f s).bus = s.bus) (hd : ∀ s, (f s).draws = s.draws) : Records (update f) :=
  fun _ => Triple.update fun s h => h.update (he s) (hp s) (hb s) (hd s)

theorem Records.cfg (p : PinId) (m : CfgMode) : Records (cfg p m) :=
  fun _ => ⟨fun s h => by rw [cfg_run]; exact h.event rfl⟩
theorem Records.low (p : PinId) : Records (low p) := fun _ => ⟨fun s h => by rw [low_run]; exact h.event rfl⟩
theorem Records.rel (p : PinId) : Records (rel p) := fun _ => ⟨fun s h => by rw [rel_run]; exact h.event rfl⟩
theorem Records.wait (n : Nat) : Records (wait n) := fun _ => ⟨fun s h => by rw [wait_run]; exact h.event rfl⟩
theorem Records.setResult (v : Byte) : Records (setResult v) :=
  Records.update (fun _ => rfl) (fun _ => rfl) (fun _ => rfl) fun _ => rfl
theorem Records.writeRx (i : Nat) (b : Byte) : Records (writeRx i b) :=
  Records.update (fun _ => rfl) (fun _ => rfl) (fun _ => rfl) fun _ => rfl
theorem Records.setInTx (b : Bool) : Records (setInTx b) :=
  Records.update (fun _ => rfl) (fun _ => rfl) (fun _ => rfl) fun _ => rfl

theorem Records.lowScl : Records lowScl := Records.bind (Records.look _) fun _ => Records.low _
theorem Records.relScl : Records relScl := Records.bind (Records.look _) fun _ => Records.rel _
theorem Records.lowSda : Records lowSda := Records.bind (Records.look _) fun _ => Records.low _
theorem Records.relSda : Records relSda := Records.bind (Records.look _) fun _ => Records.rel _
theorem Records.waitShort : Records waitShort := Records.bind (Records.look _) fun _ => Records.wait _
theorem Records.waitLong : Records waitLong := Records.bind (Records.look _) fun _ => Records.wait _

theorem Records.failFast : Records failFast :=
  Records.bind Records.relScl fun _ => Records.bind Records.relSda fun _ => Records.setInTx _

/-- What follows a release of the clock: the clock is free, and the data line still is if it was, also where the two
lines are one pin. -/
def RecScl (w : TwRegs) (sda : Bool) (s₀ s : State) : Prop :=
  Rec s₀ s ∧ s.tw = w ∧ Free w.sclPin s ∧ (sda = true → Free w.sdaPin s)

theorem records_pollScl (w : TwRegs) (b : Bool) (k : Nat) :
    Triple (RecScl w b s₀) (pollScl k) (fun _ => RecScl w b s₀) (fun _ => Rec s₀) := by
  induction k with
  | zero => exact Triple.pure fun _ h => h
  | succ k ih =>
    refine Triple.bind (Q := fun _ => RecScl w b s₀) ⟨fun s h => ?_⟩ fun v =>
      Triple.ite (fun _ => Triple.pure fun _ h => h) fun _ => ih
    rw [sampleScl_run]
    obtain ⟨h1, h2, h3, h4⟩ := h
    exact ⟨h1.sample (by rw [h2]; exact h3), h2, h3.sample _, fun hb => (h4 hb).sample _⟩

theorem records_stretchWait (w : TwRegs) (b : Bool) :
    Triple (RecScl w b s₀) stretchWait (fun _ => RecScl w b s₀) (fun _ => Rec s₀) := by
  refine Triple.bind (Triple.look (Q := fun _ => RecScl w b s₀) fun _ h => h) fun k => ?_
  refine Triple.bind (records_pollScl w b k) fun v => Triple.ite (fun _ => Triple.pure fun _ h => h) fun _ => ?_
  exact Triple.pre (Triple.bind (Records.failFast s₀) fun _ => Triple.raiseErr fun _ h => h) fun _ h => h.1

/-- A stretch wait that follows a release of the clock, then whatever records. -/
theorem Records.release {f : Unit → Op β} (hf : ∀ a, Records (f a)) : Records (do Machine.relScl; Machine.stretchWait >>= f) :=
  fun s₀ => ⟨fun s h => by
    rw [bind_ok (relScl_run s)]
    exact (Triple.bind (records_stretchWait s.tw false) fun a => Triple.pre (hf a s₀) fun _ h => h.1).run _
      ⟨h.event rfl, rfl, Free.rel_self, fun h => by cases h⟩⟩

/-- A tick whose data line has been released where it samples it. -/
theorem records_tick (smp : Bool) :
    Triple (fun s => Rec s₀ s ∧ (smp = true → s.tw.sclPin ≠ s.tw.sdaPin → Free s.tw.sdaPin s)) (tick smp)
      (fun _ => Rec s₀) (fun _ => Rec s₀) := by
  refine ⟨fun s h => ?_⟩
  unfold tick
  rw [bind_ok (lowScl_run s), bind_ok (waitShort_run _), bind_ok (relScl_run _)]
  refine (Triple.bind (records_stretchWait s.tw smp) fun _ => ?_).run _
    ⟨((h.1.event rfl).event rfl).event rfl, rfl, Free.rel_self, fun hb => ?_⟩
  · refine Triple.bind (Q := fun _ => RecScl s.tw smp s₀) ⟨fun t ht => ?_⟩ fun _ => ?_
    · rw [waitLong_run]
      exact ⟨ht.1.event rfl, ht.2.1, ht.2.2.1.wait _, fun hb => (ht.2.2.2 hb).wait _⟩
    refine Triple.bind (Q := fun _ => Rec s₀) (Triple.ite (fun hb => ⟨fun t ht => ?_⟩)
      fun _ => Triple.pure fun _ ht => ht.1) fun v => ?_
    · rw [sampleSda_run]
      exact ht.1.sample (by rw [ht.2.1]; exact ht.2.2.2 hb)
    exact (Records.bind Records.lowScl fun _ => Records.bind Records.waitShort fun _ => Records.pure v) s₀
  · by_cases he : s.tw.sclPin = s.tw.sdaPin
    · rw [← he]; exact Free.rel_self
    · exact (((h.2 hb he).low he).wait _).rel

theorem Records.putBit (b : Bool) : Records (putBit b) := fun s₀ => by
  refine Triple.bind (Records.ite (c := b) Records.relSda Records.lowSda s₀) fun _ => ?_
  exact Triple.bind (Triple.pre (records_tick false) fun _ h => ⟨h, fun h => by cases h⟩)
    fun _ => Triple.pure fun _ h => h

theorem Records.getBit : Records getBit := fun s₀ => by
  refine ⟨fun s h => ?_⟩
  unfold Machine.getBit
  rw [bind_ok (relSda_run s)]
  exact (records_tick true).run _ ⟨h.event rfl, fun _ _ => Free.rel_self⟩

theorem Records.startCondition : Records startCondition :=
  .bind .waitShort fun _ => .bind .lowSda fun _ => .bind .waitShort fun _ => .bind .lowScl fun _ =>
    .bind .waitShort fun _ => .relSda

theorem Records.startIdle : Records startIdle := fun s₀ => ⟨fun s h => by
  unfold Machine.startIdle
  rw [bind_ok (relSda_run s), bind_ok (relScl_run _), bind_ok (waitShort_run _), bind_ok (sampleSda_run _)]
  refine (Triple.ite (P := RecScl s.tw false s₀) (fun _ => ?_) fun _ => ?_).run _
    ⟨(((h.event rfl).event rfl).event rfl).sample (Free.rel_self.rel.wait _), rfl,
      (Free.rel_self.wait _).sample _, fun h => by cases h⟩
  · refine Triple.bind (records_stretchWait _ _) fun _ => Triple.pre (P := Rec s₀) ?_ fun _ h => h.1
    exact Records.bind Records.startCondition (fun _ => Records.setInTx true) s₀
  · exact Triple.pre (Records.bind Records.failFast (fun _ => Records.raiseErr _) s₀) fun _ h => h.1⟩

theorem Records.startRepeated : Records startRepeated :=
  .bind .relSda fun _ => .bind .waitShort fun _ => .release fun _ => .startCondition

theorem Records.start : Records start := .bind (.look _) fun _ => .ite .startRepeated .startIdle

theorem Records.stop : Records stop :=
  .bind (.look _) fun _ => .bind (.errIf _ _) fun _ => .bind .lowSda fun _ => .bind .waitShort fun _ =>
    .release fun _ => .bind .waitShort fun _ => .bind .relSda fun _ => .bind .waitShort fun _ => .setInTx _

theorem Records.putBits (x : Byte) (k : Nat) : Records (putBits x k) := by
  induction k with
  | zero => exact .pure _
  | succ k ih => exact .bind (.putBit _) fun _ => ih

theorem Records.writeByte (x : Byte) : Records (writeByte x) := .bind (.putBits x 8) fun _ => .getBit

theorem Records.getBits (k : Nat) (x : Byte) : Records (getBits k x) := by
  induction k generalizing x with
  | zero => exact .pure _
  | succ k ih => exact .bind .getBit fun _ => ih _

theorem Records.readByte (k : Bool) : Records (readByte k) :=
  .bind (.getBits 8 _) fun _ => .bind (.putBit k) fun _ => .bind .relSda fun _ => .pure _

theorem Records.nackAddress (son : Bool) : Records (nackAddress son) := by
  refine .ite (.bind (.attempt .stop) fun r => ?_) (.raiseErr _)
  split <;> first | exact .raiseErr _ | exact .reraise _

theorem Records.startRw (ab : Byte) (son : Bool) : Records (startRw ab son) :=
  .bind .start fun _ => .bind (.writeByte ab) fun _ => .ite (.nackAddress son) (.pure _)

theorem Records.nackData : Records nackData := .bind .failFast fun _ => .raiseErr _

theorem Records.startWrite (a : BitVec 7) (r : Byte) : Records (startWrite a r) :=
  .bind (.startRw _ _) fun _ => .bind (.writeByte r) fun _ => .ite .nackData (.pure _)

theorem Records.writeTxBytes (k i : Nat) : Records (writeTxBytes k i) := by
  induction k generalizing i with
  | zero => exact .pure _
  | succ k ih => exact .bind (.readTx i) fun _ => .bind (.writeByte _) fun _ => .ite .nackData (ih _)

theorem Records.readRxBytes (k i : Nat) : Records (readRxBytes k i) := by
  induction k generalizing i with
  | zero => exact .pure _
  | succ k ih => exact .bind (.readByte _) fun _ => .bind (.writeRx _ _) fun _ => ih _

theorem Records.setTwDevList (f : State → List Byte) : Records (Machine.update fun s => s.setTwDevList (f s)) :=
  .update (fun _ => rfl) (fun _ => rfl) (fun _ => rfl) fun _ => rfl

theorem Records.setOwDevList (f : State → List OwRecord) : Records (Machine.update fun s => s.setOwDevList (f s)) :=
  .update (fun _ => rfl) (fun _ => rfl) (fun _ => rfl) fun _ => rfl

theorem Records.freeTwAndRaise (r : Raise) : Records (freeTwAndRaise r) := .bind (.setTwDevList _) fun _ => .reraise r

theorem Records.scanFound (a : BitVec 7) : Records (scanFound a) := by
  refine .bind (.attempt .stop) fun r => ?_
  split
  · exact .freeTwAndRaise _
  · exact .bind (.look _) fun _ => .ite (.freeTwAndRaise _) (.setTwDevList _)

theorem Records.scanProbe (a : BitVec 7) : Records (scanProbe a) := by
  refine .bind (.look _) fun _ => .ite (.pure _) (.bind (.attempt (.startRw _ _)) fun r => ?_)
  split
  · exact .pure _
  · exact .freeTwAndRaise _
  · exact .scanFound a

theorem Records.scanProbes (as : List (BitVec 7)) : Records (scanProbes as) := by
  induction as with
  | nil => exact .pure _
  | cons a as ih => exact .bind (.scanProbe a) fun _ => ih

/-! ### One-wire -/

theorem Records.owWriteBit (p : PinId) (b : Bool) : Records (owWriteBit p b) :=
  .bind (.look _) fun _ => .bind (.low p) fun _ => .bind (.wait _) fun _ => .bind (.rel p) fun _ => .wait _

/-- A wait and a sample of a pin that is free, then whatever records. -/
theorem records_sampleAfter {Q : β → State → Prop} {E : Raise → State → Prop} {f : Bool → Op β}
    (n : Nat) (hf : ∀ v, Triple (fun s => Rec s₀ s ∧ Free p s) (f v) Q E) :
    Triple (fun s => Rec s₀ s ∧ Free p s) (do wait n; let v ← sample p; f v) Q E := ⟨fun s h => by
  rw [bind_ok (wait_run ..), bind_ok (sample_run ..)]
  exact (hf _).run _ ⟨(h.1.event rfl).sample (h.2.wait _), (h.2.wait _).sample _⟩⟩

theorem Records.owReadBit (p : PinId) : Records (owReadBit p) := by
  refine .bind (.look _) fun q => .bind (.low p) fun _ => .bind (.wait _) fun _ s₀ => ⟨fun s h => ?_⟩
  rw [bind_ok (rel_run ..)]
  refine (records_sampleAfter (Q := fun _ => Rec s₀) (E := fun _ => Rec s₀) (p := p) _ fun v =>
    Triple.pre (Records.bind (.wait _) (fun _ => .pure v) s₀) fun _ h => h.1).run _ ⟨h.event rfl, Free.rel_self⟩

theorem Records.owWriteBits (p : PinId) (x : Byte) (n i : Nat) : Records (owWriteBits p x n i) := by
  induction n generalizing i with
  | zero => exact .pure _
  | succ n ih => exact .bind (.owWriteBit _ _) fun _ => ih _

theorem Records.owWriteByte (p : PinId) (x : Byte) : Records (owWriteByte p x) := .owWriteBits p x 8 0

theorem Records.owReadBits (p : PinId) (n i : Nat) (x : Byte) : Records (owReadBits p n i x) := by
  induction n generalizing i x with
  | zero => exact .pure _
  | succ n ih => exact .bind (.owReadBit _) fun _ => ih _ _

theorem Records.owReadByte (p : PinId) : Records (owReadByte p) := .owReadBits p 8 0 _

theorem records_presencePolls (n k : Nat) :
    Triple (fun s => Rec s₀ s ∧ Free p s) (presencePolls p n k) (fun _ => Rec s₀) (fun _ => Rec s₀) := by
  induction n generalizing k with
  | zero => exact Triple.pure fun _ h => h.1
  | succ n ih =>
    refine Triple.bind (Triple.look (Q := fun _ s => Rec s₀ s ∧ Free p s) fun _ h => h) fun t => ?_
    exact records_sampleAfter t fun v => Triple.ite (fun _ => ih _) fun _ => Triple.pure fun _ h => h.1

theorem Records.owReset (p : PinId) : Records (owReset p) := by
  refine .bind (.look _) fun q => .bind (.low p) fun _ => .bind (.wait _) fun _ s₀ => ⟨fun s h => ?_⟩
  rw [bind_ok (rel_run ..)]
  refine (Triple.bind (records_presencePolls _ 0) fun r => ?_).run _ ⟨h.event rfl, Free.rel_self⟩
  exact Records.bind (.wait _) (fun _ => .pure _) s₀

theorem Records.owWriteList (p : PinId) (xs : List Byte) : Records (owWriteList p xs) := by
  induction xs with
  | nil => exact .pure _
  | cons x xs ih => exact .bind (.owWriteByte p x) fun _ => ih

theorem Records.owWriteTx (p : PinId) (n i : Nat) : Records (owWriteTx p n i) := by
  induction n generalizing i with
  | zero => exact .pure _
  | succ n ih => exact .bind (.readTx i) fun _ => .bind (.owWriteByte p _) fun _ => ih _

theorem Records.owReadRx (p : PinId) (n i : Nat) : Records (owReadRx p n i) := by
  induction n generalizing i with
  | zero => exact .pure _
  | succ n ih => exact .bind (.owReadByte p) fun _ => .bind (.writeRx _ _) fun _ => .bind (ih _) fun _ => .pure _

theorem Records.searchSteps (p : PinId) (c : Cursor) (k n : Nat) (rom : Rom) (z : Nat) :
    Records (searchSteps p c k n rom z) := by
  induction k generalizing n rom z with
  | zero => exact .pure _
  | succ k ih =>
    refine .bind (.owReadBit p) fun _ => .bind (.owReadBit p) fun _ => ?_
    split
    · exact .raiseErr _
    · exact .bind (.owWriteBit p _) fun _ => ih _ _ _

theorem Records.setCursor (f : State → Cursor) : Records (Machine.update fun s => s.setCursor (f s)) :=
  .update (fun _ => rfl) (fun _ => rfl) (fun _ => rfl) fun _ => rfl

theorem Records.searchPass (p : PinId) (cmd : Byte) : Records (searchPass p cmd) :=
  .bind (.look _) fun _ => .bind (.owReset p) fun _ => .bind (.errIf _ _) fun _ => .bind (.owWriteByte p cmd) fun _ =>
    .bind (.searchSteps p _ _ _ _ _) fun _ => .bind (.errIf _ _) fun _ => .bind (.errIf _ _) fun _ =>
    .bind (.setCursor _) fun _ => .pure _

theorem Records.freeOwAndRaise (r : Raise) : Records (freeOwAndRaise r) := .bind (.setOwDevList _) fun _ => .reraise r

theorem Records.searchLoop (p : PinId) (cmd : Byte) (k : Nat) : Records (searchLoop p cmd k) := by
  induction k with
  | zero =>
    refine .bind (.attempt (.searchPass p cmd)) fun r => ?_
    split <;> exact .freeOwAndRaise _
  | succ k ih =>
    refine .bind (.attempt (.searchPass p cmd)) fun r => ?_
    split
    · exact .freeOwAndRaise _
    · exact .bind (.setOwDevList _) fun _ => .bind (.look _) fun _ => .ite (.pure _) ih

theorem Records.owReady (p : PinId) : Records (owReady p) :=
  .bind (.bind (.usageIf _ _) fun _ => .usageIf _ _) fun _ => .usageIf _ _

theorem Records.search (p : PinId) (cmd : Byte) : Records (search p cmd) :=
  .bind (.owReady p) fun _ => .bind (.errIf _ _) fun _ => .bind (.look _) fun _ => .bind (.errIf _ _) fun _ =>
    .bind (.setCursor _) fun _ => .bind (.look _) fun _ => .searchLoop p cmd _

end Sys2Proof.Machine
end

