-- ==== Sys2Proof/Tests/Slice0.lean ====
section
/-! SUPPORT. The model's own tests: the lines `Asm.wf` refuses, a hand-written word for every command, one or two
steps for every command with the results 95_test_vectors.md gives, and for each statement that has hypotheses a state
that meets them. -/

namespace Sys2Proof.Tests

open Sys2Proof.Machine

set_option Elab.async false

/-! ## The states tested on -/

/-- Parameters: the values rule R3 gives, and small ones where it gives none. -/
def params : Params where
  numPins := 8
  shortDelay0 := 40
  shortDelay1 := 30
  shortDelay2 := 20
  shortDelay3 := 10
  defaultSpeed := 2
  maxStretch := 4
  reservedAddrs := defaultReservedAddrs
  maxTwDevices := 2
  maxOwDevices := 3
  txbufSize := 8
  rxbufSize := 9
  owRstLow := 480
  owPresPolls := 48
  owPresInterval := 5
  owRstHigh := 480
  owW1Low := 6
  owW1Rel := 64
  owW0Low := 60
  owW0Rel := 10
  owRLow := 6
  owRWait := 9
  owRIdle := 55
  unit := 1
  hostMap := []

/-- The state a command leaves. -/
def did (i : Instr) (s : State) : State :=
  match exec i s with
  | .next t => t
  | .fault _ => s
  | .refused _ => s

/-- The command gives a next state. -/
def goes (i : Instr) (s : State) : Bool :=
  match exec i s with
  | .next _ => true
  | .fault _ => false
  | .refused _ => false

theorem exec_did {i : Instr} {s : State} (h : goes i s = true) : exec i s = .next (did i s) := by
  unfold goes at h
  unfold did
  split <;> simp_all

/-- The bus answers the next samples with these levels. -/
def on (s : State) (ans : List Bool) : State := { s with bus := ans }

theorem on_presents (s : State) (ans : List Bool) : Presents (on s ans) ans := by
  unfold Presents
  refine List.ext_getElem (by simp) fun j h1 h2 => ?_
  simp [State.answer, on, h2]

/-- Right after reset. -/
def fresh : State := State.resetWith params

/-- After `TW_INIT 4, 5` and `OW_INIT 2`, the whole of `TXBUF` written. -/
def idle : State :=
  { did (.owInit 2) (did (.twInit 4 5) fresh) with
    txbuf := [(0, 0x28), (1, 0x02), (2, 0x03), (3, 0), (4, 0), (5, 0), (6, 0), (7, 0x1E)] }

/-- Inside a transaction. -/
def opened : State := did .twStart (on idle [true, true])

/-- Status, result and trace a command leaves. -/
def seen (i : Instr) (s : State) : Byte × Byte × List Event := ((did i s).status, (did i s).result, (did i s).trace)

/-! ## Lines that are refused (rule R78): one for each check of `Asm.wf` -/

theorem test_wf_refuses_wide_bytes :
    [Asm.twInit 256 5, .twInit 4 256, .twWriteByte 256, .twWriteBytes 256, .twReadBytes 256, .twStartRw 256 1,
      .twStartWrite 1 256, .twStartRead 1 256, .owCrc8 256 0, .owCrc8 0 256, .owMatchDevice 256,
      .owSearchFamily 2 0xF0 256].all (fun l => !l.wf) = true := by decide

theorem test_wf_refuses_wide_pins :
    [Asm.owInit 256, .owReset 256, .owReadBit 256, .owWriteBit 256 1, .owRead 256, .owWrite 256 0, .owReadBytes 256 0,
      .owWriteBytes 256 0, .owMatchRom 256, .owReadRom 256, .owSearchPass 256 0xF0 1, .owSearch 256 0xF0,
      .owSearchFamily 256 0xF0 0, .owSearchFirst 256 0xF0, .owSearchNext 256 0xF0].all (fun l => !l.wf) = true := by
  decide

theorem test_wf_refuses_wide_second_operands :
    [Asm.owWrite 2 256, .owReadBytes 2 256, .owWriteBytes 2 256, .owSearchPass 2 256 1, .owSearch 2 256,
      .owSearchFamily 2 256 0, .owSearchFirst 2 256, .owSearchNext 2 256].all (fun l => !l.wf) = true := by decide

theorem test_wf_refuses_wide_addresses :
    [Asm.twStartWrite 128 0, .twStartRead 128 0, .twWriteAddr 128, .twReadAddr 128].all (fun l => !l.wf) = true := by
  decide

theorem test_wf_refuses_wide_bits_and_levels :
    [Asm.twSetSpeed 4, .twReadByte 2, .twStartRw 0x41 2, .owWriteBit 2 2, .owSearchPass 2 0xF0 2].all
      (fun l => !l.wf) = true := by decide

theorem test_wf_takes_fitting_lines :
    [Asm.twInit 255 0, .twSetSpeed 3, .twReadByte 1, .twStartRw 255 1, .twStartWrite 127 255, .twWriteAddr 127,
      .owSearchPass 255 255 1, .owSearchFamily 255 255 255, .owFree, .twReadNack].all Asm.wf = true := by decide

/-! ## A word for every command, written out from rules R70 to R73, and the vector ENC-1 -/

theorem test_decode_two_wire_words :
    [(0x10040500, Instr.twInit 4 5), (0x11030000, .twSetSpeed 3), (0x12000000, .twStart), (0x13000000, .twStop),
      (0x14C30000, .twWriteByte 0xC3), (0x15010000, .twReadByte true), (0x16030000, .twWriteBytes 3),
      (0x17020000, .twReadBytes 2), (0x18410100, .twStartRw 0x41 true), (0x19501000, .twStartWrite 0x50 0x10),
      (0x1A7F2200, .twStartRead 0x7F 0x22), (0x1B000000, .twScan), (0x1C000000, .twFree)].all
      (fun r => decide (decode r.1 = .ok r.2)) = true := by decide +kernel

theorem test_decode_one_wire_words :
    [(0x20020000, Instr.owInit 2), (0x21030000, .owReset 3), (0x22040000, .owReadBit 4),
      (0x23050100, .owWriteBit 5 true), (0x24060000, .owRead 6), (0x2502CC00, .owWrite 2 0xCC),
      (0x26020900, .owReadBytes 2 9), (0x27020100, .owWriteBytes 2 1), (0x28E10000, .owCrc8 0xE1 0),
      (0x29020000, .owMatchRom 2), (0x2A010000, .owMatchDevice 1), (0x2B020000, .owReadRom 2)].all
      (fun r => decide (decode r.1 = .ok r.2)) = true := by decide +kernel

theorem test_decode_rom_search_words :
    [(0x2C02F001, Instr.owSearchPass 2 0xF0 true), (0x2D02EC00, .owSearch 2 0xEC),
      (0x2E02F028, .owSearchFamily 2 0xF0 0x28), (0x2F000000, .owFree)].all
      (fun r => decide (decode r.1 = .ok r.2)) = true := by decide +kernel

/-- ENC-1. -/
theorem test_decode_refuses :
    [0x10040501, 0x11040000, 0x12000100, 0x15020000, 0x18410200, 0x19D01000, 0x2C02F002].all
      (fun w => decide (decode w = .error .reservedField)) = true ∧
    [0x00000000, 0x0F000000, 0x1D000000, 0x1F000000, 0x30000000, 0xFF000000].all
      (fun w => decide (decode w = .error .illegalOpcode)) = true := by decide +kernel

/-! ## Two-wire steps -/

/-- S8-1. -/
theorem test_twInit :
    seen (.twInit 4 5) fresh = (0x00, 0x00, [.cfg 4 .input, .cfg 5 .input]) ∧
    (did (.twInit 4 5) fresh).tw = ⟨true, 4, 5, false, 4, 2, 20, 40, true⟩ ∧
    seen (.twInit 4 5) idle = (0x00, 0x00, []) ∧ seen (.twInit 4 6) idle = (0x01, 0x00, []) ∧
    seen (.twInit 5 4) idle = (0x01, 0x00, []) := by decide +kernel

/-- TW-1. -/
theorem test_twSetSpeed :
    (did (.twSetSpeed 3) fresh).tw.short = 10 ∧ (did (.twSetSpeed 3) fresh).tw.long = 20 ∧
    (did (.twInit 4 5) (did (.twSetSpeed 3) fresh)).tw.speed = 2 ∧
    (did (.twInit 4 5) (did (.twSetSpeed 1) idle)).tw.speed = 1 := by decide +kernel

/-- TW-2, TW-12. -/
theorem test_twStart :
    seen .twStart (on idle [true, true]) =
      (0x00, 0x00, [.rel 5, .rel 4, .wait 20, .sample 5 true, .sample 4 true, .wait 20, .low 5, .wait 20, .low 4,
        .wait 20, .rel 5]) ∧
    (opened.tw.inTx, (opened.pin 4).drive, (opened.pin 5).drive) = (true, .low, .rel) ∧
    seen .twStart (on opened [true]) =
      (0x00, 0x00, [.rel 5, .wait 20, .rel 4, .sample 4 true, .wait 20, .low 5, .wait 20, .low 4, .wait 20,
        .rel 5]) := by decide +kernel

/-- TW-6 with a bound of 4, and TW-9. -/
theorem test_twStart_fails :
    seen .twStart (on idle [true, false, false, false, false]) =
      (0x04, 0x00, [.rel 5, .rel 4, .wait 20, .sample 5 true, .sample 4 false, .sample 4 false, .sample 4 false,
        .sample 4 false, .rel 4, .rel 5]) ∧
    seen .twStart (on idle [false, false]) =
      (0x03, 0x00, [.rel 5, .rel 4, .wait 20, .sample 5 false, .rel 4, .rel 5]) := by decide +kernel

/-- TW-5, S8-8. -/
theorem test_twStop :
    seen .twStop (on opened [true]) =
      (0x00, 0x00, [.low 5, .wait 20, .rel 4, .sample 4 true, .wait 20, .rel 5, .wait 20]) ∧
    (did .twStop (on opened [true])).tw.inTx = false ∧ seen .twStop idle = (0x09, 0x00, []) ∧
    seen .twStop fresh = (0x09, 0x00, []) := by decide +kernel

/-- A tick of the vectors, the clock high at the first poll. -/
def tickV : List Event := [.low 4, .wait 20, .rel 4, .sample 4 true, .wait 40, .low 4, .wait 20]

/-- A sampling tick of the vectors. -/
def tickS (v : Bool) : List Event :=
  [.low 4, .wait 20, .rel 4, .sample 4 true, .wait 40, .sample 5 v, .low 4, .wait 20]

/-- Bits put on the data line, a tick each. -/
def putV : List Bool → List Event
  | [] => []
  | true :: rest => .rel 5 :: (tickV ++ putV rest)
  | false :: rest => .low 5 :: (tickV ++ putV rest)

/-- TW-3, acknowledged. -/
theorem test_twWriteByte :
    let acked : List Bool := List.replicate 9 true ++ [false]
    let bits : List Bool := true :: List.replicate 7 false
    let trace : List Event := putV bits ++ .rel 5 :: tickS false
    seen (.twWriteByte 0x80) (on opened acked) = (0x00, 0x00, trace) ∧
    (did (.twWriteByte 0x80) (on opened (List.replicate 10 true))).result = 0x01 := by decide +kernel

/-- TW-8. -/
theorem test_twWriteByte_held :
    let held : List Event :=
      [.low 5, .low 4, .wait 20, .rel 4, .sample 4 false, .sample 4 false, .sample 4 false, .sample 4 false, .rel 4,
        .rel 5]
    let trace : List Event := putV [true, true] ++ held
    seen (.twWriteByte 0xC3) (on opened [true, true, false, false, false, false]) = (0x04, 0x00, trace) := by
  decide +kernel

/-- The samples of a byte a slave sends: each clock rises at its first poll. -/
def sent (bits : List Bool) : List Bool := bits.flatMap (fun b => [true, b]) ++ [true]

/-- TW-4. -/
theorem test_twReadByte :
    let bits : List Bool := [false, true, false, true, true, false, true, false]
    let nack : List Event := putV [true] ++ [.rel 5]
    let ack : List Event := putV [false] ++ [.rel 5]
    let trace : List Event := bits.flatMap (fun b => .rel 5 :: tickS b) ++ nack
    seen (.twReadByte true) (on opened (sent bits)) = (0x00, 0x5A, trace) ∧
    (did (.twReadByte false) (on opened (List.replicate 17 true))).trace.drop 72 = ack := by decide +kernel

/-- TW-10: the second byte not acknowledged, the third not sent; and no byte at all. -/
theorem test_twWriteBytes :
    let acks := List.replicate 9 true ++ [false] ++ List.replicate 9 true ++ [true]
    let t := did (.twWriteBytes 3) (on opened acks)
    (t.status, t.trace.length, t.trace.drop 146, t.tw.inTx) = (0x05, 148, [.rel 4, .rel 5], false) ∧
    seen (.twWriteBytes 0) opened = (0x00, 0x00, []) := by decide +kernel

/-- P1, command 3. -/
theorem test_twReadBytes :
    let bits := sent [false, true, false, true, false, false, false, false] ++
      sent [false, true, false, true, false, false, false, true]
    let t := did (.twReadBytes 2) (on opened bits)
    (t.status, t.rxbuf, t.trace.length, t.trace[72]?, t.trace[153]?) =
      (0x00, [(0, 0x50), (1, 0x51)], 162, some (.low 5), some (.rel 5)) := by decide +kernel

/-- TW-11. -/
theorem test_twStartRw :
    let s := did (.twStartRw 0x40 true) (on idle (List.replicate 13 true))
    let u := did (.twStartRw 0x40 false) (on idle (List.replicate 12 true))
    (s.status, s.trace.length, s.tw.inTx) = (0x05, 91, false) ∧
    s.trace.drop 84 = [.low 5, .wait 20, .rel 4, .sample 4 true, .wait 20, .rel 5, .wait 20] ∧
    (u.status, u.trace.length, u.tw.inTx, (u.pin 4).drive) = (0x05, 84, true, .low) := by decide +kernel

/-- TW-13, and P2's command 4. -/
theorem test_twStartWrite :
    let s := did (.twStartWrite 0x20 0x03) (on idle (List.replicate 11 true ++ [false] ++ List.replicate 10 true))
    let u := did (.twStartWrite 0x20 0x03)
      (on idle (List.replicate 11 true ++ [false] ++ List.replicate 9 true ++ [false]))
    (s.status, s.trace.length, s.trace.drop 157, s.tw.inTx) = (0x05, 159, [.rel 4, .rel 5], false) ∧
    (u.status, u.trace.length, u.tw.inTx) = (0x00, 157, true) := by decide +kernel

/-- P1, command 2: the second byte is the register, the third the read address 0xA1. -/
theorem test_twStartRead :
    let acked : List Bool := List.replicate 9 true ++ [false]
    let answers : List Bool := [true, true] ++ acked ++ acked ++ [true] ++ acked
    let t := did (.twStartRead 0x50 0x10) (on idle answers)
    let bits (first : Nat) : List Bool := (List.range 8).map fun i => t.trace[first + 8 * i]? == some (.rel 5)
    (t.status, t.trace.length, t.tw.inTx) = (0x00, 240, true) ∧
    bits 11 = [true, false, true, false, false, false, false, false] ∧
    bits 167 = [true, false, true, false, false, false, false, true] := by decide +kernel

/-- All addresses reserved but 0x20, 0x21 and 0x50, and room for `n` devices. -/
def narrow (n : Nat) (ans : List Bool) : State :=
  on { idle with
    params :=
      { params with
        maxTwDevices := n
        reservedAddrs := ((List.range 128).filter fun a => a != 0x20 && a != 0x21 && a != 0x50).map (.ofNat 7) } } ans

/-- The answers to one probe. -/
def probeV (present : Bool) : List Bool := List.replicate 11 true ++ [!present, true]

/-- S8-6 over the three addresses: three probes of 91 events. -/
theorem test_twScan :
    let t := did .twScan (narrow 2 (probeV true ++ probeV false ++ probeV true))
    (t.status, t.result, t.twDevList, t.tw.inTx, t.trace.length) = (0x00, 0x02, [0x20, 0x50], false, 273) := by
  decide +kernel

/-- TW-14, the third case. -/
theorem test_twScan_full :
    let t := did .twScan (narrow 1 (probeV true ++ probeV false ++ probeV true))
    (t.status, t.result, t.twDevList, t.tw.inTx, t.trace.length) = (0x0B, 0x00, [], false, 273) := by decide +kernel

/-- P2, command 7. -/
theorem test_twFree : (did .twFree { idle with twDevList := [0x20, 0x50] }).twDevList = [] := by decide +kernel

/-- TW-15 and the other reasons of rule R245 a command can take; none issues an event or changes `STATUS`. -/
theorem test_usage_faults :
    [(Instr.twStart, fresh, 0x03), (.twWriteByte 0, idle, 0x04), (.twInit 8 5, fresh, 0x05), (.twInit 4 4, idle, 0x06),
      (.twInit 2 3, did (.owInit 2) fresh, 0x07), (.owInit 4, idle, 0x07), (.owReset 3, idle, 0x08),
      (.owReset 8, idle, 0x05), (.twWriteBytes 9, opened, 0x09), (.owReadBytes 2 10, idle, 0x09),
      (.twWriteBytes 2, { opened with txbuf := [(0, 1)] }, 0x0A), (.owMatchRom 2, { idle with txbuf := [] }, 0x0A),
      (.owMatchDevice 0, idle, 0x0B)].all
      (fun r =>
        let t := did r.1 { r.2.1 with status := 0x09 }
        t.faulted && t.faultReason == r.2.2 && t.trace == [] && t.status == 0x09 && t.hpc == r.2.1.hpc) = true := by
  decide +kernel

/-! ## One-wire steps -/

/-- OW-1. -/
theorem test_owInit :
    seen (.owInit 2) fresh = (0x00, 0x00, [.cfg 2 .inputPullup]) ∧
    (did (.owInit 2) fresh).pin 2 = ⟨.rel, .inputPullup⟩ := by decide +kernel

/-- OW-2, presence at poll 3. -/
theorem test_owReset :
    seen (.owReset 2) (on idle [true, true, false]) =
      (0x00, 0x01, [.low 2, .wait 480, .rel 2, .wait 5, .sample 2 true, .wait 5, .sample 2 true, .wait 5,
        .sample 2 false, .wait 465]) := by decide +kernel

/-- S8-4. -/
theorem test_owReset_quiet :
    let t := did (.owReset 2) (on idle (List.replicate 48 true))
    (t.status, t.result, t.trace.length, t.trace.getLast?) = (0x00, 0x00, 100, some (.wait 240)) := by decide +kernel

/-- OW-3. -/
theorem test_owReadBit :
    seen (.owReadBit 2) (on idle [true]) =
      (0x00, 0x01, [.low 2, .wait 6, .rel 2, .wait 9, .sample 2 true, .wait 55]) := by decide +kernel

/-- OW-3. -/
theorem test_owWriteBit :
    seen (.owWriteBit 2 false) idle = (0x00, 0x00, [.low 2, .wait 60, .rel 2, .wait 10]) ∧
    seen (.owWriteBit 2 true) idle = (0x00, 0x00, [.low 2, .wait 6, .rel 2, .wait 64]) := by decide +kernel

/-- OW-3. -/
theorem test_owRead :
    let t := did (.owRead 2) (on idle [false, true, false, false, false, false, false, true])
    (t.status, t.result, t.trace.length) = (0x00, 0x82, 48) := by decide +kernel

/-- The low times of a trace's write slots say which bit each writes. -/
def slotBits (t : State) : List Bool :=
  t.trace.filterMap fun e => if e = .wait 6 then some true else if e = .wait 60 then some false else none

/-- OW-3. -/
theorem test_owWrite :
    slotBits (did (.owWrite 2 0xCC) idle) = [false, false, true, true, false, false, true, true] := by decide +kernel

/-- OW-4, and two bytes read LSB first. -/
theorem test_owReadBytes :
    seen (.owReadBytes 2 0) idle = (0x00, 0x00, []) ∧
    (did (.owReadBytes 2 2) (on idle ([true] ++ List.replicate 14 false ++ [true]))).rxbuf = [(0, 0x01), (1, 0x80)] := by
  decide +kernel

/-- R189's example, and OW-4. -/
theorem test_owWriteBytes :
    slotBits (did (.owWriteBytes 2 1) { idle with txbuf := [(0, 0x44)] }) =
      [false, false, true, false, false, false, true, false] ∧
    seen (.owWriteBytes 2 0) idle = (0x00, 0x00, []) := by decide +kernel

/-- CRC-1. -/
theorem test_owCrc8 :
    [(0x00, 0x28, 0xE1), (0x00, 0x01, 0x5E), (0x5A, 0x5A, 0x00), (0x00, 0x80, 0x8C), (0xE1, 0x00, 0xB7)].all
      (fun r => (did (.owCrc8 r.1 r.2.1) fresh).result == r.2.2) = true := by decide +kernel

/-- OW-MR. -/
theorem test_owMatchRom :
    let t := did (.owMatchRom 2) { idle with txbuf := [(0, 0x28), (1, 0), (2, 0), (3, 0), (4, 0), (5, 0), (6, 0), (7, 0x1E)] }
    (t.status, t.trace.length) = (0x00, 288) ∧
    (slotBits t).take 16 =
      [true, false, true, false, true, false, true, false, false, false, false, true, false, true, false, false] := by
  decide +kernel

/-- ROMs of the vectors, `rom[7]` first as a number is written. -/
def romX : Rom := 0x1E00000000000028
/-- `28 02 00 00 00 00 00 70` -/
def romY : Rom := 0x7000000000000228
/-- `28 01 00 00 00 00 00 29` -/
def romZ : Rom := 0x2900000000000128
/-- `10 55 00 00 00 00 00 3E` -/
def romF : Rom := 0x3E00000000005510
/-- `28 00 00 00 00 00 80 92` -/
def romB : Rom := 0x9280000000000028

/-- P3, command 4. -/
theorem test_owMatchDevice :
    let t := did (.owMatchDevice 1) { idle with owDevList := [⟨romF, 3⟩, ⟨romX, 2⟩] }
    (t.status, t.trace.length, t.trace.head?) = (0x00, 288, some (.low 2)) ∧
    (slotBits t).drop 8 = (List.range' 1 64).map (romBit romX) := by decide +kernel

/-- OW-RR: the device, and a ROM whose CRC fails. -/
theorem test_owReadRom :
    let bits (r : Rom) := (List.range' 1 64).map (romBit r)
    let t := did (.owReadRom 2) (on idle (bits romX))
    let u := did (.owReadRom 2) (on idle (bits 0x0006050403020128))
    (t.status, t.trace.length, Memory.read t.rxbuf 0, Memory.read t.rxbuf 7) = (0x00, 416, some 0x28, some 0x1E) ∧
    (u.status, Memory.read u.rxbuf 6, Memory.read u.rxbuf 7) = (0x06, some 0x06, some 0x00) := by decide +kernel

/-- OW-S2, both passes. -/
theorem test_owSearchPass :
    let t := did (.owSearchPass 2 0xF0 true) (on idle (passAnswers params [romX, romB] 2 romX))
    let u := did (.owSearchPass 2 0xF0 false) (on t (passAnswers params [romX, romB] 2 romB))
    (t.status, t.cursor, t.trace.length) = (0x00, ⟨romX, 56, false⟩, 1066) ∧
    (u.status, u.cursor) = (0x00, ⟨romB, 0, true⟩) := by decide +kernel

/-- OW-S5, and OW-S7's device that goes silent at step 20. -/
theorem test_owSearchPass_fails :
    let t := did (.owSearchPass 2 0xF0 true) (on idle (List.replicate 129 false))
    let u := did (.owSearchPass 2 0xF0 true)
      (on idle ([true, true, false] ++ aloneAnswers romX 19 ++ [true, true]))
    (t.status, t.cursor) = (0x07, ⟨0, 0, false⟩) ∧ (u.status, u.trace.length) = (0x08, 358) := by decide +kernel

/-- OW-S3. -/
theorem test_owSearch :
    let t := did (.owSearch 2 0xF0)
      (on idle (searchAnswers params [romX, romY, romZ] (fun _ => 0) 0 [romX, romY, romZ]))
    (t.status, t.result, t.owDevList, t.cursor) =
      (0x00, 0x03, [⟨romX, 2⟩, ⟨romY, 2⟩, ⟨romZ, 2⟩], ⟨romZ, 0, true⟩) := by decide +kernel

/-- R216's corner case: no room at all, so that the first pass that succeeds is `OutOfMemory`. -/
theorem test_owSearch_full :
    let t := did (.owSearch 2 0xF0)
      (on { idle with params := { params with maxOwDevices := 0 } } ([false] ++ aloneAnswers romX 64))
    (t.status, t.result, t.owDevList, t.cursor) = (0x0B, 0x00, [], ⟨romX, 0, true⟩) := by decide +kernel

/-- OW-S9: the device kept, and none kept. -/
theorem test_owSearchFamily :
    let t := did (.owSearchFamily 2 0xF0 0x28) (on idle (searchAnswers params [romF, romX] (fun _ => 0) 0 [romF, romX]))
    let u := did (.owSearchFamily 2 0xF0 0x3B) (on idle ([false] ++ aloneAnswers romX 64))
    (t.status, t.result, t.owDevList) = (0x00, 0x01, [⟨romX, 2⟩]) ∧ (u.status, u.result, u.owDevList) = (0x08, 0x00, []) := by
  decide +kernel

/-- OW-S10's last sentence, and rule R218. -/
theorem test_owFree :
    let s := { idle with owDevList := [⟨romX, 2⟩] }
    (did (.owSearch 2 0xF0) s).status = 0x0A ∧ (did (.owSearch 2 0x33) s).status = 0x02 ∧
    (did .owFree s).owDevList = [] ∧ (did (.owSearch 2 0x33) (did .owFree s)).status = 0x02 := by decide +kernel

/-! ## The host's steps -/

/-- P5's last command, presented as a word, and ENC-1's words with rule R245's codes; and the end of the run. -/
theorem test_step_faults :
    [(0x14000000#32, 0x04#8), (0x1D000000, 0x01), (0x12010000, 0x02)].all (fun c =>
      match step { idle with host := [.command c.1] } with
      | .next t => t.faulted && t.faultReason == c.2 && t.host == []
      | .fault _ => false
      | .refused _ => false) = true ∧
    (match exec .twStop { idle with faulted := true } with
      | .next _ => false
      | .fault r => r == .blockFaulted
      | .refused _ => false) = true := by decide +kernel

/-- The word of a table row is the next step's. -/
theorem test_withFetchWord :
    (match step (fresh.withFetchWord 32 0x20020000) with
      | .next t => t.pin 2 == ⟨.rel, .inputPullup⟩
      | .fault _ => false
      | .refused _ => false) = true ∧ decodeTableWord 32 0x20020000 = some (.owInit 2) := by decide +kernel

/-! ## A state that meets each statement's hypotheses -/

/-- What a check of every member shows. -/
theorem forall_of_all {α : Type} {P : α → Prop} [DecidablePred P] {l : List α}
    (h : l.all (fun x => decide (P x)) = true) : ∀ x ∈ l, P x := fun x hx => by
  simpa using List.all_eq_true.mp h x hx

/-- What the bus presents does not touch what a command checks. -/
theorem on_ready {i : Instr} {s : State} {ans : List Bool} (h : Ready i s) : Ready i (on s ans) := by
  cases i <;> exact h

theorem on_inv {s : State} {ans : List Bool} (h : s.Inv) : (on s ans).Inv := h

theorem with_inv {s : State} {h : List HostAction} {b : List Bool} (hi : s.Inv) : State.Inv { s with host := h, bus := b } :=
  hi

/-- The invariant, each part evaluated. -/
theorem inv_of {s : State} (h1 : s.params.Valid) (h2 : s.TwInv) (h3 : s.LowOnlyInTx) (h4 : s.CursorInv) (h5 : s.ListInv)
    (h6 : s.DataInv) (h7 : s.ResultInv) : s.Inv := ⟨h1, h2, h3, h4, h5, h6, h7⟩

theorem idle_inv : idle.Inv := by
  refine inv_of (by decide +kernel) ?_ ?_ ?_ ?_ ?_ ?_
  · unfold State.TwInv; decide +kernel
  · unfold State.LowOnlyInTx; decide +kernel
  · unfold State.CursorInv; decide +kernel
  · unfold State.ListInv; decide +kernel
  · unfold State.DataInv; decide +kernel
  · unfold State.ResultInv; decide +kernel

theorem opened_inv : opened.Inv := by
  refine inv_of (by decide +kernel) ?_ ?_ ?_ ?_ ?_ ?_
  · unfold State.TwInv; decide +kernel
  · unfold State.LowOnlyInTx; decide +kernel
  · unfold State.CursorInv; decide +kernel
  · unfold State.ListInv; decide +kernel
  · unfold State.DataInv; decide +kernel
  · unfold State.ResultInv; decide +kernel

/-- The hypotheses a statement about one command on a bus has: the command passes its checks, the invariant (of which
`TwInv`, `LowOnlyInTx` and the parameters' validity are parts) holds, and the bus presents the answers. -/
def Fits (i : Instr) (s : State) (ans : List Bool) : Prop :=
  Ready i (on s ans) ∧ (on s ans).Inv ∧ Presents (on s ans) ans

theorem fits_idle {i : Instr} (h : Ready i idle) (ans : List Bool) : Fits i idle ans :=
  ⟨on_ready h, on_inv idle_inv, on_presents _ _⟩

theorem fits_opened {i : Instr} (h : Ready i opened) (ans : List Bool) : Fits i opened ans :=
  ⟨on_ready h, on_inv opened_inv, on_presents _ _⟩

theorem idle_polls : idle.tw.maxStretch.toNat = 4 := by decide +kernel
theorem opened_polls : opened.tw.maxStretch.toNat = 4 := by decide +kernel

/-- The longest stretch that is not too long, at every tick. -/
def longest : Nat → Nat := fun _ => 3

theorem longest_lt : ∀ j, longest j < 4 := fun _ => (by decide : 3 < 4)

/-- The same for every byte of a transfer. -/
def every : Nat → Nat → Nat := fun _ => longest

/-- The last presence poll of the 48, in every pass. -/
def latest : Nat → Nat := fun _ => 47

theorem latest_lt : ∀ i, latest i < idle.params.owPresPolls := fun _ => (by decide +kernel : 47 < idle.params.owPresPolls)

theorem witness_EncodeOfDecodeIsTheWord : decode 0x2E02F028 = .ok (.owSearchFamily 2 0xF0 0x28) := by decide +kernel

/-- Both ends of both unassigned ranges' neighbours, and of both assigned ranges. -/
theorem witness_UnassignedAndReservedWordsFault :
    fresh.faulted = false ∧
    (∀ w ∈ [0x0F000000#32, 0x1D000000, 0x1F000000, 0x30000000],
      ¬ ((0x10 ≤ (opField w).toNat ∧ (opField w).toNat ≤ 0x1C) ∨
        (0x20 ≤ (opField w).toNat ∧ (opField w).toNat ≤ 0x2F))) ∧
    ∀ w ∈ [0x10000001#32, 0x1C000001, 0x20000001, 0x2F000001],
      ((0x10 ≤ (opField w).toNat ∧ (opField w).toNat ≤ 0x1C) ∨
        (0x20 ≤ (opField w).toNat ∧ (opField w).toNat ≤ 0x2F)) ∧
      ∀ r ∈ opcodeTable, r.selects w = false :=
  ⟨rfl, forall_of_all (by decide +kernel), forall_of_all (by decide +kernel)⟩

theorem witness_AssembledLinesDecode :
    (Asm.owSearchFamily 255 255 255).wf = true ∧ (Asm.twStartWrite 128 0).wf = false ∧ 127 < 128 := by decide

theorem witness_StepRunsTheDecodedCommand :
    let s := { fresh with host := [.command 0x20020000, .powerCycle] }
    let u := { fresh with host := [.command 0x1D000000] }
    (s.host = .command 0x20020000 :: [.powerCycle] ∧ decode 0x20020000 = .ok (.owInit 2)) ∧
    u.host = .command 0x1D000000 :: [] ∧ decode 0x1D000000 = .error .illegalOpcode ∧ u.faulted = false := by
  decide +kernel

/-- The last byte of an 8-byte buffer, and one more. -/
theorem witness_HostWritesTheTransmitBuffer :
    let s := { fresh with host := [.writeTx 7 [0x50]] }
    let u := { fresh with host := [.writeTx 7 [0x50, 0x51]] }
    s.host = .writeTx 7 [0x50] :: [] ∧ (7#8).toNat + [0x50#8].length ≤ s.params.txbufSize ∧
    u.host = .writeTx 7 [0x50, 0x51] :: [] ∧ u.params.txbufSize < (7#8).toNat + [0x50#8, 0x51].length := by
  decide +kernel

/-- Both lists and the last byte of `RXBUF` written. -/
def listed : State := { idle with twDevList := [0x20, 0x50], owDevList := [⟨romX, 2⟩], rxbuf := [(8, 0x51)] }

/-- The last byte of the ROM register, and a buffer that is absent. -/
theorem witness_ResetRegistersReadAsListed :
    7 < 8 ∧ State.reset.hostRead .rxbuf 0 = none ∧ State.reset.hostRead .owPrevRom 7 = some (.value 0) :=
  ⟨by decide, rfl, rfl⟩

/-- Both ends of what is there and the first that is not: of the ROM register, of a list, of a buffer; and a register
that is not there yet. -/
theorem witness_HostReadsReturnWhatIsThere :
    (∀ a ∈ [HostAction.read .status 0, .read .owPrevRom 0, .read .owPrevRom 7, .read .owPrevRom 8, .read .twSpeed 0,
        .read .txbuf 0], State.host { fresh with host := [a] } = a :: []) ∧
    State.host { listed with host := [.read .twDevList 1] } = .read .twDevList 1 :: [] ∧
    listed.twDevList[1]? = some 0x50 ∧ listed.twDevList.length ≤ 2 ∧
    listed.owDevList[0]? = some ⟨romX, 2⟩ ∧ listed.owDevList.length ≤ 1 ∧
    Memory.read listed.rxbuf 8 = some 0x51 ∧ Memory.read listed.rxbuf 9 = none := by
  decide +kernel

/-- A host read of a faulted block, and a power cycle not asked for. -/
theorem witness_OnlyResetClearsTheFault :
    let s := { idle with faulted := true, faultReason := 0x04, host := [.read .status 0] }
    s.faulted = true ∧ s.tw.initialized = true ∧ s.host.head? ≠ some .powerCycle ∧
    step s = .next { s with host := [], hostSeen := [.value 0] } :=
  ⟨rfl, by decide +kernel, by decide, rfl⟩

theorem witness_PowerCycleResetsTheBlock :
    let s := { opened with host := [.powerCycle, .read .status 0] }
    s.host = .powerCycle :: [.read .status 0] := by decide +kernel

theorem witness_UsageFaultExactlyWhenChecked :
    idle.faulted = false ∧ usageOf (.owReset 8) idle = some .badPin ∧ usageOf (.owReset 3) idle = some .owNotInit ∧
    usageOf (.owReset 2) idle = none := by decide +kernel

/-- For every command, a state in which it may be issued and passes its checks. -/
theorem witness_CheckedCommandsComplete :
    Ready (.twInit 4 5) fresh ∧
    (∀ i ∈ [Instr.twInit 7 6, .twSetSpeed 3, .twStart, .twStop, .twStartRw 0x41 true, .twStartWrite 0x50 0x10,
        .twStartRead 0x50 0x10, .twScan, .twFree, .owInit 3, .owReset 2, .owReadBit 2, .owWriteBit 2 true, .owRead 2,
        .owWrite 2 0xCC, .owReadBytes 2 9, .owWriteBytes 2 8, .owCrc8 0 0, .owMatchRom 2, .owReadRom 2,
        .owSearchPass 2 0xF0 true, .owSearch 2 0xF0, .owSearchFamily 2 0xF0 0x28, .owFree],
      Ready i idle) ∧
    (∀ i ∈ [Instr.twWriteByte 0xC3, .twReadByte true, .twWriteBytes 8, .twReadBytes 9], Ready i opened) ∧
    Ready (.owMatchDevice 0) { idle with owDevList := [⟨romX, 2⟩] } := by
  unfold Ready; decide +kernel

/-- A command, a write, a read and a power cycle. -/
theorem witness_EveryStepKeepsTheInvariant :
    ∀ a ∈ [HostAction.command 0x12000000, .writeTx 0 [0x50], .read .status 0, .powerCycle],
      State.Inv { idle with host := [a], bus := [true, true] } ∧
      (match step { idle with host := [a], bus := [true, true] } with
        | .next _ => true
        | .fault _ => false
        | .refused _ => false) = true := by
  intro a ha
  refine ⟨with_inv idle_inv, ?_⟩
  revert a; decide +kernel

/-- A START taken: what every statement about a command's next state needs. -/
theorem witness_next : exec .twStart (on idle [true, true]) = .next opened ∧ (on idle [true, true]).Inv ∧
    opened.faulted = false ∧ opened.status = 0x00 :=
  ⟨exec_did (by decide +kernel), on_inv idle_inv, by decide +kernel, by decide +kernel⟩

theorem witness_PinsFollowTheTrace : exec .twStart (on idle [true, true]) = .next opened := witness_next.1
theorem witness_NeverSamplesADrivenLine : exec .twStart (on opened [true]) = .next (did .twStart (on opened [true])) :=
  exec_did (by decide +kernel)
theorem witness_SamplesAreTheBusAnswers : exec .twStart (on idle [true, true]) = .next opened := witness_next.1
theorem witness_EveryCommandIsBounded :
    (on idle [true, true]).TwInv ∧ exec .twStart (on idle [true, true]) = .next opened :=
  ⟨witness_next.2.1.2.1, witness_next.1⟩

/-- The two-wire pins change: `TW_INIT` on a fresh engine. -/
theorem witness_FixedRegistersStay :
    exec (.twInit 4 5) fresh = .next (did (.twInit 4 5) fresh) ∧ (did (.twInit 4 5) fresh).tw.sclPin ≠ fresh.tw.sclPin :=
  ⟨exec_did (by decide +kernel), by decide +kernel⟩

/-- One command of each arm. -/
theorem witness_TransactionFlagFollowsTheStateMachine :
    ∀ c ∈ [(Instr.twStart, on idle [true, true]), (.twStop, on opened [true]),
        (.twWriteByte 0x80, on opened (List.replicate 10 true)), (.twStartRw 0x40 false, on idle (List.replicate 12 true)),
        (.twScan, narrow 2 (probeV true ++ probeV false ++ probeV true)), (.owInit 3, idle)],
      c.2.TwInv ∧ exec c.1 c.2 = .next (did c.1 c.2) ∧ (did c.1 c.2).faulted = false ∧ probed c.2.params ≠ [] := by
  intro c hc
  refine ⟨?_, exec_did ?_, ?_, ?_⟩
  · revert c; unfold State.TwInv; decide +kernel
  all_goals revert c; decide +kernel

/-- The NACK that keeps the transaction, the one that ends it, a clock held low, and a STOP outside a transaction. -/
theorem witness_TwoWireErrorsReleaseTheBus :
    (exec (.twStartRw 0x40 false) (on idle (List.replicate 12 true)) =
        .next (did (.twStartRw 0x40 false) (on idle (List.replicate 12 true))) ∧
      (did (.twStartRw 0x40 false) (on idle (List.replicate 12 true))).status = 0x05 ∧
      (did (.twStartRw 0x40 false) (on idle (List.replicate 12 true))).faulted = false ∧
      (on idle (List.replicate 12 true)).Inv) ∧
    ∀ c ∈ [(Instr.twStartRw 0x40 true, on idle (List.replicate 13 true)), (.twStop, idle),
        (.twStart, on idle [true, false, false, false, false])],
      exec c.1 c.2 = .next (did c.1 c.2) ∧ (did c.1 c.2).status ≠ 0x00 ∧ (did c.1 c.2).faulted = false := by
  refine ⟨⟨exec_did (by decide +kernel), by decide +kernel, by decide +kernel, on_inv idle_inv⟩, fun c hc => ?_⟩
  refine ⟨exec_did ?_, ?_, ?_⟩ <;> revert c <;> decide +kernel

/-- A pass that succeeds moves the cursor; one that fails, seeded, leaves the seed. -/
theorem witness_CursorChangesOnlyOnSuccessOrSeed :
    exec (.owSearchPass 2 0xF0 true) (on idle ([false] ++ aloneAnswers romX 64)) =
        .next (did (.owSearchPass 2 0xF0 true) (on idle ([false] ++ aloneAnswers romX 64))) ∧
    exec (.owSearchPass 2 0xF0 true) (on idle (List.replicate 129 false)) =
        .next (did (.owSearchPass 2 0xF0 true) (on idle (List.replicate 129 false))) :=
  ⟨exec_did (by decide +kernel), exec_did (by decide +kernel)⟩

/-- A command that writes no result, a usage fault, and an error. -/
theorem witness_ResultIsWrittenOnlyOnSuccess :
    (exec (.owInit 3) idle = .next (did (.owInit 3) idle) ∧ writesResult (.owInit 3) = false) ∧
    (exec (.owRead 3) idle = .next (did (.owRead 3) idle) ∧ (did (.owRead 3) idle).faulted = true) ∧
    exec (.twWriteByte 0xC3) (on opened (List.replicate 4 false)) =
      .next (did (.twWriteByte 0xC3) (on opened (List.replicate 4 false))) ∧
    (did (.twWriteByte 0xC3) (on opened (List.replicate 4 false))).status ≠ 0x00 :=
  ⟨⟨exec_did (by decide +kernel), rfl⟩, ⟨exec_did (by decide +kernel), by decide +kernel⟩,
    exec_did (by decide +kernel), by decide +kernel⟩

/-- A transfer into `RXBUF`, and the first index it does not reach. -/
theorem witness_CommandsKeepTheBuffers :
    exec (.owReadBytes 2 2) (on idle (List.replicate 16 true)) =
      .next (did (.owReadBytes 2 2) (on idle (List.replicate 16 true))) ∧ rxLen (.owReadBytes 2 2) ≤ 2 :=
  ⟨exec_did (by decide +kernel), by decide⟩

/-- A scan and a search that change their lists, and one of each that fails. -/
theorem witness_FailuresEmptyTheLists :
    ∀ c ∈ [(Instr.twScan, narrow 2 (probeV true ++ probeV false ++ probeV true), false),
        (.owSearch 2 0xF0, on idle ([false] ++ aloneAnswers romX 64), false),
        (.twScan, narrow 1 (probeV true ++ probeV false ++ probeV true), true),
        (.owSearch 2 0xF0, on idle (List.replicate 48 true), true)],
      exec c.1 c.2.1 = .next (did c.1 c.2.1) ∧ (did c.1 c.2.1).faulted = false ∧
      (c.2.2 = false → (did c.1 c.2.1).twDevList ≠ c.2.1.twDevList ∨ (did c.1 c.2.1).owDevList ≠ c.2.1.owDevList) ∧
      (c.2.2 = true → (did c.1 c.2.1).status = 0x0B ∨ (did c.1 c.2.1).status = 0x08) := by
  intro c hc
  refine ⟨exec_did ?_, ?_, ?_, ?_⟩ <;> revert c <;> decide +kernel

/-- Each case of the rule, the highest pin that exists and the lowest that does not among them. -/
theorem witness_TwInitFollowsItsRule :
    fresh.faulted = false ∧ fresh.params.Valid ∧ fresh.params.numPins ≤ (8#8).toNat ∧
    ¬ fresh.params.numPins ≤ (7#8).toNat ∧ idle.faulted = false ∧ idle.params.Valid ∧ idle.tw.initialized = true ∧
    ((did (.owInit 2) fresh).pin 2).mode = .inputPullup ∧ (did (.owInit 2) fresh).tw.initialized = false := by
  decide +kernel

theorem witness_TwSetSpeedWritesTheDelays : opened.faulted = false ∧ opened.params.Valid := by decide +kernel

theorem ready_idle {i : Instr} (h : usageOf i idle = none) : Ready i idle := ⟨by decide +kernel, h⟩
theorem ready_opened {i : Instr} (h : usageOf i opened = none) : Ready i opened := ⟨by decide +kernel, h⟩

/-- The clock at once and at the last poll allowed; data low; the clock low at every poll. -/
theorem witness_TwStartOnAnIdleBus :
    idle.tw.inTx = false ∧ 3 < idle.tw.maxStretch.toNat ∧
    ∀ ans ∈ [startAnswers false 0, startAnswers false 3, [false], true :: List.replicate 4 false],
      Fits .twStart idle ans :=
  ⟨by decide +kernel, by decide +kernel, fun ans _ => fits_idle (ready_idle (by decide +kernel)) ans⟩

theorem witness_TwStartInATransaction :
    opened.tw.inTx = true ∧ 3 < opened.tw.maxStretch.toNat ∧
    ∀ ans ∈ [startAnswers true 0, startAnswers true 3, List.replicate 4 false], Fits .twStart opened ans :=
  ⟨by decide +kernel, by decide +kernel, fun ans _ => fits_opened (ready_opened (by decide +kernel)) ans⟩

theorem witness_TwStopFollowsItsRule :
    fresh.faulted = false ∧ fresh.tw.inTx = false ∧ opened.tw.inTx = true ∧ 3 < opened.tw.maxStretch.toNat ∧
    ∀ ans ∈ [riseAnswers 0, riseAnswers 3, List.replicate 4 false], Fits .twStop opened ans :=
  ⟨by decide +kernel, by decide +kernel, by decide +kernel, by decide +kernel,
    fun ans _ => fits_opened (ready_opened (by decide +kernel)) ans⟩

/-- Acknowledged and not; the first and the last tick held. -/
theorem witness_TwWriteByteFollowsItsRule :
    (∀ j, longest j < opened.tw.maxStretch.toNat) ∧
    ∀ ans ∈ [writeByteAnswers longest false, writeByteAnswers longest true, writeHeldAnswers longest 0 4,
        writeHeldAnswers longest 8 4], Fits (.twWriteByte 0xC3) opened ans :=
  ⟨fun j => opened_polls ▸ longest_lt j, fun ans _ => fits_opened (ready_opened (by decide +kernel)) ans⟩

theorem witness_TwReadByteFollowsItsRule :
    (∀ j, longest j < opened.tw.maxStretch.toNat) ∧
    ∀ ans ∈ [readByteAnswers longest 0x5A, readHeldAnswers longest 0x5A 0 4, readHeldAnswers longest 0x5A 8 4],
      Fits (.twReadByte true) opened ans :=
  ⟨fun j => opened_polls ▸ longest_lt j, fun ans _ => fits_opened (ready_opened (by decide +kernel)) ans⟩

/-- The whole of `TXBUF`: all acknowledged, the first byte not, the last byte not, the last byte's last tick held. -/
theorem witness_TwWriteBytesFollowsItsRule :
    (∀ i j, every i j < opened.tw.maxStretch.toNat) ∧
    (∀ i, i < (8#8).toNat →
      Memory.read opened.txbuf i = [0x28#8, 0x02, 0x03, 0, 0, 0, 0, 0x1E][i]?) ∧
    ∀ ans ∈ [writeBytesAnswers every 0 8, writeByteAnswers longest true,
        writeBytesAnswers every 0 7 ++ writeByteAnswers longest true,
        writeBytesAnswers every 0 7 ++ writeHeldAnswers longest 8 4],
      Fits (.twWriteBytes 8) opened ans :=
  ⟨fun _ j => opened_polls ▸ longest_lt j, by decide +kernel,
    fun ans _ => fits_opened (ready_opened (by decide +kernel)) ans⟩

/-- The whole of `RXBUF`: every byte, and the first and the last byte held. -/
theorem witness_TwReadBytesFollowsItsRule :
    (∀ i j, every i j < opened.tw.maxStretch.toNat) ∧ [1#8, 2, 3, 4, 5, 6, 7, 8, 9].length = (9#8).toNat ∧
    ∀ ans ∈ [readBytesAnswers every 0 [1, 2, 3, 4, 5, 6, 7, 8, 9], readHeldAnswers longest 1 0 4,
        readBytesAnswers every 0 [1, 2, 3, 4, 5, 6, 7, 8] ++ readHeldAnswers longest 9 8 4],
      Fits (.twReadBytes 9) opened ans :=
  ⟨fun _ j => opened_polls ▸ longest_lt j, by decide,
    fun ans _ => fits_opened (ready_opened (by decide +kernel)) ans⟩

/-- Every clause, from an idle bus and from inside a transaction. -/
theorem witness_TwStartRwFollowsItsRule :
    (∀ j, longest j < idle.tw.maxStretch.toNat) ∧ idle.tw.inTx = false ∧ opened.tw.inTx = true ∧
    (∀ ans ∈ [addressAnswers false longest false, addressAnswers false longest true,
        addressAnswers false longest true ++ riseAnswers 3, addressAnswers false longest true ++ List.replicate 4 false,
        [false], [true] ++ List.replicate 4 false, startAnswers false 3 ++ writeHeldAnswers longest 8 4],
      Fits (.twStartRw 0x41 true) idle ans ∧ Fits (.twStartRw 0x41 false) idle ans) ∧
    ∀ ans ∈ [addressAnswers true longest false, List.replicate 4 false], Fits (.twStartRw 0x41 true) opened ans :=
  ⟨fun j => idle_polls ▸ longest_lt j, by decide +kernel, by decide +kernel,
    fun ans _ =>
      ⟨fits_idle (ready_idle (by decide +kernel)) ans, fits_idle (ready_idle (by decide +kernel)) ans⟩,
    fun ans _ => fits_opened (ready_opened (by decide +kernel)) ans⟩

/-- The register byte acknowledged, not, and held in its last tick; and an address that fails. -/
theorem witness_TwStartWriteFollowsItsRule :
    (∀ j, longest j < idle.tw.maxStretch.toNat) ∧
    (∀ ans ∈ [addressAnswers false longest false ++ writeByteAnswers longest false,
        addressAnswers false longest false ++ writeByteAnswers longest true,
        addressAnswers false longest false ++ writeHeldAnswers longest 8 4],
      Fits (.twStartWrite 0x7F 0x10) idle ans) ∧
    exec (.twStartRw (addrByte 0x7F 0) true) (on idle [false]) =
      .next (did (.twStartRw (addrByte 0x7F 0) true) (on idle [false])) ∧
    (did (.twStartRw (addrByte 0x7F 0) true) (on idle [false])).status ≠ 0x00 :=
  ⟨fun j => idle_polls ▸ longest_lt j, fun ans _ => fits_idle (ready_idle (by decide +kernel)) ans,
    exec_did (by decide +kernel), by decide +kernel⟩

/-- Each end of the read's address byte; and a write part that fails. -/
theorem witness_TwStartReadFollowsItsRule :
    (∀ j, longest j < idle.tw.maxStretch.toNat) ∧
    (∀ ans ∈ [addressAnswers true longest false, addressAnswers true longest true ++ riseAnswers 3,
        addressAnswers true longest true ++ List.replicate 4 false, List.replicate 4 false,
        startAnswers true 3 ++ writeHeldAnswers longest 8 4],
      Fits (.twStartRead 0x7F 0x10) idle
        (addressAnswers false longest false ++ writeByteAnswers longest false ++ ans)) ∧
    exec (.twStartWrite 0x7F 0x10) (on idle [false]) = .next (did (.twStartWrite 0x7F 0x10) (on idle [false])) ∧
    (did (.twStartWrite 0x7F 0x10) (on idle [false])).status ≠ 0x00 :=
  ⟨fun j => idle_polls ▸ longest_lt j, fun ans _ => fits_idle (ready_idle (by decide +kernel)) _,
    exec_did (by decide +kernel), by decide +kernel⟩

/-- How the probes of the three addresses go: one list entry too many, and not. -/
def allAcked : BitVec 7 → Probe := fun _ => .acked

/-- The first acknowledges, the second's STOP is held, the last is not acknowledged. -/
def mixed : BitVec 7 → Probe := fun a => if a = 0x20 then .acked else if a = 0x21 then .nackedHeld else .nacked

theorem narrow_inv (ans : List Bool) : (narrow 2 ans).Inv := by
  refine inv_of (show Params.Valid (narrow 2 []).params by decide +kernel) idle_inv.2.1 idle_inv.2.2.1
    idle_inv.2.2.2.1 ?_ idle_inv.2.2.2.2.2.1 idle_inv.2.2.2.2.2.2
  show State.ListInv (narrow 2 [])
  unfold State.ListInv; decide +kernel

/-- No address is left to probe. -/
def probesNone : State :=
  on { idle with params := { params with reservedAddrs := (List.range 128).map (.ofNat 7) } } []

/-- Every probe made; none to make; the third device one too many; the first and the third probe stopped: the data line
low, the clock held in the START, in the first and the last tick, and in the STOP. -/
theorem witness_TwScanListsTheAnsweringAddresses :
    let s := narrow 2 []
    let st : BitVec 7 → Nat → Nat := fun _ => longest
    let answers (pr : BitVec 7 → Probe) := scanAnswers 4 st pr s.tw.inTx
    let found (pr : BitVec 7 → Probe) (as : List (BitVec 7)) := as.filter fun a => pr a = .acked
    Ready .twScan s ∧ s.TwInv ∧ (∀ a j, st a j < s.tw.maxStretch.toNat) ∧ s.tw.inTx = false ∧
    probed s.params = [0x20, 0x21, 0x50] ∧ (found mixed [0x20, 0x21, 0x50]).length ≤ s.params.maxTwDevices ∧
    Presents (on s (answers mixed [0x20, 0x21, 0x50])) (answers mixed [0x20, 0x21, 0x50]) ∧
    (Ready .twScan probesNone ∧ probesNone.TwInv ∧ probed probesNone.params = []) ∧
    ([0x20, 0x21, 0x50] = [0x20#7, 0x21] ++ 0x50 :: [] ∧ allAcked 0x50 = .acked ∧
      (found allAcked [0x20, 0x21]).length = s.params.maxTwDevices ∧
      Presents (on s (answers allAcked ([0x20, 0x21] ++ [0x50]))) (answers allAcked ([0x20, 0x21] ++ [0x50]))) ∧
    ∀ pre ∈ [[], [0x20#7, 0x21]],
      (found mixed pre).length ≤ s.params.maxTwDevices ∧
      ∀ ans ∈ [[false], [true] ++ List.replicate 4 false,
          startAnswers false 3 ++ writeHeldAnswers (fun i => longest (i + 1)) 0 4,
          startAnswers false 3 ++ writeHeldAnswers (fun i => longest (i + 1)) 8 4,
          addressAnswers false longest false ++ List.replicate 4 false],
        Presents (on s (answers mixed pre ++ ans)) (answers mixed pre ++ ans) := by
  refine ⟨by unfold Ready; decide +kernel, (narrow_inv []).2.1, fun _ j => idle_polls ▸ longest_lt j,
    by decide +kernel, by decide +kernel, by decide +kernel, on_presents _ _,
    ⟨by unfold Ready; decide +kernel, idle_inv.2.1, by decide +kernel⟩,
    ⟨rfl, rfl, by decide +kernel, on_presents _ _⟩, fun pre hp => ⟨?_, fun ans _ => on_presents _ _⟩⟩
  revert pre; decide +kernel

theorem witness_DefaultProbesAreTheMiddleAddresses : params.reservedAddrs = defaultReservedAddrs := rfl

theorem witness_ReleasesEmptyTheirList :
    State.faulted { idle with twDevList := [0x20], owDevList := [⟨romX, 2⟩] } = false := by decide +kernel

/-- The highest pin that exists. -/
theorem witness_OwInitConfiguresThePin : Ready (.owInit 7) fresh := by unfold Ready; decide +kernel

/-- Presence at the first poll, at the last, and none. -/
theorem witness_OwResetFollowsItsRule :
    47 < idle.params.owPresPolls ∧
    ∀ o ∈ [some 0, some 47, none], Fits (.owReset 2) idle (owResetAnswers idle.params o) :=
  ⟨by decide +kernel, fun _ _ => fits_idle (ready_idle (by decide +kernel)) _⟩

theorem witness_OwBitsAreOneSlot :
    (∀ v ∈ [false, true], Fits (.owReadBit 2) idle [v]) ∧ ∀ b ∈ [false, true], Ready (.owWriteBit 2 b) idle :=
  ⟨fun _ _ => fits_idle (ready_idle (by decide +kernel)) _, by unfold Ready; decide +kernel⟩

theorem witness_OwBytesGoLsbFirst : Fits (.owRead 2) idle (lsbBits 0x82) ∧ Ready (.owWrite 2 0x82) idle :=
  ⟨fits_idle (ready_idle (by decide +kernel)) _, ready_idle (by decide +kernel)⟩

/-- No byte, and the whole of each buffer. -/
theorem witness_OwTransfersGoInIndexOrder :
    Fits (.owReadBytes 2 0) idle [] ∧
    Fits (.owReadBytes 2 9) idle ([1#8, 2, 3, 4, 5, 6, 7, 8, 9].flatMap lsbBits) ∧
    Ready (.owWriteBytes 2 8) idle ∧ idle.LowOnlyInTx ∧ idle.TwInv ∧
    ∀ i, i < (8#8).toNat → Memory.read idle.txbuf i = [0x28#8, 0x02, 0x03, 0, 0, 0, 0, 0x1E][i]? :=
  ⟨fits_idle (ready_idle (by decide +kernel)) _, fits_idle (ready_idle (by decide +kernel)) _,
    ready_idle (by decide +kernel), idle_inv.2.2.1, idle_inv.2.1, by decide +kernel⟩

theorem witness_OwCrc8IsTheTable : fresh.faulted = false := rfl

theorem witness_OwMatchSendsTheRom :
    Ready (.owMatchRom 2) idle ∧
    (∀ i, i < 8 → Memory.read idle.txbuf i = [0x28#8, 0x02, 0x03, 0, 0, 0, 0, 0x1E][i]?) ∧
    Ready (.owMatchDevice 1) { idle with owDevList := [⟨romF, 3⟩, ⟨romX, 2⟩] } ∧
    [OwRecord.mk romF 3, ⟨romX, 2⟩][(1#8).toNat]? = some ⟨romX, 2⟩ := by
  unfold Ready; decide +kernel

/-- A ROM whose CRC is right, and one whose CRC is not. -/
theorem witness_OwReadRomChecksTheCrc :
    (∀ xs ∈ [[0x28#8, 0, 0, 0, 0, 0, 0, 0x1E], [0x28, 1, 2, 3, 4, 5, 6, 0]],
      xs.length = 8 ∧ Fits (.owReadRom 2) idle (xs.flatMap lsbBits)) ∧
    crcOf [0x28, 0, 0, 0, 0, 0, 0, 0x1E] = 0x00 ∧ crcOf [0x28, 1, 2, 3, 4, 5, 6, 0] ≠ 0x00 := by
  refine ⟨fun xs hx => ⟨?_, fits_idle (ready_idle (by decide +kernel)) _⟩, by decide +kernel, by decide +kernel⟩
  revert xs; decide +kernel

theorem witness_SearchChecksItsCommandFirst :
    (0x33#8 ≠ 0xF0 ∧ 0x33#8 ≠ 0xEC) ∧
    ∀ i ∈ [Instr.owSearchPass 2 0x33 true, .owSearch 2 0x33, .owSearchFamily 2 0x33 0, .owSearch 2 0xEC,
        .owSearchFamily 2 0xF0 0],
      Ready i { idle with owDevList := [⟨romX, 2⟩] } ∧ [OwRecord.mk romX 2] ≠ [] := by
  unfold Ready; decide +kernel

/-- A ROM whose CRC fails. -/
def romBad : Rom := 0x0006050403020128

/-- The reads of a bus that always conflicts, but answers as `r` does where the cursor leaves it no choice. -/
def conflicts (c : Cursor) (r : Rom) : Nat → Bool × Bool :=
  fun n => if chosen c n (false, false) = romBit r n then (false, false) else (romBit r n, !romBit r n)

/-- A condition on the 64 positions, checked at each. -/
theorem forall_positions {P : Nat → Prop} [DecidablePred P] (h : (List.range' 1 64).all (fun n => decide (P n)) = true) :
    ∀ n, 1 ≤ n → n ≤ 64 → P n := fun n h1 h2 =>
  of_decide_eq_true (List.all_eq_true.mp h n (List.mem_range'_1.mpr ⟨h1, by omega⟩))

theorem test_searchDevices :
    SearchDevices [romX, romB, romY] ∧ SearchDevices [romX, romB, romY, romZ] ∧ SearchDevices [romX, romB] := by
  refine ⟨⟨by decide, forall_of_all ?_, ?_⟩, ⟨by decide, forall_of_all ?_, ?_⟩, ⟨by decide, forall_of_all ?_, ?_⟩⟩ <;>
    decide +kernel

/-- A valid ROM, the ROM of zeros, and one whose CRC fails, presence at the last poll; each alone on the bus and with a
conflict wherever its direction allows one; and the second pass of a search that meets the bad one. -/
theorem witness_PassValidatesTheRom :
    47 < idle.params.owPresPolls ∧ crcValid romX = true ∧ crcValid romBad = false ∧ romBad ≠ 0 ∧
    idle.cursor = ⟨0, 0, false⟩ ∧
    (∀ r ∈ [romX, 0, romBad],
      let c : Cursor := ⟨0, 0, false⟩
      (∀ n, 1 ≤ n → n ≤ 64 → conflicts c r n ≠ (true, true) ∧ romBit r n = chosen c n (conflicts c r n)) ∧
      ∀ ans ∈ [aloneAnswers r 64, stepsAnswers (conflicts c r) 64],
        Fits (.owSearchPass 2 0xF0 true) idle (owResetAnswers idle.params (some 47) ++ ans) ∧
        Fits (.owSearchPass 2 0xEC false) idle (owResetAnswers idle.params (some 47) ++ ans)) ∧
    (idle.owDevList = [] ∧ SearchDevices ([romX] ++ [romB]) ∧ [romX].length ≤ idle.params.maxOwDevices ∧
      (∀ i, latest i < idle.params.owPresPolls) ∧
      let c : Cursor := ⟨romX, 56, false⟩
      let vs := conflicts c romBad
      cursorAfter ([romX] ++ [romB]) [romX] = c ∧
      (∀ n, 1 ≤ n → n ≤ 64 → vs n ≠ (true, true) ∧ romBit romBad n = chosen c n (vs n)) ∧
      ∀ i ∈ [Instr.owSearch 2 0xF0, .owSearchFamily 2 0xF0 0x28],
        Fits i idle (searchAnswers idle.params [romX, romB] latest 0 [romX] ++ owResetAnswers idle.params (some 47) ++
          stepsAnswers vs 64)) := by
  refine ⟨by decide +kernel, by decide +kernel, by decide +kernel, by decide, by decide +kernel,
    fun r hr => ⟨forall_positions ?_,
    fun _ _ => ⟨fits_idle (ready_idle (by decide +kernel)) _, fits_idle (ready_idle (by decide +kernel)) _⟩⟩,
    by decide +kernel, test_searchDevices.2.2, by decide +kernel, latest_lt, by decide +kernel, forall_positions ?_,
    fun i hi => fits_idle (ready_idle ?_) _⟩
  · simp only [List.mem_cons, List.not_mem_nil, or_false] at hr
    rcases hr with rfl | rfl | rfl <;> decide +kernel
  · decide +kernel
  · revert i; decide +kernel

/-- No presence; silence at the first step, and at the last after a conflict at every step before it; the same in the
second pass of a search. -/
theorem witness_PassFailsWhereNothingAnswers :
    let vs : Nat → Bool × Bool := fun _ => (false, false)
    47 < idle.params.owPresPolls ∧ Fits (.owSearchPass 2 0xF0 false) idle (owResetAnswers idle.params none) ∧
    (∀ m ∈ [0, 63], m < 64 ∧ (∀ n, 1 ≤ n → n ≤ m → vs n ≠ (true, true)) ∧
      Fits (.owSearchPass 2 0xF0 true) idle (silentAnswers idle.params 47 vs m)) ∧
    (idle.owDevList = [] ∧ SearchDevices ([romX] ++ [romB]) ∧ [romX].length ≤ idle.params.maxOwDevices ∧
      (∀ i, latest i < idle.params.owPresPolls) ∧
      ∀ i ∈ [Instr.owSearch 2 0xF0, .owSearchFamily 2 0xF0 0x28],
        ∀ ans ∈ [owResetAnswers idle.params none, silentAnswers idle.params 47 vs 0,
            silentAnswers idle.params 47 vs 63],
          Fits i idle (searchAnswers idle.params [romX, romB] latest 0 [romX] ++ ans)) := by
  refine ⟨by decide +kernel, fits_idle (ready_idle (by decide +kernel)) _, fun m hm =>
    ⟨?_, fun _ _ _ => (by decide : (false, false) ≠ (true, true)), fits_idle (ready_idle (by decide +kernel)) _⟩,
    by decide +kernel, test_searchDevices.2.2, by decide +kernel, latest_lt, fun i hi _ _ =>
    fits_idle (ready_idle ?_) _⟩
  · revert m; decide
  · revert i; decide +kernel

/-- A seeded pass, a pass from a device's cursor, and one from a cursor with no discrepancy. -/
theorem witness_PassFindsTheNextDevice :
    let devs := [romX, romB, romY]
    SearchDevices devs ∧ 47 < idle.params.owPresPolls ∧
    Fits (.owSearchPass 2 0xF0 true) idle (passAnswers idle.params devs 47 romX) ∧
    (let s := on { idle with cursor := cursorAt devs romB } (passAnswers idle.params devs 47 romY)
     Ready (.owSearchPass 2 0xF0 false) s ∧ s.cursor = cursorAt devs romB ∧ s.cursor.lastDisc ≠ 0 ∧
     Presents s (passAnswers idle.params devs 47 romY)) ∧
    idle.cursor.lastDisc = 0 ∧ Fits (.owSearchPass 2 0xF0 false) idle (passAnswers idle.params devs 47 romX) := by
  refine ⟨test_searchDevices.1, by decide +kernel, fits_idle (ready_idle (by decide +kernel)) _,
    ⟨on_ready (by unfold Ready; decide +kernel), rfl, ?_, on_presents _ _⟩, by decide +kernel,
    fits_idle (ready_idle (by decide +kernel)) _⟩
  show (cursorAt [romX, romB, romY] romB).lastDisc ≠ 0
  decide +kernel

/-- `01 00 00 00 00 00 00 3D` -/
def romOne : Rom := 0x3D00000000000001

/-- One device; and two that first differ at position 1, and at 56, the last at which two CRC-valid ROMs can. -/
theorem witness_TwoDevicesTakeTwoPasses :
    47 < idle.params.owPresPolls ∧ idle.owDevList = [] ∧ 1 ≤ idle.params.maxOwDevices ∧
    romX ≠ 0 ∧ crcValid romX = true ∧
    (∀ i ∈ [Instr.owSearchPass 2 0xF0 true, .owSearchPass 2 0xF0 false, .owSearch 2 0xF0],
      Fits i idle (passAnswers idle.params [romX] 47 romX)) ∧
    ∀ v ∈ [(romB, 56), (romOne, 1)],
      crcValid v.1 = true ∧ romBit romX v.2 = false ∧ romBit v.1 v.2 = true ∧
      (∀ n, n < v.2 → 1 ≤ n → romBit romX n = romBit v.1 n) ∧
      Fits (.owSearchPass 2 0xF0 true) idle (passAnswers idle.params [romX, v.1] 47 romX) ∧
      let s :=
        on { idle with cursor := ⟨romX, BitVec.ofNat 8 v.2, false⟩ } (passAnswers idle.params [romX, v.1] 47 v.1)
      Ready (.owSearchPass 2 0xF0 false) s ∧ s.cursor = ⟨romX, BitVec.ofNat 8 v.2, false⟩ ∧
      Presents s (passAnswers idle.params [romX, v.1] 47 v.1) := by
  refine ⟨by decide +kernel, by decide +kernel, by decide +kernel, by decide, by decide +kernel,
    fun i hi => fits_idle (ready_idle ?_) _, fun v hv => ⟨?_, ?_, ?_, ?_, fits_idle (ready_idle (by decide +kernel)) _,
      on_ready (show Ready (.owSearchPass 2 0xF0 false) idle from ready_idle (by decide +kernel)), rfl,
      on_presents _ _⟩⟩
  · revert i; decide +kernel
  all_goals revert v; decide +kernel

/-- As many devices as the list holds, presence at the last poll of each pass. -/
theorem witness_SearchFindsEveryDeviceInOrder :
    let devs := [romX, romB, romY]
    SearchDevices devs ∧ devs.length ≤ idle.params.maxOwDevices ∧ idle.owDevList = [] ∧
    (∀ i, latest i < idle.params.owPresPolls) ∧
    Fits (.owSearch 2 0xF0) idle (searchAnswers idle.params devs latest 0 devs) :=
  ⟨test_searchDevices.1, by decide +kernel, by decide +kernel, latest_lt,
    fits_idle (ready_idle (by decide +kernel)) _⟩

/-- One device more than the list holds. -/
theorem witness_SearchStopsWhenTheListIsFull :
    let devs := [romX, romB, romY] ++ romZ :: []
    SearchDevices devs ∧ [romX, romB, romY].length = idle.params.maxOwDevices ∧ idle.owDevList = [] ∧
    (∀ i, latest i < idle.params.owPresPolls) ∧
    ∀ i ∈ [Instr.owSearch 2 0xEC, .owSearchFamily 2 0xEC 0x28],
      Fits i idle (searchAnswers idle.params devs latest 0 devs) := by
  refine ⟨test_searchDevices.2.1, by decide +kernel, by decide +kernel, latest_lt, fun i hi =>
    fits_idle (ready_idle ?_) _⟩
  revert i; decide +kernel

/-- A family some devices have, and one that none has. -/
theorem witness_FamilySearchKeepsItsFamily :
    let devs := [romX, romB, romY]
    SearchDevices devs ∧ devs.length ≤ idle.params.maxOwDevices ∧ idle.owDevList = [] ∧
    (∀ i, latest i < idle.params.owPresPolls) ∧
    Fits (.owSearchFamily 2 0xF0 0x28) idle (searchAnswers idle.params devs latest 0 devs) ∧
    Fits (.owSearchFamily 2 0xF0 0x3B) idle (searchAnswers idle.params devs latest 0 devs) ∧
    devs.filter (fun r => romByte r 0 == 0x28) = devs ∧ devs.filter (fun r => romByte r 0 == 0x3B) = [] :=
  ⟨test_searchDevices.1, by decide +kernel, by decide +kernel, latest_lt,
    fits_idle (ready_idle (by decide +kernel)) _, fits_idle (ready_idle (by decide +kernel)) _, by decide +kernel,
    by decide +kernel⟩

/-- A register address written, all acknowledged; a read address acknowledged. -/
def writeOk : List Bool := List.replicate 11 true ++ [false] ++ List.replicate 9 true ++ [false]
/-- The read address after it. -/
def readOk : List Bool := List.replicate 10 true ++ [false]

/-- Each command the statement speaks of, completing with `OK`; the scan with a STOP held after a NACK. -/
theorem witness_WaitTotalsAreTheTables :
    (∀ c ∈ [(Instr.twStart, [true, true]), (.twStartRw 0x40 false, List.replicate 11 true ++ [false]),
        (.twStartWrite 0x20 0x03, writeOk), (.twStartRead 0x20 0x03, writeOk ++ readOk), (.owReset 2, [false]),
        (.owReset 2, List.replicate 48 true), (.owReadBit 2, [true]), (.owWriteBit 2 true, []),
        (.owWriteBit 2 false, []), (.owRead 2, List.replicate 8 true), (.owWrite 2 0xCC, []),
        (.owReadBytes 2 2, List.replicate 16 true), (.owWriteBytes 2 8, []), (.owMatchRom 2, []),
        (.owReadRom 2, (List.range' 1 64).map (romBit romX)),
        (.owSearchPass 2 0xF0 true, [false] ++ aloneAnswers romX 64),
        (.owSearch 2 0xF0, [false] ++ aloneAnswers romX 64), (.twInit 4 5, []), (.twSetSpeed 3, []), (.twFree, []),
        (.owInit 2, []), (.owCrc8 0 0, []), (.owFree, [])],
      (on idle c.2).Inv ∧ exec c.1 (on idle c.2) = .next (did c.1 (on idle c.2)) ∧
      (did c.1 (on idle c.2)).faulted = false ∧ (did c.1 (on idle c.2)).status = 0x00) ∧
    (∀ c ∈ [(Instr.twStop, [true]), (.twWriteByte 0x80, List.replicate 10 true),
        (.twReadByte true, List.replicate 17 true), (.twWriteBytes 1, List.replicate 9 true ++ [false]),
        (.twReadBytes 1, List.replicate 17 true)],
      (on opened c.2).Inv ∧ exec c.1 (on opened c.2) = .next (did c.1 (on opened c.2)) ∧
      (did c.1 (on opened c.2)).faulted = false ∧ (did c.1 (on opened c.2)).status = 0x00) ∧
    (let answers := scanAnswers 4 (fun _ => longest) mixed false [0x20, 0x21, 0x50]
     let s := narrow 2 answers
     s.Inv ∧ exec .twScan s = .next (did .twScan s) ∧ (did .twScan s).faulted = false ∧
     (did .twScan s).status = 0x00 ∧ Presents s answers) ∧
    let s := { idle with owDevList := [⟨romX, 2⟩] }
    exec (.owMatchDevice 0) s = .next (did (.owMatchDevice 0) s) ∧ (did (.owMatchDevice 0) s).faulted = false ∧
    (did (.owMatchDevice 0) s).status = 0x00 ∧ s.owDevList[0]? = some ⟨romX, 2⟩ := by
  refine ⟨fun c hc => ⟨on_inv idle_inv, exec_did ?_, ?_, ?_⟩, fun c hc => ⟨on_inv opened_inv, exec_did ?_, ?_, ?_⟩,
    ⟨narrow_inv _, exec_did (by decide +kernel), by decide +kernel, by decide +kernel, on_presents _ _⟩,
    exec_did (by decide +kernel), by decide +kernel, by decide +kernel, by decide +kernel⟩
  all_goals revert c; decide +kernel

end Sys2Proof.Tests
end

section
/-! The writes a command is made of. `StateWrite` lists the elementary writes of the pseudocode, each through the named
update of the model that makes it, and `exec_written` says that a command's body makes no other. What every write keeps,
every command keeps: the fixed registers (O20) are one such fact. -/

namespace Sys2Proof.Machine

variable {α β : Type} {s t u : State}

/-! ## Elementary writes -/

/-- The state the configuration of `TW_INIT` leaves (rule R131). -/
def State.twConfigured (s : State) (c d : PinId) : State :=
  let configured := (s.play [.cfg c .input, .cfg d .input]).setTwPins c d
  ((configured.speedSet s.params.defaultSpeed).setInTx false).setInitialized

theorem twConfigure_run (c d : PinId) (s : State) : twConfigure c d s = .ok () (s.twConfigured c d) := rfl

/-- One elementary write of a command's body. The two-wire pins are written only by the configuration of an engine that
is not yet initialised, which is one write here: between its parts `TW_SCL_PIN` and `TW_SDA_PIN` run ahead of
`TW_INITIALIZED`. -/
inductive StateWrite : State → State → Prop
  | event (s : State) (e : Event) : StateWrite s (s.play [e])
  | result (s : State) (v : Byte) : StateWrite s (s.setResult v)
  | rxbuf (s : State) (i : Nat) (b : Byte) : StateWrite s (s.writeRx i b)
  | twDevList (s : State) (l : List Byte) : StateWrite s (s.setTwDevList l)
  | owDevList (s : State) (l : List OwRecord) : StateWrite s (s.setOwDevList l)
  | inTx (s : State) (b : Bool) : StateWrite s (s.setInTx b)
  | speed (s : State) (lvl : BitVec 2) : StateWrite s (s.speedSet lvl)
  | cursor (s : State) (c : Cursor) : StateWrite s (s.setCursor c)
  | configure (s : State) (c d : PinId) (hi : s.tw.initialized = false) : StateWrite s (s.twConfigured c d)

/-- Any number of elementary writes, from `s` to `t`. -/
abbrev Written : State → State → Prop := Relation.ReflTransGen StateWrite

/-- Whatever the bus answers, `x` makes only elementary writes, also when it raises. -/
def Writes (x : Op α) : Prop := ∀ s₀, Triple (Written s₀) x (fun _ => Written s₀) (fun _ => Written s₀)

/-! ## Sequencing -/

theorem Writes.bind {x : Op α} {f : α → Op β} (hx : Writes x) (hf : ∀ a, Writes (f a)) : Writes (x >>= f) :=
  fun s₀ => Triple.bind (hx s₀) fun a => hf a s₀

theorem Writes.pure (a : α) : Writes (Pure.pure a : Op α) := fun _ => Triple.pure fun _ h => h
theorem Writes.look (f : State → α) : Writes (look f) := fun _ => Triple.look fun _ h => h
theorem Writes.raiseErr (e : Err) : Writes (raiseErr e : Op α) := fun _ => Triple.raiseErr fun _ h => h
theorem Writes.reraise (r : Raise) : Writes (reraise r : Op α) := fun _ => Triple.reraise fun _ h => h
theorem Writes.errIf (c : Bool) (e : Err) : Writes (errIf c e) :=
  fun _ => Triple.errIf (fun _ h _ => h) fun _ h _ => h
theorem Writes.usageIf (c : State → Bool) (r : Usage) : Writes (usageIf c r) :=
  fun _ => Triple.usageIf (fun _ h _ => h) fun _ h _ => h
theorem Writes.readTx (i : Nat) : Writes (readTx i) := fun _ => Triple.readTx (fun _ _ h _ => h) fun _ h _ => h
theorem Writes.attempt {x : Op α} (hx : Writes x) : Writes (attempt x) :=
  fun s₀ => (hx s₀).attempt (fun _ _ h => h) fun _ _ h => h
theorem Writes.ite {c : Bool} {x y : Op α} (hx : Writes x) (hy : Writes y) : Writes (if c then x else y) :=
  fun s₀ => Triple.ite (fun _ => hx s₀) fun _ => hy s₀
theorem Writes.update {f : State → State} (hf : ∀ s, StateWrite s (f s)) : Writes (update f) :=
  fun _ => Triple.update fun s h => h.tail (hf s)

/-! ## The primitives -/

theorem Writes.cfg (p : PinId) (m : CfgMode) : Writes (cfg p m) := .update fun s => .event s (.cfg p m)
theorem Writes.low (p : PinId) : Writes (low p) := .update fun s => .event s (.low p)
theorem Writes.rel (p : PinId) : Writes (rel p) := .update fun s => .event s (.rel p)
theorem Writes.wait (n : Nat) : Writes (wait n) := .update fun s => .event s (.wait n)
theorem Writes.sample (p : PinId) : Writes (sample p) := fun _ => ⟨fun s h => by
  rw [sample_run]; exact h.tail (.event s _)⟩
theorem Writes.setResult (v : Byte) : Writes (setResult v) := .update fun s => .result s v
theorem Writes.writeRx (i : Nat) (b : Byte) : Writes (writeRx i b) := .update fun s => .rxbuf s i b
theorem Writes.setInTx (b : Bool) : Writes (setInTx b) := .update fun s => .inTx s b
theorem Writes.setTwDevList (f : State → List Byte) : Writes (Machine.update fun s => s.setTwDevList (f s)) :=
  .update fun s => .twDevList s (f s)
theorem Writes.setOwDevList (f : State → List OwRecord) : Writes (Machine.update fun s => s.setOwDevList (f s)) :=
  .update fun s => .owDevList s (f s)
theorem Writes.setCursor (f : State → Cursor) : Writes (Machine.update fun s => s.setCursor (f s)) :=
  .update fun s => .cursor s (f s)

/-! ## The two-wire bus -/

theorem Writes.lowScl : Writes lowScl := .bind (.look _) fun _ => .low _
theorem Writes.relScl : Writes relScl := .bind (.look _) fun _ => .rel _
theorem Writes.sampleScl : Writes sampleScl := .bind (.look _) fun _ => .sample _
theorem Writes.lowSda : Writes lowSda := .bind (.look _) fun _ => .low _
theorem Writes.relSda : Writes relSda := .bind (.look _) fun _ => .rel _
theorem Writes.sampleSda : Writes sampleSda := .bind (.look _) fun _ => .sample _
theorem Writes.waitShort : Writes waitShort := .bind (.look _) fun _ => .wait _
theorem Writes.waitLong : Writes waitLong := .bind (.look _) fun _ => .wait _

theorem Writes.failFast : Writes failFast := .bind .relScl fun _ => .bind .relSda fun _ => .setInTx _

theorem Writes.pollScl (k : Nat) : Writes (pollScl k) := by
  induction k with
  | zero => exact .pure _
  | succ k ih => exact .bind .sampleScl fun _ => .ite (.pure _) ih

theorem Writes.stretchWait : Writes stretchWait :=
  .bind (.look _) fun _ => .bind (.pollScl _) fun _ => .ite (.pure _) (.bind .failFast fun _ => .raiseErr _)

theorem Writes.tick (smp : Bool) : Writes (tick smp) :=
  .bind .lowScl fun _ => .bind .waitShort fun _ => .bind .relScl fun _ => .bind .stretchWait fun _ =>
    .bind .waitLong fun _ => .bind (.ite .sampleSda (.pure _)) fun _ => .bind .lowScl fun _ =>
    .bind .waitShort fun _ => .pure _

theorem Writes.putBit (b : Bool) : Writes (putBit b) :=
  .bind (.ite .relSda .lowSda) fun _ => .bind (.tick _) fun _ => .pure _

theorem Writes.getBit : Writes getBit := .bind .relSda fun _ => .tick _

theorem Writes.startCondition : Writes startCondition :=
  .bind .waitShort fun _ => .bind .lowSda fun _ => .bind .waitShort fun _ => .bind .lowScl fun _ =>
    .bind .waitShort fun _ => .relSda

theorem Writes.startIdle : Writes startIdle :=
  .bind .relSda fun _ => .bind .relScl fun _ => .bind .waitShort fun _ => .bind .sampleSda fun _ =>
    .ite (.bind .stretchWait fun _ => .bind .startCondition fun _ => .setInTx _) (.bind .failFast fun _ => .raiseErr _)

theorem Writes.startRepeated : Writes startRepeated :=
  .bind .relSda fun _ => .bind .waitShort fun _ => .bind .relScl fun _ => .bind .stretchWait fun _ => .startCondition

theorem Writes.start : Writes start := .bind (.look _) fun _ => .ite .startRepeated .startIdle

theorem Writes.stop : Writes stop :=
  .bind (.look _) fun _ => .bind (.errIf _ _) fun _ => .bind .lowSda fun _ => .bind .waitShort fun _ =>
    .bind .relScl fun _ => .bind .stretchWait fun _ => .bind .waitShort fun _ => .bind .relSda fun _ =>
    .bind .waitShort fun _ => .setInTx _

theorem Writes.putBits (x : Byte) (k : Nat) : Writes (putBits x k) := by
  induction k with
  | zero => exact .pure _
  | succ k ih => exact .bind (.putBit _) fun _ => ih

theorem Writes.writeByte (x : Byte) : Writes (writeByte x) := .bind (.putBits x 8) fun _ => .getBit

theorem Writes.getBits (k : Nat) (x : Byte) : Writes (getBits k x) := by
  induction k generalizing x with
  | zero => exact .pure _
  | succ k ih => exact .bind .getBit fun _ => ih _

theorem Writes.readByte (k : Bool) : Writes (readByte k) :=
  .bind (.getBits 8 _) fun _ => .bind (.putBit k) fun _ => .bind .relSda fun _ => .pure _

theorem Writes.nackAddress (son : Bool) : Writes (nackAddress son) := by
  refine .ite (.bind (.attempt .stop) fun r => ?_) (.raiseErr _)
  split
  · exact .raiseErr _
  · exact .raiseErr _
  · exact .reraise _

theorem Writes.startRw (ab : Byte) (son : Bool) : Writes (startRw ab son) :=
  .bind .start fun _ => .bind (.writeByte ab) fun _ => .ite (.nackAddress son) (.pure _)

theorem Writes.nackData : Writes nackData := .bind .failFast fun _ => .raiseErr _

theorem Writes.startWrite (a : BitVec 7) (r : Byte) : Writes (startWrite a r) :=
  .bind (.startRw _ _) fun _ => .bind (.writeByte r) fun _ => .ite .nackData (.pure _)

theorem Writes.writeTxBytes (k i : Nat) : Writes (writeTxBytes k i) := by
  induction k generalizing i with
  | zero => exact .pure _
  | succ k ih => exact .bind (.readTx i) fun _ => .bind (.writeByte _) fun _ => .ite .nackData (ih _)

theorem Writes.readRxBytes (k i : Nat) : Writes (readRxBytes k i) := by
  induction k generalizing i with
  | zero => exact .pure _
  | succ k ih => exact .bind (.readByte _) fun _ => .bind (.writeRx _ _) fun _ => ih _

theorem Writes.freeTwAndRaise (r : Raise) : Writes (freeTwAndRaise r) := .bind (.setTwDevList _) fun _ => .reraise r

theorem Writes.scanFound (a : BitVec 7) : Writes (scanFound a) := by
  refine .bind (.attempt .stop) fun r => ?_
  split
  · exact .freeTwAndRaise _
  · exact .bind (.look _) fun _ => .ite (.freeTwAndRaise _) (.setTwDevList _)

theorem Writes.scanProbe (a : BitVec 7) : Writes (scanProbe a) := by
  refine .bind (.look _) fun _ => .ite (.pure _) (.bind (.attempt (.startRw _ _)) fun r => ?_)
  split
  · exact .pure _
  · exact .freeTwAndRaise _
  · exact .scanFound a

theorem Writes.scanProbes (as : List (BitVec 7)) : Writes (scanProbes as) := by
  induction as with
  | nil => exact .pure _
  | cons a as ih => exact .bind (.scanProbe a) fun _ => ih

theorem Writes.twInTransaction : Writes twInTransaction := .bind (.usageIf _ _) fun _ => .usageIf _ _

/-! ## The one-wire bus -/

theorem Writes.owWriteBit (p : PinId) (b : Bool) : Writes (owWriteBit p b) :=
  .bind (.look _) fun _ => .bind (.low p) fun _ => .bind (.wait _) fun _ => .bind (.rel p) fun _ => .wait _

theorem Writes.owReadBit (p : PinId) : Writes (owReadBit p) :=
  .bind (.look _) fun _ => .bind (.low p) fun _ => .bind (.wait _) fun _ => .bind (.rel p) fun _ =>
    .bind (.wait _) fun _ => .bind (.sample p) fun _ => .bind (.wait _) fun _ => .pure _

theorem Writes.owWriteBits (p : PinId) (x : Byte) (n i : Nat) : Writes (owWriteBits p x n i) := by
  induction n generalizing i with
  | zero => exact .pure _
  | succ n ih => exact .bind (.owWriteBit _ _) fun _ => ih _

theorem Writes.owWriteByte (p : PinId) (x : Byte) : Writes (owWriteByte p x) := .owWriteBits p x 8 0

theorem Writes.owReadBits (p : PinId) (n i : Nat) (x : Byte) : Writes (owReadBits p n i x) := by
  induction n generalizing i x with
  | zero => exact .pure _
  | succ n ih => exact .bind (.owReadBit _) fun _ => ih _ _

theorem Writes.owReadByte (p : PinId) : Writes (owReadByte p) := .owReadBits p 8 0 _

theorem Writes.presencePolls (p : PinId) (n k : Nat) : Writes (presencePolls p n k) := by
  induction n generalizing k with
  | zero => exact .pure _
  | succ n ih =>
    exact .bind (.look _) fun _ => .bind (.wait _) fun _ => .bind (.sample p) fun _ => .ite (ih _) (.pure _)

theorem Writes.owReset (p : PinId) : Writes (owReset p) :=
  .bind (.look _) fun _ => .bind (.low p) fun _ => .bind (.wait _) fun _ => .bind (.rel p) fun _ =>
    .bind (.presencePolls p _ 0) fun _ => .bind (.wait _) fun _ => .pure _

theorem Writes.owWriteList (p : PinId) (xs : List Byte) : Writes (owWriteList p xs) := by
  induction xs with
  | nil => exact .pure _
  | cons x xs ih => exact .bind (.owWriteByte p x) fun _ => ih

theorem Writes.matchRom (p : PinId) (rom : List Byte) : Writes (matchRom p rom) :=
  .bind (.owWriteByte p _) fun _ => .owWriteList p rom

theorem Writes.owWriteTx (p : PinId) (n i : Nat) : Writes (owWriteTx p n i) := by
  induction n generalizing i with
  | zero => exact .pure _
  | succ n ih => exact .bind (.readTx i) fun _ => .bind (.owWriteByte p _) fun _ => ih _

theorem Writes.owReadRx (p : PinId) (n i : Nat) : Writes (owReadRx p n i) := by
  induction n generalizing i with
  | zero => exact .pure _
  | succ n ih => exact .bind (.owReadByte p) fun _ => .bind (.writeRx _ _) fun _ => .bind (ih _) fun _ => .pure _

theorem Writes.owPinFree (p : PinId) : Writes (owPinFree p) := .bind (.usageIf _ _) fun _ => .usageIf _ _

theorem Writes.owReady (p : PinId) : Writes (owReady p) := .bind (.owPinFree p) fun _ => .usageIf _ _

/-! ## The ROM search -/

theorem Writes.searchSteps (p : PinId) (c : Cursor) (k n : Nat) (rom : Rom) (z : Nat) :
    Writes (searchSteps p c k n rom z) := by
  induction k generalizing n rom z with
  | zero => exact .pure _
  | succ k ih =>
    refine .bind (.owReadBit p) fun _ => .bind (.owReadBit p) fun _ => ?_
    split
    · exact .raiseErr _
    · exact .bind (.owWriteBit p _) fun _ => ih _ _ _

theorem Writes.seed : Writes seed := .setCursor fun _ => Cursor.seed

theorem Writes.searchPass (p : PinId) (cmd : Byte) : Writes (searchPass p cmd) :=
  .bind (.look _) fun _ => .bind (.owReset p) fun _ => .bind (.errIf _ _) fun _ => .bind (.owWriteByte p cmd) fun _ =>
    .bind (.searchSteps p _ _ _ _ _) fun _ => .bind (.errIf _ _) fun _ => .bind (.errIf _ _) fun _ =>
    .bind (.setCursor _) fun _ => .pure _

theorem Writes.freeOwAndRaise (r : Raise) : Writes (freeOwAndRaise r) := .bind (.setOwDevList _) fun _ => .reraise r

theorem Writes.searchLoop (p : PinId) (cmd : Byte) (k : Nat) : Writes (searchLoop p cmd k) := by
  induction k with
  | zero =>
    refine .bind (.attempt (.searchPass p cmd)) fun r => ?_
    split
    · exact .freeOwAndRaise _
    · exact .freeOwAndRaise _
  | succ k ih =>
    refine .bind (.attempt (.searchPass p cmd)) fun r => ?_
    split
    · exact .freeOwAndRaise _
    · exact .bind (.setOwDevList _) fun _ => .bind (.look _) fun _ => .ite (.pure _) ih

theorem Writes.search (p : PinId) (cmd : Byte) : Writes (search p cmd) :=
  .bind (.owReady p) fun _ => .bind (.errIf _ _) fun _ => .bind (.look _) fun _ => .bind (.errIf _ _) fun _ =>
    .bind .seed fun _ => .bind (.look _) fun _ => .searchLoop p cmd _

/-! ## The commands -/

/-- After a command, the writes of its body and its end: completion or a usage fault (rules R240, R244). -/
def CommandWritten (s t : State) : Prop :=
  ∃ u, Written s.begin u ∧ ((∃ c, t = u.complete c) ∨ ∃ r, t = u.raiseUsage r)

theorem Writes.command {body : Op Unit} (hx : Writes body) (h : runCommand body s = .next t) : CommandWritten s t := by
  obtain ⟨-, ⟨u, hu, rfl⟩ | ⟨e, u, hu, rfl⟩ | ⟨r, u, hu, rfl⟩⟩ := runCommand_next h
  · exact ⟨u, (hx s.begin).ok .refl hu, .inl ⟨_, rfl⟩⟩
  · exact ⟨u, (hx s.begin).error .refl hu, .inl ⟨_, rfl⟩⟩
  · exact ⟨u, (hx s.begin).error .refl hu, .inr ⟨r, rfl⟩⟩

/-- `TW_INIT` configures only an engine it has found uninitialised: the checks in between write nothing. -/
theorem twInitUnconfigured_written (c d : PinId) (s₀ : State) :
    Triple (fun s => Written s₀ s ∧ s.tw.initialized = false)
      (do usageIf (fun s => s.isOwPin c || s.isOwPin d) .pinOwned; twConfigure c d)
      (fun _ => Written s₀) (fun _ => Written s₀) := by
  refine Triple.bind (Q := fun _ s => Written s₀ s ∧ s.tw.initialized = false)
    (Triple.usageIf (fun _ h _ => h) fun _ h _ => h.1) fun _ => ⟨fun s ⟨hw, hi⟩ => ?_⟩
  rw [twConfigure_run]
  exact hw.tail (.configure s c d hi)

theorem execTwInit_written {c d : PinId} (h : execTwInit c d s = .next t) : CommandWritten s t := by
  refine Writes.command (.bind (.usageIf _ _) fun _ => .bind (.usageIf _ _) fun _ s₀ => ?_) h
  refine Triple.bind (Q := fun w s => Written s₀ s ∧ s.tw = w) (Triple.look fun _ h => ⟨h, rfl⟩) fun w => ?_
  refine Triple.ite (fun _ => (Writes.errIf _ _ s₀).pre fun _ h => h.1) fun hi => ?_
  exact (twInitUnconfigured_written c d s₀).pre fun _ ⟨hw, ht⟩ => ⟨hw, by rw [ht, hi]⟩

theorem execOwMatchDevice_written {idx : Byte} (h : execOwMatchDevice idx s = .next t) : CommandWritten s t := by
  refine Writes.command (.bind (.look _) fun r => ?_) h
  split
  · exact .reraise _
  · exact .bind (.owReady _) fun _ => .matchRom _ _

/-- What any command can do to the state. -/
theorem exec_written {i : Instr} (h : exec i s = .next t) : CommandWritten s t := by
  cases i with
  | twInit c d => exact execTwInit_written h
  | twSetSpeed lvl => exact Writes.command (.update fun s => .speed s lvl) h
  | twStart => exact Writes.command (.bind (.usageIf _ _) fun _ => .start) h
  | twStop => exact Writes.command .stop h
  | twWriteByte x =>
    exact Writes.command (.bind .twInTransaction fun _ => .bind (.writeByte x) fun _ => .setResult _) h
  | twReadByte k =>
    exact Writes.command (.bind .twInTransaction fun _ => .bind (.readByte k) fun _ => .setResult _) h
  | twWriteBytes len =>
    exact Writes.command (.bind .twInTransaction fun _ => .bind (.usageIf _ _) fun _ => .bind (.usageIf _ _) fun _ =>
      .writeTxBytes _ _) h
  | twReadBytes len =>
    exact Writes.command (.bind .twInTransaction fun _ => .bind (.usageIf _ _) fun _ => .readRxBytes _ _) h
  | twStartRw ab son => exact Writes.command (.bind (.usageIf _ _) fun _ => .startRw ab son) h
  | twStartWrite a r => exact Writes.command (.bind (.usageIf _ _) fun _ => .startWrite a r) h
  | twStartRead a r =>
    exact Writes.command (.bind (.usageIf _ _) fun _ => .bind (.startWrite a r) fun _ => .startRw _ _) h
  | twScan =>
    exact Writes.command (.bind (.usageIf _ _) fun _ => .bind (.setTwDevList _) fun _ => .bind (.scanProbes _) fun _ =>
      .bind (.look _) fun _ => .setResult _) h
  | twFree => exact Writes.command (.setTwDevList fun _ => []) h
  | owInit p => exact Writes.command (.bind (.owPinFree p) fun _ => .cfg p _) h
  | owReset p => exact Writes.command (.bind (.owReady p) fun _ => .bind (.owReset p) fun _ => .setResult _) h
  | owReadBit p => exact Writes.command (.bind (.owReady p) fun _ => .bind (.owReadBit p) fun _ => .setResult _) h
  | owWriteBit p b => exact Writes.command (.bind (.owReady p) fun _ => .owWriteBit p b) h
  | owRead p => exact Writes.command (.bind (.owReady p) fun _ => .bind (.owReadByte p) fun _ => .setResult _) h
  | owWrite p x => exact Writes.command (.bind (.owReady p) fun _ => .owWriteByte p x) h
  | owReadBytes p len =>
    exact Writes.command (.bind (.owReady p) fun _ => .bind (.usageIf _ _) fun _ => .bind (.owReadRx p _ _) fun _ =>
      .pure _) h
  | owWriteBytes p len =>
    exact Writes.command (.bind (.owReady p) fun _ => .bind (.usageIf _ _) fun _ => .bind (.usageIf _ _) fun _ =>
      .owWriteTx p _ _) h
  | owCrc8 c x => exact Writes.command (.setResult _) h
  | owMatchRom p =>
    exact Writes.command (.bind (.owReady p) fun _ => .bind (.usageIf _ _) fun _ => .bind (.owWriteByte p _) fun _ =>
      .owWriteTx p _ _) h
  | owMatchDevice idx => exact execOwMatchDevice_written h
  | owReadRom p =>
    exact Writes.command (.bind (.owReady p) fun _ => .bind (.owWriteByte p _) fun _ => .bind (.owReadRx p _ _) fun _ =>
      .errIf _ _) h
  | owSearchPass p cmd sd =>
    have hpass : Writes (do let _ ← searchPass p cmd; pure ()) := .bind (.searchPass p cmd) fun _ => .pure _
    exact Writes.command (.bind (.owReady p) fun _ => .bind (.errIf _ _) fun _ =>
      .ite (.bind .seed fun _ => hpass) (.bind (.pure ()) fun _ => hpass)) h
  | owSearch p cmd =>
    exact Writes.command (.bind (.search p cmd) fun _ => .bind (.look _) fun _ => .setResult _) h
  | owSearchFamily p cmd f =>
    exact Writes.command (.bind (.search p cmd) fun _ => .bind (.setOwDevList _) fun _ => .bind (.look _) fun _ =>
      .bind (.errIf _ _) fun _ => .bind (.look _) fun _ => .setResult _) h
  | owFree => exact Writes.command (.setOwDevList fun _ => []) h

/-! ## The fixed registers (rules R3, R28, R30) -/

/-- The parameters and `TW_MAX_STRETCH` are as they were, and either the two-wire pins and `TW_INITIALIZED` are too or
`TW_INITIALIZED` went from 0 to 1. -/
def FixedStay (s t : State) : Prop :=
  t.params = s.params ∧ t.tw.maxStretch = s.tw.maxStretch ∧
    ((t.tw.sclPin = s.tw.sclPin ∧ t.tw.sdaPin = s.tw.sdaPin ∧ t.tw.initialized = s.tw.initialized) ∨
      (s.tw.initialized = false ∧ t.tw.initialized = true))

theorem FixedStay.refl (s : State) : FixedStay s s := ⟨rfl, rfl, .inl ⟨rfl, rfl, rfl⟩⟩

/-- An engine is initialised at most once: `TW_INITIALIZED` does not go back to 0. -/
theorem FixedStay.trans (h : FixedStay s t) (h' : FixedStay t u) : FixedStay s u := by
  obtain ⟨hp, hm, hst⟩ := h
  obtain ⟨hp', hm', htu⟩ := h'
  refine ⟨hp'.trans hp, hm'.trans hm, ?_⟩
  obtain ⟨hc, hd, hi⟩ | ⟨hs, ht⟩ := hst
  · obtain ⟨hc', hd', hi'⟩ | ⟨ht, hu⟩ := htu
    · exact .inl ⟨hc'.trans hc, hd'.trans hd, hi'.trans hi⟩
    · exact .inr ⟨hi ▸ ht, hu⟩
  · obtain ⟨-, -, hi'⟩ | ⟨ht', -⟩ := htu
    · exact .inr ⟨hs, hi'.trans ht⟩
    · exact absurd ht' (by simp [ht])

theorem StateWrite.fixedStay (h : StateWrite s t) : FixedStay s t := by
  cases h with
  | configure c d hi => exact ⟨rfl, rfl, .inr ⟨hi, rfl⟩⟩
  | _ => exact ⟨rfl, rfl, .inl ⟨rfl, rfl, rfl⟩⟩

theorem Written.fixedStay (h : Written s t) : FixedStay s t := by
  induction h with
  | refl => exact .refl s
  | tail _ hw ih => exact ih.trans hw.fixedStay

theorem CommandWritten.fixedStay (h : CommandWritten s t) : FixedStay s t := by
  obtain ⟨u, hu, ⟨c, rfl⟩ | ⟨r, rfl⟩⟩ := h
  · exact hu.fixedStay
  · exact hu.fixedStay

/-- Settles O20: every elementary write of a command leaves the fixed registers, or is the configuration of an engine
not yet initialised. -/
theorem fixedRegistersStay : Obligations.FixedRegistersStay := by
  unfold Obligations.FixedRegistersStay
  intro i s t h
  obtain ⟨hp, hm, hst⟩ := (exec_written h).fixedStay
  refine ⟨hp, hm, fun hne => ?_⟩
  obtain ⟨hc, hd, hi⟩ | hinit := hst
  · exact absurd hne (by simp [hc, hd, hi])
  · exact hinit

end Sys2Proof.Machine
end

section
/-! Checks come first. Every command is its usage checks and then a body: `exec_next` says that a command takes the
usage fault `usageOf` names, with nothing done, or runs `bodyOf`. -/

namespace Sys2Proof.Machine

variable {α β : Type} {s t : State}

/-! ## Checks in order (rule R246) -/

/-- `x` takes the usage fault `f` names, with nothing done before it; where `f` names none it is `body`. -/
structure Guarded (x : Op α) (f : State → Option Usage) (body : Op α) : Prop where
  usage : ∀ {s u}, f s = some u → x s = .error (.usage u) s
  pass : ∀ {s}, f s = none → x s = body s

theorem firstOf_append (a b : List (Bool × Usage)) : firstOf (a ++ b) = (firstOf a).or (firstOf b) := by
  induction a with
  | nil => rfl
  | cons c a ih =>
    obtain ⟨c, u⟩ := c
    cases c
    · exact ih
    · rfl

/-- Nothing is checked. -/
theorem Guarded.none (x : Op α) : Guarded x (fun _ => .none) x := ⟨fun h => (nomatch h), fun _ => rfl⟩

theorem Guarded.usageIf (c : State → Bool) (u : Usage) :
    Guarded (usageIf c u) (fun s => firstOf [(c s, u)]) (Pure.pure ()) where
  usage {s v} h := by
    cases hc : c s
    · simp [firstOf, hc] at h
    · have : u = v := by simpa [firstOf, hc] using h
      rw [usageIf_stop hc, this]
  pass {s} h := usageIf_pass (by simpa [firstOf] using h)

/-- Checks, then a guarded piece: its checks come after. -/
theorem Guarded.and {c : Op Unit} {x body : Op α} {a b : State → List (Bool × Usage)}
    (hc : Guarded c (fun s => firstOf (a s)) (Pure.pure ())) (hx : Guarded x (fun s => firstOf (b s)) body) :
    Guarded (do c; x) (fun s => firstOf (a s ++ b s)) body where
  usage {s _} h := by
    rw [firstOf_append, Option.or_eq_some_iff] at h
    obtain h | ⟨hn, h⟩ := h
    · exact bind_error (hc.usage h)
    · exact (bind_ok (hc.pass hn)).trans (hx.usage h)
  pass {s} h := by
    rw [firstOf_append, Option.or_eq_none_iff] at h
    exact (bind_ok (hc.pass h.1)).trans (hx.pass h.2)

/-- Checks, then the body. -/
theorem Guarded.then {c : Op Unit} {f : State → Option Usage} (hc : Guarded c f (Pure.pure ())) (x : Op α) :
    Guarded (do c; x) f x :=
  ⟨fun h => bind_error (hc.usage h), fun h => bind_ok (hc.pass h)⟩

/-- What follows a guarded piece follows its body. -/
theorem Guarded.bind {x body : Op α} {f : State → Option Usage} (h : Guarded x f body) (k : α → Op β) :
    Guarded (x >>= k) f (body >>= k) :=
  ⟨fun hu => bind_error (h.usage hu), fun hn => by rw [bind_run, h.pass hn, bind_run]⟩

/-! ## The checks of rules R130 and R180 -/

theorem txUnwritten_eq (s : State) (n : Nat) : s.txUnwritten n = absentBelow s n := by
  simp [State.txUnwritten, absentBelow, List.not_all_eq_any_not]

theorem guarded_twReady : Guarded twReady (fun s => firstOf [(!s.tw.initialized, .twNotInit)]) (pure ()) :=
  .usageIf _ _

theorem guarded_twInTransaction : Guarded twInTransaction (fun s => firstOf (txChecks s)) (pure ()) :=
  .and guarded_twReady (.usageIf _ _)

theorem guarded_owPinFree (p : PinId) :
    Guarded (owPinFree p) (fun s => firstOf ((pinChecks s p).take 2)) (pure ()) :=
  .and (.usageIf _ _) (.usageIf _ _)

theorem guarded_owReady (p : PinId) : Guarded (owReady p) (fun s => firstOf (pinChecks s p)) (pure ()) :=
  .and (a := fun s => (pinChecks s p).take 2) (guarded_owPinFree p) (.usageIf _ _)

theorem guarded_txUnwritten (n : Nat) :
    Guarded (usageIf (·.txUnwritten n) .txUnwritten) (fun s => firstOf [(absentBelow s n, .txUnwritten)])
      (pure ()) := by
  simpa only [txUnwritten_eq] using Guarded.usageIf (·.txUnwritten n) .txUnwritten

/-! ## Bodies -/

/-- A search once its pin is checked (rule R216). -/
def searchBody (p : PinId) (cmd : Byte) : Op Unit := do
  errIf (!isSearchCommand cmd) .badCommand
  let used ← look (·.owDevCount)
  errIf (used != 0) .rootNotEmpty
  seed
  searchLoop p cmd (← look (·.params.maxOwDevices))

/-- A pass of the search, seeded or not (rule R215). -/
def searchPassBody (p : PinId) (cmd : Byte) (sd : Bool) : Op Unit := do
  errIf (!isSearchCommand cmd) .badCommand
  if sd then seed else pure ()
  let _ ← searchPass p cmd
  pure ()

/-- `TW_INIT` once its checks have passed: an engine already initialised is not touched (rule R131). -/
def twInitBody (c d : PinId) : Op Unit := do
  let tw ← look (·.tw)
  if tw.initialized then errIf (!(c == tw.sclPin && d == tw.sdaPin)) .initConflict else twConfigure c d

/-- `OW_MATCH_DEVICE` once its checks have passed (rule R194). -/
def matchDeviceBody (idx : Byte) : Op Unit := do
  let found ← look (·.owDevList[idx.toNat]?)
  match found with
  | none => pure ()
  | some r => matchRom r.pin (romBytes r.rom)

/-- What a command does once its usage checks have passed; `exec_next` ties it to `exec`. -/
def bodyOf : Instr → Op Unit
  | .twInit c d => twInitBody c d
  | .twSetSpeed lvl => update (·.speedSet lvl)
  | .twStart => start
  | .twStop => stop
  | .twWriteByte x => do setResult (zext8 (← writeByte x))
  | .twReadByte k => do setResult (← readByte k)
  | .twWriteBytes len => writeTxBytes len.toNat 0
  | .twReadBytes len => readRxBytes len.toNat 0
  | .twStartRw ab son => startRw ab son
  | .twStartWrite a r => startWrite a r
  | .twStartRead a r => do
    startWrite a r
    startRw (addressByte a true) true
  | .twScan => do
    update (·.setTwDevList [])
    scanProbes scanAddresses
    setResult (← look (·.twDevCount))
  | .twFree => update (·.setTwDevList [])
  | .owInit p => cfg p .inputPullup
  | .owReset p => do setResult (zext8 (← owReset p))
  | .owReadBit p => do setResult (zext8 (← owReadBit p))
  | .owWriteBit p b => owWriteBit p b
  | .owRead p => do setResult (← owReadByte p)
  | .owWrite p x => owWriteByte p x
  | .owReadBytes p len => do
    let _ ← owReadRx p len.toNat 0
    pure ()
  | .owWriteBytes p len => owWriteTx p len.toNat 0
  | .owCrc8 c x => setResult (crc8 c x)
  | .owMatchRom p => do
    owWriteByte p matchRomCode
    owWriteTx p 8 0
  | .owMatchDevice idx => matchDeviceBody idx
  | .owReadRom p => do
    owWriteByte p readRomCode
    let rom ← owReadRx p 8 0
    errIf (crcOf rom != 0x00) .badCrc
  | .owSearchPass p cmd sd => searchPassBody p cmd sd
  | .owSearch p cmd => do
    searchBody p cmd
    setResult (← look owCountLow)
  | .owSearchFamily p cmd f => do
    searchBody p cmd
    update fun s => s.setOwDevList (s.owDevList.filter fun r => romByte r.rom 0 == f)
    let kept ← look (·.owDevCount)
    errIf (kept == 0) .noDevice
    setResult (← look owCountLow)
  | .owFree => update (·.setOwDevList [])

/-! ## Every command is guarded -/

theorem guarded_search (p : PinId) (cmd : Byte) :
    Guarded (search p cmd) (fun s => firstOf (pinChecks s p)) (searchBody p cmd) := (guarded_owReady p).then _

/-- `TW_INIT` checks the pins' modes only of an engine not yet initialised (rule R131). -/
theorem guarded_twInit (c d : PinId) :
    Guarded
      (do
        usageIf (fun s => s.badPin c || s.badPin d) .badPin
        usageIf (fun _ => c == d) .samePin
        let tw ← look (·.tw)
        if tw.initialized then errIf (!(c == tw.sclPin && d == tw.sdaPin)) .initConflict
        else do
          usageIf (fun s => s.isOwPin c || s.isOwPin d) .pinOwned
          twConfigure c d)
      (usageOf (.twInit c d)) (twInitBody c d) := by
  have hmodes := (Guarded.usageIf (fun s => s.isOwPin c || s.isOwPin d) .pinOwned).then (twConfigure c d)
  refine Guarded.and (.usageIf _ _) (.and (.usageIf _ _) ⟨fun {s u} h => ?_, fun {s} h => ?_⟩) <;>
    cases hi : s.tw.initialized
  · rw [bind_ok (look_run ..), hi]
    exact hmodes.usage (by simpa [hi, State.isOwPin] using h)
  · simp [hi, firstOf] at h
  · rw [twInitBody, bind_ok (look_run ..), bind_ok (look_run ..), hi]
    exact hmodes.pass (by simpa [hi, State.isOwPin] using h)
  · rw [twInitBody, bind_ok (look_run ..), bind_ok (look_run ..), hi]
    rfl

theorem guarded_owMatchDevice (idx : Byte) :
    Guarded
      (do
        let found ← look (·.owDevList[idx.toNat]?)
        match found with
        | none => reraise (.usage .badIndex)
        | some r => do
          owReady r.pin
          matchRom r.pin (romBytes r.rom))
      (usageOf (.owMatchDevice idx)) (matchDeviceBody idx) := by
  refine ⟨fun {s u} h => ?_, fun {s} h => ?_⟩ <;> simp only [usageOf] at h
  · rw [bind_ok (look_run ..)]
    split at h
    · next hr => rw [hr, ← Option.some_inj.mp h]; rfl
    · next r hr => rw [hr]; exact ((guarded_owReady r.pin).then _).usage h
  · rw [matchDeviceBody, bind_ok (look_run ..), bind_ok (look_run ..)]
    split at h
    · cases h
    · next r hr => rw [hr]; exact ((guarded_owReady r.pin).then _).pass h

/-- Every command runs its checks, then its body. -/
theorem exec_guarded (i : Instr) :
    ∃ x, (∀ s, exec i s = runCommand x s) ∧ Guarded x (usageOf i) (bodyOf i) := by
  cases i with
  | twInit c d => exact ⟨_, fun _ => rfl, guarded_twInit c d⟩
  | twStart | twStartRw | twStartWrite | twStartRead | twScan => exact ⟨_, fun _ => rfl, guarded_twReady.then _⟩
  | twSetSpeed | twStop | twFree | owCrc8 | owFree => exact ⟨_, fun _ => rfl, .none _⟩
  | twWriteByte | twReadByte => exact ⟨_, fun _ => rfl, guarded_twInTransaction.then _⟩
  | twWriteBytes len =>
    exact ⟨_, fun _ => rfl, guarded_twInTransaction.and
      (.and (.usageIf _ _) ((guarded_txUnwritten len.toNat).then _))⟩
  | twReadBytes len => exact ⟨_, fun _ => rfl, guarded_twInTransaction.and ((Guarded.usageIf _ _).then _)⟩
  | owInit p => exact ⟨_, fun _ => rfl, (guarded_owPinFree p).then _⟩
  | owReset p | owReadBit p | owWriteBit p | owRead p | owWrite p | owReadRom p | owSearchPass p =>
    exact ⟨_, fun _ => rfl, (guarded_owReady p).then _⟩
  | owReadBytes p len => exact ⟨_, fun _ => rfl, (guarded_owReady p).and ((Guarded.usageIf _ _).then _)⟩
  | owWriteBytes p len =>
    exact ⟨_, fun _ => rfl, (guarded_owReady p).and (.and (.usageIf _ _) ((guarded_txUnwritten len.toNat).then _))⟩
  | owMatchRom p => exact ⟨_, fun _ => rfl, (guarded_owReady p).and ((guarded_txUnwritten 8).then _)⟩
  | owMatchDevice idx => exact ⟨_, fun _ => rfl, guarded_owMatchDevice idx⟩
  | owSearch p cmd | owSearchFamily p cmd => exact ⟨_, fun _ => rfl, (guarded_search p cmd).bind _⟩

theorem usageOf_begin (i : Instr) (s : State) : usageOf i s.begin = usageOf i s := by cases i <;> rfl

/-- A command that passes its checks runs its body. -/
theorem exec_ready {i : Instr} (h : Ready i s) : exec i s = runCommand (bodyOf i) s := by
  obtain ⟨hf, hu⟩ := h
  obtain ⟨x, hx, hg⟩ := exec_guarded i
  rw [hx, runCommand, runCommand, hg.pass ((usageOf_begin i s).trans hu)]

/-- A check that fails: the usage fault, with nothing else done (rules R244, R246). -/
theorem exec_usage {i : Instr} {u : Usage} (hf : s.faulted = false) (hu : usageOf i s = some u) :
    exec i s = .next (s.begin.raiseUsage u) := by
  obtain ⟨x, hx, hg⟩ := exec_guarded i
  rw [hx, runCommand_usage hf (hg.usage ((usageOf_begin i s).trans hu))]

theorem exec_faulted {i : Instr} (hf : s.faulted = true) : exec i s = .fault .blockFaulted := by
  obtain ⟨x, hx, -⟩ := exec_guarded i
  rw [hx, runCommand_faulted hf]

/-- Everything a command can do: it runs only on a block that is not faulted, and takes the usage fault its checks name
or passes them and runs its body. -/
theorem exec_next {i : Instr} (h : exec i s = .next t) :
    (∃ u, s.faulted = false ∧ t = s.begin.raiseUsage u) ∨ (Ready i s ∧ runCommand (bodyOf i) s = .next t) := by
  cases hf : s.faulted with
  | true => rw [exec_faulted hf] at h; cases h
  | false =>
    match hu : usageOf i s with
    | some u =>
      rw [exec_usage hf hu] at h
      exact .inl ⟨u, rfl, by simpa using h.symm⟩
    | none => exact .inr ⟨⟨hf, hu⟩, by rw [← h, exec_ready ⟨hf, hu⟩]⟩

end Sys2Proof.Machine
end

section
/-! The pins follow the trace (O16), and what a step can do to the fault registers (O10): facts of every elementary
write, carried to commands and steps. -/

namespace Sys2Proof.Machine

variable {s t u : State}

/-! ## The pins follow the trace (rules R36, R101 to R105) -/

/-- From `s` to `t` the trace grew by events that make of each pin what it is in `t`. -/
def PinsTraced (s t : State) : Prop := ∃ es, t.trace = s.trace ++ es ∧ ∀ p, t.pin p = pinAfter p (s.pin p) es

/-- Nothing of the pins and the trace changed. -/
theorem PinsTraced.of_eq (he : t.events = s.events) (hp : t.pins = s.pins) : PinsTraced s t :=
  ⟨[], by simp [State.trace, he], fun p => by simp [State.pin, hp, pinAfter]⟩

theorem PinsTraced.play (s : State) (es : List Event) : PinsTraced s (s.play es) :=
  ⟨es, State.trace_play s es, State.play_pin s es⟩

theorem PinsTraced.trans (h : PinsTraced s t) (h' : PinsTraced t u) : PinsTraced s u := by
  obtain ⟨a, ha, hpa⟩ := h
  obtain ⟨b, hb, hpb⟩ := h'
  exact ⟨a ++ b, by rw [hb, ha, List.append_assoc], fun p => by rw [hpb, hpa, pinAfter_append]⟩

theorem StateWrite.pinsTraced (h : StateWrite s t) : PinsTraced s t := by
  cases h with
  | event e => exact .play s [e]
  | configure c d hi => exact .play s [.cfg c .input, .cfg d .input]
  | _ => exact .of_eq rfl rfl

theorem Written.pinsTraced (h : Written s t) : PinsTraced s t := by
  induction h with
  | refl => exact .of_eq rfl rfl
  | tail _ hw ih => exact ih.trans hw.pinsTraced

theorem CommandWritten.pinsTraced (h : CommandWritten s t) : PinsTraced s.begin t := by
  obtain ⟨u, hu, ⟨c, rfl⟩ | ⟨r, rfl⟩⟩ := h
  · exact hu.pinsTraced
  · exact hu.pinsTraced

/-- Settles O16: each elementary write traces the pins, and a command's trace begins empty. -/
theorem pinsFollowTheTrace : Obligations.PinsFollowTheTrace := by
  unfold Obligations.PinsFollowTheTrace
  intro i s t h p
  obtain ⟨es, he, hp⟩ := (exec_written h).pinsTraced
  rw [hp p, show t.trace = es from he]
  rfl

/-! ## What a step can do -/

/-- A word on the port runs a command, or spells none and is its usage fault (rules R75, R76). -/
theorem issueWord_next {w : Word} (h : issueWord w s = .next t) :
    (∃ i, exec i s = .next t) ∨ (s.faulted = false ∧ ∃ r, t = s.begin.raiseUsage r) := by
  unfold issueWord at h
  split at h
  · next i _ => exact .inl ⟨i, h⟩
  · next e _ =>
    obtain ⟨hf, ⟨u, hu, -⟩ | ⟨e, u, hu, -⟩ | ⟨r, u, hu, rfl⟩⟩ := runCommand_next h
    · rw [reraise_run] at hu; cases hu
    · rw [reraise_run] at hu; cases hu
    · rw [reraise_run] at hu; cases hu
      exact .inr ⟨hf, _, rfl⟩

/-- A host read shows a value or is a usage fault (rules R60, R245). -/
theorem hostReads_next {n : HostName} {i : Nat} (h : hostReads n i s = .next t) :
    (∃ v, t = { s with hostSeen := v :: s.hostSeen }) ∨ t = s.raiseUsage .absentRead := by
  unfold hostReads at h
  split at h
  · cases h
  · split at h
    · next v _ => exact .inl ⟨v, by simpa using h.symm⟩
    · exact .inr (by simpa using h.symm)

/-- A host write that is taken stays within `TXBUF` (rules R50, R51). -/
theorem hostWritesTx_next {i : Byte} {bs : List Byte} (h : hostWritesTx i bs s = .next t) :
    i.toNat + bs.length ≤ s.params.txbufSize ∧ t = { s with txbuf := Memory.writeAll s.txbuf i.toNat bs } := by
  unfold hostWritesTx at h
  split at h
  · next hb => exact ⟨hb, by simpa using h.symm⟩
  · cases h

/-- What a step that is not a power cycle latches: `FAULTED` with its first reason, and `TW_INITIALIZED` (rules R26,
R27). -/
def Latched (s t : State) : Prop :=
  (s.faulted = true → t.faulted = true ∧ t.faultReason = s.faultReason) ∧
  (s.tw.initialized = true → t.tw.initialized = true)

theorem Latched.raiseUsage (s : State) (r : Usage) : Latched s (s.raiseUsage r) :=
  ⟨fun hf => ⟨rfl, by simp [State.raiseUsage, hf]⟩, id⟩

/-- No command goes back to an engine that is not initialised. -/
theorem FixedStay.initialized (h : FixedStay s t) (hi : s.tw.initialized = true) : t.tw.initialized = true := by
  obtain ⟨-, -, ⟨-, -, heq⟩ | ⟨-, ht⟩⟩ := h
  · rw [heq, hi]
  · exact ht

theorem issueWord_latched {w : Word} (h : issueWord w s = .next t) : Latched s t := by
  obtain ⟨i, hx⟩ | ⟨hf, r, rfl⟩ := issueWord_next h
  · refine ⟨fun hf => ?_, (exec_written hx).fixedStay.initialized⟩
    rw [exec_faulted hf] at hx
    cases hx
  · exact ⟨fun ht => by simp [hf] at ht, id⟩

theorem hostStep_latched {a : HostAction} (ha : a ≠ .powerCycle) (h : hostStep a s = .next t) : Latched s t := by
  cases a with
  | command w => exact issueWord_latched h
  | writeTx i bs => obtain ⟨-, rfl⟩ := hostWritesTx_next h; exact ⟨fun hf => ⟨hf, rfl⟩, id⟩
  | read n i =>
    obtain ⟨v, rfl⟩ | rfl := hostReads_next h
    · exact ⟨fun hf => ⟨hf, rfl⟩, id⟩
    · exact .raiseUsage s _
  | powerCycle => exact absurd rfl ha

/-- Settles O10: a faulted block runs no command, and no action but a power cycle clears what is latched. -/
theorem onlyResetClearsTheFault : Obligations.OnlyResetClearsTheFault := by
  unfold Obligations.OnlyResetClearsTheFault
  refine fun s => ⟨fun i hf => exec_faulted hf, fun t h hne => ?_⟩
  unfold step at h
  split at h
  · cases h; exact ⟨fun hf => ⟨hf, rfl⟩, id⟩
  · next a rest hh =>
    exact hostStep_latched (s := s.withHost rest) (fun e => hne (by rw [hh, e]; rfl)) h

/-! ## Host reads (rules R39, R58, R60, R245) -/

theorem step_read {n : HostName} {i : Nat} {rest : List HostAction} (h : s.host = .read n i :: rest) :
    step s = hostReads n i (s.withHost rest) := by
  unfold step; rw [h]; rfl

/-- The host sees what is there. -/
theorem hostReads_some {n : HostName} {i : Nat} {v : HostValue} (hn : n ≠ .txbuf) (h : s.hostRead n i = some v) :
    hostReads n i s = .next { s with hostSeen := v :: s.hostSeen } := by
  rw [hostReads, if_neg hn, h]

/-- What is absent is the usage fault `ABSENT_READ`, a reason already there staying. -/
theorem hostReads_none {n : HostName} {i : Nat} (hn : n ≠ .txbuf) (h : s.hostRead n i = none) :
    hostReads n i s =
      .next { s with faulted := true, faultReason := if s.faulted then s.faultReason else 0x0C } := by
  rw [hostReads, if_neg hn, h]; rfl

/-- Byte `i` of a ROM as a number (rule R57). -/
theorem romByte_toNat (rom : Rom) (i : Nat) : (romByte rom i).toNat = rom.toNat / 256 ^ i % 256 := by
  rw [romByte, BitVec.extractLsb'_toNat, Nat.shiftRight_eq_div_pow, Nat.pow_mul]

/-- A register of one element, there under the condition `c`: element 0 is read, any other is absent. -/
theorem onlyIf_scalar (c : Bool) (i v : Nat) :
    onlyIf c (scalar i v) = if i = 0 ∧ c = true then some (.value v) else none := by
  cases c <;> simp [onlyIf, scalar]

theorem scalar_eq (i v : Nat) : scalar i v = if i = 0 ∧ true = true then some (.value v) else none := by
  simp [scalar]

/-- A read of a register of one element that is there under a condition. -/
theorem step_read_scalar {n : HostName} {i v : Nat} {c : Bool} {rest : List HostAction}
    (hh : s.host = .read n i :: rest) (hn : n ≠ .txbuf)
    (h : (s.withHost rest).hostRead n i = if i = 0 ∧ c = true then some (.value v) else none) :
    if i = 0 ∧ c = true then step s = .next { s with host := rest, hostSeen := .value v :: s.hostSeen }
    else step s = .next
      { s with host := rest, faulted := true, faultReason := if s.faulted then s.faultReason else 0x0C } := by
  rw [step_read hh]
  split
  · next hc => exact hostReads_some hn (by rw [h, if_pos hc])
  · next hc => exact hostReads_none hn (by rw [h, if_neg hc])

/-- A read of an element that is there where `o` holds one. -/
theorem step_read_map {γ : Type} {n : HostName} {i : Nat} {o : Option γ} {f : γ → HostValue} {rest : List HostAction}
    (hh : s.host = .read n i :: rest) (hn : n ≠ .txbuf) (h : (s.withHost rest).hostRead n i = o.map f) :
    (∀ b, o = some b → step s = .next { s with host := rest, hostSeen := f b :: s.hostSeen }) ∧
    (o = none → step s = .next
      { s with host := rest, faulted := true, faultReason := if s.faulted then s.faultReason else 0x0C }) := by
  rw [step_read hh]
  exact ⟨fun b hb => hostReads_some hn (by rw [h, hb]; rfl), fun hb => hostReads_none hn (by rw [h, hb]; rfl)⟩

/-- Settles O60, name by name. -/
theorem hostReadsReturnWhatIsThere : Obligations.HostReadsReturnWhatIsThere := by
  unfold Obligations.HostReadsReturnWhatIsThere
  intro s n i rest hh
  cases n with
  | status | result | faulted | faultReason | twInitialized | twInTx | twMaxStretch | owLastDisc | owLastDev
  | owDevCount =>
    exact step_read_scalar hh (by decide) (scalar_eq i _)
  | twDevCount =>
    refine step_read_scalar hh (by decide) ?_
    rw [← scalar_eq, State.hostRead, State.twDevCount, BitVec.toNat_ofNat]
    rfl
  | twSclPin | twSdaPin | twSpeed | twShort | twLong => exact step_read_scalar hh (by decide) (onlyIf_scalar _ i _)
  | owPrevRom =>
    dsimp only
    rw [step_read hh]
    split
    · next hi =>
      refine hostReads_some (s := s.withHost rest) (by decide) ?_
      simp only [State.hostRead, onlyIf, hi, decide_true, if_true, romByte_toNat]
      rfl
    · next hi => exact hostReads_none (s := s.withHost rest) (by decide) (by simp [State.hostRead, onlyIf, hi])
  | twDevList | owDevList =>
    obtain ⟨hthere, habsent⟩ := step_read_map hh (by decide) rfl
    exact ⟨hthere, fun hl => habsent (List.getElem?_eq_none hl)⟩
  | rxbuf => exact step_read_map hh (by decide) rfl
  | txbuf => exact (step_read hh).trans rfl

end Sys2Proof.Machine
end

section
/-! The invariant (O14). `Sound` is the invariant with names for its parts. Between commands the bus is idle or a
transaction is open with its clock low, so a two-wire command starts and ends in an `At` of Laws/Lines.lean and a
one-wire command in an `OwAt` of Laws/Slots.lean: `Sound.at` and `Sound.owAt` turn what those laws say of the end into
the invariant. -/

namespace Sys2Proof.Machine

variable {s t u s₀ : State} {n : Nat} {p q : PinId} {ok : PinId → Prop} {es : List Event}

/-! ## Events on pins that exist -/

/-- An event that drives only pins of `ok` and configures none. -/
def PinEvent (ok : PinId → Prop) : Event → Prop
  | .cfg _ _ => False
  | .low p => ok p
  | .rel p => ok p
  | .sample _ _ => True
  | .wait _ => True

theorem TwEvent.pinEvent {w : TwRegs} {e : Event} (h : TwEvent w e) :
    PinEvent (fun p => p = w.sclPin ∨ p = w.sdaPin) e := by
  cases e with
  | cfg p m => exact h
  | low p => exact h
  | rel p => exact h
  | sample p v => trivial
  | wait n => trivial

theorem OwEvent.pinEvent {e : Event} (h : OwEvent p e) : PinEvent (· = p) e := by
  cases e with
  | cfg q m => exact h
  | low q => exact h
  | rel q => exact h
  | sample q v => trivial
  | wait n => trivial

theorem PinEvent.mode {e : Event} (h : PinEvent ok e) (q : PinId) (v : Pin) : (pinAfterEvent q v e).mode = v.mode := by
  cases e with
  | cfg p m => exact h.elim
  | low p => simp only [pinAfterEvent]; split <;> rfl
  | rel p => simp only [pinAfterEvent]; split <;> rfl
  | sample p v => rfl
  | wait n => rfl

theorem PinEvent.other {e : Event} (h : PinEvent ok e) (hq : ¬ ok q) (v : Pin) : pinAfterEvent q v e = v := by
  cases e with
  | cfg p m => exact h.elim
  | low p => exact if_neg fun heq : p = q => hq (heq ▸ h)
  | rel p => exact if_neg fun heq : p = q => hq (heq ▸ h)
  | sample p v => rfl
  | wait n => rfl

/-- Without a `Cfg` no mode changes. -/
theorem pinAfter_mode (he : ∀ e ∈ es, PinEvent ok e) (q : PinId) (v : Pin) : (pinAfter q v es).mode = v.mode := by
  induction es generalizing v with
  | nil => rfl
  | cons e es ih =>
    obtain ⟨h, hs⟩ := List.forall_mem_cons.mp he
    exact (ih hs _).trans (h.mode q v)

/-- A pin that no event names stays. -/
theorem pinAfter_other (he : ∀ e ∈ es, PinEvent ok e) (hq : ¬ ok q) (v : Pin) : pinAfter q v es = v := by
  induction es generalizing v with
  | nil => rfl
  | cons e es ih =>
    obtain ⟨h, hs⟩ := List.forall_mem_cons.mp he
    exact (ih hs _).trans (h.other hq v)

/-- The canonical form of a pin map whose pins are below `n` (log 10). -/
def PinsOk (n : Nat) (m : Cells Pin) : Prop := Cells.Sorted m ∧ ∀ c ∈ m, c.1 < n ∧ c.2 ≠ Pin.atReset

theorem PinsOk.put {m : Cells Pin} (h : PinsOk n m) (hp : p.toNat < n) (v : Pin) : PinsOk n (putPin m p v) := by
  refine ⟨sorted_putPin h.1 p v, fun c hc => ?_⟩
  obtain ⟨rfl, hv⟩ | hc := mem_putPin hc
  · exact ⟨hp, hv⟩
  · exact h.2 c hc

theorem PinsOk.events {m : Cells Pin} (h : PinsOk n m) (hok : ∀ p, ok p → p.toNat < n)
    (he : ∀ e ∈ es, PinEvent ok e) : PinsOk n (es.foldl pinsEvent m) := by
  induction es generalizing m with
  | nil => exact h
  | cons e es ih =>
    obtain ⟨hd, hs⟩ := List.forall_mem_cons.mp he
    refine ih ?_ hs
    cases e with
    | cfg p m => exact hd.elim
    | low p => exact h.put (hok p hd) _
    | rel p => exact h.put (hok p hd) _
    | sample p v => exact h
    | wait k => exact h

/-- The data's canonical forms after events on existing pins. -/
theorem State.DataInv.play (h : s.DataInv) (hok : ∀ p, ok p → p.toNat < s.params.numPins)
    (he : ∀ e ∈ es, PinEvent ok e) : (s.play es).DataInv := by
  obtain ⟨htx, htxl, hrx, hrxl, hpins⟩ := h
  exact ⟨htx, htxl, hrx, hrxl, PinsOk.events hpins hok he⟩

theorem State.DataInv.cfg (h : s.DataInv) (hp : p.toNat < s.params.numPins) (m : CfgMode) :
    (s.play [.cfg p m]).DataInv := by
  obtain ⟨htx, htxl, hrx, hrxl, hpins⟩ := h
  exact ⟨htx, htxl, hrx, hrxl, PinsOk.put hpins hp ⟨.rel, m.pinMode⟩⟩

/-! ## The invariant, part by part -/

/-- The invariant with its parts named. -/
structure Sound (s : State) : Prop where
  valid : s.params.Valid
  tw : s.TwInv
  low : s.LowOnlyInTx
  cursor : s.CursorInv
  lists : s.ListInv
  data : s.DataInv
  results : s.ResultInv

theorem State.Inv.sound (h : s.Inv) : Sound s := by
  obtain ⟨h1, h2, h3, h4, h5, h6, h7⟩ := h
  exact ⟨h1, h2, h3, h4, h5, h6, h7⟩

theorem Sound.inv (h : Sound s) : s.Inv := ⟨h.valid, h.tw, h.low, h.cursor, h.lists, h.data, h.results⟩

/-- The clock between commands: driven low in a transaction, released outside one. -/
def clockOf : Bool → Drive
  | true => .low
  | false => .rel

theorem Sound.initialized (h : Sound s) (hi : s.tw.inTx = true) : s.tw.initialized = true := by
  obtain ⟨hinit, -⟩ := h.tw
  exact hinit hi

theorem Sound.twoLines (h : Sound s) (hi : s.tw.initialized = true) : TwoLines s := by
  obtain ⟨-, -, hinit, -⟩ := h.tw
  obtain ⟨hne, -⟩ := hinit hi
  exact hne

theorem Sound.lines_exist (h : Sound s) (hi : s.tw.initialized = true) :
    ∀ p, p = s.tw.sclPin ∨ p = s.tw.sdaPin → p.toNat < s.params.numPins := by
  obtain ⟨-, -, hinit, -⟩ := h.tw
  obtain ⟨-, hscl, hsda, -⟩ := hinit hi
  rintro p (rfl | rfl)
  · exact hscl
  · exact hsda

/-- Outside a transaction every pin is released (rule R38 c). -/
theorem Sound.released (h : Sound s) (hi : s.tw.inTx = false) (p : PinId) : (s.pin p).drive = .rel := by
  cases hd : (s.pin p).drive with
  | rel => rfl
  | low => exact absurd (h.low p hd).1 (by simp [hi])

/-- How the lines stand when a two-wire command begins. -/
theorem Sound.start (h : Sound s) : At s 0 s.tw.inTx (clockOf s.tw.inTx) .rel s := by
  cases hi : s.tw.inTx with
  | true =>
    obtain ⟨-, hlines, -⟩ := h.tw
    obtain ⟨hscl, hsda⟩ := hlines hi
    exact ⟨TwFrom.refl s, hi, hscl, hsda⟩
  | false => exact ⟨TwFrom.refl s, hi, h.released hi _, h.released hi _⟩

/-- A two-wire operation that ends with its lines idle or its transaction open keeps the invariant. -/
theorem Sound.at {i : Bool} (h : Sound s₀) (hi : s₀.tw.initialized = true) (ha : At s₀ n i (clockOf i) .rel s) :
    Sound s := by
  obtain ⟨⟨es, b, rfl, he, -⟩, rfl, hscl, hsda⟩ := ha
  replace he := fun e h => (he e h).pinEvent
  obtain ⟨-, -, hinit, hspeed, hmax⟩ := h.tw
  obtain ⟨hne, hc, hd, hcm, hdm, hw⟩ := hinit hi
  have hmode : ∀ q, ((s₀.play es).pin q).mode = (s₀.pin q).mode := fun q => by
    rw [State.play_pin, pinAfter_mode he]
  have hother : ∀ q, ¬ (q = s₀.tw.sclPin ∨ q = s₀.tw.sdaPin) → (s₀.play es).pin q = s₀.pin q := fun q hq => by
    rw [State.play_pin, pinAfter_other he hq]
  refine ⟨h.valid, ⟨fun _ => hi, fun hb => ⟨?_, hsda⟩, fun _ => ⟨hne, hc, hd, ?_, ?_, hw⟩, hspeed, hmax⟩,
    fun q hq => ?_, h.cursor, h.lists, h.data.play (h.lines_exist hi) he, h.results⟩
  · exact hscl.trans (congrArg clockOf hb)
  · exact (hmode _).trans hcm
  · exact (hmode _).trans hdm
  · by_cases hl : q = s₀.tw.sclPin ∨ q = s₀.tw.sdaPin
    · obtain rfl | rfl := hl
      · refine ⟨?_, rfl⟩
        have : clockOf b = .low := hscl.symm.trans hq
        cases b with
        | true => rfl
        | false => cases this
      · exact absurd (hsda.symm.trans hq) (by decide)
    · rw [show ((s₀.play es).setInTx b).pin q = s₀.pin q from hother q hl] at hq
      obtain ⟨hin, rfl⟩ := h.low q hq
      exact absurd (.inl rfl) hl

/-- The pin exists and is not the two-wire engine's (rule R180, checks 1 and 2). -/
structure OwPin (s : State) (p : PinId) : Prop where
  lt : p.toNat < s.params.numPins
  free : s.tw.initialized = true → p ≠ s.tw.sclPin ∧ p ≠ s.tw.sdaPin

/-- A pin the one-wire engine may use is released when its command begins. -/
theorem Sound.owStart (h : Sound s) (hp : OwPin s p) : OwAt s p 0 s := by
  refine .refl ?_
  cases hd : (s.pin p).drive with
  | rel => rfl
  | low =>
    obtain ⟨hi, he⟩ := h.low p hd
    exact absurd he (hp.free (h.initialized hi)).1

/-- A one-wire operation keeps the invariant: its pin is released and no other changes. -/
theorem Sound.owAt (h : Sound s₀) (hp : OwPin s₀ p) (ha : OwAt s₀ p n s) : Sound s := by
  obtain ⟨⟨es, rfl, he, -⟩, hr⟩ := ha
  replace he := fun e h => (he e h).pinEvent
  obtain ⟨hin, hlines, hinit, hspeed, hmax⟩ := h.tw
  have hmode : ∀ q, ((s₀.play es).pin q).mode = (s₀.pin q).mode := fun q => by
    rw [State.play_pin, pinAfter_mode he]
  have hother : ∀ q, q ≠ p → (s₀.play es).pin q = s₀.pin q := fun q hq => by rw [State.play_pin, pinAfter_other he hq]
  refine ⟨h.valid, ⟨hin, fun hb => ?_, fun hi => ?_, hspeed, hmax⟩, fun q hq => ?_, h.cursor, h.lists,
    h.data.play (fun q e => by rw [e]; exact hp.lt) he, h.results⟩
  · obtain ⟨hc, hd⟩ := hp.free (hin hb)
    simp only [State.play_tw, hother _ hc.symm, hother _ hd.symm]
    exact hlines hb
  · obtain ⟨hne, hc, hd, hcm, hdm, hw⟩ := hinit hi
    exact ⟨hne, hc, hd, (hmode _).trans hcm, (hmode _).trans hdm, hw⟩
  · by_cases hqp : q = p
    · subst hqp
      exact absurd (hr.symm.trans hq) (by decide)
    · rw [hother q hqp] at hq
      exact h.low q hq

/-! ## What else a command writes -/

theorem Sound.begin (h : Sound s) : Sound s.begin :=
  ⟨h.valid, h.tw, h.low, h.cursor, h.lists, h.data, h.results⟩

theorem Sound.setResult (h : Sound s) (v : Byte) : Sound (s.setResult v) :=
  ⟨h.valid, h.tw, h.low, h.cursor, h.lists, h.data, h.results⟩

theorem Sound.setCursor (h : Sound s) {c : Cursor} (hc : CursorOk c) : Sound (s.setCursor c) :=
  ⟨h.valid, h.tw, h.low, hc, h.lists, h.data, h.results⟩

theorem Sound.setTwDevList (h : Sound s) {l : List Byte} (hl : ScanList s.params l) : Sound (s.setTwDevList l) :=
  ⟨h.valid, h.tw, h.low, h.cursor, ⟨hl.1, hl.2, h.lists.2.2⟩, h.data, h.results⟩

/-- What `OW_DEVLIST` may hold (rules R53, R213). -/
def OwList (q : Params) (l : List OwRecord) : Prop :=
  l.length ≤ q.maxOwDevices ∧ ∀ r ∈ l, crcValid r.rom = true ∧ r.pin.toNat < q.numPins

theorem OwList.nil (q : Params) : OwList q [] := ⟨Nat.zero_le _, by simp⟩

theorem OwList.filter {q : Params} {l : List OwRecord} (h : OwList q l) (f : OwRecord → Bool) :
    OwList q (l.filter f) :=
  ⟨(List.length_filter_le f l).trans h.1, fun r hr => h.2 r (List.mem_of_mem_filter hr)⟩

theorem SearchList.owList {l : List OwRecord} (h : SearchList s.params p l) (hp : OwPin s p) : OwList s.params l :=
  ⟨h.1, fun r hr => by
    obtain ⟨hv, -, hpin⟩ := h.2 r hr
    exact ⟨hv, hpin ▸ hp.lt⟩⟩

theorem Sound.owList (h : Sound s) : OwList s.params s.owDevList := h.lists.2.2

theorem Sound.setOwDevList (h : Sound s) {l : List OwRecord} (hl : OwList s.params l) : Sound (s.setOwDevList l) :=
  ⟨h.valid, h.tw, h.low, h.cursor, ⟨h.lists.1, h.lists.2.1, hl⟩, h.data, h.results⟩

/-- Bytes within `RXBUF` (rule R51). -/
theorem Sound.writeRxs (h : Sound s) {i : Nat} {xs : List Byte} (hx : i + xs.length ≤ s.params.rxbufSize) :
    Sound (s.writeRxs i xs) := by
  obtain ⟨htx, htxl, hrx, hrxl, hpins⟩ := h.data
  refine ⟨h.valid, h.tw, h.low, h.cursor, h.lists,
    ⟨htx, htxl, Memory.wf_writeAll hrx i xs, fun c hc => ?_, hpins⟩, h.results⟩
  obtain hc | hc := Memory.mem_writeAll hc
  · exact hc.2.trans_le hx
  · exact hrxl c hc

/-- The registers of a speed hold its delays: twice `SHORT_DELAY` still fits 32 bits (rules R3, R31). -/
theorem shortDelay_lt {q : Params} (h : q.Valid) (lvl : BitVec 2) : 2 * shortDelay q lvl < 2 ^ 32 := by
  obtain ⟨-, ⟨h01, h12, h23, -, h0⟩, -⟩ := h
  unfold shortDelay
  split <;> omega

theorem speedSet_delays (h : s.params.Valid) (lvl : BitVec 2) :
    (s.speedSet lvl).tw.short.toNat = shortDelay s.params lvl ∧
    (s.speedSet lvl).tw.long.toNat = 2 * (s.speedSet lvl).tw.short.toNat := by
  have hlt := shortDelay_lt h lvl
  have hs : (s.speedSet lvl).tw.short.toNat = shortDelay s.params lvl := by
    rw [State.speedSet_tw, BitVec.toNat_ofNat, Nat.mod_eq_of_lt (by omega)]
  refine ⟨hs, ?_⟩
  rw [hs, State.speedSet_tw, BitVec.toNat_ofNat, Nat.mod_eq_of_lt hlt]

theorem Sound.speedSet (h : Sound s) (lvl : BitVec 2) : Sound (s.speedSet lvl) := by
  obtain ⟨hin, hlines, hinit, -, hmax⟩ := h.tw
  refine ⟨h.valid, ⟨hin, hlines, fun hi => ?_, fun _ => speedSet_delays h.valid lvl, hmax⟩, h.low, h.cursor, h.lists,
    h.data, h.results⟩
  obtain ⟨hne, hc, hd, hcm, hdm, -⟩ := hinit hi
  exact ⟨hne, hc, hd, hcm, hdm, rfl⟩

/-- A pin that is not the two-wire engine's configured (rules R131, R181). -/
theorem Sound.cfg (h : Sound s) (hp : OwPin s p) (m : CfgMode) : Sound (s.play [.cfg p m]) := by
  obtain ⟨hin, hlines, hinit, hspeed, hmax⟩ := h.tw
  have hother : ∀ q, q ≠ p → (s.play [.cfg p m]).pin q = s.pin q := fun q hq => by
    rw [State.play_pin]
    exact if_neg (Ne.symm hq)
  have hkeep := fun hi => (hp.free hi).imp (fun h => hother _ (Ne.symm h)) (fun h => hother _ (Ne.symm h))
  refine ⟨h.valid, ⟨hin, fun hb => ?_, fun hi => ?_, hspeed, hmax⟩, fun q hq => ?_, h.cursor, h.lists,
    h.data.cfg hp.lt m, h.results⟩
  · obtain ⟨hc, hd⟩ := hkeep (hin hb)
    simp only [State.play_tw, hc, hd]
    exact hlines hb
  · obtain ⟨hc, hd⟩ := hkeep hi
    simp only [State.play_tw, hc, hd]
    exact hinit hi
  · by_cases hqp : q = p
    · subst hqp
      rw [State.play_pin] at hq
      simp [pinAfter, pinAfterEvent] at hq
    · rw [hother q hqp] at hq
      exact h.low q hq

/-- An engine that is not initialised is in no transaction. -/
theorem Sound.idle (h : Sound s) (hi : s.tw.initialized = false) : s.tw.inTx = false := by
  cases ht : s.tw.inTx with
  | false => rfl
  | true => exact absurd (h.initialized ht) (by simp [hi])

theorem Sound.setTwPins (h : Sound s) (hi : s.tw.initialized = false) (c d : PinId) : Sound (s.setTwPins c d) := by
  obtain ⟨hin, -, -, hspeed, hmax⟩ := h.tw
  refine ⟨h.valid, ⟨hin, fun hb => ?_, fun ht => ?_, hspeed, hmax⟩, fun q hq => ?_, h.cursor, h.lists, h.data,
    h.results⟩
  · exact absurd (h.idle hi ▸ hb) (by decide)
  · exact absurd (hi ▸ ht) (by decide)
  · exact absurd ((h.released (h.idle hi) q).symm.trans hq) (by decide)

theorem Sound.setInTx_false (h : Sound s) (hi : s.tw.inTx = false) : Sound (s.setInTx false) := by
  obtain ⟨-, -, hinit, hspeed, hmax⟩ := h.tw
  exact ⟨h.valid, ⟨fun hb => (nomatch hb), fun hb => (nomatch hb), hinit, hspeed, hmax⟩,
    fun q hq => absurd ((h.released hi q).symm.trans hq) (by decide), h.cursor, h.lists, h.data, h.results⟩

/-- The engine initialised on two existing pins that are configured, its speed set (rules R27, R131). -/
theorem Sound.setInitialized (h : Sound s) (hne : s.tw.sclPin ≠ s.tw.sdaPin)
    (hc : s.tw.sclPin.toNat < s.params.numPins) (hd : s.tw.sdaPin.toNat < s.params.numPins)
    (hcm : (s.pin s.tw.sclPin).mode = .input) (hdm : (s.pin s.tw.sdaPin).mode = .input)
    (hw : s.tw.speedWritten = true) : Sound s.setInitialized := by
  obtain ⟨-, hlines, -, hspeed, hmax⟩ := h.tw
  exact ⟨h.valid, ⟨fun _ => rfl, hlines, fun _ => ⟨hne, hc, hd, hcm, hdm, hw⟩, hspeed, hmax⟩, h.low, h.cursor, h.lists,
    h.data, h.results⟩

/-- The configuration of an engine not yet initialised, on two existing pins (rule R131). -/
theorem Sound.twConfigured (h : Sound s) (hi : s.tw.initialized = false) {c d : PinId} (hne : c ≠ d)
    (hc : c.toNat < s.params.numPins) (hd : d.toNat < s.params.numPins) : Sound (s.twConfigured c d) := by
  have free : ∀ {t : State} {q : PinId}, t.tw.initialized = false → q.toNat < t.params.numPins → OwPin t q :=
    fun hi hq => ⟨hq, fun ht => absurd (hi ▸ ht) (by decide)⟩
  have hpin : ∀ q, (s.play [.cfg c .input, .cfg d .input]).pin q =
      if d = q then ⟨.rel, .input⟩ else if c = q then ⟨.rel, .input⟩ else s.pin q :=
    State.play_pin s [.cfg c .input, .cfg d .input]
  have hcfg : Sound (s.play [.cfg c .input, .cfg d .input]) := by
    have := (h.cfg (free hi hc) .input).cfg (free (t := s.play [.cfg c .input]) hi hd) .input
    rwa [State.play_play] at this
  have hset := (hcfg.setTwPins hi c d).speedSet s.params.defaultSpeed
  refine (hset.setInTx_false (h.idle hi)).setInitialized hne hc hd ?_ ?_ rfl
  · exact (congrArg Pin.mode (hpin c)).trans (by simp)
  · exact (congrArg Pin.mode (hpin d)).trans (by simp)

/-! ## How a command ends -/

theorem Sound.complete (h : Sound s) {code : Byte} (hc : code.toNat ≤ 0x0B) : Sound (s.complete code) :=
  ⟨h.valid, h.tw, h.low, h.cursor, h.lists, h.data, ⟨hc, h.results.2⟩⟩

theorem Err.code_le (e : Err) : e.code.toNat ≤ 0x0B := by cases e <;> decide

theorem Usage.code_ok (r : Usage) : r.code.toNat ≤ 0x0C ∧ r.code ≠ 0 := by cases r <;> decide

theorem Sound.raiseUsage (h : Sound s) (r : Usage) : Sound (s.raiseUsage r) := by
  obtain ⟨hst, hle, hiff⟩ := h.results
  obtain ⟨hcode, hne⟩ := r.code_ok
  refine ⟨h.valid, h.tw, h.low, h.cursor, h.lists, h.data, hst, ?_, fun _ => ?_, fun _ => rfl⟩ <;>
    cases hf : s.faulted <;> simp only [State.raiseUsage_faultReason, hf, if_true, if_false, Bool.false_eq_true]
  · exact hcode
  · exact hle
  · exact hne
  · exact hiff.mp hf

end Sys2Proof.Machine
end

section
/-! Every body keeps the invariant (O14): the laws of Laws/Lines.lean, Laws/Transfers.lean and Laws/Slots.lean say how
each operation ends, and the lemmas above turn each end into the invariant. -/

namespace Sys2Proof.Machine

variable {α : Type} {s t : State} {n : Nat} {p : PinId}

/-! ## What passing the checks gives -/

/-- Checks 1 and 2 of rule R180. -/
theorem OwPin.of_pinFree (h : firstOf ((pinChecks s p).take 2) = none) : OwPin s p := by
  simp only [pinChecks, List.take_succ_cons, List.take_zero, firstOf] at h
  split at h
  · cases h
  · next hexists =>
    split at h
    · cases h
    · next hfree => exact ⟨by simpa using hexists, fun hi => by simpa [hi] using hfree⟩

/-- Rule R180's checks, and others after. -/
theorem OwPin.of_checks {rest : List (Bool × Usage)} (h : firstOf (pinChecks s p ++ rest) = none) : OwPin s p := by
  rw [← List.take_append_drop 2 (pinChecks s p), List.append_assoc, firstOf_append, Option.or_eq_none_iff] at h
  exact .of_pinFree h.1

theorem OwPin.of_ready (h : firstOf (pinChecks s p) = none) : OwPin s p := .of_checks (rest := []) h

theorem OwPin.writeRxs (h : OwPin s p) (i : Nat) (xs : List Byte) : OwPin (s.writeRxs i xs) p := ⟨h.1, h.2⟩
theorem OwPin.setCursor (h : OwPin s p) (c : Cursor) : OwPin (s.setCursor c) p := ⟨h.1, h.2⟩
theorem OwPin.searched (h : OwPin s p) (c : Cursor) (l : List OwRecord) : OwPin (s.searched c l) p := ⟨h.1, h.2⟩

/-- Checks in two parts: both pass. -/
theorem firstOf_append_none {a b : List (Bool × Usage)} :
    firstOf (a ++ b) = none ↔ firstOf a = none ∧ firstOf b = none := by
  rw [firstOf_append, Option.or_eq_none_iff]

theorem firstOf_cons_none {c : Bool} {u : Usage} {rest : List (Bool × Usage)} :
    firstOf ((c, u) :: rest) = none ↔ c = false ∧ firstOf rest = none := by
  cases c <;> simp [firstOf]

theorem initialized_of_check (h : firstOf [(!s.tw.initialized, .twNotInit)] = none) : s.tw.initialized = true := by
  simpa [firstOf_cons_none, firstOf] using h

theorem inTx_of_checks (h : firstOf (txChecks s) = none) : s.tw.inTx = true := by
  simp only [txChecks, firstOf_cons_none] at h
  obtain ⟨-, hx, -⟩ := h
  simpa using hx

/-- Every byte below `k` of `TXBUF` has been written (rule R58). -/
theorem txWritten_of_check {k : Nat} (h : absentBelow s k = false) (x : Nat) (hx : x < k) :
    (Memory.read s.txbuf x).isSome := by
  simp only [absentBelow, Bool.not_eq_false', List.all_eq_true, List.mem_range] at h
  exact h x hx

/-! ## The ends of the two-wire operations -/

theorem Sound.openAt (h : Sound s) (hi : s.tw.initialized = true) (ha : OpenAt s n t) : Sound t :=
  h.at (i := true) hi ha

theorem Sound.idleAt (h : Sound s) (hi : s.tw.initialized = true) (ha : IdleAt s n t) : Sound t :=
  h.at (i := false) hi ha

theorem Sound.openStart (h : Sound s) (hx : s.tw.inTx = true) : OpenAt s 0 s := by
  have := h.start
  rwa [hx] at this

theorem Sound.addressFails {son : Bool} {r : Raise} (h : Sound s) (hi : s.tw.initialized = true)
    (ha : AddressFails s n son r t) : Sound t := by
  obtain ⟨-, hidle⟩ | ⟨-, hend⟩ := ha
  · exact h.idleAt hi hidle
  · cases son with
    | true => exact h.idleAt hi hend
    | false => exact h.openAt hi hend

/-- `x`, run on `s`, ends in the invariant, also when it raises. -/
def KeepsSound (s : State) (x : Op α) : Prop := Triple (· = s) x (fun _ => Sound) (fun _ => Sound)

/-- An operation from where a state stands. -/
theorem KeepsSound.of {P : State → Prop} {x : Op α} {Q : α → State → Prop} {E : Raise → State → Prop}
    (hx : Triple P x Q E) (hs : P s) (hq : ∀ a t, Q a t → Sound t) (he : ∀ r t, E r t → Sound t) : KeepsSound s x :=
  hx.imp (fun _ h => h ▸ hs) hq he

theorem KeepsSound.refl {x : Op α} (h : Sound s) (hx : Triple Sound x (fun _ => Sound) (fun _ => Sound)) :
    KeepsSound s x := .of hx h (fun _ _ => id) (fun _ _ => id)

theorem KeepsSound.bind {β : Type} {x : Op α} {f : α → Op β} (hx : KeepsSound s x)
    (hf : ∀ a, Triple Sound (f a) (fun _ => Sound) (fun _ => Sound)) : KeepsSound s (x >>= f) := Triple.bind hx hf

theorem sound_setResult (v : Byte) : Triple Sound (setResult v) (fun _ => Sound) (fun _ => Sound) :=
  Triple.update fun _ h => h.setResult v

theorem sound_look (f : State → α) : Triple Sound (look f) (fun _ => Sound) (fun _ => Sound) :=
  Triple.look fun _ h => h

theorem sound_errIf (c : Bool) (e : Err) : Triple Sound (errIf c e) (fun _ => Sound) (fun _ => Sound) :=
  Triple.errIf (fun _ h _ => h) fun _ h _ => h

/-! ## Two-wire commands -/

theorem keepsSound_twInitBody (h : Sound s) {c d : PinId} (hu : usageOf (.twInit c d) s = none) :
    KeepsSound s (twInitBody c d) := by
  simp only [usageOf, firstOf_cons_none] at hu
  obtain ⟨hpins, hsame, -⟩ := hu
  obtain ⟨hc, hd⟩ : c.toNat < s.params.numPins ∧ d.toNat < s.params.numPins := by simpa using hpins
  refine ⟨fun u hs => ?_⟩
  subst hs
  rw [twInitBody, bind_ok (look_run ..)]
  cases hi : u.tw.initialized with
  | true => exact (sound_errIf _ _).run u h
  | false =>
    rw [if_neg (by decide), twConfigure_run]
    exact h.twConfigured hi (by simpa using hsame) hc hd

theorem keepsSound_stop (h : Sound s) : KeepsSound s stop := by
  cases hx : s.tw.inTx with
  | true =>
    have hi := h.initialized hx
    exact .of (triple_stop (h.twoLines hi)) (h.openStart hx) (fun _ _ => h.idleAt hi) fun _ _ he => h.idleAt hi he.2
  | false =>
    refine ⟨fun u hs => ?_⟩
    subst hs
    rw [stop_idle hx]
    exact h

theorem keepsSound_writeByte (h : Sound s) (hx : s.tw.inTx = true) (x : Byte) : KeepsSound s (writeByte x) :=
  have hi := h.initialized hx
  .of (triple_writeByte (h.twoLines hi) x) (h.openStart hx) (fun _ _ => h.openAt hi) fun _ _ he => h.idleAt hi he.2

theorem keepsSound_readByte (h : Sound s) (hx : s.tw.inTx = true) (k : Bool) : KeepsSound s (readByte k) :=
  have hi := h.initialized hx
  .of (triple_readByte (h.twoLines hi) k) (h.openStart hx) (fun _ _ => h.openAt hi) fun _ _ he => h.idleAt hi he.2

theorem keepsSound_writeTxBytes (h : Sound s) (hx : s.tw.inTx = true) {k : Nat} (hk : absentBelow s k = false) :
    KeepsSound s (writeTxBytes k 0) :=
  have hi := h.initialized hx
  .of (triple_writeTxBytes (h.twoLines hi) k 0 fun x _ hlt => txWritten_of_check hk x (by omega)) (h.openStart hx)
    (fun _ _ => h.openAt hi) fun _ _ he => h.idleAt hi he.2

theorem keepsSound_readRxBytes (h : Sound s) (hx : s.tw.inTx = true) {k : Nat} (hk : k ≤ s.params.rxbufSize) :
    KeepsSound s (readRxBytes k 0) := by
  have hi := h.initialized hx
  refine .of (triple_readRxBytes (h.twoLines hi) k 0) (h.openStart hx) (fun _ t ⟨xs, hl, ha⟩ => ?_)
    fun _ t ⟨_, xs, hl, ha⟩ => ?_
  · exact (h.writeRxs (by omega)).openAt hi ha
  · exact (h.writeRxs (by omega)).idleAt hi ha

theorem keepsSound_startRw (h : Sound s) (hi : s.tw.initialized = true) (ab : Byte) (son : Bool) :
    KeepsSound s (startRw ab son) :=
  .of (triple_startRw (h.twoLines hi) ab son) h.start (fun _ _ => h.openAt hi) fun _ _ => h.addressFails hi

theorem scanAddresses_ne_zero : ∀ a ∈ scanAddresses, a ≠ 0 := by
  rintro a ha rfl
  obtain ⟨k, hk, hz⟩ := List.mem_map.mp ha
  have hmod : k % 2 ^ 7 = 0 := (BitVec.toNat_ofNat k 7).symm.trans (congrArg BitVec.toNat hz)
  rw [List.mem_range'_1] at hk
  omega

/-- The probes of a scan, its list emptied before. -/
theorem keepsSound_scanProbes (h : Sound s) (hi : s.tw.initialized = true) :
    KeepsSound (s.setTwDevList []) (scanProbes scanAddresses) := by
  have hnil : ScanList s.params [] := ⟨Nat.zero_le _, by simp⟩
  have hprobes := triple_scanProbes (n := 0) (i := s.tw.inTx) (c := clockOf s.tw.inTx) (d := .rel) (h.twoLines hi)
    scanAddresses scanAddresses_ne_zero
  refine hprobes.imp (fun u hu => ⟨[], hnil, .inl ?_⟩) (fun _ t ht => ?_) fun _ t ⟨_, ha⟩ => ?_
  · subst hu; exact h.start.setTwDevList []
  · obtain ⟨l, hl, ⟨-, ha⟩ | ha⟩ := ht
    · exact (h.setTwDevList hl).at hi ha
    · exact (h.setTwDevList hl).idleAt hi ha
  · exact (h.setTwDevList hnil).idleAt hi ha

/-! ## One-wire commands -/

/-- An operation on a one-wire pin. -/
theorem keepsSound_ow (h : Sound s) (hp : OwPin s p) {x : Op α}
    (hx : Triple (OwAt s p 0) x (fun _ => OwAt s p n) (fun _ => Sound)) : KeepsSound s x :=
  .of hx (h.owStart hp) (fun _ _ => h.owAt hp) fun _ _ => id

theorem sound_owReadRx (h : Sound s) (hp : OwPin s p) {k : Nat} (hk : k ≤ s.params.rxbufSize) :
    Triple (OwAt s p n) (owReadRx p k 0) (fun _ => Sound) (fun _ => Sound) :=
  (triple_owReadRx k 0).post fun _ _ ⟨hl, ha⟩ => (h.writeRxs (by omega)).owAt (hp.writeRxs _ _) ha

theorem sound_owWriteTx (h : Sound s) (hp : OwPin s p) {k : Nat} (hk : absentBelow s k = false) :
    Triple (OwAt s p n) (owWriteTx p k 0) (fun _ => Sound) (fun _ => Sound) :=
  (triple_owWriteTx k 0 fun x _ hlt => txWritten_of_check hk x (by omega)).post fun _ _ => h.owAt hp

theorem triple_matchRom {E : Raise → State → Prop} (xs : List Byte) :
    Triple (OwAt s p n) (matchRom p xs) (fun _ => OwAt s p (n + 32 + xs.length * 32)) E :=
  (triple_owWriteByte matchRomCode).bind fun _ => triple_owWriteList xs

theorem keepsSound_matchDeviceBody (h : Sound s) {idx : Byte} (hu : usageOf (.owMatchDevice idx) s = none) :
    KeepsSound s (matchDeviceBody idx) := by
  refine Triple.bind (Q := fun found u => found = s.owDevList[idx.toNat]? ∧ u = s)
    (Triple.look fun _ hs => ⟨by rw [hs], hs⟩) fun found => Triple.assume fun hf => ?_
  cases hr : s.owDevList[idx.toNat]? with
  | none => simp [usageOf, hr] at hu
  | some r =>
    simp only [usageOf, hr] at hu
    rw [hf, hr]
    exact keepsSound_ow h (.of_ready hu) (triple_matchRom _)

/-! ## The ROM search -/

/-- A pass, seeded or not, from a state that meets the invariant. -/
theorem keepsSound_searchPass (h : Sound s) (hp : OwPin s p) (cmd : Byte) : KeepsSound s (searchPass p cmd) :=
  .of (triple_searchPass cmd) (h.owStart hp)
    (fun _ _ ⟨_, _, _, hz, ha⟩ => (h.setCursor (.after _ hz)).owAt (hp.setCursor _) ha) fun _ _ ⟨_, ha⟩ => h.owAt hp ha

theorem keepsSound_searchPassBody (h : Sound s) (hp : OwPin s p) (cmd : Byte) (sd : Bool) :
    KeepsSound s (searchPassBody p cmd sd) := by
  refine Triple.bind (Q := fun _ => (· = s)) (Triple.errIf (fun _ hs _ => hs) fun _ hs _ => hs ▸ h) fun _ => ?_
  refine Triple.ite (fun _ => ?_) fun _ => ?_
  · refine Triple.bind (Q := fun _ => (· = s.setCursor Cursor.seed))
      (Triple.update fun _ hs => congrArg (·.setCursor Cursor.seed) hs) fun _ => ?_
    exact (keepsSound_searchPass (h.setCursor .seed) (hp.setCursor _) cmd).bind fun _ => Triple.pure fun _ ht => ht
  · exact (keepsSound_searchPass h hp cmd).bind fun _ => Triple.pure fun _ ht => ht

/-- A search's passes list CRC-valid ROMs, or empty the list (rules R216, R219). -/
theorem keepsSound_searchLoop (h : Sound s) (hp : OwPin s p) (cmd : Byte) :
    KeepsSound (s.searched Cursor.seed []) (searchLoop p cmd s.params.maxOwDevices) := by
  have hsearched : ∀ {c l}, CursorOk c → OwList s.params l → Sound (s.searched c l) := fun hc hl =>
    (h.setCursor hc).setOwDevList hl
  have hloop := triple_searchLoop (s₀ := s) (p := p) (n := 0) cmd s.params.maxOwDevices (l := []) .seed (by simp)
    (Nat.zero_add _)
  refine hloop.imp (fun u hu => ?_) (fun _ t ⟨l, c, _, hl, hc, _, ha⟩ => ?_) fun _ t ⟨_, c, hc, ha⟩ => ?_
  · rw [hu]; exact ((h.owStart hp).setCursor _).setOwDevList []
  · exact (hsearched hc (hl.owList hp)).owAt (hp.searched _ _) ha
  · exact (hsearched hc (.nil _)).owAt (hp.searched _ _) ha

/-- A search whose list is not empty is refused, so the passes begin with an empty list (rule R216). -/
theorem keepsSound_searchBody (h : Sound s) (hp : OwPin s p) (cmd : Byte) : KeepsSound s (searchBody p cmd) := by
  refine Triple.bind (Q := fun _ => (· = s)) (Triple.errIf (fun _ hs _ => hs) fun _ hs _ => hs ▸ h) fun _ => ?_
  refine Triple.bind (Q := fun used u => used = s.owDevCount ∧ u = s)
    (Triple.look fun _ hs => ⟨congrArg State.owDevCount hs, hs⟩) fun used => Triple.assume fun hused => ?_
  refine Triple.bind (Q := fun _ u => s.owDevList = [] ∧ u = s)
    (Triple.errIf (fun _ hs hc => ⟨?_, hs⟩) fun _ hs _ => hs ▸ h) fun _ => Triple.assume fun hnil => ?_
  · exact List.length_eq_zero_iff.mp (by simpa [hused, State.owDevCount] using hc)
  refine Triple.bind (Q := fun _ => (· = s.searched Cursor.seed [])) (Triple.update fun u hs => ?_) fun _ => ?_
  · rw [hs, State.searched, ← hnil]; rfl
  refine Triple.bind (Q := fun k u => k = s.params.maxOwDevices ∧ u = s.searched Cursor.seed [])
    (Triple.look fun _ hs => ⟨by rw [hs]; rfl, hs⟩) fun k => Triple.assume fun hk => ?_
  subst hk
  exact keepsSound_searchLoop h hp cmd

/-! ## Every command -/

/-- Whatever the bus answers, a command that passes its checks ends in the invariant. -/
theorem bodyOf_sound {i : Instr} (h : Sound s) (hu : usageOf i s = none) : KeepsSound s (bodyOf i) := by
  cases i with
  | twInit c d => exact keepsSound_twInitBody h hu
  | twSetSpeed lvl => exact .refl h (Triple.update fun _ h => h.speedSet lvl)
  | twStart =>
    have hi := initialized_of_check hu
    exact .of (triple_start (h.twoLines hi)) h.start (fun _ _ => h.openAt hi) fun _ _ he => h.idleAt hi he.2
  | twStop => exact keepsSound_stop h
  | twWriteByte x => exact (keepsSound_writeByte h (inTx_of_checks hu) x).bind fun _ => sound_setResult _
  | twReadByte k => exact (keepsSound_readByte h (inTx_of_checks hu) k).bind fun _ => sound_setResult _
  | twWriteBytes len =>
    obtain ⟨htx, hrest⟩ := firstOf_append_none.mp hu
    simp only [firstOf_cons_none] at hrest
    obtain ⟨-, hk, -⟩ := hrest
    exact keepsSound_writeTxBytes h (inTx_of_checks htx) hk
  | twReadBytes len =>
    obtain ⟨htx, hrest⟩ := firstOf_append_none.mp hu
    simp only [firstOf_cons_none] at hrest
    obtain ⟨hk, -⟩ := hrest
    exact keepsSound_readRxBytes h (inTx_of_checks htx) (by simpa using hk)
  | twStartRw ab son => exact keepsSound_startRw h (initialized_of_check hu) ab son
  | twStartWrite a r =>
    have hi := initialized_of_check hu
    exact .of (triple_startWrite (h.twoLines hi) a r) h.start (fun _ _ => h.openAt hi) fun _ _ he => h.idleAt hi he.2
  | twStartRead a r =>
    have hi := initialized_of_check hu
    exact .of (triple_startRead (h.twoLines hi) a r) h.start (fun _ _ => h.openAt hi) fun _ _ he => h.idleAt hi he.2
  | twScan =>
    refine Triple.bind (Q := fun _ => (· = s.setTwDevList []))
      (Triple.update fun _ hs => congrArg (·.setTwDevList []) hs) fun _ => ?_
    exact (keepsSound_scanProbes h (initialized_of_check hu)).bind fun _ => (sound_look _).bind fun _ =>
      sound_setResult _
  | twFree => exact .refl h (Triple.update fun _ h => h.setTwDevList ⟨Nat.zero_le _, by simp⟩)
  | owInit p =>
    refine ⟨fun u hs => ?_⟩
    subst hs
    exact h.cfg (.of_pinFree hu) .inputPullup
  | owReset p => exact (keepsSound_ow h (.of_ready hu) triple_owReset).bind fun _ => sound_setResult _
  | owReadBit p => exact (keepsSound_ow h (.of_ready hu) triple_owReadBit).bind fun _ => sound_setResult _
  | owWriteBit p b => exact keepsSound_ow h (.of_ready hu) (triple_owWriteBit b)
  | owRead p => exact (keepsSound_ow h (.of_ready hu) triple_owReadByte).bind fun _ => sound_setResult _
  | owWrite p x => exact keepsSound_ow h (.of_ready hu) (triple_owWriteByte x)
  | owReadBytes p len =>
    obtain ⟨hpin, hrest⟩ := firstOf_append_none.mp hu
    simp only [firstOf_cons_none] at hrest
    obtain ⟨hk, -⟩ := hrest
    have hp := OwPin.of_ready hpin
    exact .of ((sound_owReadRx h hp (by simpa using hk)).bind fun _ => Triple.pure fun _ ht => ht) (h.owStart hp)
      (fun _ _ => id) fun _ _ => id
  | owWriteBytes p len =>
    obtain ⟨hpin, hrest⟩ := firstOf_append_none.mp hu
    simp only [firstOf_cons_none] at hrest
    obtain ⟨-, hk, -⟩ := hrest
    have hp := OwPin.of_ready hpin
    exact .of (sound_owWriteTx h hp hk) (h.owStart hp) (fun _ _ => id) fun _ _ => id
  | owCrc8 c x => exact .refl h (sound_setResult _)
  | owMatchRom p =>
    obtain ⟨hpin, hrest⟩ := firstOf_append_none.mp hu
    simp only [firstOf_cons_none] at hrest
    obtain ⟨hk, -⟩ := hrest
    have hp := OwPin.of_ready hpin
    exact .of ((triple_owWriteByte matchRomCode).bind fun _ => sound_owWriteTx h hp hk) (h.owStart hp)
      (fun _ _ => id) fun _ _ => id
  | owMatchDevice idx => exact keepsSound_matchDeviceBody h hu
  | owReadRom p =>
    have hp := OwPin.of_ready hu
    obtain ⟨-, -, -, -, -, ⟨h8, -⟩, -⟩ := h.valid
    exact .of ((triple_owWriteByte readRomCode).bind fun _ => (sound_owReadRx h hp h8).bind fun _ => sound_errIf _ _)
      (h.owStart hp) (fun _ _ => id) fun _ _ => id
  | owSearchPass p cmd sd => exact keepsSound_searchPassBody h (.of_ready hu) cmd sd
  | owSearch p cmd =>
    exact (keepsSound_searchBody h (.of_ready hu) cmd).bind fun _ => (sound_look _).bind fun _ => sound_setResult _
  | owSearchFamily p cmd f =>
    refine (keepsSound_searchBody h (.of_ready hu) cmd).bind fun _ => Triple.bind (Q := fun _ => Sound)
      (Triple.update fun _ h => h.setOwDevList (h.owList.filter _)) fun _ => ?_
    exact (sound_look _).bind fun _ => (sound_errIf _ _).bind fun _ => (sound_look _).bind fun _ => sound_setResult _
  | owFree => exact .refl h (Triple.update fun _ h => h.setOwDevList (.nil _))

theorem exec_sound {i : Instr} (h : Sound s) (hx : exec i s = .next t) : Sound t := by
  obtain ⟨u, -, rfl⟩ | ⟨⟨-, hu⟩, hrun⟩ := exec_next hx
  · exact h.begin.raiseUsage u
  · have hbody := bodyOf_sound h.begin ((usageOf_begin i s).trans hu)
    obtain ⟨-, ⟨u, hu, rfl⟩ | ⟨e, u, hu, rfl⟩ | ⟨r, u, hu, rfl⟩⟩ := runCommand_next hrun
    · exact (hbody.ok rfl hu).complete (by decide)
    · exact (hbody.error rfl hu).complete e.code_le
    · exact (hbody.error rfl hu).raiseUsage r

/-! ## Every step -/

/-- The bytes the host writes lie within `TXBUF` (rules R50, R51). -/
theorem Sound.writeTx (h : Sound s) {i : Nat} {bs : List Byte} (hb : i + bs.length ≤ s.params.txbufSize) :
    Sound { s with txbuf := Memory.writeAll s.txbuf i bs } := by
  obtain ⟨htx, htxl, hrx, hrxl, hpins⟩ := h.data
  refine ⟨h.valid, h.tw, h.low, h.cursor, h.lists,
    ⟨Memory.wf_writeAll htx i bs, fun c hc => ?_, hrx, hrxl, hpins⟩, h.results⟩
  obtain hc | hc := Memory.mem_writeAll hc
  · exact hc.2.trans_le hb
  · exact htxl c hc

/-- The block after a power cycle (rule R270). -/
theorem Sound.powerOn (h : Sound s) : Sound (powerOn s) := by
  have hmax : s.params.maxStretch < 2 ^ 32 := by
    obtain ⟨-, -, ⟨-, hlt⟩, -⟩ := h.valid
    exact hlt
  have htw : (Machine.powerOn s).TwInv :=
    ⟨fun ht => (nomatch ht), fun ht => (nomatch ht), fun ht => (nomatch ht), fun ht => (nomatch ht),
      (BitVec.toNat_ofNat _ _).trans (Nat.mod_eq_of_lt hmax)⟩
  have hdata : (Machine.powerOn s).DataInv :=
    ⟨.nil, fun _ hc => (nomatch hc), .nil, fun _ hc => (nomatch hc), .nil, fun _ hc => (nomatch hc)⟩
  exact ⟨h.valid, htw, fun q hq => (nomatch hq), CursorOk.seed,
    ⟨Nat.zero_le _, fun _ hb => (nomatch hb), Nat.zero_le _, fun _ hr => (nomatch hr)⟩, hdata,
    ⟨(by decide : (0 : Byte).toNat ≤ 0x0B), (by decide : (0 : Byte).toNat ≤ 0x0C),
      (by decide : false = true ↔ (0 : Byte) ≠ 0)⟩⟩

theorem hostStep_sound {a : HostAction} (h : Sound s) (hx : hostStep a s = .next t) : Sound t := by
  cases a with
  | command w =>
    obtain ⟨i, hi⟩ | ⟨-, r, rfl⟩ := issueWord_next hx
    · exact exec_sound h hi
    · exact h.begin.raiseUsage r
  | writeTx i bs => obtain ⟨hb, rfl⟩ := hostWritesTx_next hx; exact h.writeTx hb
  | read n i =>
    obtain ⟨v, rfl⟩ | rfl := hostReads_next hx
    · exact ⟨h.valid, h.tw, h.low, h.cursor, h.lists, h.data, h.results⟩
    · exact h.raiseUsage _
  | powerCycle => cases hx; exact h.powerOn

theorem Sound.withHost (h : Sound s) (l : List HostAction) : Sound (s.withHost l) :=
  ⟨h.valid, h.tw, h.low, h.cursor, h.lists, h.data, h.results⟩

/-- Settles O14: every command's body ends in the invariant, and so does every other action of the host. -/
theorem everyStepKeepsTheInvariant : Obligations.EveryStepKeepsTheInvariant := by
  unfold Obligations.EveryStepKeepsTheInvariant
  intro s t hs h
  unfold step at h
  split at h
  · cases h; exact hs
  · exact (hostStep_sound (hs.sound.withHost _) h).inv

end Sys2Proof.Machine
end

section
/-! What bodies leave alone. `Stable I x` says that the pseudocode `x` keeps `I` and raises architectural errors only,
never a usage fault. Up to the end of the transfers no operation writes `RESULT` or the cursor, so `Framed I` is all
that is asked of `I`; `bodyOf_stable` then says where a whole command writes them. With the right `I` this is completion
(O13), the result (O24) and the cursor (O23). -/

namespace Sys2Proof.Machine

variable {α β : Type} {I J K : State → Prop} {s t u : State}

/-! ## Predicates kept -/

/-- `I` outlives every elementary write but those of `RESULT` and of the cursor. -/
def Framed (I : State → Prop) : Prop :=
  ∀ {s t : State}, StateWrite s t → t.result = s.result → t.cursor = s.cursor → I s → I t

/-- An architectural error (rule R240), not a usage fault. -/
def Raise.IsErr (r : Raise) : Prop := ∃ e, r = .err e

/-- `x` keeps `I` and raises only architectural errors. -/
def Stable (I : State → Prop) (x : Op α) : Prop := Triple I x (fun _ => I) (fun r s => r.IsErr ∧ I s)

theorem Stable.bind {x : Op α} {f : α → Op β} (hx : Stable I x) (hf : ∀ a, Stable I (f a)) : Stable I (x >>= f) :=
  Triple.bind hx hf

theorem Stable.pure (a : α) : Stable I (Pure.pure a : Op α) := Triple.pure fun _ h => h
theorem Stable.look (f : State → α) : Stable I (look f) := Triple.look fun _ h => h
theorem Stable.raiseErr (e : Err) : Stable I (raiseErr e : Op α) := Triple.raiseErr fun _ h => ⟨⟨e, rfl⟩, h⟩
theorem Stable.reraise (e : Err) : Stable I (reraise (.err e) : Op α) := Triple.reraise fun _ h => ⟨⟨e, rfl⟩, h⟩
theorem Stable.errIf (c : Bool) (e : Err) : Stable I (errIf c e) :=
  Triple.errIf (fun _ h _ => h) fun _ h _ => ⟨⟨e, rfl⟩, h⟩
theorem Stable.ite {c : Bool} {x y : Op α} (hx : Stable I x) (hy : Stable I y) : Stable I (if c then x else y) :=
  Triple.ite (fun _ => hx) fun _ => hy

/-- What follows an attempt has a value or an error to go on with. -/
theorem Stable.attempt {x : Op α} {f : Except Raise α → Op β} (hx : Stable I x) (hok : ∀ a, Stable I (f (.ok a)))
    (herr : ∀ e, Stable I (f (.error (.err e)))) : Stable I (attempt x >>= f) := by
  refine Triple.bind (Q := fun r s => ((∃ a, r = .ok a) ∨ ∃ e, r = .error (.err e)) ∧ I s)
    (Triple.attempt hx (fun a _ h => ⟨.inl ⟨a, rfl⟩, h⟩) fun r _ ⟨⟨e, he⟩, h⟩ => ⟨.inr ⟨e, by rw [he]⟩, h⟩)
    fun r => Triple.assume fun hr => ?_
  obtain ⟨a, rfl⟩ | ⟨e, rfl⟩ := hr
  · exact hok a
  · exact herr e

/-- Bytes of `TXBUF` that have been written, wherever `I` holds (rule R58). -/
def TxReady (I : State → Prop) (n : Nat) : Prop := ∀ s, I s → ∀ j, j < n → (Memory.read s.txbuf j).isSome

theorem TxReady.readTx {n i : Nat} (h : TxReady I n) (hi : i < n) : Stable I (readTx i) :=
  Triple.readTx (fun _ _ h _ => h) fun s hs hn => absurd (h s hs i hi) (by simp [hn])

section
variable (hI : Framed I)
include hI

/-- An update that is an elementary write of neither `RESULT` nor the cursor. -/
theorem Framed.update {f : State → State} (hw : ∀ s, StateWrite s (f s)) (hr : ∀ s, (f s).result = s.result)
    (hc : ∀ s, (f s).cursor = s.cursor) : Stable I (update f) :=
  Triple.update fun s h => hI (hw s) (hr s) (hc s) h

theorem stable_event (e : Event) : Stable I (update fun s => s.play [e]) :=
  hI.update (fun s => .event s e) (fun _ => rfl) fun _ => rfl
theorem stable_cfg (p : PinId) (m : CfgMode) : Stable I (cfg p m) := stable_event hI (.cfg p m)
theorem stable_low (p : PinId) : Stable I (low p) := stable_event hI (.low p)
theorem stable_rel (p : PinId) : Stable I (rel p) := stable_event hI (.rel p)
theorem stable_wait (n : Nat) : Stable I (wait n) := stable_event hI (.wait n)
theorem stable_sample (p : PinId) : Stable I (sample p) := ⟨fun s h => by
  rw [sample_run]; exact hI (.event s _) rfl rfl h⟩
theorem stable_setInTx (b : Bool) : Stable I (setInTx b) :=
  hI.update (fun s => .inTx s b) (fun _ => rfl) fun _ => rfl
theorem stable_writeRx (i : Nat) (b : Byte) : Stable I (writeRx i b) :=
  hI.update (fun s => .rxbuf s i b) (fun _ => rfl) fun _ => rfl
theorem stable_setTwDevList (f : State → List Byte) : Stable I (update fun s => s.setTwDevList (f s)) :=
  hI.update (fun s => .twDevList s (f s)) (fun _ => rfl) fun _ => rfl
theorem stable_setOwDevList (f : State → List OwRecord) : Stable I (update fun s => s.setOwDevList (f s)) :=
  hI.update (fun s => .owDevList s (f s)) (fun _ => rfl) fun _ => rfl

/-! ## The two-wire bus -/

theorem stable_lowScl : Stable I lowScl := .bind (.look _) fun _ => stable_low hI _
theorem stable_relScl : Stable I relScl := .bind (.look _) fun _ => stable_rel hI _
theorem stable_sampleScl : Stable I sampleScl := .bind (.look _) fun _ => stable_sample hI _
theorem stable_lowSda : Stable I lowSda := .bind (.look _) fun _ => stable_low hI _
theorem stable_relSda : Stable I relSda := .bind (.look _) fun _ => stable_rel hI _
theorem stable_sampleSda : Stable I sampleSda := .bind (.look _) fun _ => stable_sample hI _
theorem stable_waitShort : Stable I waitShort := .bind (.look _) fun _ => stable_wait hI _
theorem stable_waitLong : Stable I waitLong := .bind (.look _) fun _ => stable_wait hI _

theorem stable_failFast : Stable I failFast :=
  .bind (stable_relScl hI) fun _ => .bind (stable_relSda hI) fun _ => stable_setInTx hI _

theorem stable_pollScl (k : Nat) : Stable I (pollScl k) := by
  induction k with
  | zero => exact .pure _
  | succ k ih => exact .bind (stable_sampleScl hI) fun _ => .ite (.pure _) ih

theorem stable_stretchWait : Stable I stretchWait :=
  .bind (.look _) fun _ => .bind (stable_pollScl hI _) fun _ =>
    .ite (.pure _) (.bind (stable_failFast hI) fun _ => .raiseErr _)

theorem stable_tick (smp : Bool) : Stable I (tick smp) :=
  .bind (stable_lowScl hI) fun _ => .bind (stable_waitShort hI) fun _ => .bind (stable_relScl hI) fun _ =>
    .bind (stable_stretchWait hI) fun _ => .bind (stable_waitLong hI) fun _ =>
    .bind (.ite (stable_sampleSda hI) (.pure _)) fun _ => .bind (stable_lowScl hI) fun _ =>
    .bind (stable_waitShort hI) fun _ => .pure _

theorem stable_putBit (b : Bool) : Stable I (putBit b) :=
  .bind (.ite (stable_relSda hI) (stable_lowSda hI)) fun _ => .bind (stable_tick hI _) fun _ => .pure _

theorem stable_getBit : Stable I getBit := .bind (stable_relSda hI) fun _ => stable_tick hI _

theorem stable_startCondition : Stable I startCondition :=
  .bind (stable_waitShort hI) fun _ => .bind (stable_lowSda hI) fun _ => .bind (stable_waitShort hI) fun _ =>
    .bind (stable_lowScl hI) fun _ => .bind (stable_waitShort hI) fun _ => stable_relSda hI

theorem stable_startIdle : Stable I startIdle :=
  .bind (stable_relSda hI) fun _ => .bind (stable_relScl hI) fun _ => .bind (stable_waitShort hI) fun _ =>
    .bind (stable_sampleSda hI) fun _ => .ite
      (.bind (stable_stretchWait hI) fun _ => .bind (stable_startCondition hI) fun _ => stable_setInTx hI _)
      (.bind (stable_failFast hI) fun _ => .raiseErr _)

theorem stable_startRepeated : Stable I startRepeated :=
  .bind (stable_relSda hI) fun _ => .bind (stable_waitShort hI) fun _ => .bind (stable_relScl hI) fun _ =>
    .bind (stable_stretchWait hI) fun _ => stable_startCondition hI

theorem stable_start : Stable I start :=
  .bind (.look _) fun _ => .ite (stable_startRepeated hI) (stable_startIdle hI)

theorem stable_stop : Stable I stop :=
  .bind (.look _) fun _ => .bind (.errIf _ _) fun _ => .bind (stable_lowSda hI) fun _ =>
    .bind (stable_waitShort hI) fun _ => .bind (stable_relScl hI) fun _ => .bind (stable_stretchWait hI) fun _ =>
    .bind (stable_waitShort hI) fun _ => .bind (stable_relSda hI) fun _ => .bind (stable_waitShort hI) fun _ =>
    stable_setInTx hI _

theorem stable_putBits (x : Byte) (k : Nat) : Stable I (putBits x k) := by
  induction k with
  | zero => exact .pure _
  | succ k ih => exact .bind (stable_putBit hI _) fun _ => ih

theorem stable_writeByte (x : Byte) : Stable I (writeByte x) :=
  .bind (stable_putBits hI x 8) fun _ => stable_getBit hI

theorem stable_getBits (k : Nat) (x : Byte) : Stable I (getBits k x) := by
  induction k generalizing x with
  | zero => exact .pure _
  | succ k ih => exact .bind (stable_getBit hI) fun _ => ih _

theorem stable_readByte (k : Bool) : Stable I (readByte k) :=
  .bind (stable_getBits hI 8 _) fun _ => .bind (stable_putBit hI k) fun _ => .bind (stable_relSda hI) fun _ => .pure _

theorem stable_nackAddress (son : Bool) : Stable I (nackAddress son) := by
  refine .ite (.attempt (stable_stop hI) (fun _ => .raiseErr _) fun e => ?_) (.raiseErr _)
  cases e with
  | longClockStretch => exact .raiseErr _
  | _ => exact .reraise _

theorem stable_startRw (ab : Byte) (son : Bool) : Stable I (startRw ab son) :=
  .bind (stable_start hI) fun _ => .bind (stable_writeByte hI ab) fun _ => .ite (stable_nackAddress hI son) (.pure _)

theorem stable_nackData : Stable I nackData := .bind (stable_failFast hI) fun _ => .raiseErr _

theorem stable_startWrite (a : BitVec 7) (r : Byte) : Stable I (startWrite a r) :=
  .bind (stable_startRw hI _ _) fun _ => .bind (stable_writeByte hI r) fun _ => .ite (stable_nackData hI) (.pure _)

theorem stable_writeTxBytes {n : Nat} (htx : TxReady I n) (k i : Nat) (hk : i + k ≤ n) :
    Stable I (writeTxBytes k i) := by
  induction k generalizing i with
  | zero => exact .pure _
  | succ k ih =>
    exact .bind (htx.readTx (by omega)) fun _ => .bind (stable_writeByte hI _) fun _ =>
      .ite (stable_nackData hI) (ih (i + 1) (by omega))

theorem stable_readRxBytes (k i : Nat) : Stable I (readRxBytes k i) := by
  induction k generalizing i with
  | zero => exact .pure _
  | succ k ih => exact .bind (stable_readByte hI _) fun _ => .bind (stable_writeRx hI _ _) fun _ => ih _

theorem stable_freeTwAndRaise (e : Err) : Stable I (freeTwAndRaise (.err e)) :=
  .bind (stable_setTwDevList hI _) fun _ => .reraise e

theorem stable_scanFound (a : BitVec 7) : Stable I (scanFound a) :=
  .attempt (stable_stop hI)
    (fun _ => .bind (.look _) fun _ => .ite (stable_freeTwAndRaise hI _) (stable_setTwDevList hI _))
    (stable_freeTwAndRaise hI)

theorem stable_scanProbe (a : BitVec 7) : Stable I (scanProbe a) := by
  refine .bind (.look _) fun _ => .ite (.pure _) (.attempt (stable_startRw hI _ _) (fun _ => stable_scanFound hI a)
    fun e => ?_)
  cases e with
  | noAck => exact .pure _
  | _ => exact stable_freeTwAndRaise hI _

theorem stable_scanProbes (as : List (BitVec 7)) : Stable I (scanProbes as) := by
  induction as with
  | nil => exact .pure _
  | cons a as ih => exact .bind (stable_scanProbe hI a) fun _ => ih

theorem stable_twInitBody (c d : PinId) : Stable I (twInitBody c d) := by
  refine ⟨fun s h => ?_⟩
  rw [twInitBody, bind_ok (look_run ..)]
  cases hi : s.tw.initialized with
  | true => exact (Stable.errIf _ _).run s h
  | false =>
    rw [if_neg (by decide), twConfigure_run]
    exact hI (.configure s c d hi) (by simp [State.twConfigured]) (by simp [State.twConfigured]) h

/-! ## The one-wire bus -/

theorem stable_owWriteBit (p : PinId) (b : Bool) : Stable I (owWriteBit p b) :=
  .bind (.look _) fun _ => .bind (stable_low hI p) fun _ => .bind (stable_wait hI _) fun _ =>
    .bind (stable_rel hI p) fun _ => stable_wait hI _

theorem stable_owReadBit (p : PinId) : Stable I (owReadBit p) :=
  .bind (.look _) fun _ => .bind (stable_low hI p) fun _ => .bind (stable_wait hI _) fun _ =>
    .bind (stable_rel hI p) fun _ => .bind (stable_wait hI _) fun _ => .bind (stable_sample hI p) fun _ =>
    .bind (stable_wait hI _) fun _ => .pure _

theorem stable_owWriteBits (p : PinId) (x : Byte) (n i : Nat) : Stable I (owWriteBits p x n i) := by
  induction n generalizing i with
  | zero => exact .pure _
  | succ n ih => exact .bind (stable_owWriteBit hI _ _) fun _ => ih _

theorem stable_owWriteByte (p : PinId) (x : Byte) : Stable I (owWriteByte p x) := stable_owWriteBits hI p x 8 0

theorem stable_owReadBits (p : PinId) (n i : Nat) (x : Byte) : Stable I (owReadBits p n i x) := by
  induction n generalizing i x with
  | zero => exact .pure _
  | succ n ih => exact .bind (stable_owReadBit hI _) fun _ => ih _ _

theorem stable_owReadByte (p : PinId) : Stable I (owReadByte p) := stable_owReadBits hI p 8 0 _

theorem stable_presencePolls (p : PinId) (n k : Nat) : Stable I (presencePolls p n k) := by
  induction n generalizing k with
  | zero => exact .pure _
  | succ n ih =>
    exact .bind (.look _) fun _ => .bind (stable_wait hI _) fun _ => .bind (stable_sample hI p) fun _ =>
      .ite (ih _) (.pure _)

theorem stable_owReset (p : PinId) : Stable I (owReset p) :=
  .bind (.look _) fun _ => .bind (stable_low hI p) fun _ => .bind (stable_wait hI _) fun _ =>
    .bind (stable_rel hI p) fun _ => .bind (stable_presencePolls hI p _ 0) fun _ => .bind (stable_wait hI _) fun _ =>
    .pure _

theorem stable_owWriteList (p : PinId) (xs : List Byte) : Stable I (owWriteList p xs) := by
  induction xs with
  | nil => exact .pure _
  | cons x xs ih => exact .bind (stable_owWriteByte hI p x) fun _ => ih

theorem stable_owWriteTx {n : Nat} (htx : TxReady I n) (p : PinId) (k i : Nat) (hk : i + k ≤ n) :
    Stable I (owWriteTx p k i) := by
  induction k generalizing i with
  | zero => exact .pure _
  | succ k ih =>
    exact .bind (htx.readTx (by omega)) fun _ => .bind (stable_owWriteByte hI p _) fun _ => ih (i + 1) (by omega)

theorem stable_owReadRx (p : PinId) (n i : Nat) : Stable I (owReadRx p n i) := by
  induction n generalizing i with
  | zero => exact .pure _
  | succ n ih =>
    exact .bind (stable_owReadByte hI p) fun _ => .bind (stable_writeRx hI _ _) fun _ => .bind (ih _) fun _ => .pure _

theorem stable_matchDeviceBody (idx : Byte) : Stable I (matchDeviceBody idx) := by
  refine .bind (.look _) fun found => ?_
  cases found with
  | none => exact .pure _
  | some r => exact .bind (stable_owWriteByte hI _ _) fun _ => stable_owWriteList hI _ _

/-! ## The ROM search -/

/-- The steps of a pass keep `I`, and the last zero they find is a position or 0 (rules R211, R213). -/
theorem stable_searchSteps (p : PinId) (c : Cursor) (k n : Nat) (rom : Rom) (z : Nat) (hz : z ≤ 64) (hn : n + k ≤ 65) :
    Triple I (searchSteps p c k n rom z) (fun r s => r.2 ≤ 64 ∧ I s) (fun r s => r.IsErr ∧ I s) := by
  induction k generalizing n rom z with
  | zero => exact Triple.pure fun _ h => ⟨hz, h⟩
  | succ k ih =>
    refine Triple.bind (stable_owReadBit hI p) fun id => Triple.bind (stable_owReadBit hI p) fun cmp => ?_
    cases direction c n id cmp with
    | none => exact Triple.raiseErr fun _ h => ⟨⟨_, rfl⟩, h⟩
    | some db =>
      refine Triple.bind (stable_owWriteBit hI p _) fun _ => ih _ _ _ ?_ (by omega)
      unfold lastZeroAfter
      split <;> omega

end

/-- A cursor a successful pass leaves (rule R214). -/
def PassCursor (c : Cursor) : Prop := ∃ rom z, z ≤ 64 ∧ rom ≠ 0 ∧ crcValid rom = true ∧ c = Cursor.after rom z

/-- A pass writes nothing of the cursor but what a successful one leaves, and that last. -/
theorem stable_searchPass (hI : Framed I) (hJ : ∀ s c, PassCursor c → I s → J (s.setCursor c)) (p : PinId)
    (cmd : Byte) :
    Triple I (searchPass p cmd) (fun _ => J) (fun r s => r.IsErr ∧ I s) := by
  refine Triple.bind (Stable.look _) fun c => Triple.bind (stable_owReset hI p) fun _ =>
    Triple.bind (Stable.errIf _ _) fun _ => Triple.bind (stable_owWriteByte hI p cmd) fun _ =>
    Triple.bind (stable_searchSteps hI p c 64 1 0 0 (by omega) (by omega)) fun r => Triple.assume fun hz => ?_
  obtain ⟨rom, z⟩ := r
  refine Triple.bind (Q := fun _ s => rom ≠ 0 ∧ I s)
    (Triple.errIf (fun _ h hc => ⟨by simpa using hc, h⟩) fun _ h _ => ⟨⟨_, rfl⟩, h⟩) fun _ => Triple.assume fun h0 => ?_
  refine Triple.bind (Q := fun _ s => crcValid rom = true ∧ I s)
    (Triple.errIf (fun _ h hc => ⟨by simpa using hc, h⟩) fun _ h _ => ⟨⟨_, rfl⟩, h⟩) fun _ => Triple.assume fun hv => ?_
  exact Triple.bind (Q := fun _ => J) (Triple.update fun s h => hJ s _ ⟨rom, z, hz, h0, hv, rfl⟩ h) fun _ =>
    Triple.pure fun _ h => h

/-- `I` outlives every cursor a search writes: the seed and those of its passes (rules R212, R214). -/
def TakesCursors (I : State → Prop) : Prop := ∀ s c, c = Cursor.seed ∨ PassCursor c → I s → I (s.setCursor c)

theorem stable_seed (hC : TakesCursors I) : Stable I seed := Triple.update fun s h => hC s _ (.inl rfl) h

section
variable (hI : Framed I) (hC : TakesCursors I)
include hI hC

theorem stable_searchPass_kept (p : PinId) (cmd : Byte) : Stable I (searchPass p cmd) :=
  stable_searchPass hI (fun s c hc => hC s c (.inr hc)) p cmd

theorem stable_searchLoop (p : PinId) (cmd : Byte) (k : Nat) : Stable I (searchLoop p cmd k) := by
  have hfree : ∀ e, Stable I (freeOwAndRaise (.err e)) := fun e => .bind (stable_setOwDevList hI _) fun _ => .reraise e
  induction k with
  | zero => exact .attempt (stable_searchPass_kept hI hC p cmd) (fun _ => hfree _) hfree
  | succ k ih =>
    exact .attempt (stable_searchPass_kept hI hC p cmd)
      (fun _ => .bind (stable_setOwDevList hI _) fun _ => .bind (.look _) fun _ => .ite (.pure _) ih) hfree

theorem stable_searchBody (p : PinId) (cmd : Byte) : Stable I (searchBody p cmd) :=
  .bind (.errIf _ _) fun _ => .bind (.look _) fun _ => .bind (.errIf _ _) fun _ => .bind (stable_seed hC) fun _ =>
    .bind (.look _) fun _ => stable_searchLoop hI hC p cmd _

theorem stable_searchPassBody (p : PinId) (cmd : Byte) (sd : Bool) : Stable I (searchPassBody p cmd sd) :=
  have hpass : Stable I (do let _ ← searchPass p cmd; pure ()) :=
    .bind (stable_searchPass_kept hI hC p cmd) fun _ => .pure _
  .bind (.errIf _ _) fun _ => .ite (.bind (stable_seed hC) fun _ => hpass) hpass

end

/-! ## Every command -/

/-- The commands that may write the cursor (rule R35). -/
def isSearch : Instr → Bool
  | .owSearchPass _ _ _ | .owSearch _ _ | .owSearchFamily _ _ _ => true
  | _ => false

/-- How many bytes of `TXBUF` a command sends (rules R138, R189, R193). -/
def txLen : Instr → Nat
  | .twWriteBytes len => len.toNat
  | .owWriteBytes _ len => len.toNat
  | .owMatchRom _ => 8
  | _ => 0

/-- A command that passes its checks finds written every byte it sends (rules R130, R180). -/
theorem txWritten_of_usageOf {i : Instr} (hu : usageOf i s = none) (j : Nat) (hj : j < txLen i) :
    (Memory.read s.txbuf j).isSome := by
  cases i with
  | twWriteBytes len | owWriteBytes p len =>
    simp only [usageOf, firstOf_append_none, firstOf_cons_none] at hu
    obtain ⟨-, -, hk, -⟩ := hu
    exact txWritten_of_check hk j hj
  | owMatchRom p =>
    simp only [usageOf, firstOf_append_none, firstOf_cons_none] at hu
    obtain ⟨-, hk, -⟩ := hu
    exact txWritten_of_check hk j hj
  | _ => exact absurd hj (Nat.not_lt_zero j)

/-- What a command's body keeps, and that it raises no usage fault: the cursor is written by the searches only, and
`RESULT` last, by the commands whose rule writes it. -/
theorem bodyOf_stable {i : Instr} (hI : Framed I) (hC : isSearch i = true → TakesCursors I) (htx : TxReady I (txLen i))
    (hK : writesResult i = false → ∀ s, I s → K s) (hR : writesResult i = true → ∀ s v, I s → K (s.setResult v)) :
    Triple I (bodyOf i) (fun _ => K) (fun r s => r.IsErr ∧ I s) := by
  have quiet {x : Op Unit} (hi : writesResult i = false) (hx : Stable I x) :
      Triple I x (fun _ => K) (fun r s => r.IsErr ∧ I s) := Triple.post hx fun _ t h => hK hi t h
  have last (hi : writesResult i = true) (v : Byte) :
      Triple I (setResult v) (fun _ => K) (fun r s => r.IsErr ∧ I s) := Triple.update fun s h => hR hi s v h
  cases i with
  | twInit c d => exact quiet rfl (stable_twInitBody hI c d)
  | twSetSpeed lvl => exact quiet rfl (hI.update (fun s => .speed s lvl) (fun _ => rfl) fun _ => rfl)
  | twStart => exact quiet rfl (stable_start hI)
  | twStop => exact quiet rfl (stable_stop hI)
  | twWriteByte x => exact Triple.bind (stable_writeByte hI x) fun _ => last rfl _
  | twReadByte k => exact Triple.bind (stable_readByte hI k) fun _ => last rfl _
  | twWriteBytes len => exact quiet rfl (stable_writeTxBytes hI htx _ _ (Nat.zero_add _).le)
  | twReadBytes len => exact quiet rfl (stable_readRxBytes hI _ _)
  | twStartRw ab son => exact quiet rfl (stable_startRw hI ab son)
  | twStartWrite a r => exact quiet rfl (stable_startWrite hI a r)
  | twStartRead a r => exact quiet rfl (.bind (stable_startWrite hI a r) fun _ => stable_startRw hI _ _)
  | twScan =>
    exact Triple.bind (stable_setTwDevList hI _) fun _ => Triple.bind (stable_scanProbes hI _) fun _ =>
      Triple.bind (Stable.look _) fun _ => last rfl _
  | twFree => exact quiet rfl (stable_setTwDevList hI _)
  | owInit p => exact quiet rfl (stable_cfg hI p _)
  | owReset p => exact Triple.bind (stable_owReset hI p) fun _ => last rfl _
  | owReadBit p => exact Triple.bind (stable_owReadBit hI p) fun _ => last rfl _
  | owWriteBit p b => exact quiet rfl (stable_owWriteBit hI p b)
  | owRead p => exact Triple.bind (stable_owReadByte hI p) fun _ => last rfl _
  | owWrite p x => exact quiet rfl (stable_owWriteByte hI p x)
  | owReadBytes p len => exact quiet rfl (.bind (stable_owReadRx hI p _ _) fun _ => .pure _)
  | owWriteBytes p len => exact quiet rfl (stable_owWriteTx hI htx p _ _ (Nat.zero_add _).le)
  | owCrc8 c x => exact last rfl _
  | owMatchRom p =>
    exact quiet rfl (.bind (stable_owWriteByte hI p _) fun _ => stable_owWriteTx hI htx p _ _ (Nat.zero_add _).le)
  | owMatchDevice idx => exact quiet rfl (stable_matchDeviceBody hI idx)
  | owReadRom p =>
    exact quiet rfl (.bind (stable_owWriteByte hI p _) fun _ => .bind (stable_owReadRx hI p _ _) fun _ => .errIf _ _)
  | owSearchPass p cmd sd => exact quiet rfl (stable_searchPassBody hI (hC rfl) p cmd sd)
  | owSearch p cmd =>
    exact Triple.bind (stable_searchBody hI (hC rfl) p cmd) fun _ => Triple.bind (Stable.look _) fun _ => last rfl _
  | owSearchFamily p cmd f =>
    exact Triple.bind (stable_searchBody hI (hC rfl) p cmd) fun _ => Triple.bind (stable_setOwDevList hI _) fun _ =>
      Triple.bind (Stable.look _) fun _ => Triple.bind (Stable.errIf _ _) fun _ => Triple.bind (Stable.look _) fun _ =>
      last rfl _
  | owFree => exact quiet rfl (stable_setOwDevList hI _)

/-! ## Commands that pass their checks complete (rules R23, R24, R240, R242) -/

/-- What no body of a command writes: what stands outside the block, `TXBUF`, the fault registers, and what is written
when a command completes (rules R23, R26, R100). -/
structure CommandKeeps (s t : State) : Prop where
  params : t.params = s.params
  host : t.host = s.host
  hostSeen : t.hostSeen = s.hostSeen
  txbuf : t.txbuf = s.txbuf
  hpc : t.hpc = s.hpc
  history : t.history = s.history
  faulted : t.faulted = s.faulted
  faultReason : t.faultReason = s.faultReason

theorem CommandKeeps.begin (s : State) : CommandKeeps s s.begin := ⟨rfl, rfl, rfl, rfl, rfl, rfl, rfl, rfl⟩

theorem CommandKeeps.setResult (h : CommandKeeps s t) (v : Byte) : CommandKeeps s (t.setResult v) := { h with }

theorem CommandKeeps.setCursor (h : CommandKeeps s t) (c : Cursor) : CommandKeeps s (t.setCursor c) := { h with }

theorem CommandKeeps.write (h : CommandKeeps s t) (hw : StateWrite t u) : CommandKeeps s u := by
  cases hw with
  | configure c d hi =>
    constructor <;> simp [State.twConfigured, h.params, h.host, h.hostSeen, h.txbuf, h.hpc, h.history, h.faulted,
      h.faultReason]
  | _ => exact { h with }

/-- A command that passes its checks completes, and what its body keeps stays: all of `I` after an error, `K` where it
succeeds. -/
theorem exec_completes {i : Instr} (hr : Ready i s) (hI : Framed fun u => CommandKeeps s u ∧ I u)
    (hC : isSearch i = true → TakesCursors I) (h0 : I s.begin) (hK : writesResult i = false → ∀ u, I u → K u)
    (hR : writesResult i = true → ∀ u v, I u → K (u.setResult v)) :
    ∃ u code, exec i s = .next (u.complete code) ∧ code.toNat ≤ 0x0B ∧ CommandKeeps s u ∧
      (code = 0x00 ∧ K u ∨ code ≠ 0x00 ∧ I u) := by
  have hbody := bodyOf_stable (i := i) (K := fun u => CommandKeeps s u ∧ K u) hI
    (fun hs v c hc h => ⟨h.1.setCursor c, hC hs v c hc h.2⟩)
    (fun u h j hj => by rw [h.1.txbuf]; exact txWritten_of_usageOf hr.2 j hj)
    (fun hi u h => ⟨h.1, hK hi u h.2⟩) (fun hi u v h => ⟨h.1.setResult v, hR hi u v h.2⟩)
  have hs : CommandKeeps s s.begin ∧ I s.begin := ⟨.begin s, h0⟩
  rw [exec_ready hr]
  match hx : bodyOf i s.begin with
  | .ok _ u =>
    obtain ⟨hk, hku⟩ := hbody.ok hs hx
    exact ⟨u, statusOk, runCommand_ok hr.1 hx, by decide, hk, .inl ⟨rfl, hku⟩⟩
  | .error r u =>
    obtain ⟨⟨e, rfl⟩, hk, hi⟩ := hbody.error hs hx
    exact ⟨u, e.code, runCommand_err hr.1 hx, e.code_le, hk, .inr ⟨by cases e <;> decide, hi⟩⟩

/-- Settles O13: a body that passes its checks raises no usage fault, so the command completes. -/
theorem checkedCommandsComplete : Obligations.CheckedCommandsComplete := by
  unfold Obligations.CheckedCommandsComplete
  intro i s hr
  obtain ⟨u, code, hx, hcode, hk, -⟩ := exec_completes (I := fun _ => True) (K := fun _ => True) hr
    (fun hw _ _ h => ⟨h.1.write hw, trivial⟩) (fun _ _ _ _ h => h) trivial (fun _ _ h => h) (fun _ _ _ h => h)
  refine ⟨_, hx, ⟨rfl, rfl, rfl, ?_, ?_, hk.faulted, hk.faultReason⟩, hcode, hk.params, hk.host, hk.hostSeen⟩
  · rw [State.complete_hpc, hk.hpc]
  · rw [State.complete_history, hk.history]; rfl

/-- Settles O24: an error keeps `RESULT`, and so does success where no rule of the command writes it. -/
theorem resultIsWrittenOnlyOnSuccess : Obligations.ResultIsWrittenOnlyOnSuccess := by
  unfold Obligations.ResultIsWrittenOnlyOnSuccess
  intro i s t h hcase
  obtain ⟨u, -, rfl⟩ | ⟨hr, -⟩ := exec_next h
  · rfl
  · obtain ⟨u, code, hx, -, hk, hend⟩ := exec_completes (I := fun u => u.result = s.result)
      (K := fun u => writesResult i = false → u.result = s.result) hr
      (fun hw hres _ h => ⟨h.1.write hw, hres.trans h.2⟩) (fun _ _ _ _ h => h) rfl (fun _ _ h _ => h)
      (fun hi _ _ _ hn => absurd (hi.symm.trans hn) (by decide))
    rw [hx] at h
    cases h
    obtain ⟨hcode, hres⟩ | ⟨-, hres⟩ := hend
    · obtain hw | hf | hst := hcase
      · exact hres hw
      · exact absurd (hf.symm.trans (hk.faulted.trans hr.1)) (by decide)
      · exact absurd hcode hst
    · exact hres

/-! ## The cursor (rules R33 to R35, R214) -/

/-- What a successful pass leaves: the ROM is CRC-valid and not 00 x8, and `OW_LAST_DEV` says that no conflict is
left. -/
theorem PassCursor.holds {c : Cursor} (h : PassCursor c) :
    c.prevRom ≠ 0 ∧ crcValid c.prevRom = true ∧ (c.lastDev = true ↔ c.lastDisc = 0) := by
  obtain ⟨rom, z, hz, h0, hv, rfl⟩ := h
  refine ⟨h0, hv, ?_⟩
  have hdisc : (BitVec.ofNat 8 z).toNat = z := by rw [BitVec.toNat_ofNat, Nat.mod_eq_of_lt (by omega)]
  simp only [Cursor.after, lastDevFlag, beq_iff_eq, ← BitVec.toNat_inj, hdisc]
  rfl

/-- A pass that fails leaves the cursor, or the seed where it was to seed first (rule R215). -/
theorem searchPassBody_cursor (c : Cursor) (p : PinId) (cmd : Byte) (sd : Bool) :
    Triple (fun u => u.cursor = c) (searchPassBody p cmd sd) (fun _ u => PassCursor u.cursor)
      (fun _ u => u.cursor = c ∨ u.cursor = Cursor.seed ∧ sd = true) := by
  have hpass : ∀ c', Triple (fun u : State => u.cursor = c') (do let _ ← searchPass p cmd; pure ())
      (fun _ u => PassCursor u.cursor) (fun _ u => u.cursor = c') := fun c' =>
    have hkept := stable_searchPass (I := fun u => u.cursor = c') (J := fun u => PassCursor u.cursor)
      (fun _ _ hcur h => hcur.trans h) (fun _ _ hc _ => hc) p cmd
    Triple.bind (hkept.imp (fun _ h => h) (fun _ _ h => h) fun _ _ h => h.2) fun _ => Triple.pure fun _ h => h
  refine Triple.bind (Q := fun _ u => u.cursor = c) (Triple.errIf (fun _ h _ => h) fun _ h _ => .inl h) fun _ =>
    Triple.ite (fun hsd => ?_) fun _ => ?_
  · refine Triple.bind (Q := fun _ u => u.cursor = Cursor.seed) (Triple.update fun _ _ => rfl) fun _ => ?_
    exact (hpass _).imp (fun _ h => h) (fun _ _ h => h) fun _ _ h => .inr ⟨h, hsd⟩
  · exact (hpass c).imp (fun _ h => h) (fun _ _ h => h) fun _ _ h => .inl h

/-- The cursor after `OW_SEARCH_PASS` (rules R214, R215). -/
theorem exec_searchPass_cursor {p : PinId} {cmd : Byte} {sd : Bool} (h : exec (.owSearchPass p cmd sd) s = .next t) :
    t.cursor = s.cursor ∨ t.cursor = Cursor.seed ∧ sd = true ∨ t.status = 0x00 ∧ PassCursor t.cursor := by
  obtain ⟨u, -, rfl⟩ | ⟨-, hrun⟩ := exec_next h
  · exact .inl rfl
  · have hbody := searchPassBody_cursor s.cursor p cmd sd
    obtain ⟨-, ⟨u, hu, rfl⟩ | ⟨e, u, hu, rfl⟩ | ⟨r, u, hu, rfl⟩⟩ := runCommand_next hrun
    · exact .inr (.inr ⟨rfl, hbody.ok (s := s.begin) (t := u) rfl hu⟩)
    · exact (hbody.error (s := s.begin) (t := u) rfl hu).imp_right .inl
    · exact (hbody.error (s := s.begin) (t := u) rfl hu).imp_right .inl

/-- What any other command makes of the cursor, if it is kept by whatever the command may write. -/
theorem exec_cursor {i : Instr} {C : Cursor → Prop} (h : exec i s = .next t) (h0 : C s.cursor)
    (hC : isSearch i = true → ∀ c, c = Cursor.seed ∨ PassCursor c → C c) : C t.cursor := by
  obtain ⟨u, -, rfl⟩ | ⟨hr, -⟩ := exec_next h
  · exact h0
  · obtain ⟨u, code, hx, -, -, hend⟩ := exec_completes (I := fun u => C u.cursor) (K := fun u => C u.cursor) hr
      (fun hw _ hcur h => ⟨h.1.write hw, hcur ▸ h.2⟩) (fun hs _ c hc _ => hC hs c hc) h0 (fun _ _ h => h)
      (fun _ _ _ h => h)
    rw [hx] at h
    cases h
    exact hend.elim And.right And.right

/-- The cursor after a search of the whole bus. -/
theorem exec_search_cursor {i : Instr} (h : exec i s = .next t) :
    t.cursor = s.cursor ∨ t.cursor = Cursor.seed ∨ PassCursor t.cursor :=
  exec_cursor (C := fun c => c = s.cursor ∨ c = Cursor.seed ∨ PassCursor c) h (.inl rfl) fun _ _ hc => .inr hc

/-- Settles O23: a command that does not search keeps the cursor; a search leaves it, its seed or that of a pass. -/
theorem cursorChangesOnlyOnSuccessOrSeed : Obligations.CursorChangesOnlyOnSuccessOrSeed := by
  unfold Obligations.CursorChangesOnlyOnSuccessOrSeed
  intro i s t h
  cases i with
  | owSearchPass p cmd sd =>
    obtain hkept | ⟨hseed, rfl⟩ | ⟨hst, hpass⟩ := exec_searchPass_cursor h
    · exact .inl hkept
    · exact .inr (.inl ⟨hseed, .inl ⟨p, cmd, rfl⟩⟩)
    · exact .inr (.inr ⟨.inl ⟨⟨p, cmd, sd, rfl⟩, hst⟩, hpass.holds⟩)
  | owSearch p cmd =>
    obtain hkept | hseed | hpass := exec_search_cursor h
    · exact .inl hkept
    · exact .inr (.inl ⟨hseed, .inr (.inl ⟨p, cmd, rfl⟩)⟩)
    · exact .inr (.inr ⟨.inr (.inl ⟨p, cmd, rfl⟩), hpass.holds⟩)
  | owSearchFamily p cmd f =>
    obtain hkept | hseed | hpass := exec_search_cursor h
    · exact .inl hkept
    · exact .inr (.inl ⟨hseed, .inr (.inr ⟨p, cmd, f, rfl⟩)⟩)
    · exact .inr (.inr ⟨.inr (.inr ⟨p, cmd, f, rfl⟩), hpass.holds⟩)
  | _ => exact .inl (exec_cursor (C := (· = s.cursor)) h rfl fun hs => by cases hs)

end Sys2Proof.Machine
end

section
/-! The host's port: what the host writes into `TXBUF` (O8), and which command its words run (O7). A format's reader is
tied to the encoder once, for all the commands of the format. -/

namespace Sys2Proof

/-! ## The formats read back what the encoder writes (rules R71, R72) -/

theorem fmtN_mkWord (op : Byte) (i : Instr) : fmtN (mkWord op 0#8 0#8 0#8) i = .ok i := by simp [fmtN, reserved]

theorem fmtA_mkWord (op a : Byte) (f : Byte → Instr) : fmtA (mkWord op a 0#8 0#8) f = .ok (f a) := by
  simp [fmtA, reserved]

theorem fmtA1_mkWord (op : Byte) (b : Bool) (f : Bool → Instr) :
    fmtA1 (mkWord op (bitByte b) 0#8 0#8) f = .ok (f b) := by simp [fmtA1, reserved]

theorem fmtA2_mkWord (op : Byte) (x : BitVec 2) (f : BitVec 2 → Instr) :
    fmtA2 (mkWord op (x.setWidth 8) 0#8 0#8) f = .ok (f x) := by simp [fmtA2, reserved]

theorem fmtAB_mkWord (op a b : Byte) (f : Byte → Byte → Instr) : fmtAB (mkWord op a b 0#8) f = .ok (f a b) := by
  simp [fmtAB, reserved]

theorem fmtAB1_mkWord (op a : Byte) (b : Bool) (f : Byte → Bool → Instr) :
    fmtAB1 (mkWord op a (bitByte b) 0#8) f = .ok (f a b) := by simp [fmtAB1, reserved]

theorem fmtA7B_mkWord (op b : Byte) (a : BitVec 7) (f : BitVec 7 → Byte → Instr) :
    fmtA7B (mkWord op (a.setWidth 8) b 0#8) f = .ok (f a b) := by simp [fmtA7B, reserved]

theorem fmtABC_mkWord (op a b c : Byte) (f : Byte → Byte → Byte → Instr) :
    fmtABC (mkWord op a b c) f = .ok (f a b c) := by simp [fmtABC]

theorem fmtABC1_mkWord (op a b : Byte) (c : Bool) (f : Byte → Byte → Bool → Instr) :
    fmtABC1 (mkWord op a b (bitByte c)) f = .ok (f a b c) := by simp [fmtABC1, reserved]

/-- The decoder picks the format of the word's `OP`, which reads the operands back. -/
theorem decode_encode (i : Instr) : decode (encode i) = .ok i := by
  cases i with
  | twStart | twStop | twScan | twFree | owFree => simp [encode, decode, fmtN_mkWord]
  | twWriteByte | twWriteBytes | twReadBytes | owInit | owReset | owReadBit | owRead | owMatchRom | owMatchDevice
  | owReadRom => simp [encode, decode, fmtA_mkWord]
  | twReadByte => simp [encode, decode, fmtA1_mkWord]
  | twSetSpeed => simp [encode, decode, fmtA2_mkWord]
  | twInit | owWrite | owReadBytes | owWriteBytes | owCrc8 | owSearch => simp [encode, decode, fmtAB_mkWord]
  | twStartRw | owWriteBit => simp [encode, decode, fmtAB1_mkWord]
  | twStartWrite | twStartRead => simp [encode, decode, fmtA7B_mkWord]
  | owSearchFamily => simp [encode, decode, fmtABC_mkWord]
  | owSearchPass => simp [encode, decode, fmtABC1_mkWord]

end Sys2Proof

namespace Sys2Proof.Machine

variable {s t : State}

/-! ## Words on the command port (rules R66, R75, R76, R90) -/

theorem step_cons {a : HostAction} {rest : List HostAction} (h : s.host = a :: rest) :
    step s = hostStep a (s.withHost rest) := by unfold step; rw [h]

theorem issueWord_ok {w : Word} {i : Instr} (h : decode w = .ok i) : issueWord w s = exec i s := by
  unfold issueWord; rw [h]

theorem issueWord_error {w : Word} {e : DecodeError} (h : decode w = .error e) :
    issueWord w s = rejectWord e s := by unfold issueWord; rw [h]

/-- A block that is not faulted rejects a word by a usage fault and nothing else. -/
theorem rejectWord_takes (e : DecodeError) (hf : s.faulted = false) :
    ∃ t, rejectWord e s = .next t ∧ TakesUsageFault s t (DecodeError.usage e).code :=
  ⟨_, runCommand_usage hf (reraise_run _ _), by simp [TakesUsageFault, State.raiseUsage, State.begin, hf]⟩

/-- Settles O7: the port runs what the decoder reads, and the decoder reads what the encoder writes. -/
theorem stepRunsTheDecodedCommand : Obligations.StepRunsTheDecodedCommand := by
  unfold Obligations.StepRunsTheDecodedCommand
  refine ⟨fun s w i rest hh hw => (step_cons hh).trans (issueWord_ok hw), fun s w e rest hh hw hf => ?_, fun s i => ?_⟩
  · obtain ⟨t, ht, hu⟩ := rejectWord_takes (s := s.withHost rest) e hf
    refine ⟨t, ((step_cons hh).trans (issueWord_error hw)).trans ht, ?_⟩
    cases e with
    | illegalOpcode => exact hu
    | reservedField => exact hu
  · have hword : BitVec.ofNat 32 ((encode i).toNat % 2 ^ 32) = encode i := by
      rw [Nat.mod_eq_of_lt (encode i).isLt, BitVec.ofNat_toNat, BitVec.setWidth_eq]
    have hhost : (s.withFetchWord 32 (encode i).toNat).host = .command (encode i) :: s.host := by
      rw [State.withFetchWord, hword]; rfl
    exact (step_cons hhost).trans (issueWord_ok (decode_encode i))

/-! ## The host's writes (rules R51, R60, R79) -/

/-- Settles O8: a write within `TXBUF` is a run of bytes from its index on. -/
theorem hostWritesTheTransmitBuffer : Obligations.HostWritesTheTransmitBuffer := by
  unfold Obligations.HostWritesTheTransmitBuffer
  intro s i bytes rest hh
  rw [step_cons hh]
  exact ⟨fun hb => ⟨_, if_pos hb, rfl, Memory.read_writeAll s.txbuf i.toNat bytes⟩,
    fun hb => if_neg (Nat.not_le.mpr hb)⟩

end Sys2Proof.Machine
end

section
/-! What a command's samples are (O18): every body records, in the sense of Laws/Record.lean, so the levels of its trace
are the bus's answers in order. -/

namespace Sys2Proof.Machine

variable {s t : State}

/-- The configuration of `TW_INIT` is two events and registers outside the record (rule R131). -/
theorem Records.twConfigure (c d : PinId) : Records (twConfigure c d) :=
  .bind (.cfg c _) fun _ => .bind (.cfg d _) fun _ =>
    .bind (.update (fun _ => rfl) (fun _ => rfl) (fun _ => rfl) fun _ => rfl) fun _ =>
    .bind (.update (fun _ => rfl) (fun _ => rfl) (fun _ => rfl) fun _ => rfl) fun _ =>
    .bind (.setInTx _) fun _ => .update (fun _ => rfl) (fun _ => rfl) (fun _ => rfl) fun _ => rfl

theorem Records.twInitBody (c d : PinId) : Records (twInitBody c d) :=
  .bind (.look _) fun _ => .ite (.errIf _ _) (.twConfigure c d)

theorem Records.matchDeviceBody (idx : Byte) : Records (matchDeviceBody idx) := by
  refine .bind (.look _) fun found => ?_
  cases found with
  | none => exact .pure _
  | some r => exact .bind (.owWriteByte _ _) fun _ => .owWriteList _ _

theorem Records.seed : Records seed := .setCursor fun _ => Cursor.seed

theorem Records.searchPassBody (p : PinId) (cmd : Byte) (sd : Bool) : Records (searchPassBody p cmd sd) :=
  have hpass : Records (do let _ ← Machine.searchPass p cmd; Pure.pure ()) := .bind (.searchPass p cmd) fun _ => .pure _
  .bind (.errIf _ _) fun _ => .ite (.bind .seed fun _ => hpass) hpass

theorem Records.searchBody (p : PinId) (cmd : Byte) : Records (searchBody p cmd) :=
  .bind (.errIf _ _) fun _ => .bind (.look _) fun _ => .bind (.errIf _ _) fun _ => .bind .seed fun _ =>
    .bind (.look _) fun _ => .searchLoop p cmd _

/-- Every command's body records what it does on the pins and what the bus answers. -/
theorem Records.bodyOf (i : Instr) : Records (bodyOf i) := by
  cases i with
  | twInit c d => exact .twInitBody c d
  | twSetSpeed lvl => exact .update (fun _ => rfl) (fun _ => rfl) (fun _ => rfl) fun _ => rfl
  | twStart => exact .start
  | twStop => exact .stop
  | twWriteByte x => exact .bind (.writeByte x) fun _ => .setResult _
  | twReadByte k => exact .bind (.readByte k) fun _ => .setResult _
  | twWriteBytes len => exact .writeTxBytes _ _
  | twReadBytes len => exact .readRxBytes _ _
  | twStartRw ab son => exact .startRw ab son
  | twStartWrite a r => exact .startWrite a r
  | twStartRead a r => exact .bind (.startWrite a r) fun _ => .startRw _ _
  | twScan =>
    exact .bind (.setTwDevList _) fun _ => .bind (.scanProbes _) fun _ => .bind (.look _) fun _ => .setResult _
  | twFree => exact .setTwDevList fun _ => []
  | owInit p => exact .cfg p _
  | owReset p => exact .bind (.owReset p) fun _ => .setResult _
  | owReadBit p => exact .bind (.owReadBit p) fun _ => .setResult _
  | owWriteBit p b => exact .owWriteBit p b
  | owRead p => exact .bind (.owReadByte p) fun _ => .setResult _
  | owWrite p x => exact .owWriteByte p x
  | owReadBytes p len => exact .bind (.owReadRx p _ _) fun _ => .pure _
  | owWriteBytes p len => exact .owWriteTx p _ _
  | owCrc8 c x => exact .setResult _
  | owMatchRom p => exact .bind (.owWriteByte p _) fun _ => .owWriteTx p _ _
  | owMatchDevice idx => exact .matchDeviceBody idx
  | owReadRom p => exact .bind (.owWriteByte p _) fun _ => .bind (.owReadRx p _ _) fun _ => .errIf _ _
  | owSearchPass p cmd sd => exact .searchPassBody p cmd sd
  | owSearch p cmd => exact .bind (.searchBody p cmd) fun _ => .bind (.look _) fun _ => .setResult _
  | owSearchFamily p cmd f =>
    exact .bind (.searchBody p cmd) fun _ => .bind (.setOwDevList _) fun _ => .bind (.look _) fun _ =>
      .bind (.errIf _ _) fun _ => .bind (.look _) fun _ => .setResult _
  | owFree => exact .setOwDevList fun _ => []

/-- Nothing has been recorded when a command is issued. -/
theorem Rec.begin (s : State) : Rec s.begin s.begin := ⟨.refl _, fun _ _ => trivial⟩

/-- What a body keeps from the issue on, however it ends, holds of the state a command completes or faults in. -/
theorem exec_ends {i : Instr} {R : State → Prop} (h : exec i s = .next t) (h0 : R s.begin)
    (hbody : Triple R (bodyOf i) (fun _ => R) (fun _ => R)) :
    ∃ u, R u ∧ ((∃ c, t = u.complete c) ∨ ∃ r, t = u.raiseUsage r) := by
  obtain ⟨r, -, rfl⟩ | ⟨-, hrun⟩ := exec_next h
  · exact ⟨s.begin, h0, .inr ⟨r, rfl⟩⟩
  · obtain ⟨-, ⟨u, hu, rfl⟩ | ⟨e, u, hu, rfl⟩ | ⟨r, u, hu, rfl⟩⟩ := runCommand_next hrun
    · exact ⟨u, hbody.ok h0 hu, .inl ⟨_, rfl⟩⟩
    · exact ⟨u, hbody.error h0 hu, .inl ⟨_, rfl⟩⟩
    · exact ⟨u, hbody.error h0 hu, .inr ⟨r, rfl⟩⟩

/-- From its issue on, a command records, however it ends. -/
theorem exec_recorded {i : Instr} (h : exec i s = .next t) : Recorded s.begin t := by
  obtain ⟨u, ⟨hu, -⟩, ⟨c, rfl⟩ | ⟨r, rfl⟩⟩ := exec_ends h (.begin s) (Records.bodyOf i s.begin)
  · exact hu
  · exact hu

/-- Settles O18: what a command records are the bus's answers from its issue on, and the answers left come after. -/
theorem samplesAreTheBusAnswers : Obligations.SamplesAreTheBusAnswers := by
  unfold Obligations.SamplesAreTheBusAnswers
  intro i s t h
  obtain ⟨es, hevents, -, hbus, hdraws, hlevels⟩ := exec_recorded h
  have htrace : t.trace = es := by simp [State.trace, hevents]
  rw [htrace]
  refine ⟨hlevels, fun j => ?_⟩
  simp [State.answer, hbus, hdraws, Nat.add_assoc]

end Sys2Proof.Machine
end

section
/-! What a command may write of the buffers and the lists (O25, O26). `Permits i s t` is the frame of command `i`, and
`Confined i x` says that the pseudocode `x`, run as part of `i`, stays within it whatever the bus answers and however it
ends; `Confined.bodyOf` is every body in its own frame. How a scan or a search fails is a law of its own. -/

namespace Sys2Proof.Machine

variable {α β : Type} {i : Instr} {s t u : State}

/-! ## The frame of a command -/

/-- The commands that may write `OW_DEVLIST` (rule R55). -/
def writesOwList (i : Instr) : Prop :=
  (∃ p cmd, i = .owSearch p cmd) ∨ (∃ p cmd f, i = .owSearchFamily p cmd f) ∨ i = .owFree

/-- From `s` to `t` the buffers and lists changed only as `i` may change them (rules R51, R55). -/
structure Permits (i : Instr) (s t : State) : Prop where
  txbuf : t.txbuf = s.txbuf
  rxbuf : ∀ j, rxLen i ≤ j → Memory.read t.rxbuf j = Memory.read s.rxbuf j
  twDevList : t.twDevList = s.twDevList ∨ i = .twScan ∨ i = .twFree
  owDevList : t.owDevList = s.owDevList ∨ writesOwList i

/-- None of the buffers and lists changed. -/
theorem Permits.of_eq (htx : t.txbuf = s.txbuf) (hrx : t.rxbuf = s.rxbuf) (htw : t.twDevList = s.twDevList)
    (how : t.owDevList = s.owDevList) : Permits i s t := ⟨htx, fun _ _ => by rw [hrx], .inl htw, .inl how⟩

theorem Permits.trans (h : Permits i s t) (h' : Permits i t u) : Permits i s u where
  txbuf := h'.txbuf.trans h.txbuf
  rxbuf j hj := (h'.rxbuf j hj).trans (h.rxbuf j hj)
  twDevList := h'.twDevList.elim (fun e => e ▸ h.twDevList) .inr
  owDevList := h'.owDevList.elim (fun e => e ▸ h.owDevList) .inr

/-- `x` stays within what command `i` may write. -/
def Confined (i : Instr) (x : Op α) : Prop :=
  ∀ s₀, Triple (Permits i s₀) x (fun _ => Permits i s₀) fun _ => Permits i s₀

/-! ## Sequencing -/

theorem Confined.bind {x : Op α} {f : α → Op β} (hx : Confined i x) (hf : ∀ a, Confined i (f a)) :
    Confined i (x >>= f) := fun s₀ => Triple.bind (hx s₀) fun a => hf a s₀

theorem Confined.pure (a : α) : Confined i (Pure.pure a : Op α) := fun _ => Triple.pure fun _ h => h
theorem Confined.look (f : State → α) : Confined i (look f) := fun _ => Triple.look fun _ h => h
theorem Confined.raiseErr (e : Err) : Confined i (raiseErr e : Op α) := fun _ => Triple.raiseErr fun _ h => h
theorem Confined.reraise (r : Raise) : Confined i (reraise r : Op α) := fun _ => Triple.reraise fun _ h => h
theorem Confined.errIf (c : Bool) (e : Err) : Confined i (errIf c e) :=
  fun _ => Triple.errIf (fun _ h _ => h) fun _ h _ => h
theorem Confined.readTx (j : Nat) : Confined i (readTx j) := fun _ => Triple.readTx (fun _ _ h _ => h) fun _ h _ => h
theorem Confined.attempt {x : Op α} (hx : Confined i x) : Confined i (attempt x) :=
  fun s₀ => (hx s₀).attempt (fun _ _ h => h) fun _ _ h => h
theorem Confined.ite {c : Bool} {x y : Op α} (hx : Confined i x) (hy : Confined i y) :
    Confined i (if c then x else y) := fun s₀ => Triple.ite (fun _ => hx s₀) fun _ => hy s₀
theorem Confined.update {f : State → State} (hf : ∀ s, Permits i s (f s)) : Confined i (update f) :=
  fun _ => Triple.update fun s h => h.trans (hf s)

/-! ## The primitives -/

/-- An update of neither the buffers nor the lists. -/
theorem Confined.quiet {f : State → State} (htx : ∀ s, (f s).txbuf = s.txbuf) (hrx : ∀ s, (f s).rxbuf = s.rxbuf)
    (htw : ∀ s, (f s).twDevList = s.twDevList) (how : ∀ s, (f s).owDevList = s.owDevList) :
    Confined i (Machine.update f) := .update fun s => .of_eq (htx s) (hrx s) (htw s) (how s)

theorem Confined.event (f : State → Event) : Confined i (Machine.update fun s => s.play [f s]) :=
  .quiet (fun _ => rfl) (fun _ => rfl) (fun _ => rfl) fun _ => rfl
theorem Confined.cfg (p : PinId) (m : CfgMode) : Confined i (cfg p m) := .event fun _ => .cfg p m
theorem Confined.low (p : PinId) : Confined i (low p) := .event fun _ => .low p
theorem Confined.rel (p : PinId) : Confined i (rel p) := .event fun _ => .rel p
theorem Confined.wait (n : Nat) : Confined i (wait n) := .event fun _ => .wait n
theorem Confined.sample (p : PinId) : Confined i (sample p) := fun _ => ⟨fun s h => by
  rw [sample_run]; exact h.trans (.of_eq rfl rfl rfl rfl)⟩
theorem Confined.setResult (v : Byte) : Confined i (setResult v) :=
  .quiet (fun _ => rfl) (fun _ => rfl) (fun _ => rfl) fun _ => rfl
theorem Confined.setInTx (b : Bool) : Confined i (setInTx b) :=
  .quiet (fun _ => rfl) (fun _ => rfl) (fun _ => rfl) fun _ => rfl
theorem Confined.setCursor (f : State → Cursor) : Confined i (Machine.update fun s => s.setCursor (f s)) :=
  .quiet (fun _ => rfl) (fun _ => rfl) (fun _ => rfl) fun _ => rfl

/-- A byte of `RXBUF` below the command's length. -/
theorem Confined.writeRx {j : Nat} (hj : j < rxLen i) (b : Byte) : Confined i (writeRx j b) :=
  .update fun s => ⟨rfl, fun k hk => (Memory.read_write ..).trans (if_neg (by omega)), .inl rfl, .inl rfl⟩

theorem Confined.setTwDevList (hi : i = .twScan ∨ i = .twFree) (f : State → List Byte) :
    Confined i (Machine.update fun s => s.setTwDevList (f s)) :=
  .update fun _ => ⟨rfl, fun _ _ => rfl, .inr hi, .inl rfl⟩

theorem Confined.setOwDevList (hi : writesOwList i) (f : State → List OwRecord) :
    Confined i (Machine.update fun s => s.setOwDevList (f s)) :=
  .update fun _ => ⟨rfl, fun _ _ => rfl, .inl rfl, .inr hi⟩

/-! ## The two-wire bus -/

theorem Confined.lowScl : Confined i lowScl := .bind (.look _) fun _ => .low _
theorem Confined.relScl : Confined i relScl := .bind (.look _) fun _ => .rel _
theorem Confined.sampleScl : Confined i sampleScl := .bind (.look _) fun _ => .sample _
theorem Confined.lowSda : Confined i lowSda := .bind (.look _) fun _ => .low _
theorem Confined.relSda : Confined i relSda := .bind (.look _) fun _ => .rel _
theorem Confined.sampleSda : Confined i sampleSda := .bind (.look _) fun _ => .sample _
theorem Confined.waitShort : Confined i waitShort := .bind (.look _) fun _ => .wait _
theorem Confined.waitLong : Confined i waitLong := .bind (.look _) fun _ => .wait _

theorem Confined.failFast : Confined i failFast := .bind .relScl fun _ => .bind .relSda fun _ => .setInTx _

theorem Confined.pollScl (k : Nat) : Confined i (pollScl k) := by
  induction k with
  | zero => exact .pure _
  | succ k ih => exact .bind .sampleScl fun _ => .ite (.pure _) ih

theorem Confined.stretchWait : Confined i stretchWait :=
  .bind (.look _) fun _ => .bind (.pollScl _) fun _ => .ite (.pure _) (.bind .failFast fun _ => .raiseErr _)

theorem Confined.tick (smp : Bool) : Confined i (tick smp) :=
  .bind .lowScl fun _ => .bind .waitShort fun _ => .bind .relScl fun _ => .bind .stretchWait fun _ =>
    .bind .waitLong fun _ => .bind (.ite .sampleSda (.pure _)) fun _ => .bind .lowScl fun _ =>
    .bind .waitShort fun _ => .pure _

theorem Confined.putBit (b : Bool) : Confined i (putBit b) :=
  .bind (.ite .relSda .lowSda) fun _ => .bind (.tick _) fun _ => .pure _

theorem Confined.getBit : Confined i getBit := .bind .relSda fun _ => .tick _

theorem Confined.startCondition : Confined i startCondition :=
  .bind .waitShort fun _ => .bind .lowSda fun _ => .bind .waitShort fun _ => .bind .lowScl fun _ =>
    .bind .waitShort fun _ => .relSda

theorem Confined.startIdle : Confined i startIdle :=
  .bind .relSda fun _ => .bind .relScl fun _ => .bind .waitShort fun _ => .bind .sampleSda fun _ =>
    .ite (.bind .stretchWait fun _ => .bind .startCondition fun _ => .setInTx _)
      (.bind .failFast fun _ => .raiseErr _)

theorem Confined.startRepeated : Confined i startRepeated :=
  .bind .relSda fun _ => .bind .waitShort fun _ => .bind .relScl fun _ => .bind .stretchWait fun _ => .startCondition

theorem Confined.start : Confined i start := .bind (.look _) fun _ => .ite .startRepeated .startIdle

theorem Confined.stop : Confined i stop :=
  .bind (.look _) fun _ => .bind (.errIf _ _) fun _ => .bind .lowSda fun _ => .bind .waitShort fun _ =>
    .bind .relScl fun _ => .bind .stretchWait fun _ => .bind .waitShort fun _ => .bind .relSda fun _ =>
    .bind .waitShort fun _ => .setInTx _

theorem Confined.putBits (x : Byte) (k : Nat) : Confined i (putBits x k) := by
  induction k with
  | zero => exact .pure _
  | succ k ih => exact .bind (.putBit _) fun _ => ih

theorem Confined.writeByte (x : Byte) : Confined i (writeByte x) := .bind (.putBits x 8) fun _ => .getBit

theorem Confined.getBits (k : Nat) (x : Byte) : Confined i (getBits k x) := by
  induction k generalizing x with
  | zero => exact .pure _
  | succ k ih => exact .bind .getBit fun _ => ih _

theorem Confined.readByte (k : Bool) : Confined i (readByte k) :=
  .bind (.getBits 8 _) fun _ => .bind (.putBit k) fun _ => .bind .relSda fun _ => .pure _

theorem Confined.nackAddress (son : Bool) : Confined i (nackAddress son) := by
  refine .ite (.bind (.attempt .stop) fun r => ?_) (.raiseErr _)
  split
  · exact .raiseErr _
  · exact .raiseErr _
  · exact .reraise _

theorem Confined.startRw (ab : Byte) (son : Bool) : Confined i (startRw ab son) :=
  .bind .start fun _ => .bind (.writeByte ab) fun _ => .ite (.nackAddress son) (.pure _)

theorem Confined.nackData : Confined i nackData := .bind .failFast fun _ => .raiseErr _

theorem Confined.startWrite (a : BitVec 7) (r : Byte) : Confined i (startWrite a r) :=
  .bind (.startRw _ _) fun _ => .bind (.writeByte r) fun _ => .ite .nackData (.pure _)

theorem Confined.writeTxBytes (k j : Nat) : Confined i (writeTxBytes k j) := by
  induction k generalizing j with
  | zero => exact .pure _
  | succ k ih => exact .bind (.readTx j) fun _ => .bind (.writeByte _) fun _ => .ite .nackData (ih _)

theorem Confined.readRxBytes (k j : Nat) (h : j + k ≤ rxLen i) : Confined i (readRxBytes k j) := by
  induction k generalizing j with
  | zero => exact .pure _
  | succ k ih =>
    exact .bind (.readByte _) fun _ => .bind (.writeRx (by omega) _) fun _ => ih _ (by omega)

section
variable (hi : i = .twScan ∨ i = .twFree)
include hi

theorem Confined.freeTwAndRaise (r : Raise) : Confined i (freeTwAndRaise r) :=
  .bind (.setTwDevList hi _) fun _ => .reraise r

theorem Confined.scanFound (a : BitVec 7) : Confined i (scanFound a) := by
  refine .bind (.attempt .stop) fun r => ?_
  split
  · exact .freeTwAndRaise hi _
  · exact .bind (.look _) fun _ => .ite (.freeTwAndRaise hi _) (.setTwDevList hi _)

theorem Confined.scanProbe (a : BitVec 7) : Confined i (scanProbe a) := by
  refine .bind (.look _) fun _ => .ite (.pure _) (.bind (.attempt (.startRw _ _)) fun r => ?_)
  split
  · exact .pure _
  · exact .freeTwAndRaise hi _
  · exact .scanFound hi a

theorem Confined.scanProbes (as : List (BitVec 7)) : Confined i (scanProbes as) := by
  induction as with
  | nil => exact .pure _
  | cons a as ih => exact .bind (.scanProbe hi a) fun _ => ih

end

/-- The configuration of `TW_INIT` writes registers and pins only (rule R131). -/
theorem Confined.twInitBody (c d : PinId) : Confined i (twInitBody c d) := by
  refine .bind (.look _) fun _ => .ite (.errIf _ _) fun s₀ => ⟨fun s h => ?_⟩
  rw [twConfigure_run]
  exact h.trans (.of_eq (by simp [State.twConfigured]) (by simp [State.twConfigured]) (by simp [State.twConfigured])
    (by simp [State.twConfigured]))

/-! ## The one-wire bus -/

theorem Confined.owWriteBit (p : PinId) (b : Bool) : Confined i (owWriteBit p b) :=
  .bind (.look _) fun _ => .bind (.low p) fun _ => .bind (.wait _) fun _ => .bind (.rel p) fun _ => .wait _

theorem Confined.owReadBit (p : PinId) : Confined i (owReadBit p) :=
  .bind (.look _) fun _ => .bind (.low p) fun _ => .bind (.wait _) fun _ => .bind (.rel p) fun _ =>
    .bind (.wait _) fun _ => .bind (.sample p) fun _ => .bind (.wait _) fun _ => .pure _

theorem Confined.owWriteBits (p : PinId) (x : Byte) (n j : Nat) : Confined i (owWriteBits p x n j) := by
  induction n generalizing j with
  | zero => exact .pure _
  | succ n ih => exact .bind (.owWriteBit _ _) fun _ => ih _

theorem Confined.owWriteByte (p : PinId) (x : Byte) : Confined i (owWriteByte p x) := .owWriteBits p x 8 0

theorem Confined.owReadBits (p : PinId) (n j : Nat) (x : Byte) : Confined i (owReadBits p n j x) := by
  induction n generalizing j x with
  | zero => exact .pure _
  | succ n ih => exact .bind (.owReadBit _) fun _ => ih _ _

theorem Confined.owReadByte (p : PinId) : Confined i (owReadByte p) := .owReadBits p 8 0 _

theorem Confined.presencePolls (p : PinId) (n k : Nat) : Confined i (presencePolls p n k) := by
  induction n generalizing k with
  | zero => exact .pure _
  | succ n ih =>
    exact .bind (.look _) fun _ => .bind (.wait _) fun _ => .bind (.sample p) fun _ => .ite (ih _) (.pure _)

theorem Confined.owReset (p : PinId) : Confined i (owReset p) :=
  .bind (.look _) fun _ => .bind (.low p) fun _ => .bind (.wait _) fun _ => .bind (.rel p) fun _ =>
    .bind (.presencePolls p _ 0) fun _ => .bind (.wait _) fun _ => .pure _

theorem Confined.owWriteList (p : PinId) (xs : List Byte) : Confined i (owWriteList p xs) := by
  induction xs with
  | nil => exact .pure _
  | cons x xs ih => exact .bind (.owWriteByte p x) fun _ => ih

theorem Confined.matchDeviceBody (idx : Byte) : Confined i (matchDeviceBody idx) := by
  refine .bind (.look _) fun found => ?_
  cases found with
  | none => exact .pure _
  | some r => exact .bind (.owWriteByte _ _) fun _ => .owWriteList _ _

theorem Confined.owWriteTx (p : PinId) (n j : Nat) : Confined i (owWriteTx p n j) := by
  induction n generalizing j with
  | zero => exact .pure _
  | succ n ih => exact .bind (.readTx j) fun _ => .bind (.owWriteByte p _) fun _ => ih _

theorem Confined.owReadRx (p : PinId) (n j : Nat) (h : j + n ≤ rxLen i) : Confined i (owReadRx p n j) := by
  induction n generalizing j with
  | zero => exact .pure _
  | succ n ih =>
    exact .bind (.owReadByte p) fun _ => .bind (.writeRx (by omega) _) fun _ => .bind (ih _ (by omega)) fun _ => .pure _

/-! ## The ROM search -/

theorem Confined.searchSteps (p : PinId) (c : Cursor) (k n : Nat) (rom : Rom) (z : Nat) :
    Confined i (searchSteps p c k n rom z) := by
  induction k generalizing n rom z with
  | zero => exact .pure _
  | succ k ih =>
    refine .bind (.owReadBit p) fun _ => .bind (.owReadBit p) fun _ => ?_
    split
    · exact .raiseErr _
    · exact .bind (.owWriteBit p _) fun _ => ih _ _ _

theorem Confined.seed : Confined i seed := .setCursor fun _ => Cursor.seed

theorem Confined.searchPass (p : PinId) (cmd : Byte) : Confined i (searchPass p cmd) :=
  .bind (.look _) fun _ => .bind (.owReset p) fun _ => .bind (.errIf _ _) fun _ => .bind (.owWriteByte p cmd) fun _ =>
    .bind (.searchSteps p _ _ _ _ _) fun _ => .bind (.errIf _ _) fun _ => .bind (.errIf _ _) fun _ =>
    .bind (.setCursor _) fun _ => .pure _

theorem Confined.searchPassBody (p : PinId) (cmd : Byte) (sd : Bool) : Confined i (searchPassBody p cmd sd) :=
  have hpass : Confined i (do let _ ← Machine.searchPass p cmd; Pure.pure ()) :=
    .bind (.searchPass p cmd) fun _ => .pure _
  .bind (.errIf _ _) fun _ => .ite (.bind .seed fun _ => hpass) hpass

section
variable (hi : writesOwList i)
include hi

theorem Confined.freeOwAndRaise (r : Raise) : Confined i (freeOwAndRaise r) :=
  .bind (.setOwDevList hi _) fun _ => .reraise r

theorem Confined.searchLoop (p : PinId) (cmd : Byte) (k : Nat) : Confined i (searchLoop p cmd k) := by
  induction k with
  | zero =>
    refine .bind (.attempt (.searchPass p cmd)) fun r => ?_
    split
    · exact .freeOwAndRaise hi _
    · exact .freeOwAndRaise hi _
  | succ k ih =>
    refine .bind (.attempt (.searchPass p cmd)) fun r => ?_
    split
    · exact .freeOwAndRaise hi _
    · exact .bind (.setOwDevList hi _) fun _ => .bind (.look _) fun _ => .ite (.pure _) ih

theorem Confined.searchBody (p : PinId) (cmd : Byte) : Confined i (searchBody p cmd) :=
  .bind (.errIf _ _) fun _ => .bind (.look _) fun _ => .bind (.errIf _ _) fun _ => .bind .seed fun _ =>
    .bind (.look _) fun _ => .searchLoop hi p cmd _

end

/-! ## Every command -/

/-- Every command stays within its own frame. -/
theorem Confined.bodyOf (i : Instr) : Confined i (bodyOf i) := by
  cases i with
  | twInit c d => exact .twInitBody c d
  | twSetSpeed lvl => exact .quiet (fun _ => rfl) (fun _ => rfl) (fun _ => rfl) fun _ => rfl
  | twStart => exact .start
  | twStop => exact .stop
  | twWriteByte x => exact .bind (.writeByte x) fun _ => .setResult _
  | twReadByte k => exact .bind (.readByte k) fun _ => .setResult _
  | twWriteBytes len => exact .writeTxBytes _ _
  | twReadBytes len => exact .readRxBytes _ _ (Nat.zero_add _).le
  | twStartRw ab son => exact .startRw ab son
  | twStartWrite a r => exact .startWrite a r
  | twStartRead a r => exact .bind (.startWrite a r) fun _ => .startRw _ _
  | twScan =>
    exact .bind (.setTwDevList (.inl rfl) _) fun _ => .bind (.scanProbes (.inl rfl) _) fun _ => .bind (.look _) fun _ =>
      .setResult _
  | twFree => exact .setTwDevList (.inr rfl) fun _ => []
  | owInit p => exact .cfg p _
  | owReset p => exact .bind (.owReset p) fun _ => .setResult _
  | owReadBit p => exact .bind (.owReadBit p) fun _ => .setResult _
  | owWriteBit p b => exact .owWriteBit p b
  | owRead p => exact .bind (.owReadByte p) fun _ => .setResult _
  | owWrite p x => exact .owWriteByte p x
  | owReadBytes p len => exact .bind (.owReadRx p _ _ (Nat.zero_add _).le) fun _ => .pure _
  | owWriteBytes p len => exact .owWriteTx p _ _
  | owCrc8 c x => exact .setResult _
  | owMatchRom p => exact .bind (.owWriteByte p _) fun _ => .owWriteTx p _ _
  | owMatchDevice idx => exact .matchDeviceBody idx
  | owReadRom p =>
    exact .bind (.owWriteByte p _) fun _ => .bind (.owReadRx p _ _ (Nat.zero_add _).le) fun _ => .errIf _ _
  | owSearchPass p cmd sd => exact .searchPassBody p cmd sd
  | owSearch p cmd =>
    exact .bind (.searchBody (.inl ⟨p, cmd, rfl⟩) p cmd) fun _ => .bind (.look _) fun _ => .setResult _
  | owSearchFamily p cmd f =>
    have hi : writesOwList (.owSearchFamily p cmd f) := .inr (.inl ⟨p, cmd, f, rfl⟩)
    exact .bind (.searchBody hi p cmd) fun _ => .bind (.setOwDevList hi _) fun _ => .bind (.look _) fun _ =>
      .bind (.errIf _ _) fun _ => .bind (.look _) fun _ => .setResult _
  | owFree => exact .setOwDevList (.inr (.inr rfl)) fun _ => []

/-- However a command ends, it has written what it may write. -/
theorem exec_permits (h : exec i s = .next t) : Permits i s t := by
  obtain ⟨u, hu, ⟨c, rfl⟩ | ⟨r, rfl⟩⟩ := exec_ends h (.of_eq rfl rfl rfl rfl) (Confined.bodyOf i s)
  · exact hu.trans (.of_eq rfl rfl rfl rfl)
  · exact hu.trans (.of_eq rfl rfl rfl rfl)

/-- Settles O25: the frame of a command holds `TXBUF` and all of `RXBUF` from the command's length on. -/
theorem commandsKeepTheBuffers : Obligations.CommandsKeepTheBuffers := by
  unfold Obligations.CommandsKeepTheBuffers
  intro i s t h
  have hkeep := exec_permits h
  exact ⟨fun j => by rw [hkeep.txbuf], hkeep.rxbuf⟩

/-! ## Failures (rules R55, R143, R216, R217) -/

/-- Every raise of `x`, with the state it is made in, is one of `E`. -/
def RaisesOnly (E : Raise → State → Prop) (x : Op α) : Prop := Triple (fun _ => True) x (fun _ _ => True) E

section
variable {E : Raise → State → Prop}

theorem RaisesOnly.bind {x : Op α} {f : α → Op β} (hx : RaisesOnly E x) (hf : ∀ a, RaisesOnly E (f a)) :
    RaisesOnly E (x >>= f) := Triple.bind hx hf

theorem RaisesOnly.pure (a : α) : RaisesOnly E (Pure.pure a : Op α) := Triple.pure fun _ h => h
theorem RaisesOnly.look (f : State → α) : RaisesOnly E (look f) := Triple.look fun _ _ => trivial
theorem RaisesOnly.update (f : State → State) : RaisesOnly E (update f) := Triple.update fun _ h => h
theorem RaisesOnly.ite {c : Bool} {x y : Op α} (hx : RaisesOnly E x) (hy : RaisesOnly E y) :
    RaisesOnly E (if c then x else y) := Triple.ite (fun _ => hx) fun _ => hy
theorem RaisesOnly.errIf (c : Bool) {e : Err} (he : ∀ s, E (.err e) s) : RaisesOnly E (errIf c e) :=
  Triple.errIf (fun _ h _ => h) fun s _ _ => he s

/-- What is attempted raises nothing, so only what follows can. -/
theorem RaisesOnly.attempt (x : Op α) {f : Except Raise α → Op β} (hf : ∀ r, RaisesOnly E (f r)) :
    RaisesOnly E (Machine.attempt x >>= f) := by
  have hx : Triple (fun _ => True) x (fun _ _ => True) fun _ _ => True :=
    Triple.of (fun _ _ _ _ _ => trivial) fun _ _ _ _ _ => trivial
  exact Triple.bind (hx.attempt (fun _ _ h => h) fun _ _ h => h) hf

end

/-- `TW_DEVLIST` is empty. -/
def TwEmptied (_ : Raise) (u : State) : Prop := u.twDevList = []

theorem raisesOnly_freeTwAndRaise (r : Raise) : RaisesOnly TwEmptied (freeTwAndRaise r) :=
  Triple.bind (Q := fun _ u => u.twDevList = []) (Triple.update fun _ _ => rfl) fun _ => Triple.reraise fun _ h => h

theorem raisesOnly_scanFound (a : BitVec 7) : RaisesOnly TwEmptied (scanFound a) := by
  refine .attempt _ fun r => ?_
  split
  · exact raisesOnly_freeTwAndRaise _
  · exact .bind (.look _) fun _ => .ite (raisesOnly_freeTwAndRaise _) (.update _)

theorem raisesOnly_scanProbe (a : BitVec 7) : RaisesOnly TwEmptied (scanProbe a) := by
  refine .bind (.look _) fun _ => .ite (.pure _) (.attempt _ fun r => ?_)
  split
  · exact .pure _
  · exact raisesOnly_freeTwAndRaise _
  · exact raisesOnly_scanFound a

theorem raisesOnly_scanProbes (as : List (BitVec 7)) : RaisesOnly TwEmptied (scanProbes as) := by
  induction as with
  | nil => exact .pure _
  | cons a as ih => exact .bind (raisesOnly_scanProbe a) fun _ => ih

/-- A scan raises only from its probes. -/
theorem raisesOnly_scan : RaisesOnly TwEmptied (bodyOf .twScan) :=
  .bind (.update _) fun _ => .bind (raisesOnly_scanProbes _) fun _ => .bind (.look _) fun _ => .update _

/-- `BadCommand` and `RootNotEmpty`, which a search raises before its passes (log 22), or any raise with `OW_DEVLIST`
empty. -/
def SearchRaise (r : Raise) (u : State) : Prop := r = .err .badCommand ∨ r = .err .rootNotEmpty ∨ u.owDevList = []

theorem raisesOnly_freeOwAndRaise (r : Raise) : RaisesOnly SearchRaise (freeOwAndRaise r) :=
  Triple.bind (Q := fun _ u => u.owDevList = []) (Triple.update fun _ _ => rfl) fun _ =>
    Triple.reraise fun _ h => .inr (.inr h)

theorem raisesOnly_searchLoop (p : PinId) (cmd : Byte) (k : Nat) : RaisesOnly SearchRaise (searchLoop p cmd k) := by
  induction k with
  | zero =>
    refine .attempt _ fun r => ?_
    split
    · exact raisesOnly_freeOwAndRaise _
    · exact raisesOnly_freeOwAndRaise _
  | succ k ih =>
    refine .attempt _ fun r => ?_
    split
    · exact raisesOnly_freeOwAndRaise _
    · exact .bind (.update _) fun _ => .bind (.look _) fun _ => .ite (.pure _) ih

theorem raisesOnly_searchBody (p : PinId) (cmd : Byte) : RaisesOnly SearchRaise (searchBody p cmd) :=
  .bind (.errIf _ fun _ => .inl rfl) fun _ => .bind (.look _) fun _ =>
    .bind (.errIf _ fun _ => .inr (.inl rfl)) fun _ => .bind (.update _) fun _ => .bind (.look _) fun _ =>
    raisesOnly_searchLoop p cmd _

theorem raisesOnly_search (p : PinId) (cmd : Byte) : RaisesOnly SearchRaise (bodyOf (.owSearch p cmd)) :=
  .bind (raisesOnly_searchBody p cmd) fun _ => .bind (.look _) fun _ => .update _

/-- A search by family also raises `NoDevice` when it keeps no record, which is an empty list (rule R217). -/
theorem raisesOnly_searchFamily (p : PinId) (cmd f : Byte) :
    RaisesOnly SearchRaise (bodyOf (.owSearchFamily p cmd f)) := by
  refine .bind (raisesOnly_searchBody p cmd) fun _ => .bind (.update _) fun _ =>
    Triple.bind (Q := fun kept u => kept = u.owDevCount) (Triple.look fun _ _ => rfl) fun kept =>
    Triple.bind (Q := fun _ _ => True) (Triple.errIf (fun _ _ _ => trivial) fun u hkept hnone => ?_) fun _ =>
    RaisesOnly.bind (.look _) fun _ => .update _
  have hcount : u.owDevCount = 0 := hkept ▸ beq_iff_eq.mp hnone
  exact .inr (.inr (List.length_eq_zero_iff.mp hcount))

/-- A command that completed with another code than `OK` raised the error of that code. -/
theorem exec_failed {E : Raise → State → Prop} (h : exec i s = .next t) (hf : t.faulted = false)
    (hst : t.status ≠ 0x00) (hbody : RaisesOnly E (bodyOf i)) :
    ∃ e u, t = u.complete e.code ∧ E (.err e) u := by
  obtain ⟨r, -, rfl⟩ | ⟨-, hrun⟩ := exec_next h
  · cases hf
  · obtain ⟨-, ⟨u, hu, rfl⟩ | ⟨e, u, hu, rfl⟩ | ⟨r, u, hu, rfl⟩⟩ := runCommand_next hrun
    · exact absurd rfl hst
    · exact ⟨e, u, rfl, hbody.error trivial hu⟩
    · cases hf

/-- A search that failed, but for the two errors before its passes, has an empty list. -/
theorem owDevList_of_failed (h : exec i s = .next t) (hf : t.faulted = false) (hst : t.status ≠ 0x00)
    (hbad : t.status ≠ 0x02) (hroot : t.status ≠ 0x0A) (hbody : RaisesOnly SearchRaise (bodyOf i)) :
    t.owDevList = [] := by
  obtain ⟨e, u, rfl, he | he | he⟩ := exec_failed h hf hst hbody
  · cases he; exact absurd rfl hbad
  · cases he; exact absurd rfl hroot
  · exact he

/-- Settles O26: the lists change within the commands' frames, and a scan or search raises with its list freed. -/
theorem failuresEmptyTheLists : Obligations.FailuresEmptyTheLists := by
  unfold Obligations.FailuresEmptyTheLists
  intro i s t h
  have hkeep := exec_permits h
  refine ⟨hkeep.twDevList.resolve_left, hkeep.owDevList.resolve_left, fun hi hf hst => ?_,
    fun hi hf hst hbad hroot => ?_⟩
  · subst hi
    obtain ⟨e, u, rfl, hu⟩ := exec_failed h hf hst raisesOnly_scan
    exact hu
  · obtain ⟨p, cmd, rfl⟩ | ⟨p, cmd, f, rfl⟩ := hi
    · exact owDevList_of_failed h hf hst hbad hroot (raisesOnly_search p cmd)
    · exact owDevList_of_failed h hf hst hbad hroot (raisesOnly_searchFamily p cmd f)

end Sys2Proof.Machine
end

section
/-! The order in which a search finds devices (rules R210, R211, R219). `searchKey` compares two ROMs at the first
position at which they differ, so the device after `a` in search order is the one that leaves `a`'s path at the last
conflict `a` took with a 0. -/

namespace Sys2Proof.Machine

variable {a b d r : Rom} {devs pre post : List Rom} {n q z : Nat} {vs : Nat → Bool × Bool}

/-! ## The search key -/

/-- The two ROMs are the same below position `n`. -/
def AgreeBelow (a b : Rom) (n : Nat) : Prop := ∀ m, 1 ≤ m → m < n → romBit a m = romBit b m

theorem AgreeBelow.symm (h : AgreeBelow a b n) : AgreeBelow b a n := fun m h1 hm => (h m h1 hm).symm

theorem AgreeBelow.trans (h : AgreeBelow a b n) (h' : AgreeBelow b d n) : AgreeBelow a d n :=
  fun m h1 hm => (h m h1 hm).trans (h' m h1 hm)

theorem AgreeBelow.mono (h : AgreeBelow a b n) (hq : q ≤ n) : AgreeBelow a b q :=
  fun m h1 hm => h m h1 (by omega)

/-- `q` is the first position at which the ROMs differ, and `a` has the 0 there. -/
structure FirstDiff (a b : Rom) (q : Nat) : Prop where
  pos : 1 ≤ q
  le : q ≤ 64
  agree : AgreeBelow a b q
  zero : romBit a q = false
  one : romBit b q = true

/-- One bit more of the key (rule R219). -/
def keyStep (r : Rom) (k n : Nat) : Nat := 2 * k + (romBit r n).toNat

theorem searchKey_eq_foldl (r : Rom) : searchKey r = (List.range' 1 64).foldl (keyStep r) 0 := rfl

/-- The positions before `q`, `q`, and those after. -/
theorem positions_split (h1 : 1 ≤ q) (h64 : q ≤ 64) :
    List.range' 1 64 = List.range' 1 (q - 1) ++ q :: List.range' (q + 1) (64 - q) := by
  rw [← List.range'_succ, show q = 1 + (q - 1) by omega, show 1 + (q - 1) - 1 = q - 1 by omega,
    List.range'_append_1]
  congr 1
  omega

/-- Bits that follow do not change the order of two keys. -/
theorem keyStep_foldl_lt (a b : Rom) (l : List Nat) {x y : Nat} (h : x < y) :
    l.foldl (keyStep a) x < l.foldl (keyStep b) y := by
  induction l generalizing x y with
  | nil => exact h
  | cons n l ih =>
    refine ih ?_
    have ha := (romBit a n).toNat_le
    unfold keyStep
    omega

theorem FirstDiff.searchKey_lt (h : FirstDiff a b q) : searchKey a < searchKey b := by
  have hbelow : (List.range' 1 (q - 1)).foldl (keyStep a) 0 = (List.range' 1 (q - 1)).foldl (keyStep b) 0 :=
    List.foldl_ext _ _ _ fun k m hm => by
      rw [List.mem_range'_1] at hm
      rw [keyStep, keyStep, h.agree m hm.1 (by omega)]
  rw [searchKey_eq_foldl, searchKey_eq_foldl, positions_split h.pos h.le, List.foldl_append, List.foldl_append,
    List.foldl_cons, List.foldl_cons, hbelow]
  refine keyStep_foldl_lt a b _ ?_
  simp [keyStep, h.zero, h.one]

/-- Of two ROMs the first difference decides. -/
theorem exists_firstDiff (h : searchKey a < searchKey b) : ∃ q, FirstDiff a b q := by
  by_cases hd : ∃ q, 1 ≤ q ∧ q ≤ 64 ∧ romBit a q ≠ romBit b q
  · classical
    obtain ⟨h1, h64, hne⟩ := Nat.find_spec hd
    have hagree : AgreeBelow a b (Nat.find hd) := fun m hm hlt => by
      by_contra hm'
      exact Nat.find_min hd hlt ⟨hm, by omega, hm'⟩
    cases ha : romBit a (Nat.find hd) with
    | false => exact ⟨_, h1, h64, hagree, ha, by simpa [ha] using hne⟩
    | true =>
      have hlt := FirstDiff.searchKey_lt ⟨h1, h64, hagree.symm, by simpa [ha] using hne, ha⟩
      omega
  · have heq : searchKey a = searchKey b := List.foldl_ext _ _ _ fun k m hm => by
      rw [List.mem_range'_1] at hm
      have : romBit a m = romBit b m := by
        by_contra hm'
        exact hd ⟨m, hm.1, by omega, hm'⟩
      rw [this]
    omega

/-! ## What the two read slots of a step say (rule R210) -/

theorem mem_onBus : d ∈ onBus devs r n ↔ d ∈ devs ∧ AgreeBelow d r n := by
  simp only [onBus, List.mem_filter, List.all_eq_true, List.mem_range'_1, beq_iff_eq, AgreeBelow, and_imp]
  refine and_congr_right fun _ => forall_congr' fun m => forall_congr' fun _ => ?_
  exact ⟨fun h hm => h (by omega), fun h hm => h (by omega)⟩

/-- The first slot reads 1 exactly where every device still on the bus has a 1. -/
theorem stepBits_fst : (stepBits devs r n).1 = true ↔ ∀ d ∈ devs, AgreeBelow d r n → romBit d n = true := by
  simp [stepBits, List.all_eq_true, mem_onBus]

/-- The second slot reads 1 exactly where every device still on the bus has a 0. -/
theorem stepBits_snd : (stepBits devs r n).2 = true ↔ ∀ d ∈ devs, AgreeBelow d r n → romBit d n = false := by
  simp [stepBits, List.all_eq_true, mem_onBus]

/-- Both slots read 0 where devices still on the bus disagree. -/
theorem stepBits_conflict :
    stepBits devs r n = (false, false) ↔
      (∃ d ∈ devs, AgreeBelow d r n ∧ romBit d n = false) ∧ ∃ d ∈ devs, AgreeBelow d r n ∧ romBit d n = true := by
  rw [Prod.ext_iff, ← Bool.not_eq_true, ← Bool.not_eq_true, stepBits_fst, stepBits_snd]
  simp

/-- A device on the bus answers: not both slots read 1. -/
theorem stepBits_ne (hr : r ∈ devs) : stepBits devs r n ≠ (true, true) := fun h => by
  obtain ⟨h1, h2⟩ := Prod.ext_iff.mp h
  have h1 := stepBits_fst.mp h1 r hr fun _ _ _ => rfl
  have h2 := stepBits_snd.mp h2 r hr fun _ _ _ => rfl
  rw [h1] at h2
  cases h2

/-- Where there is no conflict, the first slot reads the device's own bit. -/
theorem stepBits_fst_eq (hr : r ∈ devs) (h : (stepBits devs r n).1 ≠ (stepBits devs r n).2) :
    (stepBits devs r n).1 = romBit r n := by
  cases h1 : (stepBits devs r n).1 with
  | true => exact (stepBits_fst.mp h1 r hr fun _ _ _ => rfl).symm
  | false =>
    have h2 : (stepBits devs r n).2 = true := by simpa [h1] using h.symm
    exact (stepBits_snd.mp h2 r hr fun _ _ _ => rfl).symm

/-! ## The last zero of a pass (rule R211) -/

/-- The last zero is the last position of a conflict at which the ROM has a 0. -/
theorem lastZeroIn_eq (h1 : 1 ≤ q) (h64 : q ≤ 64) (hq : vs q = (false, false) ∧ romBit r q = false)
    (hlast : ∀ m, q < m → m ≤ 64 → ¬ (vs m = (false, false) ∧ romBit r m = false)) : lastZeroIn vs r = q := by
  rw [lastZeroIn, positions_split h1 h64, List.foldl_append, List.foldl_cons, if_pos hq]
  have hkeep : ∀ l : List Nat, (∀ m ∈ l, q < m ∧ m ≤ 64) →
      l.foldl (fun z n => if vs n = (false, false) ∧ romBit r n = false then n else z) q = q := fun l => by
    induction l with
    | nil => exact fun _ => rfl
    | cons m l ih =>
      intro hl
      obtain ⟨⟨hm, hm64⟩, hl⟩ := List.forall_mem_cons.mp hl
      rw [List.foldl_cons, if_neg (hlast m hm hm64)]
      exact ih hl
  exact hkeep _ fun m hm => by rw [List.mem_range'_1] at hm; omega

/-! ## The next device (rules R211, R219) -/

/-- No device lies between the last of `pre` and `r`. -/
theorem SearchDevices.before (h : SearchDevices (pre ++ r :: post)) (hd : d ∈ pre ++ r :: post)
    (hlt : searchKey d < searchKey r) : ∃ a, pre.getLast? = some a ∧ searchKey d ≤ searchKey a := by
  obtain ⟨-, -, hsorted⟩ := h
  obtain ⟨hpre, hpost, hcross⟩ := List.pairwise_append.mp hsorted
  obtain ⟨hrest, -⟩ := List.pairwise_cons.mp hpost
  obtain hd | hd := List.mem_append.mp hd
  · obtain rfl | ⟨l, a, rfl⟩ := List.eq_nil_or_concat pre
    · cases hd
    · refine ⟨a, by simp, ?_⟩
      obtain ⟨-, -, hla⟩ := List.pairwise_append.mp (List.concat_eq_append ▸ hpre)
      rw [List.concat_eq_append] at hd
      obtain hd | hd := List.mem_append.mp hd
      · exact (hla d hd a (List.mem_singleton_self a)).le
      · rw [List.mem_singleton.mp hd]
  · obtain rfl | hd := List.mem_cons.mp hd
    · omega
    · have := hrest d hd
      omega

/-- The last device found comes before the next. -/
theorem SearchDevices.last_lt (h : SearchDevices (pre ++ r :: post)) (ha : pre.getLast? = some a) :
    a ∈ pre ++ r :: post ∧ searchKey a < searchKey r := by
  obtain ⟨-, -, hsorted⟩ := h
  obtain ⟨-, -, hcross⟩ := List.pairwise_append.mp hsorted
  have hmem : a ∈ pre := List.mem_of_getLast? ha
  exact ⟨List.mem_append_left _ hmem, hcross a hmem r List.mem_cons_self⟩

/-- The pass that found `a` has its last zero where the next device leaves `a`: at a later one another device would lie
between them. -/
theorem SearchDevices.lastZeroOf_eq (h : SearchDevices (pre ++ r :: post)) (ha : pre.getLast? = some a)
    (hq : FirstDiff a r q) : lastZeroOf (pre ++ r :: post) a = q := by
  obtain ⟨hmem, -⟩ := h.last_lt ha
  refine lastZeroIn_eq hq.pos hq.le ⟨stepBits_conflict.mpr ⟨⟨a, hmem, fun _ _ _ => rfl, hq.zero⟩,
    ⟨r, List.mem_append_right _ List.mem_cons_self, hq.agree.symm, hq.one⟩⟩, hq.zero⟩ fun m hm h64 ⟨hconf, hzero⟩ => ?_
  obtain ⟨-, d, hd, hagree, hone⟩ := stepBits_conflict.mp hconf
  have had : searchKey a < searchKey d :=
    FirstDiff.searchKey_lt ⟨by omega, h64, hagree.symm, hzero, hone⟩
  have hdr : searchKey d < searchKey r :=
    FirstDiff.searchKey_lt ⟨hq.pos, hq.le, (hagree.mono hm.le).trans hq.agree, (hagree q hq.pos hm).trans hq.zero,
      hq.one⟩
  obtain ⟨a', ha', hle⟩ := h.before hd hdr
  rw [ha] at ha'
  cases ha'
  omega

/-! ## The cursor between passes (rules R212, R214) -/

theorem cursorAt_prevRom (devs : List Rom) (r : Rom) : (cursorAt devs r).prevRom = r := rfl

theorem cursorAt_lastDisc (devs : List Rom) (r : Rom) :
    (cursorAt devs r).lastDisc = BitVec.ofNat 8 (lastZeroOf devs r) := rfl

theorem cursorAt_lastDev (devs : List Rom) (r : Rom) : (cursorAt devs r).lastDev = (lastZeroOf devs r == 0) := rfl

theorem cursorAfter_none (h : pre.getLast? = none) : cursorAfter devs pre = Cursor.seed := by
  rw [cursorAfter, h]; rfl

theorem cursorAfter_some (h : pre.getLast? = some a) : cursorAfter devs pre = cursorAt devs a := by
  rw [cursorAfter, h]

theorem cursorAfter_append (devs pre : List Rom) (r : Rom) : cursorAfter devs (pre ++ [r]) = cursorAt devs r :=
  cursorAfter_some (List.getLast?_concat ..)

/-- A device that is not the last leaves a conflict unexplored. -/
theorem SearchDevices.lastDev_eq_false (h : SearchDevices devs) (hdevs : devs = pre ++ d :: post) (hne : post ≠ []) :
    (cursorAt devs d).lastDev = false := by
  obtain ⟨r, post, rfl⟩ := List.exists_cons_of_ne_nil hne
  have hsplit : devs = (pre ++ [d]) ++ r :: post := by rw [hdevs, List.append_assoc]; rfl
  subst hsplit
  have hlast : (pre ++ [d]).getLast? = some d := List.getLast?_concat ..
  obtain ⟨q, hq⟩ := exists_firstDiff (h.last_lt hlast).2
  rw [cursorAt_lastDev, h.lastZeroOf_eq hlast hq, beq_eq_false_iff_ne]
  have := hq.pos
  omega

/-- The pass takes `r`'s path from the two slots `vs`: it never meets silence and every direction is `r`'s bit (rule
R211). -/
def Follows (c : Cursor) (vs : Nat → Bool × Bool) (r : Rom) : Prop :=
  ∀ n, 1 ≤ n → n ≤ 64 → vs n ≠ (true, true) ∧ chosen c n (vs n) = romBit r n

/-- At a conflict below which `d` and `r` agree, `r` has a 0 unless a device lies before it. -/
theorem romBit_of_conflict (h1 : 1 ≤ n) (h64 : n ≤ 64) (hconf : stepBits devs r n = (false, false))
    (hnone : ∀ d ∈ devs, FirstDiff d r n → False) : romBit r n = false := by
  obtain ⟨⟨d, hd, hagree, hzero⟩, -⟩ := stepBits_conflict.mp hconf
  cases hr : romBit r n with
  | false => rfl
  | true => exact (hnone d hd ⟨h1, h64, hagree, hzero, hr⟩).elim

/-- The direction at a conflict, from the cursor of the pass before. -/
theorem SearchDevices.chosen_conflict (h : SearchDevices (pre ++ r :: post)) (h1 : 1 ≤ n) (h64 : n ≤ 64)
    (hconf : stepBits (pre ++ r :: post) r n = (false, false)) :
    chosen (cursorAfter (pre ++ r :: post) pre) n (false, false) = romBit r n := by
  rw [chosen, if_neg (by simp)]
  cases ha : pre.getLast? with
  | none =>
    rw [cursorAfter_none ha, romBit_of_conflict h1 h64 hconf fun d hd hq => ?_]
    · simp [Cursor.seed]; omega
    · obtain ⟨a, ha', -⟩ := h.before hd hq.searchKey_lt
      rw [ha] at ha'
      cases ha'
  | some a =>
    obtain ⟨q, hq⟩ := exists_firstDiff (h.last_lt ha).2
    have hdisc : (cursorAfter (pre ++ r :: post) pre).lastDisc.toNat = q := by
      rw [cursorAfter_some ha, cursorAt_lastDisc, h.lastZeroOf_eq ha hq, BitVec.toNat_ofNat]
      have := hq.le
      omega
    have hprev : (cursorAfter (pre ++ r :: post) pre).prevRom = a := by
      rw [cursorAfter_some ha, cursorAt_prevRom]
    rw [hdisc, hprev]
    obtain hn | rfl | hn := Nat.lt_trichotomy n q
    · rw [if_pos hn, hq.agree n h1 hn]
    · simp [hq.one]
    · rw [if_neg (by omega), decide_eq_false (by omega)]
      refine (romBit_of_conflict h1 h64 hconf fun d hd hdr => ?_).symm
      have had : searchKey a < searchKey d := FirstDiff.searchKey_lt ⟨hq.pos, hq.le,
        hq.agree.trans (hdr.agree.mono hn.le).symm, hq.zero, (hdr.agree q hq.pos hn).trans hq.one⟩
      obtain ⟨a', ha', hle⟩ := h.before hd hdr.searchKey_lt
      rw [ha] at ha'
      cases ha'
      omega

/-- A pass that begins where the devices before `r` were found takes `r`'s path. -/
theorem SearchDevices.follows (h : SearchDevices (pre ++ r :: post)) :
    Follows (cursorAfter (pre ++ r :: post) pre) (stepBits (pre ++ r :: post) r) r := fun n h1 h64 => by
  have hr : r ∈ pre ++ r :: post := List.mem_append_right _ List.mem_cons_self
  refine ⟨stepBits_ne hr, ?_⟩
  by_cases hne : (stepBits (pre ++ r :: post) r n).1 ≠ (stepBits (pre ++ r :: post) r n).2
  · rw [chosen, if_pos hne, stepBits_fst_eq hr hne]
  · have hconf : stepBits (pre ++ r :: post) r n = (false, false) := by
      have := stepBits_ne (n := n) hr
      revert this hne
      generalize stepBits (pre ++ r :: post) r n = v
      revert v
      decide
    rw [hconf]
    exact h.chosen_conflict h1 h64 hconf

end Sys2Proof.Machine
end

section
/-! A search on a bus whose answers are known (rules R213, R216, R219): a pass, the passes of a search one after the
other, and the search that meets a device more than its list holds (O57). -/

namespace Sys2Proof.Machine

variable {w : TwRegs} {q : Params} {s u : State} {p : PinId} {cmd : Byte} {c : Cursor} {n k z : Nat}
  {r rom : Rom} {devs pre post : List Rom} {vs : Nat → Bool × Bool} {es es' : List Event} {ks : Nat → Nat}

/-! ## The steps of a pass (rules R210, R211) -/

theorem romBit_eq_getLsbD (r : Rom) (n : Nat) : romBit r n = r.getLsbD (n - 1) := by
  rw [romBit, romByte, BitVec.getLsbD_extractLsb', decide_eq_true (Nat.mod_lt _ (by decide)), Bool.true_and,
    Nat.div_add_mod]

theorem getLsbD_setBit {m : Nat} (x : BitVec m) (i : Nat) (b : Bool) {j : Nat} (hj : j < m) :
    (setBit x i b).getLsbD j = if j = i then b else x.getLsbD j := by
  cases b
  · by_cases h : i = j <;> simp [setBit, hj, h, eq_comm (a := j)]
  · by_cases h : i = j <;> simp [setBit, hj, h, eq_comm (a := j)]

theorem getLsbD_setRomBit (x : Rom) (n : Nat) (b : Bool) {j : Nat} (hj : j < 64) :
    (setRomBit x n b).getLsbD j = if j = n - 1 then b else x.getLsbD j := by
  rw [setRomBit, Nat.div_add_mod, getLsbD_setBit _ _ _ hj]

/-- The first `k` bits of `r` set one by one. -/
theorem getLsbD_foldl_setRomBit (r : Rom) (k : Nat) {j : Nat} (hj : j < 64) :
    ((List.range' 1 k).foldl (fun x n => setRomBit x n (romBit r n)) 0).getLsbD j =
      (decide (j < k) && r.getLsbD j) := by
  induction k with
  | zero => simp
  | succ k ih =>
    rw [List.range'_1_concat, List.foldl_append, List.foldl_cons, List.foldl_nil, getLsbD_setRomBit _ _ _ hj, ih,
      romBit_eq_getLsbD, Nat.add_sub_cancel_left]
    by_cases h : j = k
    · simp [h]
    · rw [if_neg h, decide_eq_decide.mpr (show j < k ↔ j < k + 1 by omega)]

/-- All 64 bits of `r` set one by one are `r`. -/
theorem foldl_setRomBit (r : Rom) : (List.range' 1 64).foldl (fun x n => setRomBit x n (romBit r n)) 0 = r :=
  BitVec.eq_of_getLsbD_eq fun j hj => by rw [getLsbD_foldl_setRomBit r 64 hj]; simp [hj]

/-- Where not both slots read 1 there is a direction, and a conflict where both read 0. -/
theorem direction_eq {v : Bool × Bool} (hv : v ≠ (true, true)) :
    direction c n v.1 v.2 = some (chosen c n v, v == (false, false)) := by
  obtain ⟨id, cmp⟩ := v
  cases id <;> cases cmp
  · simp only [direction, chosen]
    by_cases hlt : n < c.lastDisc.toNat
    · simp [hlt]
    · by_cases heq : n = c.lastDisc.toNat <;> simp [hlt, heq]
  · rfl
  · rfl
  · exact absurd rfl hv

theorem lastZeroAfter_eq (z n : Nat) (v : Bool × Bool) (d : Bool) :
    lastZeroAfter z n d (v == (false, false)) = if v = (false, false) ∧ d = false then n else z := by
  simp [lastZeroAfter]

/-- The steps of a pass along `r`'s path, from position `n` on. -/
theorem Plays.searchSteps (h : ∀ m, n ≤ m → m < n + k → vs m ≠ (true, true) ∧ chosen c m (vs m) = romBit r m) :
    Plays w q (searchSteps p c k n rom z) ((List.range' n k).flatMap fun m => [(vs m).1, (vs m).2])
      ((List.range' n k).foldl (fun x m => setRomBit x m (romBit r m)) rom,
        (List.range' n k).foldl (fun z m => if vs m = (false, false) ∧ romBit r m = false then m else z) z)
      ((List.range' n k).flatMap fun m =>
        readSlot q p (vs m).1 ++ readSlot q p (vs m).2 ++ writeSlot q p (chosen c m (vs m))) := by
  induction k generalizing n rom z with
  | zero => exact Plays.pure _
  | succ k ih =>
    obtain ⟨hne, hbit⟩ := h n (Nat.le_refl n) (by omega)
    have hstep : Plays w q (Machine.searchSteps p c (k + 1) n rom z)
        ([(vs n).1] ++ ([(vs n).2] ++ ([] ++ (List.range' (n + 1) k).flatMap fun m => [(vs m).1, (vs m).2]))) _ _ :=
      (Plays.owReadBit p (vs n).1).bind <| (Plays.owReadBit p (vs n).2).bind <| by
        simp only [direction_eq hne]
        exact (Plays.owWriteBit p _).bind (ih fun m h1 h2 => h m (by omega) (by omega))
    rw [lastZeroAfter_eq, hbit] at hstep
    refine hstep.cast ?_ ?_
    · rw [List.range'_succ]; rfl
    · rw [List.range'_succ, List.flatMap_cons, hbit, List.append_assoc, List.append_assoc]

/-! ## A pass (rules R213, R214) -/

theorem errIf_pass {b : Bool} (h : b = false) (e : Err) (s : State) : errIf b e s = .ok () s := by rw [h]; rfl

/-- A pass from the cursor `c` up to its last step (rule R213). -/
def passSteps (p : PinId) (cmd : Byte) (c : Cursor) : Op (Rom × Nat) := do
  let present ← owReset p
  errIf (!present) .noDevice
  owWriteByte p cmd
  searchSteps p c 64 1 0 0

/-- What a pass makes of the ROM and the last zero of its steps (rules R213, R214). -/
def judgeRom (r : Rom × Nat) : Op Rom := do
  errIf (r.1 == 0) .pinFlapping
  errIf (!crcValid r.1) .badCrc
  update (·.setCursor (Cursor.after r.1 r.2))
  pure r.1

/-- A pass is its steps, then the judgement of its ROM. -/
theorem searchPass_eq (p : PinId) (cmd : Byte) :
    searchPass p cmd = look (·.cursor) >>= fun c => passSteps p cmd c >>= judgeRom := by
  simp only [searchPass, passSteps, bind_assoc]
  rfl

theorem judgeRom_valid (h0 : r ≠ 0) (hv : crcValid r = true) (z : Nat) (s : State) :
    judgeRom (r, z) s = .ok r (s.setCursor (Cursor.after r z)) := by
  rw [judgeRom, bind_ok (errIf_pass (beq_eq_false_iff_ne.mpr h0) _ _), bind_ok (errIf_pass (by rw [hv]; rfl) _ _)]
  rfl

/-- A pass along `r`'s path. -/
theorem Plays.passSteps (hk : k < q.owPresPolls) (hpath : Follows c vs r) :
    Plays w q (passSteps p cmd c) (owResetAnswers q (some k) ++ stepsAnswers vs 64) (r, lastZeroIn vs r)
      (owResetEvents q p (some k) ++ owWriteByteEvents q p cmd ++ stepsEvents q p c vs 64) := by
  have hsteps := Plays.searchSteps (w := w) (q := q) (p := p) (c := c) (vs := vs) (r := r) (n := 1) (k := 64)
    (rom := 0) (z := 0) fun m h1 h64 => hpath m h1 (by omega)
  rw [foldl_setRomBit] at hsteps
  have hpresent : Plays w q (errIf (!true) .noDevice) [] () [] := Plays.pure ()
  exact ((Plays.owResetSeen p hk).bind <| hpresent.bind <| (Plays.owWriteByte p cmd).bind hsteps).cast rfl
    (List.append_assoc ..).symm

/-- A pass whose ROM is valid leaves the cursor at it. -/
theorem searchPass_run {ans : List Bool} (hsteps : Plays s.tw s.params (passSteps p cmd s.cursor) ans (r, z) es)
    (hb : Presents s ans) (h0 : r ≠ 0) (hv : crcValid r = true) :
    searchPass p cmd s = .ok r ((s.play es).setCursor (Cursor.after r z)) := by
  rw [searchPass_eq, bind_ok (look_run ..), bind_ok (hsteps.run hb), judgeRom_valid h0 hv]

/-- The pass that finds `r` on a bus of devices of which those in `pre` were found before. -/
theorem Plays.pass (hdevs : devs = pre ++ r :: post) (hd : SearchDevices devs) (hk : k < q.owPresPolls) :
    Plays w q (Machine.passSteps p cmd (cursorAfter devs pre)) (passAnswers q devs k r) (r, lastZeroOf devs r)
      (passEvents q p cmd devs k r) := by
  subst hdevs
  have hpath := hd.follows
  refine (Plays.passSteps hk hpath).cast rfl ?_
  rw [passEvents, stepsEvents]
  congr 1
  refine List.flatMap_congr fun n hn => ?_
  rw [List.mem_range'_1] at hn
  rw [(hpath n hn.1 (by omega)).2]

theorem searchPass_finds (hdevs : devs = pre ++ r :: post) (hd : SearchDevices devs)
    (hc : s.cursor = cursorAfter devs pre) (hk : k < s.params.owPresPolls)
    (hb : Presents s (passAnswers s.params devs k r)) :
    searchPass p cmd s = .ok r ((s.play (passEvents s.params p cmd devs k r)).setCursor (cursorAt devs r)) := by
  have ⟨_, hvalid, _⟩ := hd
  obtain ⟨hv, h0⟩ := hvalid r (by rw [hdevs]; exact List.mem_append_right _ List.mem_cons_self)
  exact searchPass_run (hc ▸ Plays.pass hdevs hd hk) hb h0 hv

/-! ## The passes of a search (rules R216, R219) -/

theorem searchAnswers_append (q : Params) (devs : List Rom) (ks : Nat → Nat) (n : Nat) (l l' : List Rom) :
    searchAnswers q devs ks n (l ++ l') = searchAnswers q devs ks n l ++ searchAnswers q devs ks (n + l.length) l' := by
  induction l generalizing n with
  | nil => rfl
  | cons r l ih =>
    rw [List.cons_append, searchAnswers, searchAnswers, ih, List.append_assoc, List.length_cons]
    congr 3
    omega

theorem searchEvents_append (q : Params) (p : PinId) (cmd : Byte) (devs : List Rom) (ks : Nat → Nat) (n : Nat)
    (l l' : List Rom) :
    searchEvents q p cmd devs ks n (l ++ l') =
      searchEvents q p cmd devs ks n l ++ searchEvents q p cmd devs ks (n + l.length) l' := by
  induction l generalizing n with
  | nil => rfl
  | cons r l ih =>
    rw [List.cons_append, searchEvents, searchEvents, ih, List.append_assoc, List.length_cons]
    congr 3
    omega

/-- A pass that finds a device while there is room, and leaves a conflict unexplored: the record is listed and the
passes go on. -/
theorem searchLoop_next (h : searchPass p cmd s = .ok r u) (hlast : u.cursor.lastDev = false) :
    searchLoop p cmd (n + 1) s = searchLoop p cmd n (u.setOwDevList (u.owDevList ++ [⟨r, p⟩])) := by
  rw [searchLoop, bind_ok (attempt_ok h)]
  dsimp only
  rw [bind_ok (update_run ..), bind_ok (look_run ..), State.setOwDevList_cursor, hlast]
  rfl

/-- A pass that finds a device for which there is no room: the list is freed (rule R219). -/
theorem searchLoop_full (h : searchPass p cmd s = .ok r u) :
    searchLoop p cmd 0 s = .error (.err .outOfMemory) (u.setOwDevList []) := by
  rw [searchLoop, bind_ok (attempt_ok h)]
  rfl

@[simp] theorem State.searched_params (s : State) (c : Cursor) (l : List OwRecord) :
    (s.searched c l).params = s.params := rfl
@[simp] theorem State.searched_owDevList (s : State) (c : Cursor) (l : List OwRecord) :
    (s.searched c l).owDevList = l := rfl
@[simp] theorem State.searched_play (s : State) (c : Cursor) (l : List OwRecord) (es : List Event) :
    (s.searched c l).play es = (s.play es).searched c l := rfl
@[simp] theorem State.searched_searched (s : State) (c c' : Cursor) (l l' : List OwRecord) :
    (s.searched c l).searched c' l' = s.searched c' l' := rfl

@[simp] theorem State.searched_setCursor (s : State) (c c' : Cursor) (l : List OwRecord) :
    (s.searched c l).setCursor c' = s.searched c' l := rfl
@[simp] theorem State.searched_setOwDevList (s : State) (c : Cursor) (l l' : List OwRecord) :
    (s.searched c l).setOwDevList l' = s.searched c l' := rfl
@[simp] theorem State.setCursor_searched (s : State) (c c' : Cursor) (l : List OwRecord) :
    (s.setCursor c).searched c' l = s.searched c' l := rfl
@[simp] theorem State.setCursor_play (s : State) (c : Cursor) (es : List Event) :
    (s.setCursor c).play es = (s.play es).setCursor c := rfl

theorem presents_searched (s : State) (c : Cursor) (l : List OwRecord) (ans : List Bool) :
    Presents (s.searched c l) ans ↔ Presents s ans := Iff.rfl

/-- The passes that find `todo`, after which another device follows: each is listed, and the loop goes on. -/
theorem searchLoop_passes (todo : List Rom) {rest : List Bool} (hdevs : devs = pre ++ (todo ++ r :: post))
    (hd : SearchDevices devs) (hc : s.cursor = cursorAfter devs pre) (hks : ∀ i, ks i < s.params.owPresPolls)
    (hb : Presents s (searchAnswers s.params devs ks n todo ++ rest)) :
    ∃ u, searchLoop p cmd (todo.length + k) s = searchLoop p cmd k u ∧ Presents u rest ∧
      u = (s.play (searchEvents s.params p cmd devs ks n todo)).searched (cursorAfter devs (pre ++ todo))
        (s.owDevList ++ todo.map fun d => ⟨d, p⟩) := by
  induction todo generalizing pre n s with
  | nil =>
    refine ⟨s, by rw [List.length_nil, Nat.zero_add], hb, ?_⟩
    rw [List.append_nil, List.map_nil, List.append_nil, ← hc]
    rfl
  | cons d todo ih =>
    have hdevs' : devs = (pre ++ [d]) ++ (todo ++ r :: post) := by rw [hdevs, List.append_assoc]; rfl
    have hlast : (cursorAt devs d).lastDev = false := hd.lastDev_eq_false hdevs (by simp)
    rw [searchAnswers, List.append_assoc] at hb
    have hfind := searchPass_finds (p := p) (cmd := cmd) hdevs hd hc (hks n) hb.append.1
    have hcount := (Plays.pass (w := s.tw) (p := p) (cmd := cmd) hdevs hd (hks n)).count
    obtain ⟨u, hu, hrest, rfl⟩ := ih (n := n + 1)
      (s := (s.play (passEvents s.params p cmd devs (ks n) d)).searched (cursorAt devs d) (s.owDevList ++ [⟨d, p⟩]))
      hdevs' (cursorAfter_append ..).symm hks ((presents_searched ..).mpr (hb.play hcount))
    refine ⟨_, ?_, hrest, ?_⟩
    · rw [List.length_cons, Nat.add_right_comm, searchLoop_next hfind hlast]
      exact hu
    · simp [searchEvents]

/-! ## A search that meets too many devices (rules R54, R216, R219) -/

/-- A search of an empty list seeds the cursor and begins its passes. -/
theorem searchBody_run (hcmd : isSearchCommand cmd = true) (hl : s.owDevList = []) :
    searchBody p cmd s = searchLoop p cmd s.params.maxOwDevices (s.setCursor Cursor.seed) := by
  rw [searchBody, bind_ok (errIf_pass (by rw [hcmd]; rfl) _ _), bind_ok (look_run ..),
    bind_ok (errIf_pass (by rw [State.owDevCount, hl]; rfl) _ _)]
  rfl

/-- The pass that finds a device more than the list holds ends the search. -/
theorem searchBody_full (hdevs : devs = pre ++ r :: post) (hd : SearchDevices devs) (hl : s.owDevList = [])
    (hlen : pre.length = s.params.maxOwDevices) (hcmd : isSearchCommand cmd = true)
    (hks : ∀ i, ks i < s.params.owPresPolls) (hb : Presents s (searchAnswers s.params devs ks 0 (pre ++ [r]))) :
    searchBody p cmd s = .error (.err .outOfMemory)
      ((s.play (searchEvents s.params p cmd devs ks 0 (pre ++ [r]))).searched (cursorAt devs r) []) := by
  rw [searchAnswers_append, searchAnswers, searchAnswers, List.append_nil] at hb
  rw [searchBody_run hcmd hl, ← hlen]
  obtain ⟨u, hu, hlast, hstate⟩ := searchLoop_passes (p := p) (cmd := cmd) (k := 0) (pre := []) (n := 0)
    (s := s.setCursor Cursor.seed) pre hdevs hd (cursorAfter_none rfl).symm hks hb
  rw [Nat.add_zero] at hu
  have hcursor : u.cursor = cursorAfter devs pre := by rw [hstate]; rfl
  have hparams : u.params = s.params := by rw [hstate]; rfl
  have hfind := searchPass_finds (p := p) (cmd := cmd) hdevs hd hcursor (hparams ▸ hks _) (hparams ▸ hlast)
  rw [hu, searchLoop_full hfind, hparams, hstate, searchEvents_append]
  simp [searchEvents]

/-! ## What the trace of a search leaves of the pins -/

/-- Events of the one-wire engine on `p`, after which `p` is released. -/
structure OwRun (p : PinId) (es : List Event) : Prop where
  events : ∀ e ∈ es, OwEvent p e
  released : ∀ v, (pinAfter p v es).drive = .rel

theorem OwRun.after (h : OwRun p es') (he : ∀ e ∈ es, OwEvent p e) : OwRun p (es ++ es') where
  events e hm := (List.mem_append.mp hm).elim (he e) (h.events e)
  released v := by rw [pinAfter_append]; exact h.released _

theorem OwRun.flatMap {β : Type} {f : β → List Event} (h : ∀ x, OwRun p (f x)) {xs : List β} (hne : xs ≠ []) :
    OwRun p (xs.flatMap f) := by
  induction xs with
  | nil => exact absurd rfl hne
  | cons x xs ih =>
    rw [List.flatMap_cons]
    cases xs with
    | nil => rw [List.flatMap_nil, List.append_nil]; exact h x
    | cons y ys => exact (ih (by simp)).after (h x).events

theorem OwRun.writeSlot (q : Params) (p : PinId) (b : Bool) : OwRun p (writeSlot q p b) := by
  cases b <;> exact ⟨by simp [Machine.writeSlot, OwEvent], by simp [Machine.writeSlot, pinAfter, pinAfterEvent]⟩

theorem OwRun.readSlot (q : Params) (p : PinId) (v : Bool) : OwRun p (readSlot q p v) :=
  ⟨by simp [Machine.readSlot, OwEvent], by simp [Machine.readSlot, pinAfter, pinAfterEvent]⟩

theorem OwRun.writeByte (q : Params) (p : PinId) (x : Byte) : OwRun p (owWriteByteEvents q p x) :=
  .flatMap (OwRun.writeSlot q p) (by simp [lsbBits])

theorem owResetEvents_events (q : Params) (p : PinId) (o : Option Nat) : ∀ e ∈ owResetEvents q p o, OwEvent p e := by
  cases o <;> simp +contextual [owResetEvents, quietPolls, or_imp, OwEvent]

theorem OwRun.pass (q : Params) (p : PinId) (cmd : Byte) (devs : List Rom) (k : Nat) (r : Rom) :
    OwRun p (passEvents q p cmd devs k r) := by
  have hsteps : OwRun p ((List.range' 1 64).flatMap fun n =>
      Machine.readSlot q p (stepBits devs r n).1 ++ Machine.readSlot q p (stepBits devs r n).2 ++
        Machine.writeSlot q p (romBit r n)) :=
    .flatMap (fun n => (OwRun.writeSlot q p _).after
      ((OwRun.readSlot q p _).after (OwRun.readSlot q p _).events).events) (by simp)
  exact hsteps.after ((OwRun.writeByte q p cmd).after (owResetEvents_events q p _)).events

theorem OwRun.search (q : Params) (p : PinId) (cmd : Byte) (devs : List Rom) (ks : Nat → Nat) (n : Nat) {l : List Rom}
    (hne : l ≠ []) : OwRun p (searchEvents q p cmd devs ks n l) := by
  induction l generalizing n with
  | nil => exact absurd rfl hne
  | cons r l ih =>
    rw [searchEvents]
    cases l with
    | nil => rw [searchEvents, List.append_nil]; exact .pass ..
    | cons r' l => exact (ih (n + 1) (by simp)).after (OwRun.pass ..).events

/-- A search command that completes has done what its events do, and left its cursor and its list. -/
theorem OwRun.searchDone (h : OwRun p es) (c : Cursor) (l : List OwRecord) (code : Byte) :
    SearchDone s (((s.begin.play es).searched c l).complete code) code s.result es p c l := by
  have htrace : (((s.begin.play es).searched c l).complete code).trace = es := by simp [State.trace, State.searched]
  have hpin : ∀ q, (((s.begin.play es).searched c l).complete code).pin q = pinAfter q (s.pin q) es :=
    State.play_pin s.begin es
  refine ⟨⟨rfl, rfl, htrace, rfl, ?_, rfl, rfl⟩, ⟨rfl, rfl, rfl⟩, rfl, rfl, ⟨fun _ => rfl, fun _ => rfl⟩, rfl, rfl,
    fun q hq => ?_, ?_⟩
  · rw [State.complete_history]
    exact congrArg (fun tr => Completed.mk tr code s.result :: s.history) htrace
  · rw [hpin, pinAfter_other (fun e he => (h.events e he).pinEvent) (by simpa using hq)]
  · have hmode := pinAfter_mode (fun e he => (h.events e he).pinEvent) p (s.pin p)
    have hdrive := h.released (s.pin p)
    rw [Releases, hpin, ← hdrive, ← hmode]

/-- Settles O57: the passes list as many devices as there is room for, and the next pass finds one more. -/
theorem searchStopsWhenTheListIsFull : Obligations.SearchStopsWhenTheListIsFull := by
  unfold Obligations.SearchStopsWhenTheListIsFull
  intro p cmd f pre post r ks s hcmd hl hd hlen hks hb i hi hr
  have hsearch : isSearchCommand cmd = true := by
    obtain rfl | rfl := hcmd
    · decide
    · decide
  have hbody := searchBody_full (s := s.begin) (p := p) rfl hd hl hlen hsearch hks hb
  have hrun : OwRun p (searchEvents s.params p cmd (pre ++ r :: post) ks 0 (pre ++ [r])) :=
    .search _ _ _ _ _ _ (by simp)
  simp only [List.mem_cons, List.not_mem_nil, or_false] at hi
  obtain rfl | rfl := hi
  · exact ⟨_, (exec_ready hr).trans (runCommand_err hr.1 (bind_error hbody)), hrun.searchDone _ _ _⟩
  · exact ⟨_, (exec_ready hr).trans (runCommand_err hr.1 (bind_error hbody)), hrun.searchDone _ _ _⟩

end Sys2Proof.Machine
end

section
/-! The decoder against the opcode table (O1 to O6). A format reads a row of the table: it gives a command where the row
selects the word, which is then that command's word, and rejects the word elsewhere (`ReadsTable`). The decoder picks
the format by the word's `OP`, and no two rows share an `OP`. -/

namespace Sys2Proof

/-! ## The rows (rules R73, R74, R75) -/

/-- The row of an `OP` whose must-be-zero operand bits are `ma`, `mb` and `mc`. -/
def fieldRow (op ma mb mc : Byte) : OpRow := ⟨mkWord op 0 0 0, mkWord 0xFF ma mb mc⟩

/-- The assigned operation codes. -/
def AssignedOp (op : Nat) : Prop := (0x10 ≤ op ∧ op ≤ 0x1C) ∨ (0x20 ≤ op ∧ op ≤ 0x2F)

theorem and_allBits (x : Byte) : x &&& 0xFF#8 = x := BitVec.and_allOnes

theorem and_beq_zero_eq_highZero1 (x : Byte) : (x &&& 0xFE#8 == 0#8) = highZero 1 x := by revert x; decide

theorem and_beq_zero_eq_highZero2 (x : Byte) : (x &&& 0xFC#8 == 0#8) = highZero 2 x := by revert x; decide

theorem and_beq_zero_eq_highZero7 (x : Byte) : (x &&& 0x80#8 == 0#8) = highZero 7 x := by revert x; decide

/-- The row of a word's own `OP` selects the word when the must-be-zero bits are 0. -/
theorem fieldRow_selects (w : Word) (ma mb mc : Byte) :
    (fieldRow (opField w) ma mb mc).selects w =
      (aField w &&& ma == 0 && bField w &&& mb == 0 && cField w &&& mc == 0) := by
  rw [Bool.eq_iff_iff, fieldRow, selects_iff]
  simp [and_allBits, and_assoc]

theorem opcodeTable_ops_nodup : (opcodeTable.map fun r => opField r.matchBits).Nodup := by decide

theorem opcodeTable_op_assigned {r : OpRow} (hr : r ∈ opcodeTable) : AssignedOp (opField r.matchBits).toNat := by
  have hall : ∀ r ∈ opcodeTable,
      (0x10 ≤ (opField r.matchBits).toNat ∧ (opField r.matchBits).toNat ≤ 0x1C) ∨
        (0x20 ≤ (opField r.matchBits).toNat ∧ (opField r.matchBits).toNat ≤ 0x2F) := by decide
  exact hall r hr

/-- A row looks at the whole `OP`. -/
theorem opField_of_selects {r : OpRow} {w : Word} (hr : r ∈ opcodeTable) (hs : r.selects w = true) :
    opField r.matchBits = opField w := by
  have hmask : ∀ r ∈ opcodeTable, opField r.mask = 0xFF#8 := by decide
  have hop := ((selects_iff _ _ w).mp hs).1
  rw [hmask r hr, and_allBits] at hop
  exact hop.symm

theorem eq_of_selects {r r' : OpRow} {w : Word} (hr : r ∈ opcodeTable) (hr' : r' ∈ opcodeTable)
    (hop : opField r.matchBits = opField w) (hs : r'.selects w = true) : r = r' :=
  List.inj_on_of_nodup_map opcodeTable_ops_nodup hr hr' (hop.trans (opField_of_selects hr' hs).symm)

theorem selecting_rows_le_one (w : Word) : (opcodeTable.filter fun r => r.selects w).length ≤ 1 := by
  have hnodup : ((opcodeTable.filter fun r => r.selects w).map fun r => opField r.matchBits).Nodup :=
    opcodeTable_ops_nodup.sublist (List.filter_sublist.map _)
  have hsame : (opcodeTable.filter fun r => r.selects w).map (fun r => opField r.matchBits) =
      List.replicate (opcodeTable.filter fun r => r.selects w).length (opField w) :=
    List.map_eq_replicate_iff.mpr fun r hr =>
      opField_of_selects (List.mem_filter.mp hr).1 (List.mem_filter.mp hr).2
  rw [hsame] at hnodup
  exact List.nodup_replicate.mp hnodup

theorem selecting_rows_eq_one_iff (w : Word) :
    (opcodeTable.filter fun r => r.selects w).length = 1 ↔ ∃ r ∈ opcodeTable, r.selects w = true := by
  have hle := selecting_rows_le_one w
  calc (opcodeTable.filter fun r => r.selects w).length = 1
      ↔ 0 < (opcodeTable.filter fun r => r.selects w).length := by omega
    _ ↔ ∃ r ∈ opcodeTable, r.selects w = true := by simp only [List.length_filter_pos_iff]

/-! ## A format reads a row (rules R71, R76) -/

/-- `d` is what the table says about the word: a row has the word's `OP`; where it selects the word, `d` is a command
whose word this is, and elsewhere `d` is rule R76's rejection. -/
def ReadsTable (w : Word) (d : Except DecodeError Instr) : Prop :=
  ∃ r ∈ opcodeTable, opField r.matchBits = opField w ∧
    ∃ i, d = reserved (r.selects w) i ∧ (r.selects w = true → encode i = w)

section Formats

variable {w : Word} {n : Nat}

/-- A format reads its row when it checks the row's must-be-zero bits and its command has the word's fields. -/
theorem ReadsTable.of_reserved {ma mb mc : Byte} {ok : Bool} {i : Instr} (hop : (opField w).toNat = n)
    (hrow : fieldRow (.ofNat 8 n) ma mb mc ∈ opcodeTable)
    (hok : (aField w &&& ma == 0 && bField w &&& mb == 0 && cField w &&& mc == 0) = ok)
    (henc : ok = true → encode i = mkWord (.ofNat 8 n) (aField w) (bField w) (cField w)) :
    ReadsTable w (reserved ok i) := by
  subst hop
  rw [BitVec.ofNat_toNat, BitVec.setWidth_eq] at hrow henc
  have hsel : (fieldRow (opField w) ma mb mc).selects w = ok := (fieldRow_selects w ma mb mc).trans hok
  refine ⟨_, hrow, opField_mkWord _ _ _ _, i, by rw [hsel], fun h => ?_⟩
  exact (henc (hsel.symm.trans h)).trans (mkWord_fields w)

theorem fmtN_reads {i : Instr} (hop : (opField w).toNat = n)
    (hrow : fieldRow (.ofNat 8 n) 0xFF 0xFF 0xFF ∈ opcodeTable)
    (henc : encode i = mkWord (.ofNat 8 n) 0 0 0) : ReadsTable w (fmtN w i) := by
  refine .of_reserved hop hrow (by simp [and_allBits]) fun h => ?_
  obtain ⟨⟨ha, hb⟩, hc⟩ : (aField w = 0 ∧ bField w = 0) ∧ cField w = 0 := by simpa using h
  rw [ha, hb, hc, henc]

theorem fmtA_reads {f : Byte → Instr} (hop : (opField w).toNat = n)
    (hrow : fieldRow (.ofNat 8 n) 0 0xFF 0xFF ∈ opcodeTable)
    (henc : ∀ a, encode (f a) = mkWord (.ofNat 8 n) a 0 0) : ReadsTable w (fmtA w f) := by
  refine .of_reserved hop hrow (by simp [and_allBits]) fun h => ?_
  obtain ⟨hb, hc⟩ : bField w = 0 ∧ cField w = 0 := by simpa using h
  rw [hb, hc, henc]

theorem fmtA1_reads {f : Bool → Instr} (hop : (opField w).toNat = n)
    (hrow : fieldRow (.ofNat 8 n) 0xFE 0xFF 0xFF ∈ opcodeTable)
    (henc : ∀ b, encode (f b) = mkWord (.ofNat 8 n) (bitByte b) 0 0) : ReadsTable w (fmtA1 w f) := by
  refine .of_reserved hop hrow (by simp [and_allBits, and_beq_zero_eq_highZero1]) fun h => ?_
  obtain ⟨⟨ha, hb⟩, hc⟩ : (highZero 1 (aField w) = true ∧ bField w = 0) ∧ cField w = 0 := by simpa using h
  rw [hb, hc, henc, BitVec.getLsbD_eq_getElem (by decide), bitByte_of_highZero ha]

theorem fmtA2_reads {f : BitVec 2 → Instr} (hop : (opField w).toNat = n)
    (hrow : fieldRow (.ofNat 8 n) 0xFC 0xFF 0xFF ∈ opcodeTable)
    (henc : ∀ x : BitVec 2, encode (f x) = mkWord (.ofNat 8 n) (x.setWidth 8) 0 0) : ReadsTable w (fmtA2 w f) := by
  refine .of_reserved hop hrow (by simp [and_allBits, and_beq_zero_eq_highZero2]) fun h => ?_
  obtain ⟨⟨ha, hb⟩, hc⟩ : (highZero 2 (aField w) = true ∧ bField w = 0) ∧ cField w = 0 := by simpa using h
  rw [hb, hc, henc, setWidth2_of_highZero ha]

theorem fmtAB_reads {f : Byte → Byte → Instr} (hop : (opField w).toNat = n)
    (hrow : fieldRow (.ofNat 8 n) 0 0 0xFF ∈ opcodeTable)
    (henc : ∀ a b, encode (f a b) = mkWord (.ofNat 8 n) a b 0) : ReadsTable w (fmtAB w f) := by
  refine .of_reserved hop hrow (by simp [and_allBits]) fun h => ?_
  obtain hc : cField w = 0 := by simpa using h
  rw [hc, henc]

theorem fmtAB1_reads {f : Byte → Bool → Instr} (hop : (opField w).toNat = n)
    (hrow : fieldRow (.ofNat 8 n) 0 0xFE 0xFF ∈ opcodeTable)
    (henc : ∀ a b, encode (f a b) = mkWord (.ofNat 8 n) a (bitByte b) 0) : ReadsTable w (fmtAB1 w f) := by
  refine .of_reserved hop hrow (by simp [and_allBits, and_beq_zero_eq_highZero1]) fun h => ?_
  obtain ⟨hb, hc⟩ : highZero 1 (bField w) = true ∧ cField w = 0 := by simpa using h
  rw [hc, henc, BitVec.getLsbD_eq_getElem (by decide), bitByte_of_highZero hb]

theorem fmtA7B_reads {f : BitVec 7 → Byte → Instr} (hop : (opField w).toNat = n)
    (hrow : fieldRow (.ofNat 8 n) 0x80 0 0xFF ∈ opcodeTable)
    (henc : ∀ (x : BitVec 7) b, encode (f x b) = mkWord (.ofNat 8 n) (x.setWidth 8) b 0) :
    ReadsTable w (fmtA7B w f) := by
  refine .of_reserved hop hrow (by simp [and_allBits, and_beq_zero_eq_highZero7]) fun h => ?_
  obtain ⟨ha, hc⟩ : highZero 7 (aField w) = true ∧ cField w = 0 := by simpa using h
  rw [hc, henc, setWidth7_of_highZero ha]

theorem fmtABC_reads {f : Byte → Byte → Byte → Instr} (hop : (opField w).toNat = n)
    (hrow : fieldRow (.ofNat 8 n) 0 0 0 ∈ opcodeTable)
    (henc : ∀ a b c, encode (f a b c) = mkWord (.ofNat 8 n) a b c) : ReadsTable w (fmtABC w f) :=
  .of_reserved (ok := true) hop hrow (by simp) fun _ => henc _ _ _

theorem fmtABC1_reads {f : Byte → Byte → Bool → Instr} (hop : (opField w).toNat = n)
    (hrow : fieldRow (.ofNat 8 n) 0 0 0xFE ∈ opcodeTable)
    (henc : ∀ a b c, encode (f a b c) = mkWord (.ofNat 8 n) a b (bitByte c)) : ReadsTable w (fmtABC1 w f) := by
  refine .of_reserved hop hrow (by simp [and_beq_zero_eq_highZero1]) fun h => ?_
  rw [henc, BitVec.getLsbD_eq_getElem (by decide), bitByte_of_highZero h]

end Formats

/-! ## The decoder reads the table (rules R74 to R76) -/

/-- The cases `h_1` to `h_29` are the 29 operation codes in the order of `decode` (and of the table), grouped by their
format; `h_30` is every other code. -/
theorem decode_reads (w : Word) :
    ReadsTable w (decode w) ∨ (¬ AssignedOp (opField w).toNat ∧ decode w = .error .illegalOpcode) := by
  unfold decode
  split
  case h_30 =>
    refine .inr ⟨fun h => ?_, rfl⟩
    unfold AssignedOp at h
    simp only [imp_false] at *
    omega
  all_goals refine .inl ?_
  case h_3 h | h_4 h | h_12 h | h_13 h | h_29 h => exact fmtN_reads h (by decide) rfl
  case h_5 h | h_7 h | h_8 h | h_14 h | h_15 h | h_16 h | h_18 h | h_23 h | h_24 h | h_25 h =>
    exact fmtA_reads h (by decide) fun _ => rfl
  case h_6 h => exact fmtA1_reads h (by decide) fun _ => rfl
  case h_2 h => exact fmtA2_reads h (by decide) fun _ => rfl
  case h_1 h | h_19 h | h_20 h | h_21 h | h_22 h | h_27 h => exact fmtAB_reads h (by decide) fun _ _ => rfl
  case h_9 h | h_17 h => exact fmtAB1_reads h (by decide) fun _ _ => rfl
  case h_10 h | h_11 h => exact fmtA7B_reads h (by decide) fun _ _ => rfl
  case h_28 h => exact fmtABC_reads h (by decide) fun _ _ _ => rfl
  case h_26 h => exact fmtABC1_reads h (by decide) fun _ _ _ => rfl

/-- A word that decodes selects a row and is the word of its command. -/
theorem selects_and_encode_of_decode {w : Word} {i : Instr} (h : decode w = .ok i) :
    (∃ r ∈ opcodeTable, r.selects w = true) ∧ encode i = w := by
  obtain ⟨r, hr, -, j, hd, henc⟩ | ⟨-, hd⟩ := decode_reads w
  · obtain ⟨hs, rfl⟩ := reserved_ok (hd.symm.trans h)
    exact ⟨⟨r, hr, hs⟩, henc hs⟩
  · cases hd.symm.trans h

theorem decode_of_selects {w : Word} {r : OpRow} (hr : r ∈ opcodeTable) (hs : r.selects w = true) :
    ∃ i, decode w = .ok i := by
  obtain ⟨r', hr', hop, i, hd, -⟩ | ⟨hun, -⟩ := decode_reads w
  · obtain rfl := eq_of_selects hr' hr hop hs
    exact ⟨i, by rw [hd, hs]; rfl⟩
  · have hassigned := opcodeTable_op_assigned hr
    rw [opField_of_selects hr hs] at hassigned
    exact absurd hassigned hun

theorem decode_of_not_assigned {w : Word} (hun : ¬ AssignedOp (opField w).toNat) :
    decode w = .error .illegalOpcode := by
  obtain ⟨r, hr, hop, -⟩ | ⟨-, hd⟩ := decode_reads w
  · exact absurd (hop ▸ opcodeTable_op_assigned hr) hun
  · exact hd

theorem decode_of_not_selected {w : Word} (has : AssignedOp (opField w).toNat)
    (hno : ∀ r ∈ opcodeTable, r.selects w = false) : decode w = .error .reservedField := by
  obtain ⟨r, hr, -, i, hd, -⟩ | ⟨hun, -⟩ := decode_reads w
  · rw [hd, hno r hr]; rfl
  · exact absurd has hun

/-! ## Assembly lines (rules R78, R80) -/

theorem assemble_of_wf {l : Asm} (h : l.wf = true) : assemble l = some (encode l.instr) := if_pos h

theorem assemble_of_not_wf {l : Asm} (h : l.wf = false) : assemble l = none := if_neg (by simp [h])

/-- Two spellings of one command, which fit or not together, make the same word. -/
theorem assemble_congr {l m : Asm} (hwf : l.wf = m.wf) (hi : l.instr = m.instr) : assemble l = assemble m := by
  unfold assemble
  rw [hwf, hi]

/-- An address byte fits its field when the 7-bit address does. -/
theorem fits_addressByte {a x : Nat} (ha : a < 128) (hx : x < 2) : fits 7 a = (fits 8 (2 * a + x) && fits 1 1) := by
  have h8 : 2 * a + x < 256 := by omega
  simp [fits, ha, h8]

theorem assemble_addressByte {a : Nat} (ha : a < 128) :
    assemble (.twWriteAddr a) = assemble (.twStartRw (2 * a + 0) 1) ∧
    assemble (.twReadAddr a) = assemble (.twStartRw (2 * a + 1) 1) :=
  ⟨assemble_congr (fits_addressByte ha (by decide)) rfl, assemble_congr (fits_addressByte ha (by decide)) rfl⟩

/-- The seed a search line leaves out fits, whichever it is. -/
theorem assemble_searchPass (p cmd : Nat) :
    assemble (.owSearchFirst p cmd) = assemble (.owSearchPass p cmd 1) ∧
    assemble (.owSearchNext p cmd) = assemble (.owSearchPass p cmd 0) :=
  ⟨assemble_congr (Bool.and_true _).symm rfl, assemble_congr (Bool.and_true _).symm rfl⟩

/-! ## The obligations -/

/-- Settles O1: each format's reader gives back what the encoder puts into its fields. -/
theorem decodeOfEncodeIsTheInstruction : Obligations.DecodeOfEncodeIsTheInstruction := by
  unfold Obligations.DecodeOfEncodeIsTheInstruction
  exact decode_encode

/-- Settles O2: the bits a format does not read are the ones it requires to be 0. -/
theorem encodeOfDecodeIsTheWord : Obligations.EncodeOfDecodeIsTheWord := by
  unfold Obligations.EncodeOfDecodeIsTheWord
  exact fun w i h => (selects_and_encode_of_decode h).2

/-- Settles O3: a selecting row has the word's `OP`, no two rows share one, and the decoder reads the table. -/
theorem wordSelectsAtMostOneRow : Obligations.WordSelectsAtMostOneRow := by
  unfold Obligations.WordSelectsAtMostOneRow
  intro w
  rw [selecting_rows_eq_one_iff]
  exact ⟨selecting_rows_le_one w, fun ⟨i, h⟩ => (selects_and_encode_of_decode h).1,
    fun ⟨r, hr, hs⟩ => decode_of_selects hr hs⟩

/-- Settles O4: the decoder names the reason, and a rejected word takes its usage fault and nothing else. -/
theorem unassignedAndReservedWordsFault : Obligations.UnassignedAndReservedWordsFault := by
  unfold Obligations.UnassignedAndReservedWordsFault
  intro w s hf
  refine ⟨fun hun => ?_, fun has hno => ?_⟩
  · rw [Machine.issueWord_error (decode_of_not_assigned hun)]
    exact Machine.rejectWord_takes _ hf
  · rw [Machine.issueWord_error (decode_of_not_selected has hno)]
    exact Machine.rejectWord_takes _ hf

/-- Settles O5: the assembler writes the encoder's word, and a pseudo-command spells its expansion's command. -/
theorem assembledLinesDecode : Obligations.AssembledLinesDecode := by
  unfold Obligations.AssembledLinesDecode
  exact ⟨fun l h => ⟨_, assemble_of_wf h, decode_encode l.instr⟩, fun _ => assemble_of_not_wf,
    fun _ => assemble_addressByte, assemble_congr rfl rfl, assemble_congr rfl rfl, assemble_searchPass⟩

/-- Settles O6: the seven words are what the encoder writes, and the three rejected words run through the decoder. -/
theorem listedWordsDecode : Obligations.ListedWordsDecode := by
  unfold Obligations.ListedWordsDecode
  exact ⟨decode_encode (.twInit 4 5), decode_encode (.twSetSpeed 3), decode_encode (.twReadByte true),
    decode_encode (.twStartRw 0x41 true), decode_encode (.twStartWrite 0x50 0x10),
    decode_encode (.owSearchPass 2 0xF0 true), decode_encode (.owSearchFamily 2 0xF0 0x28), rfl, rfl, rfl⟩

end Sys2Proof
end

section
/-! No command samples a pin it drives low (O17): every body records, in the sense of Laws/Record.lean, so each sample of
its trace finds its pin released since the last `Low` of it. -/

namespace Sys2Proof.Machine

variable {s t : State}

/-- How a command ends adds nothing to its trace, so the trace stays as clean as its body leaves it. -/
theorem exec_clean {i : Instr} (h : exec i s = .next t) : Clean t := by
  obtain ⟨u, ⟨-, hclean⟩, ⟨c, rfl⟩ | ⟨r, rfl⟩⟩ := exec_ends h (.begin s) (Records.bodyOf i s.begin)
  · exact hclean
  · exact hclean

/-- Settles O17: a sample follows a release of its pin by the command itself, so the pin's drive at issue is no matter. -/
theorem neverSamplesADrivenLine : Obligations.NeverSamplesADrivenLine := by
  unfold Obligations.NeverSamplesADrivenLine
  intro i s t h p m
  exact exec_clean h p m

end Sys2Proof.Machine
end

section
/-! Two-wire commands with no bus work (O12, O27, O28, O40, O41): usage faults, the configuration, the speed registers,
the lists' releases and the default set of probed addresses. -/

namespace Sys2Proof.Machine

variable {s t u : State}

/-! ## How a command that completes shows -/

/-- A body that wrote nothing of the command's frame completes with the code it ends in. -/
theorem CommandKeeps.completes (h : CommandKeeps s u) (code : Byte) :
    Completes s (u.complete code) code u.result u.trace := by
  refine ⟨rfl, rfl, rfl, ?_, ?_, h.faulted, h.faultReason⟩
  · rw [State.complete_hpc, h.hpc]
  · rw [State.complete_history, h.history]

theorem CommandKeeps.outside (h : CommandKeeps s u) (code : Byte) : KeepsOutside s (u.complete code) :=
  ⟨h.params, h.host, h.hostSeen⟩

theorem KeepsBuffers.of_eq (htx : t.txbuf = s.txbuf) (hrx : t.rxbuf = s.rxbuf) : KeepsBuffers s t :=
  ⟨fun _ => by rw [htx], fun _ => by rw [hrx]⟩

theorem KeepsOtherPins.of_eq (h : t.pins = s.pins) (ps : List PinId) : KeepsOtherPins s t ps :=
  fun _ _ => by rw [State.pin, State.pin, h]

/-- A command that did nothing but complete. -/
theorem quietDone_begin (s : State) (code : Byte) : QuietDone s (s.begin.complete code) code s.result :=
  ⟨(CommandKeeps.begin s).completes code, (CommandKeeps.begin s).outside code, rfl, rfl, .of_eq rfl rfl, ⟨rfl, rfl⟩,
    .of_eq rfl []⟩

/-- A body that succeeds is the command completing with `OK`. -/
theorem exec_ok {i : Instr} (hr : Ready i s) (hx : bodyOf i s.begin = .ok () u) :
    exec i s = .next (u.complete 0x00) := (exec_ready hr).trans (runCommand_ok hr.1 hx)

/-- A body that raises an error is the command completing with its code. -/
theorem exec_err {i : Instr} {e : Err} (hr : Ready i s) (hx : bodyOf i s.begin = .error (.err e) u) :
    exec i s = .next (u.complete e.code) := (exec_ready hr).trans (runCommand_err hr.1 hx)

/-! ## Usage faults (rules R130, R180, R244 to R246) -/

theorem Usage.code_eq_reasonCode (r : Usage) : r.code = reasonCode r := by cases r <;> rfl

theorem takesUsageFault_begin (hf : s.faulted = false) (r : Usage) :
    TakesUsageFault s (s.begin.raiseUsage r) (reasonCode r) := by
  simp [TakesUsageFault, State.raiseUsage, State.begin, hf, r.code_eq_reasonCode]

/-- The usage fault of the first check that fails. -/
theorem exec_takesUsageFault {i : Instr} {r : Usage} (hf : s.faulted = false) (hu : usageOf i s = some r) :
    ∃ t, exec i s = .next t ∧ TakesUsageFault s t (reasonCode r) :=
  ⟨_, exec_usage hf hu, takesUsageFault_begin hf r⟩

/-- Settles O12: a check that fails is the command's usage fault, and a command that passes them all completes. -/
theorem usageFaultExactlyWhenChecked : Obligations.UsageFaultExactlyWhenChecked := by
  unfold Obligations.UsageFaultExactlyWhenChecked
  refine fun i s hf => ⟨fun r hu => exec_takesUsageFault hf hu, fun hu => ?_⟩
  obtain ⟨t, hx, ⟨-, -, -, -, -, hfault, -⟩, -⟩ := checkedCommandsComplete i s ⟨hf, hu⟩
  exact ⟨t, hx, hfault.trans hf⟩

/-! ## `TW_INIT` (rule R131) -/

/-- The checks of `TW_INIT`, by what the command finds. -/
theorem usageOf_twInit (c d : PinId) (s : State) :
    usageOf (.twInit c d) s =
      if s.params.numPins ≤ c.toNat ∨ s.params.numPins ≤ d.toNat then some .badPin
      else if c = d then some .samePin
      else if s.tw.initialized = false ∧ ((s.pin c).mode = .inputPullup ∨ (s.pin d).mode = .inputPullup) then
        some .pinOwned
      else none := by
  simp [usageOf, firstOf]

/-- An engine already initialised: the same pins are no error, others are `InitConflict`; nothing is touched. -/
theorem exec_twInit_initialized {c d : PinId} (hr : Ready (.twInit c d) s) (hi : s.tw.initialized = true) :
    ∃ t, exec (.twInit c d) s = .next t ∧
      if c = s.tw.sclPin ∧ d = s.tw.sdaPin then QuietDone s t 0x00 s.result else QuietDone s t 0x01 s.result := by
  have hbody : bodyOf (.twInit c d) s.begin =
      errIf (!(c == s.tw.sclPin && d == s.tw.sdaPin)) .initConflict s.begin := by
    rw [bodyOf, twInitBody, bind_ok (look_run ..), State.begin_tw, hi]; rfl
  by_cases hsame : c = s.tw.sclPin ∧ d = s.tw.sdaPin
  · refine ⟨_, exec_ok hr (hbody.trans (errIf_pass (by simp [hsame]) ..)), ?_⟩
    rw [if_pos hsame]
    exact quietDone_begin s 0x00
  · have hne : (!(c == s.tw.sclPin && d == s.tw.sdaPin)) = true := by
      simpa [Decidable.imp_iff_not_or] using hsame
    refine ⟨_, exec_err (e := .initConflict) hr (hbody.trans (by rw [hne]; rfl)), ?_⟩
    rw [if_neg hsame]
    exact quietDone_begin s 0x01

/-- What the two `Cfg` events make of a pin. -/
theorem pin_twConfigured (s : State) (c d q : PinId) :
    (s.twConfigured c d).pin q = if d = q then ⟨.rel, .input⟩ else if c = q then ⟨.rel, .input⟩ else s.pin q :=
  State.play_pin s [.cfg c .input, .cfg d .input] q

/-- What the configuration leaves: the registers of rule R131 and its two events. -/
theorem twConfigured_tw (s : State) (c d : PinId) :
    (s.twConfigured c d).tw =
      { (s.speedSet s.params.defaultSpeed).tw with initialized := true, sclPin := c, sdaPin := d, inTx := false } := by
  simp [State.twConfigured]

theorem twConfigured_trace (s : State) (c d : PinId) :
    (s.begin.twConfigured c d).trace = [.cfg c .input, .cfg d .input] := by simp [State.twConfigured, State.trace]

theorem twConfigured_frame (s : State) (c d : PinId) :
    (s.twConfigured c d).result = s.result ∧ (s.twConfigured c d).cursor = s.cursor ∧
      (s.twConfigured c d).txbuf = s.txbuf ∧ (s.twConfigured c d).rxbuf = s.rxbuf ∧
      (s.twConfigured c d).twDevList = s.twDevList ∧ (s.twConfigured c d).owDevList = s.owDevList := by
  simp [State.twConfigured]

/-- `TW_INIT` on an engine not yet initialised (rule R131). -/
theorem exec_twInit_configures {c d : PinId} (hr : Ready (.twInit c d) s) (hi : s.tw.initialized = false) :
    ∃ t, exec (.twInit c d) s = .next t ∧ Completes s t 0x00 s.result [.cfg c .input, .cfg d .input] ∧
      KeepsOutside s t ∧ t.cursor = s.cursor ∧ KeepsBuffers s t ∧ KeepsLists s t ∧ KeepsOtherPins s t [c, d] ∧
      t.pin c = ⟨.rel, .input⟩ ∧ t.pin d = ⟨.rel, .input⟩ ∧
      t.tw = { (s.speedSet s.params.defaultSpeed).tw with
        initialized := true, sclPin := c, sdaPin := d, inTx := false } := by
  have hbody : bodyOf (.twInit c d) s.begin = .ok () (s.begin.twConfigured c d) := by
    rw [bodyOf, twInitBody, bind_ok (look_run ..), State.begin_tw, hi]
    rfl
  have hkeep : CommandKeeps s (s.begin.twConfigured c d) := (CommandKeeps.begin s).write (.configure _ c d hi)
  have hpin := pin_twConfigured s.begin c d
  obtain ⟨hresult, hcursor, htx, hrx, htwl, howl⟩ := twConfigured_frame s.begin c d
  have hdone := hkeep.completes 0x00
  rw [twConfigured_trace, hresult] at hdone
  refine ⟨_, exec_ok hr hbody, hdone, hkeep.outside 0x00, hcursor, .of_eq htx hrx, ⟨htwl, howl⟩, fun q hq => ?_, ?_,
    ?_, twConfigured_tw s.begin c d⟩
  · simp only [List.mem_cons, List.not_mem_nil, or_false, not_or] at hq
    exact (hpin q).trans (by rw [if_neg (Ne.symm hq.2), if_neg (Ne.symm hq.1)]; rfl)
  · exact (hpin c).trans (by simp)
  · exact (hpin d).trans (by simp)

/-- Settles O27: the checks in order, the engine already initialised, and the configuration. -/
theorem twInitFollowsItsRule : Obligations.TwInitFollowsItsRule := by
  unfold Obligations.TwInitFollowsItsRule
  intro c d s hf hv
  have hu := usageOf_twInit c d s
  by_cases hbad : s.params.numPins ≤ c.toNat ∨ s.params.numPins ≤ d.toNat
  · simp only [if_pos hbad] at hu ⊢
    exact exec_takesUsageFault hf hu
  by_cases hsame : c = d
  · simp only [if_neg hbad, if_pos hsame] at hu ⊢
    exact exec_takesUsageFault hf hu
  simp only [if_neg hbad, if_neg hsame] at hu ⊢
  cases hi : s.tw.initialized with
  | true => simpa using exec_twInit_initialized ⟨hf, by simpa [hi] using hu⟩ hi
  | false =>
    by_cases hown : (s.pin c).mode = .inputPullup ∨ (s.pin d).mode = .inputPullup
    · simp only [if_pos hown]
      exact exec_takesUsageFault hf (hu.trans (if_pos ⟨hi, hown⟩))
    · replace hu := hu.trans (if_neg fun h => hown h.2)
      simp only [if_neg hown]
      obtain ⟨hshort, hlong⟩ := speedSet_delays hv s.params.defaultSpeed
      obtain ⟨t, hx, hdone, hout, hcur, hbuf, hlists, hpins, hc, hd, htw⟩ := exec_twInit_configures ⟨hf, hu⟩ hi
      refine ⟨t, hx, hdone, hout, hcur, hbuf, hlists, hpins, hc, hd, ?_⟩
      rw [htw]
      exact ⟨rfl, rfl, rfl, rfl, rfl, rfl, hshort, hlong.trans (by rw [hshort])⟩

/-! ## The speed registers and the lists (rules R132, R145, R218) -/

/-- Settles O28: `SpeedSet` writes the three registers and nothing else of the block. -/
theorem twSetSpeedWritesTheDelays : Obligations.TwSetSpeedWritesTheDelays := by
  unfold Obligations.TwSetSpeedWritesTheDelays
  intro lvl s hf hv
  have hkeep : CommandKeeps s (s.begin.speedSet lvl) := (CommandKeeps.begin s).write (.speed _ lvl)
  obtain ⟨hshort, hlong⟩ := speedSet_delays hv lvl
  exact ⟨_, exec_ok ⟨hf, rfl⟩ rfl, hkeep.completes 0x00, hkeep.outside 0x00, rfl, .of_eq rfl rfl, ⟨rfl, rfl⟩,
    .of_eq rfl [], rfl, hshort, hlong.trans (by rw [hshort]), rfl, rfl, rfl, rfl, rfl⟩

/-- Settles O41: each release is one write, of its list. -/
theorem releasesEmptyTheirList : Obligations.ReleasesEmptyTheirList := by
  unfold Obligations.ReleasesEmptyTheirList
  intro s hf
  have htw : CommandKeeps s (s.begin.setTwDevList []) := (CommandKeeps.begin s).write (.twDevList _ [])
  have how : CommandKeeps s (s.begin.setOwDevList []) := (CommandKeeps.begin s).write (.owDevList _ [])
  exact ⟨⟨_, exec_ok ⟨hf, rfl⟩ rfl, htw.completes 0x00, htw.outside 0x00, rfl, rfl, .of_eq rfl rfl, rfl, rfl,
      .of_eq rfl []⟩,
    ⟨_, exec_ok ⟨hf, rfl⟩ rfl, how.completes 0x00, how.outside 0x00, rfl, rfl, .of_eq rfl rfl, rfl, rfl,
      .of_eq rfl []⟩⟩

/-! ## The default set (rules R3, R144) -/

/-- Settles O40: the set is closed data once its default is put in. -/
theorem defaultProbesAreTheMiddleAddresses : Obligations.DefaultProbesAreTheMiddleAddresses := by
  unfold Obligations.DefaultProbesAreTheMiddleAddresses
  intro q hq
  have hprobed : probed q = (List.range' 0x08 112).map (BitVec.ofNat 7) := by
    rw [probed, hq]
    decide
  rw [hprobed]
  exact ⟨rfl, rfl, rfl⟩

end Sys2Proof.Machine
end

section
/-! Two-wire operations at the command's scale (O29 to O33). `TwEnd s i c d u` says how the engine and its lines stand
in `u`; the laws of Laws/Lines.lean give it for the end of each operation (`ends_start` and its fellows), and the laws of
Laws/Outcomes.lean give the events: together they are a completed command (`TwEnd.twDone`). -/

namespace Sys2Proof.Machine

variable {s t u s₀ : State} {n : Nat} {i b : Bool} {c d : Drive} {es : List Event}

/-! ## How the lines stand after a two-wire operation -/

/-- The flag is `i`, the clock is driven `c` and the data line `d`, and no other pin, no mode and no other two-wire
register has changed since `s`. -/
def TwEnd (s : State) (i : Bool) (c d : Drive) (u : State) : Prop :=
  u.tw = { s.tw with inTx := i } ∧ KeepsOtherPins s u s.twPins ∧ TwLinesAre s u c d

/-- Events on the two lines change no other pin and no mode; `s` is any state whose engine and pins are those of
`s₀`. -/
theorem At.twEnd (h : At s₀ n i c d u) (htw : s₀.tw = s.tw := by rfl) (hpins : s₀.pins = s.pins := by rfl) :
    TwEnd s i c d u := by
  obtain ⟨⟨es, b, rfl, he, -⟩, rfl, hscl, hsda⟩ := h
  replace he := fun e hm => (he e hm).pinEvent
  rw [htw] at he hscl hsda
  have hpin : ∀ q, ((s₀.play es).setInTx b).pin q = pinAfter q (s.pin q) es := fun q => by
    rw [show s.pin q = s₀.pin q from congrArg (pinOf · q) hpins.symm]
    exact State.play_pin s₀ es q
  have hline : ∀ {q : PinId} {v : Drive}, (((s₀.play es).setInTx b).pin q).drive = v →
      ((s₀.play es).setInTx b).pin q = ⟨v, (s.pin q).mode⟩ := fun {q v} hv => by
    rw [← hv, hpin, ← pinAfter_mode he q (s.pin q)]
  refine ⟨congrArg (fun w : TwRegs => { w with inTx := b }) htw, fun q hq => ?_, hline hscl, hline hsda⟩
  rw [hpin, pinAfter_other he (by simpa [State.twPins] using hq)]

/-- In a transaction between bytes. -/
abbrev EndsOpen (s u : State) : Prop := TwEnd s true .low .rel u

/-- The bus idle: the flag clear, both lines released. -/
abbrev EndsIdle (s u : State) : Prop := TwEnd s false .rel .rel u

theorem StretchOut.endsIdle {r : Raise} (h : StretchOut s.begin n r u) : EndsIdle s u := At.twEnd h.2
theorem StartFails.endsIdle {r : Raise} (h : StartFails s.begin n r u) : EndsIdle s u := At.twEnd h.2
theorem DataFails.endsIdle {r : Raise} (h : DataFails s.begin n r u) : EndsIdle s u := At.twEnd h.2

/-! ## Where a two-wire command begins -/

theorem State.TwInv.initialized (h : s.TwInv) (hx : s.tw.inTx = true) : s.tw.initialized = true := by
  obtain ⟨hinit, -⟩ := h
  exact hinit hx

theorem State.TwInv.twoLines (h : s.TwInv) (hi : s.tw.initialized = true) : TwoLines s := by
  obtain ⟨-, -, hinit, -⟩ := h
  obtain ⟨hne, -⟩ := hinit hi
  exact hne

/-- A state as the start of its own command. -/
theorem at_start (s : State) : At s.begin 0 s.tw.inTx (s.pin s.tw.sclPin).drive (s.pin s.tw.sdaPin).drive s.begin :=
  ⟨TwFrom.refl s.begin, rfl, rfl, rfl⟩

/-- In a transaction the clock is driven low and the data line is released. -/
theorem State.TwInv.openStart (h : s.TwInv) (hx : s.tw.inTx = true) : OpenAt s.begin 0 s.begin := by
  obtain ⟨-, hlines, -⟩ := h
  obtain ⟨hscl, hsda⟩ := hlines hx
  exact ⟨TwFrom.refl s.begin, hx, hscl, hsda⟩

/-- `x`, begun on `s`, ends with `Q` or raises with `E`. -/
abbrev FromStart {α : Type} (s : State) (x : Op α) (Q : α → State → Prop) (E : Raise → State → Prop) : Prop :=
  Triple (· = s.begin) x Q E

theorem Triple.fromStart {α : Type} {P : State → Prop} {x : Op α} {Q Q' : α → State → Prop}
    {E E' : Raise → State → Prop} (h : Triple P x Q E) (hs : P s.begin) (hq : ∀ a t, Q a t → Q' a t)
    (he : ∀ r t, E r t → E' r t) : FromStart s x Q' E' := h.imp (fun _ hu => hu ▸ hs) hq he

section
variable (hw : s.TwInv)
include hw

/-- A START ends in a transaction, or fails with the bus idle (rules R133, R134). -/
theorem ends_start (hi : s.tw.initialized = true) :
    FromStart s start (fun _ => EndsOpen s) (fun _ => EndsIdle s) :=
  (triple_start (s₀ := s.begin) (hw.twoLines hi)).fromStart (at_start s) (fun _ _ h => At.twEnd h)
    fun _ _ h => h.endsIdle

/-- A STOP in a transaction leaves the bus idle, however it ends (rule R135). -/
theorem ends_stop (hx : s.tw.inTx = true) : FromStart s stop (fun _ => EndsIdle s) (fun _ => EndsIdle s) :=
  (triple_stop (s₀ := s.begin) (hw.twoLines (hw.initialized hx))).fromStart (hw.openStart hx)
    (fun _ _ h => At.twEnd h) fun _ _ h => h.endsIdle

theorem ends_writeByte (hx : s.tw.inTx = true) (x : Byte) :
    FromStart s (writeByte x) (fun _ => EndsOpen s) (fun _ => EndsIdle s) :=
  (triple_writeByte (s₀ := s.begin) (hw.twoLines (hw.initialized hx)) x).fromStart
    (hw.openStart hx) (fun _ _ h => At.twEnd h) fun _ _ h => h.endsIdle

theorem ends_readByte (hx : s.tw.inTx = true) (k : Bool) :
    FromStart s (readByte k) (fun _ => EndsOpen s) (fun _ => EndsIdle s) :=
  (triple_readByte (s₀ := s.begin) (hw.twoLines (hw.initialized hx)) k).fromStart
    (hw.openStart hx) (fun _ _ h => At.twEnd h) fun _ _ h => h.endsIdle

theorem ends_writeTxBytes (hx : s.tw.inTx = true) {k : Nat} (hk : absentBelow s k = false) :
    FromStart s (writeTxBytes k 0) (fun _ => EndsOpen s) (fun _ => EndsIdle s) :=
  (triple_writeTxBytes (s₀ := s.begin) (hw.twoLines (hw.initialized hx)) k 0 fun x _ hlt =>
    txWritten_of_check hk x (by omega)).fromStart (hw.openStart hx) (fun _ _ h => At.twEnd h)
    fun _ _ h => h.endsIdle

/-- The bytes received are beside the lines. -/
theorem ends_readRxBytes (hx : s.tw.inTx = true) (k : Nat) :
    FromStart s (readRxBytes k 0) (fun _ => EndsOpen s) (fun _ => EndsIdle s) :=
  (triple_readRxBytes (s₀ := s.begin) (hw.twoLines (hw.initialized hx)) k 0).fromStart
    (hw.openStart hx) (fun _ _ ⟨_, _, h⟩ => At.twEnd h) fun _ _ ⟨_, _, _, h⟩ => At.twEnd h

/-- An address byte: a NACK leaves the transaction open where no STOP was asked for (rule R140). -/
theorem ends_startRw (hi : s.tw.initialized = true) (ab : Byte) (son : Bool) :
    FromStart s (startRw ab son) (fun _ => EndsOpen s)
      (fun r u => if r = .err .noAck ∧ son = false then EndsOpen s u else EndsIdle s u) := by
  refine (triple_startRw (s₀ := s.begin) (hw.twoLines hi) ab son).fromStart (at_start s) (fun _ _ h => At.twEnd h)
    fun r t h => ?_
  obtain ⟨hr, hidle⟩ | ⟨rfl, hend⟩ := h
  · rw [if_neg (by rintro ⟨rfl, -⟩; simp at hr)]
    exact At.twEnd hidle
  · cases son with
    | true => exact At.twEnd hend
    | false => exact At.twEnd hend

theorem ends_startWrite (hi : s.tw.initialized = true) (a : BitVec 7) (r : Byte) :
    FromStart s (startWrite a r) (fun _ => EndsOpen s) (fun _ => EndsIdle s) :=
  (triple_startWrite (s₀ := s.begin) (hw.twoLines hi) a r).fromStart (at_start s) (fun _ _ h => At.twEnd h)
    fun _ _ h => h.endsIdle

theorem ends_startRead (hi : s.tw.initialized = true) (a : BitVec 7) (r : Byte) :
    FromStart s (bodyOf (.twStartRead a r)) (fun _ => EndsOpen s) (fun _ => EndsIdle s) :=
  (triple_startRead (s₀ := s.begin) (hw.twoLines hi) a r).fromStart (at_start s) (fun _ _ h => At.twEnd h)
    fun _ _ h => h.endsIdle

end

/-! ## A two-wire command completed -/

/-- The state after events, a flag and a result written, on a command's frame. -/
theorem CommandKeeps.events (s : State) (es : List Event) (b : Bool) (v : Byte) :
    CommandKeeps s (((s.begin.play es).setInTx b).setResult v) := ⟨rfl, rfl, rfl, rfl, rfl, rfl, rfl, rfl⟩

theorem trace_begin_play (s : State) (es : List Event) : (s.begin.play es).trace = es := by simp [State.trace]

/-- A command whose body ended in a state that only its events, its result and its flag have changed. -/
theorem TwEnd.twDone (h : TwEnd s i c d ((s.begin.play es).setInTx b)) (code v : Byte) :
    TwDone s ((((s.begin.play es).setInTx b).setResult v).complete code) code v es i c d := by
  obtain ⟨htw, hothers, hlines⟩ := h
  have hkeep := CommandKeeps.events s es b v
  have hdone := hkeep.completes code
  rw [show (((s.begin.play es).setInTx b).setResult v).trace = es from trace_begin_play s es] at hdone
  exact ⟨hdone, ⟨hkeep.outside code, htw, rfl, .of_eq rfl rfl, ⟨rfl, rfl⟩, hothers⟩, hlines⟩

variable {ans : List Bool} {instr : Instr}

/-- A command whose body succeeds on the bus at hand. -/
theorem twDone_ok (hr : Ready instr s) (hb : Presents s ans) {Q : Unit → State → Prop} {E : Raise → State → Prop}
    (hrun : Runs s.tw s.params (bodyOf instr) ans (.ok ()) es b) (hend : FromStart s (bodyOf instr) Q E)
    (hq : ∀ u, Q () u → TwEnd s i c d u) :
    ∃ t, exec instr s = .next t ∧ TwDone s t 0x00 s.result es i c d :=
  have hx := hrun.run (s := s.begin) hb
  ⟨_, exec_ok hr hx, (hq _ (hend.ok rfl hx)).twDone 0x00 s.result⟩

/-- A command whose body raises an error on the bus at hand. -/
theorem twDone_err (hr : Ready instr s) (hb : Presents s ans) {e : Err} {Q : Unit → State → Prop}
    {E : Raise → State → Prop} (hrun : Runs s.tw s.params (bodyOf instr) ans (.error (.err e)) es b)
    (hend : FromStart s (bodyOf instr) Q E) (he : ∀ u, E (.err e) u → TwEnd s i c d u) :
    ∃ t, exec instr s = .next t ∧ TwDone s t e.code s.result es i c d :=
  have hx := hrun.run (s := s.begin) hb
  ⟨_, exec_err hr hx, (he _ (hend.error rfl hx)).twDone e.code s.result⟩

/-! ## START and STOP (rules R133 to R135) -/

/-- Settles O29: the three ends of a START on an idle bus. -/
theorem twStartOnAnIdleBus : Obligations.TwStartOnAnIdleBus := by
  unfold Obligations.TwStartOnAnIdleBus
  intro s hr hw hx
  have hend := ends_start hw (initialized_of_check hr.2)
  have hok {k} (hk : k < s.tw.polls) := Runs.startOk (q := s.params) hk
  have hheld := Runs.startHeld (w := s.tw) (q := s.params)
  simp only [hx] at hok hheld
  exact ⟨fun k hk hb => twDone_ok hr hb (hok hk) hend fun _ => id,
    fun hb => twDone_err hr hb (Runs.startLost hx) hend fun _ => id,
    fun hb => twDone_err hr hb hheld hend fun _ => id⟩

/-- Settles O30: the two ends of a repeated START. -/
theorem twStartInATransaction : Obligations.TwStartInATransaction := by
  unfold Obligations.TwStartInATransaction
  intro s hr hw hx
  have hend := ends_start hw (initialized_of_check hr.2)
  have hok {k} (hk : k < s.tw.polls) := Runs.startOk (q := s.params) hk
  have hheld := Runs.startHeld (w := s.tw) (q := s.params)
  simp only [hx] at hok hheld
  exact ⟨fun k hk hb => twDone_ok hr hb (hok hk) hend fun _ => id,
    fun hb => twDone_err hr hb hheld hend fun _ => id⟩

/-- Settles O31: nothing happens outside a transaction; inside one a STOP has two ends, both idle. -/
theorem twStopFollowsItsRule : Obligations.TwStopFollowsItsRule := by
  unfold Obligations.TwStopFollowsItsRule
  intro s hf
  have hr : Ready .twStop s := ⟨hf, rfl⟩
  refine ⟨fun hx => ⟨_, exec_err hr (stop_idle (s := s.begin) hx), quietDone_begin s 0x09⟩, fun hx hw => ?_⟩
  have hend := ends_stop hw hx
  exact ⟨fun k hk hb => twDone_ok hr hb (Runs.stopOk hx hk) hend fun _ => id,
    fun hb => twDone_err hr hb (Runs.stopHeld hx) hend fun _ => id⟩

/-! ## Bytes (rules R136, R137) -/

/-- A command that transfers a byte and writes `RESULT` from what came back. -/
theorem twDone_result {β : Type} {x : Op β} {a : β} {f : β → Byte} {Q : β → State → Prop} {E : Raise → State → Prop}
    (hr : Ready instr s) (hbody : bodyOf instr = do setResult (f (← x))) (hb : Presents s ans)
    (hrun : Plays s.tw s.params x ans a es) (hend : FromStart s x Q E) (hq : ∀ u, Q a u → TwEnd s i c d u) :
    ∃ t, exec instr s = .next t ∧ TwDone s t 0x00 (f a) es i c d := by
  have hx := hrun.runs.run (s := s.begin) hb
  exact ⟨_, exec_ok hr (by rw [hbody]; exact bind_ok hx), (hq _ (hend.ok rfl hx)).twDone 0x00 (f a)⟩

/-- The same, where the transfer fails. -/
theorem twDone_noResult {β : Type} {x : Op β} {e : Err} {f : β → Byte} {Q : β → State → Prop}
    {E : Raise → State → Prop} (hr : Ready instr s) (hbody : bodyOf instr = do setResult (f (← x)))
    (hb : Presents s ans) (hrun : Runs s.tw s.params x ans (.error (.err e)) es b) (hend : FromStart s x Q E)
    (he : ∀ u, E (.err e) u → TwEnd s i c d u) :
    ∃ t, exec instr s = .next t ∧ TwDone s t e.code s.result es i c d := by
  have hx := hrun.run (s := s.begin) hb
  exact ⟨_, exec_err hr (by rw [hbody]; exact bind_error hx), (he _ (hend.error rfl hx)).twDone e.code s.result⟩

/-- Settles O32: nine ticks, or a clock held at one of them. -/
theorem twWriteByteFollowsItsRule : Obligations.TwWriteByteFollowsItsRule := by
  unfold Obligations.TwWriteByteFollowsItsRule
  intro x s st hr hw hst
  have hend := ends_writeByte hw (inTx_of_checks hr.2) x
  have hzext : ∀ a, zext8 a = if a then 0x01 else 0x00 := by decide
  refine ⟨fun a hb => ?_, fun j hj hb => twDone_noResult hr rfl hb (Runs.writeHeld hst x hj) hend fun _ => id⟩
  rw [← hzext]
  exact twDone_result hr rfl hb (Plays.writeByte hst x a) hend fun _ => id

/-- Settles O33: nine ticks, or a clock held at one of them. -/
theorem twReadByteFollowsItsRule : Obligations.TwReadByteFollowsItsRule := by
  unfold Obligations.TwReadByteFollowsItsRule
  intro k x s st hr hw hst
  have hend := ends_readByte hw (inTx_of_checks hr.2) k
  exact ⟨fun hb => twDone_result (f := id) hr rfl hb (Plays.readByte hst x k) hend fun _ => id,
    fun j hj hb => twDone_noResult (f := id) hr rfl hb (Runs.readHeld hst x k hj) hend fun _ => id⟩

end Sys2Proof.Machine
end

section
/-! Addressed transactions (O36 to O38): how `StartRW`, `StartWrite` and the read that follows it end on a bus whose
answers are known, and that a command whose first part fails ends as that part alone does. -/

namespace Sys2Proof.Machine

variable {s t u : State} {w : TwRegs} {q : Params} {st st' : Nat → Nat} {son b : Bool} {ab : Byte} {es : List Event}
  {ans : List Bool} {c d : Drive} {i j : Instr}

/-! ## The ends of an address byte (rules R140 to R142) -/

/-- An address byte whose START fails ends as that START. -/
theorem Runs.startRwFails {e : Raise} (h : Runs w q start ans (.error e) es b) :
    Runs w q (startRw ab son) ans (.error e) es b := Runs.fail h

/-- An address byte whose tick `j` is held. -/
theorem Runs.startRwHeld (h : ∀ j, st j < w.polls) {j : Nat} (hj : j < 9) :
    Runs w q (startRw ab son) (startAnswers w.inTx (st 0) ++ writeHeldAnswers (fun i => st (i + 1)) j w.polls)
      (.error (.err .longClockStretch))
      (startEvents w.inTx w.line (st 0) ++ writeHeldEvents w.line (fun i => st (i + 1)) ab j w.polls) false :=
  Runs.bind (Runs.startOk (h 0))
    (Runs.fail (Runs.writeHeld (w := { w with inTx := true }) (fun j => h (j + 1)) ab hj))

/-- An address byte that is not acknowledged, the STOP after it as the clock lets it. -/
theorem Runs.startRwStopped (h : ∀ j, st j < w.polls) :
    Runs w q (startRw ab true) (addressAnswers w.inTx st true ++ riseAnswers (st 10)) (.error (.err .noAck))
      (addressEvents w.inTx w.line st ab true ++ stopEvents w.line (st 10)) false :=
  Runs.startRwNack h ab (Runs.nackStopped rfl (h 10))

theorem Runs.startRwStopHeld (h : ∀ j, st j < w.polls) :
    Runs w q (startRw ab true) (addressAnswers w.inTx st true ++ List.replicate w.polls false) (.error (.err .noAck))
      (addressEvents w.inTx w.line st ab true ++ stopHeldEvents w.line w.polls) false :=
  Runs.startRwNack h ab (Runs.nackStopHeld rfl)

/-! ## The register byte (rule R141) -/

/-- The register byte with what its NACK brings about. -/
def registerByte (r : Byte) : Op Unit := do
  if ← writeByte r then nackData else pure ()

theorem startWrite_eq (a : BitVec 7) (r : Byte) :
    startWrite a r = startRw (addrByte a 0) true >>= fun _ => registerByte r := by
  rw [startWrite, (addressByte_eq a).1]
  rfl

/-- `StartWrite` once its address byte is acknowledged. -/
theorem Runs.startWriteThen {a : BitVec 7} {r : Byte} {res : Except Raise Unit} (h : ∀ j, st j < w.polls)
    (hx : Runs { w with inTx := true } q (registerByte r) ans res es b) :
    Runs w q (startWrite a r) (addressAnswers w.inTx st false ++ ans) res
      (addressEvents w.inTx w.line st (addrByte a 0) false ++ es) b := by
  rw [startWrite_eq]
  exact Runs.bind (Runs.startRwAck h _ true) hx

theorem Runs.startWriteAck {a : BitVec 7} {r : Byte} (h : ∀ j, st j < w.polls) (h' : ∀ j, st' j < w.polls) :
    Runs w q (startWrite a r) (addressAnswers w.inTx st false ++ writeByteAnswers st' false) (.ok ())
      (addressEvents w.inTx w.line st (addrByte a 0) false ++ writeByteEvents w.line st' r false) true :=
  Runs.startWriteThen h (Runs.cast (Runs.step (Plays.writeByte (w := { w with inTx := true }) h' r false)
    (Plays.pure ()).runs) (List.append_nil _) (List.append_nil _))

theorem Runs.startWriteNack {a : BitVec 7} {r : Byte} (h : ∀ j, st j < w.polls) (h' : ∀ j, st' j < w.polls) :
    Runs w q (startWrite a r) (addressAnswers w.inTx st false ++ writeByteAnswers st' true) (.error (.err .noAck))
      (addressEvents w.inTx w.line st (addrByte a 0) false ++
        (writeByteEvents w.line st' r true ++ failFastEvents w.line)) false :=
  Runs.startWriteThen h (Runs.cast (Runs.step (Plays.writeByte (w := { w with inTx := true }) h' r true)
    (Runs.failFastThen .noAck)) (List.append_nil _) rfl)

theorem Runs.startWriteHeld {a : BitVec 7} {r : Byte} (h : ∀ j, st j < w.polls) (h' : ∀ j, st' j < w.polls) {j : Nat}
    (hj : j < 9) :
    Runs w q (startWrite a r) (addressAnswers w.inTx st false ++ writeHeldAnswers st' j w.polls)
      (.error (.err .longClockStretch))
      (addressEvents w.inTx w.line st (addrByte a 0) false ++ writeHeldEvents w.line st' r j w.polls) false :=
  Runs.startWriteThen h (Runs.fail (Runs.writeHeld (w := { w with inTx := true }) h' r hj))

/-- `TW_START_READ` once its write part has succeeded (rule R142). -/
theorem Runs.startReadThen {a : BitVec 7} {r : Byte} {res : Except Raise Unit} (h : ∀ j, st j < w.polls)
    (h' : ∀ j, st' j < w.polls)
    (hx : Runs { w with inTx := true } q (startRw (addrByte a 1) true) ans res es b) :
    Runs w q (bodyOf (.twStartRead a r)) (addressAnswers w.inTx st false ++ writeByteAnswers st' false ++ ans) res
      (addressEvents w.inTx w.line st (addrByte a 0) false ++ writeByteEvents w.line st' r false ++ es) b := by
  rw [bodyOf, (addressByte_eq a).2]
  exact Runs.bind (Runs.startWriteAck h h') hx

/-! ## A command that begins as another (rules R141, R142) -/

/-- Where the command `i` does not end with `OK`, a command whose body goes on from `i`'s ends as `i` does. -/
theorem exec_of_first_part {f : Unit → Op Unit} (hi : Ready i s) (hj : Ready j s) (hbody : bodyOf j = bodyOf i >>= f)
    (h : exec i s = .next t) (hst : t.status ≠ 0x00) : exec j s = .next t := by
  rw [exec_ready hi] at h
  rw [exec_ready hj, hbody]
  obtain ⟨-, ⟨u, hu, rfl⟩ | ⟨e, u, hu, rfl⟩ | ⟨r, u, hu, rfl⟩⟩ := runCommand_next h
  · exact absurd rfl hst
  · exact runCommand_err hj.1 (bind_error hu)
  · exact runCommand_usage hj.1 (bind_error hu)

/-! ## The commands -/

/-- Settles O36: the START's ends, the address byte's, and what a NACK brings about. -/
theorem twStartRwFollowsItsRule : Obligations.TwStartRwFollowsItsRule := by
  unfold Obligations.TwStartRwFollowsItsRule
  intro ab son s st hr hw hst
  have hend := ends_startRw hw (initialized_of_check hr.2) ab son
  have idle {e : Err} (he : ¬ (e = .noAck ∧ son = false)) (u : State)
      (h : if Raise.err e = .err .noAck ∧ son = false then EndsOpen s u else EndsIdle s u) : EndsIdle s u := by
    rwa [if_neg (by simpa using he)] at h
  refine ⟨fun hb => twDone_ok hr hb (Runs.startRwAck hst ab son) hend fun _ => id, fun hson hb => ?_, fun hson hb => ?_,
    fun hson hb => ?_, fun hx hb => ?_, fun hb => ?_, fun j hj hb => ?_⟩
  · subst hson
    exact twDone_err hr hb (Runs.cast (Runs.startRwNack hst ab Runs.nackOpen) (List.append_nil _) (List.append_nil _))
      hend fun _ => id
  · subst hson
    exact twDone_err hr hb (Runs.startRwStopped hst) hend (idle (by simp))
  · subst hson
    exact twDone_err hr hb (Runs.cast (Runs.startRwStopHeld hst) rfl (List.append_assoc ..).symm) hend (idle (by simp))
  · exact twDone_err hr hb (Runs.startRwFails (Runs.startLost hx)) hend (idle (by simp))
  · exact twDone_err hr hb (Runs.startRwFails Runs.startHeld) hend (idle (by simp))
  · exact twDone_err hr hb (Runs.startRwHeld hst hj) hend (idle (by simp))

/-- Settles O37: the register byte's ends; where the address part fails, `TW_START_RW`'s. -/
theorem twStartWriteFollowsItsRule : Obligations.TwStartWriteFollowsItsRule := by
  unfold Obligations.TwStartWriteFollowsItsRule
  intro a r s st st' hr hw hst hst'
  have hend := ends_startWrite hw (initialized_of_check hr.2) a r
  refine ⟨fun hb => twDone_ok hr hb (Runs.startWriteAck hst hst') hend fun _ => id,
    fun hb => twDone_err hr hb (Runs.startWriteNack hst hst') hend fun _ => id,
    fun j hj hb => twDone_err hr hb (Runs.startWriteHeld hst hst' hj) hend fun _ => id,
    fun t h hne => exec_of_first_part (i := .twStartRw (addrByte a 0) true) hr hr (startWrite_eq a r) h hne⟩

/-- Settles O38: the read address byte's ends; where the write part fails, `TW_START_WRITE`'s. -/
theorem twStartReadFollowsItsRule : Obligations.TwStartReadFollowsItsRule := by
  unfold Obligations.TwStartReadFollowsItsRule
  intro a r s st st' st'' hr hw hst hst' hst''
  have hend := ends_startRead hw (initialized_of_check hr.2) a r
  replace hst'' : ∀ j, st'' j < ({ s.tw with inTx := true } : TwRegs).polls := hst''
  have hread {ans es res b} := Runs.startReadThen (q := s.params) (a := a) (r := r) (ans := ans) (es := es)
    (res := res) (b := b) hst hst'
  exact ⟨fun hb => twDone_ok hr hb (hread (Runs.startRwAck hst'' _ true)) hend fun _ => id,
    fun hb => twDone_err hr hb (hread (Runs.startRwStopped hst'')) hend fun _ => id,
    fun hb => twDone_err hr hb (hread (Runs.cast (Runs.startRwStopHeld hst'') rfl (List.append_assoc ..).symm)) hend
      fun _ => id,
    fun hb => twDone_err hr hb (hread (Runs.startRwFails Runs.startHeld)) hend fun _ => id,
    fun j hj hb => twDone_err hr hb (hread (Runs.startRwHeld hst'' hj)) hend fun _ => id,
    fun t h hne => exec_of_first_part (i := .twStartWrite a r) hr hr rfl h hne⟩

end Sys2Proof.Machine
end

section
/-! Buffered transfers on a bus whose answers are known (O34, O35): the bytes of `TXBUF` acknowledged one after the
other, the bytes received into `RXBUF`, and the byte at which a transfer ends early. -/

namespace Sys2Proof.Machine

variable {s t u : State} {st : Nat → Nat → Nat} {xs pre post : List Byte} {x : Byte} {rest : List Bool} {len : Byte}
  {es : List Event} {b : Bool} {c d : Drive}

theorem State.play_line (s : State) (es : List Event) : (s.play es).line = s.line := rfl

/-! ## Bytes of `TXBUF` (rule R138) -/

/-- `TXBUF[i ..]` holds the bytes `xs`. -/
def TxHolds (s : State) (i : Nat) (xs : List Byte) : Prop :=
  ∀ j, j < xs.length → Memory.read s.txbuf (i + j) = xs[j]?

theorem TxHolds.head {i : Nat} (h : TxHolds s i (x :: xs)) : Memory.read s.txbuf i = some x :=
  h 0 (Nat.zero_lt_succ _)

theorem TxHolds.tail {i : Nat} (h : TxHolds s i (x :: xs)) : TxHolds s (i + 1) xs := fun j hj => by
  have := h (j + 1) (Nat.succ_lt_succ hj)
  rwa [List.getElem?_cons_succ, show i + (j + 1) = i + 1 + j by omega] at this

/-- A byte sent: what its acknowledge level brings about goes on from the byte's events. -/
theorem writeTxBytes_byte {i k : Nat} {a : Bool} (hst : ∀ i j, st i j < s.tw.polls)
    (hx : Memory.read s.txbuf i = some x) (hb : Presents s (writeByteAnswers (st i) a ++ rest)) :
    writeTxBytes (k + 1) i s =
      (if a then nackData else writeTxBytes k (i + 1)) (s.play (writeByteEvents s.line (st i) x a)) := by
  rw [writeTxBytes, bind_ok (readTx_run hx), bind_ok ((Plays.writeByte (hst i) x a).run hb.append.1)]
  rfl

theorem nackData_run (s : State) :
    nackData s = .error (.err .noAck) ((s.play (failFastEvents s.line)).setInTx false) := by
  rw [nackData, bind_ok (failFast_run s), raiseErr_run]

/-- Bytes that are acknowledged: the transfer goes on after their events. -/
theorem writeTxBytes_acked {i : Nat} (k : Nat) (hst : ∀ i j, st i j < s.tw.polls) (htx : TxHolds s i xs)
    (hb : Presents s (writeBytesAnswers st i xs.length ++ rest)) :
    writeTxBytes (xs.length + k) i s =
        writeTxBytes k (i + xs.length) (s.play (writeBytesEvents s.line st i xs)) ∧
      Presents (s.play (writeBytesEvents s.line st i xs)) rest := by
  induction xs generalizing s i with
  | nil => exact ⟨by simp [writeBytesEvents], hb⟩
  | cons x xs ih =>
    rw [List.length_cons, writeBytesAnswers, List.append_assoc] at hb
    have hbyte := Plays.writeByte (w := s.tw) (q := s.params) (hst i) x false
    obtain ⟨hrun, hrest⟩ := ih (s := s.play (writeByteEvents s.line (st i) x false)) hst htx.tail (hbyte.after hb)
    rw [State.play_play] at hrun hrest
    refine ⟨?_, hrest⟩
    rw [List.length_cons, Nat.add_right_comm, writeTxBytes_byte hst htx.head hb, show
      i + (xs.length + 1) = i + 1 + xs.length by omega]
    exact hrun

/-- The bytes before one at which the transfer ends. -/
theorem writeTxBytes_split (hst : ∀ i j, st i j < s.tw.polls) (htx : TxHolds s 0 (pre ++ x :: post))
    (hb : Presents s (writeBytesAnswers st 0 pre.length ++ rest)) :
    writeTxBytes (pre ++ x :: post).length 0 s =
        writeTxBytes (post.length + 1) pre.length (s.play (writeBytesEvents s.line st 0 pre)) ∧
      Memory.read (s.play (writeBytesEvents s.line st 0 pre)).txbuf pre.length = some x ∧
      Presents (s.play (writeBytesEvents s.line st 0 pre)) rest := by
  have hpre : TxHolds s 0 pre := fun j hj => by
    rw [htx j (by simp; omega), List.getElem?_append_left hj]
  obtain ⟨hrun, hrest⟩ := writeTxBytes_acked (post.length + 1) hst hpre hb
  rw [Nat.zero_add] at hrun
  refine ⟨by rw [List.length_append, List.length_cons, hrun], ?_, hrest⟩
  simpa using htx pre.length (by simp)

theorem writeTxBytes_nacked (hst : ∀ i j, st i j < s.tw.polls) (htx : TxHolds s 0 (pre ++ x :: post))
    (hb : Presents s (writeBytesAnswers st 0 pre.length ++ writeByteAnswers (st pre.length) true)) :
    writeTxBytes (pre ++ x :: post).length 0 s = .error (.err .noAck)
      ((s.play (writeBytesEvents s.line st 0 pre ++ writeByteEvents s.line (st pre.length) x true ++
        failFastEvents s.line)).setInTx false) := by
  obtain ⟨hrun, hx, hrest⟩ := writeTxBytes_split hst htx hb
  have hbyte := writeTxBytes_byte (s := s.play (writeBytesEvents s.line st 0 pre)) (k := post.length) (a := true)
    (rest := []) hst hx (by rwa [List.append_nil])
  rw [hrun, hbyte, if_pos rfl, nackData_run]
  simp only [State.play_play, State.play_line, List.append_assoc]

theorem writeTxBytes_held {j : Nat} (hj : j < 9) (hst : ∀ i j, st i j < s.tw.polls)
    (htx : TxHolds s 0 (pre ++ x :: post))
    (hb : Presents s (writeBytesAnswers st 0 pre.length ++ writeHeldAnswers (st pre.length) j s.tw.polls)) :
    writeTxBytes (pre ++ x :: post).length 0 s = .error (.err .longClockStretch)
      ((s.play (writeBytesEvents s.line st 0 pre ++
        writeHeldEvents s.line (st pre.length) x j s.tw.polls)).setInTx false) := by
  obtain ⟨hrun, hx, hrest⟩ := writeTxBytes_split hst htx hb
  have hheld := (Runs.writeHeld (w := s.tw) (q := s.params) (hst pre.length) x hj).runs_to
    (s.play (writeBytesEvents s.line st 0 pre)) rfl rfl hrest
  rw [hrun, writeTxBytes, bind_ok (readTx_run hx), bind_error hheld, State.play_play]
  rfl

/-- The checks of `TW_WRITE_BYTES` leave a transaction and a length of `TXBUF` that is written. -/
theorem writeBytes_checked (hr : Ready (.twWriteBytes len) s) :
    s.tw.inTx = true ∧ absentBelow s len.toNat = false := by
  obtain ⟨hopen, hrest⟩ := firstOf_append_none.mp hr.2
  simp only [firstOf_cons_none] at hrest
  obtain ⟨-, hwritten, -⟩ := hrest
  exact ⟨inTx_of_checks hopen, hwritten⟩

/-- Settles O34: the bytes before the one at which the transfer ends are acknowledged. -/
theorem twWriteBytesFollowsItsRule : Obligations.TwWriteBytesFollowsItsRule := by
  unfold Obligations.TwWriteBytesFollowsItsRule
  intro len xs s st hr hw hlen htx hst
  obtain ⟨hx, hk⟩ := writeBytes_checked hr
  have hend := ends_writeTxBytes hw hx hk
  rw [← hlen] at hend htx ⊢
  have hbody : bodyOf (.twWriteBytes len) = writeTxBytes xs.length 0 := by rw [bodyOf, hlen]
  have hholds : TxHolds s.begin 0 xs := fun j hj => by rw [Nat.zero_add]; exact htx j hj
  have hdone {e : Err} {es : List Event}
      (hx : writeTxBytes xs.length 0 s.begin = .error (.err e) ((s.begin.play es).setInTx false)) :
      ∃ t, exec (.twWriteBytes len) s = .next t ∧ TwDone s t e.code s.result es false .rel .rel :=
    ⟨_, exec_err hr (by rw [hbody]; exact hx), (hend.error rfl hx).twDone e.code s.result⟩
  refine ⟨fun hb => ?_, fun pre x post hxs => ?_⟩
  · obtain ⟨hrun, -⟩ := writeTxBytes_acked (s := s.begin) (rest := []) 0 hst hholds (by rwa [List.append_nil])
    exact ⟨_, exec_ok hr (by rw [hbody]; exact hrun), (hend.ok rfl hrun).twDone (b := s.tw.inTx) 0x00 s.result⟩
  · subst hxs
    exact ⟨fun hb => hdone (writeTxBytes_nacked hst hholds hb),
      fun j hj hb => hdone (writeTxBytes_held hj hst hholds hb)⟩

/-! ## Bytes of `RXBUF` (rule R139) -/

theorem State.writeRxs_nil (s : State) (i : Nat) : s.writeRxs i [] = s := rfl

theorem State.writeRxs_cons (s : State) (i : Nat) (x : Byte) (xs : List Byte) :
    s.writeRxs i (x :: xs) = (s.writeRx i x).writeRxs (i + 1) xs := rfl

theorem State.writeRx_line (s : State) (i : Nat) (x : Byte) : (s.writeRx i x).line = s.line := rfl

theorem State.play_writeRx (s : State) (es : List Event) (i : Nat) (x : Byte) :
    (s.play es).writeRx i x = (s.writeRx i x).play es := rfl

theorem State.play_writeRxs (s : State) (es : List Event) (i : Nat) (xs : List Byte) :
    (s.play es).writeRxs i xs = (s.writeRxs i xs).play es := rfl

/-- A byte received and written; more follow as long as any are left. -/
theorem readRxBytes_byte {i k : Nat} (hst : ∀ i j, st i j < s.tw.polls)
    (hb : Presents s (readByteAnswers (st i) x ++ rest)) :
    readRxBytes (k + 1) i s =
        readRxBytes k (i + 1) ((s.writeRx i x).play (readByteEvents s.line (st i) x (k == 0))) ∧
      Presents ((s.writeRx i x).play (readByteEvents s.line (st i) x (k == 0))) rest := by
  have hbyte := Plays.readByte (w := s.tw) (q := s.params) (hst i) x (k == 0)
  refine ⟨?_, hbyte.after (s := s) hb⟩
  rw [readRxBytes, bind_ok (hbyte.run hb.append.1), bind_ok (writeRx_run ..), State.play_writeRx]
  rfl

/-- The bytes of a whole transfer: ACK after each but NACK after the last. -/
theorem readRxBytes_all {i : Nat} (hst : ∀ i j, st i j < s.tw.polls) (hb : Presents s (readBytesAnswers st i xs)) :
    readRxBytes xs.length i s = .ok () ((s.writeRxs i xs).play (readBytesEvents s.line st i xs)) := by
  induction xs generalizing s i with
  | nil => rfl
  | cons x xs ih =>
    obtain ⟨hrun, hrest⟩ := readRxBytes_byte (k := xs.length) hst hb
    have hlast : (xs.length == 0) = xs.isEmpty := by cases xs <;> rfl
    rw [hlast] at hrun hrest
    rw [List.length_cons, hrun, ih (s := (s.writeRx i x).play _) hst hrest]
    simp only [State.play_writeRxs, State.play_play, State.play_line, State.writeRx_line, State.writeRxs_cons,
      readBytesEvents]

/-- The bytes before one at which the transfer ends, ACK after each. -/
theorem readRxBytes_acked {i : Nat} (k : Nat) (hst : ∀ i j, st i j < s.tw.polls)
    (hb : Presents s (readBytesAnswers st i xs ++ rest)) :
    readRxBytes (xs.length + (k + 1)) i s =
        readRxBytes (k + 1) (i + xs.length) ((s.writeRxs i xs).play (readAckedEvents s.line st i xs)) ∧
      Presents ((s.writeRxs i xs).play (readAckedEvents s.line st i xs)) rest := by
  induction xs generalizing s i with
  | nil => exact ⟨by simp [readAckedEvents, State.writeRxs_nil], hb⟩
  | cons x xs ih =>
    rw [readBytesAnswers, List.append_assoc] at hb
    obtain ⟨hrun, hrest⟩ := readRxBytes_byte (k := xs.length + (k + 1)) hst hb
    rw [show (xs.length + (k + 1) == 0) = false from beq_eq_false_iff_ne.mpr (by omega)] at hrun hrest
    obtain ⟨hrun', hrest'⟩ := ih (s := (s.writeRx i x).play _) hst hrest
    simp only [State.play_writeRxs, State.play_play, State.play_line, State.writeRx_line] at hrun' hrest'
    rw [List.length_cons, Nat.add_right_comm, hrun, hrun', show i + 1 + xs.length = i + (xs.length + 1) by omega,
      State.writeRxs_cons, readAckedEvents]
    exact ⟨rfl, hrest'⟩

theorem readRxBytes_held {j : Nat} (hj : j < 9) (hst : ∀ i j, st i j < s.tw.polls)
    (hb : Presents s (readBytesAnswers st 0 pre ++ readHeldAnswers (st pre.length) x j s.tw.polls)) :
    readRxBytes (pre ++ x :: post).length 0 s = .error (.err .longClockStretch)
      (((s.writeRxs 0 pre).play (readAckedEvents s.line st 0 pre ++
        readHeldEvents s.line (st pre.length) x post.isEmpty j s.tw.polls)).setInTx false) := by
  obtain ⟨hrun, hrest⟩ := readRxBytes_acked post.length hst hb
  have hheld := (Runs.readHeld (w := s.tw) (q := s.params) (hst pre.length) x post.isEmpty hj).runs_to
    ((s.writeRxs 0 pre).play (readAckedEvents s.line st 0 pre)) rfl rfl hrest
  have hlast : (post.length == 0) = post.isEmpty := by cases post <;> rfl
  rw [List.length_append, List.length_cons, hrun, Nat.zero_add, readRxBytes, hlast, bind_error hheld, State.play_play]
  rfl

/-- A state that has received `xs` holds them. -/
theorem rxHolds_writeRxs (s : State) (xs : List Byte) : RxHolds s (s.writeRxs 0 xs) xs := fun i => by
  rw [show (s.writeRxs 0 xs).rxbuf = Memory.writeAll s.rxbuf 0 xs from rfl, Memory.read_writeAll]
  simp

/-- A command that has received `xs`, all but its lines as its events leave it. -/
theorem TwEnd.rxDone {i : Bool} (h : TwEnd s i c d (((s.begin.writeRxs 0 xs).play es).setInTx b)) (code : Byte) :
    let t := (((s.begin.writeRxs 0 xs).play es).setInTx b).complete code
    Completes s t code s.result es ∧ RxHolds s t xs ∧ KeepsOutside s t ∧ t.tw = { s.tw with inTx := i } ∧
      t.cursor = s.cursor ∧ KeepsTx s t ∧ KeepsLists s t ∧ KeepsOtherPins s t s.twPins ∧ TwLinesAre s t c d := by
  obtain ⟨htw, hothers, hlines⟩ := h
  have hkeep : CommandKeeps s (((s.begin.writeRxs 0 xs).play es).setInTx b) :=
    ⟨rfl, rfl, rfl, rfl, rfl, rfl, rfl, rfl⟩
  have hdone := hkeep.completes code
  rw [show (((s.begin.writeRxs 0 xs).play es).setInTx b).trace = es from trace_begin_play s es] at hdone
  exact ⟨hdone, rxHolds_writeRxs s xs, hkeep.outside code, htw, rfl, fun _ => rfl, ⟨rfl, rfl⟩, hothers, hlines⟩

/-- Settles O35: the bytes completed are written, the one at which the transfer ends and those after are not. -/
theorem twReadBytesFollowsItsRule : Obligations.TwReadBytesFollowsItsRule := by
  unfold Obligations.TwReadBytesFollowsItsRule
  intro len xs s st hr hw hlen hst
  obtain ⟨hopen, -⟩ := firstOf_append_none.mp hr.2
  have hx := inTx_of_checks hopen
  have hend := ends_readRxBytes hw hx xs.length
  have hbody : bodyOf (.twReadBytes len) = readRxBytes xs.length 0 := by rw [bodyOf, hlen]
  refine ⟨fun hb => ?_, fun pre x post hxs j hj hb => ?_⟩
  · have hrun := readRxBytes_all (s := s.begin) hst hb
    exact ⟨_, exec_ok hr (by rw [hbody]; exact hrun), TwEnd.rxDone (b := s.tw.inTx) (hend.ok rfl hrun) 0x00⟩
  · subst hxs
    have hrun := readRxBytes_held (s := s.begin) (post := post) hj hst hb
    exact ⟨_, exec_err hr (by rw [hbody]; exact hrun), TwEnd.rxDone (hend.error rfl hrun) 0x04⟩

end Sys2Proof.Machine
end

section
/-! `TW_IN_TX` after a command (O21): the ends of the two-wire operations say how the flag stands, and every other
command keeps it. -/

namespace Sys2Proof.Machine

variable {α β : Type} {s t u : State} {i : Instr} {b : Bool} {c d : Drive}

/-! ## What leaves the flag -/

/-- Whatever the bus answers, `x` leaves `TW_IN_TX`, also when it raises. -/
def KeepsInTx (x : Op α) : Prop :=
  ∀ b, Triple (fun u : State => u.tw.inTx = b) x (fun _ u => u.tw.inTx = b) (fun _ u => u.tw.inTx = b)

theorem KeepsInTx.bind {x : Op α} {f : α → Op β} (hx : KeepsInTx x) (hf : ∀ a, KeepsInTx (f a)) :
    KeepsInTx (x >>= f) := fun b => Triple.bind (hx b) fun a => hf a b

theorem KeepsInTx.pure (a : α) : KeepsInTx (Pure.pure a : Op α) := fun _ => Triple.pure fun _ h => h
theorem KeepsInTx.look (f : State → α) : KeepsInTx (look f) := fun _ => Triple.look fun _ h => h
theorem KeepsInTx.raiseErr (e : Err) : KeepsInTx (raiseErr e : Op α) := fun _ => Triple.raiseErr fun _ h => h
theorem KeepsInTx.reraise (r : Raise) : KeepsInTx (reraise r : Op α) := fun _ => Triple.reraise fun _ h => h
theorem KeepsInTx.errIf (c : Bool) (e : Err) : KeepsInTx (errIf c e) :=
  fun _ => Triple.errIf (fun _ h _ => h) fun _ h _ => h
theorem KeepsInTx.readTx (j : Nat) : KeepsInTx (readTx j) := fun _ => Triple.readTx (fun _ _ h _ => h) fun _ h _ => h
theorem KeepsInTx.attempt {x : Op α} (hx : KeepsInTx x) : KeepsInTx (attempt x) :=
  fun b => (hx b).attempt (fun _ _ h => h) fun _ _ h => h
theorem KeepsInTx.ite {c : Bool} {x y : Op α} (hx : KeepsInTx x) (hy : KeepsInTx y) :
    KeepsInTx (if c then x else y) := fun b => Triple.ite (fun _ => hx b) fun _ => hy b
theorem KeepsInTx.update {f : State → State} (hf : ∀ s, (f s).tw.inTx = s.tw.inTx) : KeepsInTx (update f) :=
  fun _ => Triple.update fun s h => (hf s).trans h

theorem KeepsInTx.cfg (p : PinId) (m : CfgMode) : KeepsInTx (cfg p m) := .update fun _ => rfl
theorem KeepsInTx.low (p : PinId) : KeepsInTx (low p) := .update fun _ => rfl
theorem KeepsInTx.rel (p : PinId) : KeepsInTx (rel p) := .update fun _ => rfl
theorem KeepsInTx.wait (n : Nat) : KeepsInTx (wait n) := .update fun _ => rfl
theorem KeepsInTx.sample (p : PinId) : KeepsInTx (sample p) := fun _ => ⟨fun s h => by rw [sample_run]; exact h⟩
theorem KeepsInTx.setResult (v : Byte) : KeepsInTx (setResult v) := .update fun _ => rfl
theorem KeepsInTx.writeRx (j : Nat) (x : Byte) : KeepsInTx (writeRx j x) := .update fun _ => rfl
theorem KeepsInTx.setOwDevList (f : State → List OwRecord) :
    KeepsInTx (Machine.update fun s => s.setOwDevList (f s)) := .update fun _ => rfl
theorem KeepsInTx.setCursor (f : State → Cursor) : KeepsInTx (Machine.update fun s => s.setCursor (f s)) :=
  .update fun _ => rfl

/-! ### One-wire operations -/

theorem KeepsInTx.owWriteBit (p : PinId) (v : Bool) : KeepsInTx (owWriteBit p v) :=
  .bind (.look _) fun _ => .bind (.low p) fun _ => .bind (.wait _) fun _ => .bind (.rel p) fun _ => .wait _

theorem KeepsInTx.owReadBit (p : PinId) : KeepsInTx (owReadBit p) :=
  .bind (.look _) fun _ => .bind (.low p) fun _ => .bind (.wait _) fun _ => .bind (.rel p) fun _ =>
    .bind (.wait _) fun _ => .bind (.sample p) fun _ => .bind (.wait _) fun _ => .pure _

theorem KeepsInTx.owWriteBits (p : PinId) (x : Byte) (n j : Nat) : KeepsInTx (owWriteBits p x n j) := by
  induction n generalizing j with
  | zero => exact .pure _
  | succ n ih => exact .bind (.owWriteBit _ _) fun _ => ih _

theorem KeepsInTx.owWriteByte (p : PinId) (x : Byte) : KeepsInTx (owWriteByte p x) := .owWriteBits p x 8 0

theorem KeepsInTx.owReadBits (p : PinId) (n j : Nat) (x : Byte) : KeepsInTx (owReadBits p n j x) := by
  induction n generalizing j x with
  | zero => exact .pure _
  | succ n ih => exact .bind (.owReadBit _) fun _ => ih _ _

theorem KeepsInTx.owReadByte (p : PinId) : KeepsInTx (owReadByte p) := .owReadBits p 8 0 _

theorem KeepsInTx.presencePolls (p : PinId) (n k : Nat) : KeepsInTx (presencePolls p n k) := by
  induction n generalizing k with
  | zero => exact .pure _
  | succ n ih =>
    exact .bind (.look _) fun _ => .bind (.wait _) fun _ => .bind (.sample p) fun _ => .ite (ih _) (.pure _)

theorem KeepsInTx.owReset (p : PinId) : KeepsInTx (owReset p) :=
  .bind (.look _) fun _ => .bind (.low p) fun _ => .bind (.wait _) fun _ => .bind (.rel p) fun _ =>
    .bind (.presencePolls p _ 0) fun _ => .bind (.wait _) fun _ => .pure _

theorem KeepsInTx.owWriteList (p : PinId) (xs : List Byte) : KeepsInTx (owWriteList p xs) := by
  induction xs with
  | nil => exact .pure _
  | cons x xs ih => exact .bind (.owWriteByte p x) fun _ => ih

theorem KeepsInTx.owWriteTx (p : PinId) (n j : Nat) : KeepsInTx (owWriteTx p n j) := by
  induction n generalizing j with
  | zero => exact .pure _
  | succ n ih => exact .bind (.readTx j) fun _ => .bind (.owWriteByte p _) fun _ => ih _

theorem KeepsInTx.owReadRx (p : PinId) (n j : Nat) : KeepsInTx (owReadRx p n j) := by
  induction n generalizing j with
  | zero => exact .pure _
  | succ n ih => exact .bind (.owReadByte p) fun _ => .bind (.writeRx _ _) fun _ => .bind (ih _) fun _ => .pure _

theorem KeepsInTx.matchDeviceBody (idx : Byte) : KeepsInTx (matchDeviceBody idx) := by
  refine .bind (.look _) fun found => ?_
  cases found with
  | none => exact .pure _
  | some r => exact .bind (.owWriteByte _ _) fun _ => .owWriteList _ _

theorem KeepsInTx.searchSteps (p : PinId) (cur : Cursor) (k n : Nat) (rom : Rom) (z : Nat) :
    KeepsInTx (searchSteps p cur k n rom z) := by
  induction k generalizing n rom z with
  | zero => exact .pure _
  | succ k ih =>
    refine .bind (.owReadBit p) fun _ => .bind (.owReadBit p) fun _ => ?_
    split
    · exact .raiseErr _
    · exact .bind (.owWriteBit p _) fun _ => ih _ _ _

theorem KeepsInTx.searchPass (p : PinId) (cmd : Byte) : KeepsInTx (searchPass p cmd) :=
  .bind (.look _) fun _ => .bind (.owReset p) fun _ => .bind (.errIf _ _) fun _ => .bind (.owWriteByte p cmd) fun _ =>
    .bind (.searchSteps p _ _ _ _ _) fun _ => .bind (.errIf _ _) fun _ => .bind (.errIf _ _) fun _ =>
    .bind (.setCursor _) fun _ => .pure _

theorem KeepsInTx.searchPassBody (p : PinId) (cmd : Byte) (sd : Bool) : KeepsInTx (searchPassBody p cmd sd) :=
  have hpass : KeepsInTx (do let _ ← Machine.searchPass p cmd; Pure.pure ()) :=
    .bind (.searchPass p cmd) fun _ => .pure _
  .bind (.errIf _ _) fun _ => .ite (.bind (.setCursor _) fun _ => hpass) hpass

theorem KeepsInTx.freeOwAndRaise (r : Raise) : KeepsInTx (freeOwAndRaise r) :=
  .bind (.setOwDevList _) fun _ => .reraise r

theorem KeepsInTx.searchLoop (p : PinId) (cmd : Byte) (k : Nat) : KeepsInTx (searchLoop p cmd k) := by
  induction k with
  | zero =>
    refine .bind (.attempt (.searchPass p cmd)) fun r => ?_
    split
    · exact .freeOwAndRaise _
    · exact .freeOwAndRaise _
  | succ k ih =>
    refine .bind (.attempt (.searchPass p cmd)) fun r => ?_
    split
    · exact .freeOwAndRaise _
    · exact .bind (.setOwDevList _) fun _ => .bind (.look _) fun _ => .ite (.pure _) ih

theorem KeepsInTx.searchBody (p : PinId) (cmd : Byte) : KeepsInTx (searchBody p cmd) :=
  .bind (.errIf _ _) fun _ => .bind (.look _) fun _ => .bind (.errIf _ _) fun _ => .bind (.setCursor _) fun _ =>
    .bind (.look _) fun _ => .searchLoop p cmd _

/-! ## The two-wire operations that write it -/

/-- After the transfer a result is written, which is beside the lines. -/
theorem FromStart.thenResult {x : Op α} {f : α → Byte} {E : Raise → State → Prop}
    (hx : FromStart s x (fun _ => TwEnd s b c d) E) :
    FromStart s (do setResult (f (← x))) (fun _ => TwEnd s b c d) E :=
  Triple.bind hx fun _ => Triple.update fun _ h => h

/-- A scan that probes some address ends with the bus idle, however it ends (rule R143). -/
theorem ends_scan (hw : s.TwInv) (hi : s.tw.initialized = true) (hp : probed s.params ≠ []) :
    FromStart s (bodyOf .twScan) (fun _ => EndsIdle s) (fun _ => EndsIdle s) := by
  obtain ⟨a, ha⟩ := List.exists_mem_of_ne_nil _ hp
  obtain ⟨hmem, hfree⟩ := List.mem_filter.mp ha
  have hnil : ScanList s.params [] := ⟨Nat.zero_le _, by simp⟩
  have hprobes := triple_scanProbes (s₀ := s.begin) (n := 0) (i := s.tw.inTx) (c := (s.pin s.tw.sclPin).drive)
    (d := (s.pin s.tw.sdaPin).drive) (hw.twoLines hi) scanAddresses scanAddresses_ne_zero
  refine Triple.bind (Q := fun _ => (· = s.begin.setTwDevList []))
    (Triple.update fun _ hs => congrArg (·.setTwDevList []) hs) fun _ => ?_
  refine Triple.bind (Q := fun _ => EndsIdle s) (hprobes.imp (fun u hu => ⟨[], hnil, .inl ?_⟩) (fun _ t ht => ?_)
    fun _ _ ⟨_, h⟩ => At.twEnd h) fun _ => ?_
  · subst hu
    exact (at_start s).setTwDevList []
  · obtain ⟨l, -, ⟨hall, -⟩ | h⟩ := ht
    · exact absurd (hall a hmem) (by simpa using hfree)
    · exact At.twEnd h
  · exact Triple.bind (Q := fun _ => EndsIdle s) (Triple.look fun _ h => h) fun _ => Triple.update fun _ h => h

/-! ## The flag after a command (rule R146) -/

/-- A command that completed passed its checks. -/
theorem ready_of_completed (h : exec i s = .next t) (hf : t.faulted = false) : Ready i s := by
  obtain ⟨r, -, rfl⟩ | ⟨hr, -⟩ := exec_next h
  · cases hf
  · exact hr

/-- How a command that completed ended, from what its body ends in. -/
theorem exec_completed {Q : Unit → State → Prop} {E : Raise → State → Prop} (h : exec i s = .next t)
    (hf : t.faulted = false) (hend : FromStart s (bodyOf i) Q E) :
    (∃ u, Q () u ∧ t = u.complete 0x00) ∨ ∃ e u, E (.err e) u ∧ t = u.complete e.code := by
  obtain ⟨r, -, rfl⟩ | ⟨-, hrun⟩ := exec_next h
  · cases hf
  · obtain ⟨-, ⟨u, hu, rfl⟩ | ⟨e, u, hu, rfl⟩ | ⟨r, u, hu, rfl⟩⟩ := runCommand_next hrun
    · exact .inl ⟨u, hend.ok rfl hu, rfl⟩
    · exact .inr ⟨e, u, hend.error rfl hu, rfl⟩
    · cases hf

theorem Err.code_ne_ok (e : Err) : e.code ≠ 0x00 := by cases e <;> decide

theorem Err.code_eq_noAck {e : Err} : e.code = 0x05 ↔ e = .noAck := by cases e <;> decide

theorem TwEnd.inTx (h : TwEnd s b c d u) : u.tw.inTx = b := by
  obtain ⟨htw, -⟩ := h
  rw [htw]

/-- A command that opens a transaction or leaves the bus idle. -/
theorem inTx_of_openOrIdle (h : exec i s = .next t) (hf : t.faulted = false)
    (hend : FromStart s (bodyOf i) (fun _ => EndsOpen s) (fun _ => EndsIdle s)) :
    t.tw.inTx = decide (t.status = 0x00) := by
  obtain ⟨u, hu, rfl⟩ | ⟨e, u, hu, rfl⟩ := exec_completed h hf hend
  · exact hu.inTx
  · exact hu.inTx.trans (decide_eq_false e.code_ne_ok).symm

/-- A command that leaves the bus idle. -/
theorem inTx_of_idle (h : exec i s = .next t) (hf : t.faulted = false)
    (hend : FromStart s (bodyOf i) (fun _ => EndsIdle s) (fun _ => EndsIdle s)) : t.tw.inTx = false := by
  obtain ⟨u, hu, rfl⟩ | ⟨e, u, hu, rfl⟩ := exec_completed h hf hend
  · exact hu.inTx
  · exact hu.inTx

/-- An address byte whose NACK asked for no STOP leaves the transaction open. -/
theorem inTx_of_startRw {ab : Byte} {son : Bool} (hw : s.TwInv) (h : exec (.twStartRw ab son) s = .next t)
    (hf : t.faulted = false) : t.tw.inTx = (decide (t.status = 0x00) || decide (t.status = 0x05) && !son) := by
  have hi := initialized_of_check (ready_of_completed h hf).2
  obtain ⟨u, hu, rfl⟩ | ⟨e, u, hu, rfl⟩ := exec_completed h hf (ends_startRw hw hi ab son)
  · exact hu.inTx
  · change u.tw.inTx = (decide (e.code = 0x00) || decide (e.code = 0x05) && !son)
    simp only [decide_eq_false e.code_ne_ok, Bool.false_or, Err.code_eq_noAck]
    split at hu
    next hopen =>
      obtain ⟨he, rfl⟩ := hopen
      rw [hu.inTx, decide_eq_true (Raise.err.inj he)]
      rfl
    next hclosed =>
      rw [hu.inTx]
      simpa using hclosed

/-- A command that keeps the flag. -/
theorem inTx_of_keeps (h : exec i s = .next t) (hf : t.faulted = false) (hx : KeepsInTx (bodyOf i)) :
    t.tw.inTx = s.tw.inTx := by
  have hend : FromStart s (bodyOf i) (fun _ u => u.tw.inTx = s.tw.inTx) (fun _ u => u.tw.inTx = s.tw.inTx) :=
    (hx s.tw.inTx).pre fun u hu => by rw [hu]; rfl
  obtain ⟨u, hu, rfl⟩ | ⟨e, u, hu, rfl⟩ := exec_completed h hf hend
  · exact hu
  · exact hu

/-- `TW_INIT` configures only an engine that is not initialised, which is in no transaction (rules R38 a, R131). -/
theorem inTx_of_twInit {c d : PinId} (hw : s.TwInv) (h : exec (.twInit c d) s = .next t) (hf : t.faulted = false) :
    t.tw.inTx = s.tw.inTx := by
  have hr := ready_of_completed h hf
  cases hi : s.tw.initialized with
  | true =>
    obtain ⟨t', hx, hquiet⟩ := exec_twInit_initialized hr hi
    obtain rfl := Host.Outcome.next.inj (h.symm.trans hx)
    have hkeep : KeepsAllBut s t [] := by split at hquiet <;> exact hquiet.2
    obtain ⟨-, htw, -⟩ := hkeep
    rw [htw]
  | false =>
    obtain ⟨t', hx, -, -, -, -, -, -, -, -, htw⟩ := exec_twInit_configures hr hi
    obtain rfl := Host.Outcome.next.inj (h.symm.trans hx)
    rw [htw]
    exact (Bool.eq_false_iff.mpr fun hx => by simp [hw.initialized hx] at hi).symm

/-- Settles O21: each two-wire operation's end says how the flag stands; the other commands keep it. -/
theorem transactionFlagFollowsTheStateMachine : Obligations.TransactionFlagFollowsTheStateMachine := by
  unfold Obligations.TransactionFlagFollowsTheStateMachine
  intro i s t hw h hf
  have hr := ready_of_completed h hf
  have hkeeps := inTx_of_keeps h hf
  cases i with
  | twInit c d => exact inTx_of_twInit hw h hf
  | twSetSpeed lvl => exact hkeeps (.update fun _ => rfl)
  | twStart => exact inTx_of_openOrIdle h hf (ends_start hw (initialized_of_check hr.2))
  | twStop =>
    cases hx : s.tw.inTx with
    | true => exact inTx_of_idle h hf (ends_stop hw hx)
    | false =>
      obtain rfl := Host.Outcome.next.inj (h.symm.trans (exec_err hr (stop_idle (s := s.begin) hx)))
      exact hx
  | twWriteByte x =>
    have hx := inTx_of_checks hr.2
    exact ⟨hx, inTx_of_openOrIdle h hf (ends_writeByte hw hx x).thenResult⟩
  | twReadByte k =>
    have hx := inTx_of_checks hr.2
    exact ⟨hx, inTx_of_openOrIdle h hf ((ends_readByte hw hx k).thenResult (f := id))⟩
  | twWriteBytes len =>
    obtain ⟨hx, hk⟩ := writeBytes_checked hr
    exact ⟨hx, inTx_of_openOrIdle h hf (ends_writeTxBytes hw hx hk)⟩
  | twReadBytes len =>
    have hx := inTx_of_checks (firstOf_append_none.mp hr.2).1
    exact ⟨hx, inTx_of_openOrIdle h hf (ends_readRxBytes hw hx _)⟩
  | twStartRw ab son => exact inTx_of_startRw hw h hf
  | twStartWrite a r => exact inTx_of_openOrIdle h hf (ends_startWrite hw (initialized_of_check hr.2) a r)
  | twStartRead a r => exact inTx_of_openOrIdle h hf (ends_startRead hw (initialized_of_check hr.2) a r)
  | twScan => exact fun hp => inTx_of_idle h hf (ends_scan hw (initialized_of_check hr.2) hp)
  | twFree => exact hkeeps (.update fun _ => rfl)
  | owInit p => exact hkeeps (.cfg p _)
  | owReset p => exact hkeeps (.bind (.owReset p) fun _ => .setResult _)
  | owReadBit p => exact hkeeps (.bind (.owReadBit p) fun _ => .setResult _)
  | owWriteBit p v => exact hkeeps (.owWriteBit p v)
  | owRead p => exact hkeeps (.bind (.owReadByte p) fun _ => .setResult _)
  | owWrite p x => exact hkeeps (.owWriteByte p x)
  | owReadBytes p len => exact hkeeps (.bind (.owReadRx p _ 0) fun _ => .pure _)
  | owWriteBytes p len => exact hkeeps (.owWriteTx p _ 0)
  | owCrc8 x y => exact hkeeps (.setResult _)
  | owMatchRom p => exact hkeeps (.bind (.owWriteByte p _) fun _ => .owWriteTx p 8 0)
  | owMatchDevice idx => exact hkeeps (.matchDeviceBody idx)
  | owReadRom p =>
    exact hkeeps (.bind (.owWriteByte p _) fun _ => .bind (.owReadRx p 8 0) fun _ => .errIf _ _)
  | owSearchPass p cmd sd => exact hkeeps (.searchPassBody p cmd sd)
  | owSearch p cmd => exact hkeeps (.bind (.searchBody p cmd) fun _ => .bind (.look _) fun _ => .setResult _)
  | owSearchFamily p cmd f =>
    exact hkeeps (.bind (.searchBody p cmd) fun _ => .bind (.setOwDevList _) fun _ => .bind (.look _) fun _ =>
      .bind (.errIf _ _) fun _ => .bind (.look _) fun _ => .setResult _)
  | owFree => exact hkeeps (.update fun _ => rfl)

end Sys2Proof.Machine
end

section
/-! `TW_SCAN` (O39). `Scans` is `Runs` (Laws/Outcomes.lean) with the two-wire list followed as well: what one probe does
composes to the probes of a list of addresses, and to the one at which a scan ends. -/

namespace Sys2Proof.Machine

variable {α β : Type} {s : State} {w : TwRegs} {q : Params} {l l' l₁ : List Byte} {b b' : Bool}
  {ans ans' : List Bool} {es es' : List Event} {e : Err} {a : BitVec 7}

/-! ## Runs that write the list -/

theorem State.setTwDevList_play (s : State) (l : List Byte) (es : List Event) :
    (s.setTwDevList l).play es = (s.play es).setTwDevList l := rfl

theorem State.setTwDevList_setInTx (s : State) (l : List Byte) (b : Bool) :
    (s.setTwDevList l).setInTx b = (s.setInTx b).setTwDevList l := rfl

theorem State.setTwDevList_setTwDevList (s : State) (l l' : List Byte) :
    (s.setTwDevList l).setTwDevList l' = s.setTwDevList l' := rfl

/-- As `Runs`, where the two-wire list holds `l` before and `l'` after. -/
structure Scans (w : TwRegs) (q : Params) (l : List Byte) (x : Op α) (ans : List Bool) (r : Except Raise α)
    (es : List Event) (b : Bool) (l' : List Byte) : Prop where
  count : sampleCount es = ans.length
  runs_to : ∀ s, s.tw = w → s.params = q → s.twDevList = l → Presents s ans →
    x s = ends r (((s.play es).setInTx b).setTwDevList l')

theorem Scans.cast {x : Op α} {r : Except Raise α} (h : Scans w q l x ans r es b l') (ha : ans = ans') (he : es = es') :
    Scans w q l x ans' r es' b l' := by subst ha he; exact h

/-- What runs without writing the list leaves it. -/
theorem Runs.scans {x : Op α} {r : Except Raise α} (h : Runs w q x ans r es b) : Scans w q l x ans r es b l :=
  ⟨h.count, fun s hw hq hl hb => by rw [h.runs_to s hw hq hb, ← hl]; rfl⟩

theorem Scans.bind {x : Op α} {f : α → Op β} {a : α} {r : Except Raise β} (hx : Scans w q l x ans (.ok a) es b l₁)
    (hf : Scans { w with inTx := b } q l₁ (f a) ans' r es' b' l') :
    Scans w q l (x >>= f) (ans ++ ans') r (es ++ es') b' l' := by
  refine ⟨by simp [hx.count, hf.count], fun s hw hq hl hb => ?_⟩
  have hnext : Presents (((s.play es).setInTx b).setTwDevList l₁) ans' := hb.play hx.count
  rw [bind_ok (hx.runs_to s hw hq hl hb.append.1),
    hf.runs_to (((s.play es).setInTx b).setTwDevList l₁) (by rw [← hw]; rfl) hq rfl hnext]
  simp only [State.setTwDevList_play, State.setInTx_play, State.play_play, State.setTwDevList_setInTx,
    State.setInTx_setInTx, State.setTwDevList_setTwDevList]

theorem Scans.fail {x : Op α} {f : α → Op β} {r : Raise} (hx : Scans w q l x ans (.error r) es b l') :
    Scans w q l (x >>= f) ans (.error r) es b l' :=
  ⟨hx.count, fun s hw hq hl hb => by rw [bind_error (hx.runs_to s hw hq hl hb)]; rfl⟩

/-- As `Scans.bind`, no event, answer or write in the first part. -/
theorem Scans.step {x : Op α} {f : α → Op β} {a : α} {r : Except Raise β} (hx : Scans w q l x [] (.ok a) [] w.inTx l)
    (hf : Scans w q l (f a) ans r es b l') : Scans w q l (x >>= f) ans r es b l' := Scans.bind hx hf

theorem Scans.pure (a : α) : Scans w q l (pure a : Op α) [] (.ok a) [] w.inTx l := (Plays.pure a).runs.scans

theorem Scans.look {f : State → α} {a : α} (h : ∀ s : State, s.params = q → s.twDevList = l → f s = a) :
    Scans w q l (look f) [] (.ok a) [] w.inTx l :=
  ⟨rfl, fun s hw hq hl _ => by rw [look_run, h s hq hl, ← hw, ← hl]; rfl⟩

theorem Scans.setTwDevList {f : State → List Byte} (h : ∀ s : State, s.twDevList = l → f s = l') :
    Scans w q l (update fun s => s.setTwDevList (f s)) [] (.ok ()) [] w.inTx l' :=
  ⟨rfl, fun s hw _ hl _ => by rw [update_run, h s hl, ← hw]; rfl⟩

/-- The list emptied, the error raised again. -/
theorem Scans.freeTwAndRaise (r : Raise) : Scans w q l (Machine.freeTwAndRaise r) [] (.error r) [] w.inTx [] :=
  ⟨rfl, fun _ hw _ _ _ => by rw [← hw]; rfl⟩

/-! ## One probe (rule R143) -/

/-- What the scan makes of an address byte's end. -/
def scanVerdict (a : BitVec 7) : Except Raise Unit → Op Unit
  | .error (.err .noAck) => pure ()
  | .error r => freeTwAndRaise r
  | .ok _ => scanFound a

theorem scanProbe_eq (a : BitVec 7) :
    scanProbe a = look (·.params.reservedAddrs.contains a) >>= fun skip =>
      if skip then pure () else attempt (startRw (addrByte a 0) true) >>= scanVerdict a := by
  rw [← (addressByte_eq a).1]
  rfl

theorem scanVerdict_error (he : e ≠ .noAck) (a : BitVec 7) :
    scanVerdict a (.error (.err e)) = freeTwAndRaise (.err e) := by
  cases e with
  | noAck => exact absurd rfl he
  | _ => rfl

theorem Scans.reserved (ha : a ∈ q.reservedAddrs) : Scans w q l (scanProbe a) [] (.ok ()) [] w.inTx l :=
  ⟨rfl, fun s hw hq hl _ => by rw [scanProbe_reserved (by rw [hq]; exact ha), ← hw, ← hl]; rfl⟩

/-- The address byte's end, then what the scan makes of it. -/
theorem Scans.probe {r res : Except Raise Unit} (ha : a ∉ q.reservedAddrs)
    (hx : Runs w q (startRw (addrByte a 0) true) ans r es b)
    (hv : Scans { w with inTx := b } q l (scanVerdict a r) ans' res es' b' l') :
    Scans w q l (scanProbe a) (ans ++ ans') res (es ++ es') b' l' := by
  rw [scanProbe_eq]
  refine Scans.step (a := false) (Scans.look fun s hq _ => ?_) (Scans.bind hx.attempt.scans hv)
  rw [hq]
  simpa using ha

/-- An address byte that fails, but for its NACK, ends the scan. -/
theorem Scans.probeFails (ha : a ∉ q.reservedAddrs) (he : e ≠ .noAck)
    (hx : Runs w q (startRw (addrByte a 0) true) ans (.error (.err e)) es b) :
    Scans w q l (scanProbe a) ans (.error (.err e)) es b [] := by
  refine Scans.cast (Scans.probe ha hx ?_) (List.append_nil _) (List.append_nil _)
  rw [scanVerdict_error he]
  exact Scans.freeTwAndRaise _

variable {st : Nat → Nat} {pr : Probe}

/-- What the scan makes of the STOP after an ACK. -/
def scanEntry (a : BitVec 7) : Except Raise Unit → Op Unit
  | .error r => freeTwAndRaise r
  | .ok _ => look (fun s => s.twDevList.length == s.params.maxTwDevices) >>= fun full =>
    if full then freeTwAndRaise (.err .outOfMemory)
    else update fun s => s.setTwDevList (s.twDevList ++ [a.setWidth 8])

theorem scanVerdict_ok (a : BitVec 7) : scanVerdict a (.ok ()) = attempt stop >>= scanEntry a := rfl

/-- An address byte that is acknowledged, then the STOP after it. -/
theorem Scans.probeAcked {r res : Except Raise Unit} (ha : a ∉ q.reservedAddrs) (hst : ∀ j, st j < w.polls)
    (hx : Runs { w with inTx := true } q stop ans r es b)
    (hv : Scans { w with inTx := b } q l (scanEntry a r) [] res [] b l') :
    Scans w q l (scanProbe a) (addressAnswers w.inTx st false ++ ans) res
      (addressEvents w.inTx w.line st (addrByte a 0) false ++ es) b l' := by
  refine Scans.probe ha (Runs.startRwAck hst _ true) ?_
  rw [scanVerdict_ok]
  exact Scans.cast (Scans.bind hx.attempt.scans hv) (List.append_nil _) (List.append_nil _)

theorem Scans.probeStopHeld (ha : a ∉ q.reservedAddrs) (hst : ∀ j, st j < w.polls) :
    Scans w q l (scanProbe a) (addressAnswers w.inTx st false ++ List.replicate w.polls false)
      (.error (.err .longClockStretch))
      (addressEvents w.inTx w.line st (addrByte a 0) false ++ stopHeldEvents w.line w.polls) false [] :=
  Scans.probeAcked ha hst (Runs.stopHeld rfl) (Scans.freeTwAndRaise _)

/-- A device that does not fit the list. -/
theorem Scans.probeFull (ha : a ∉ q.reservedAddrs) (hst : ∀ j, st j < w.polls) (hl : l.length = q.maxTwDevices) :
    Scans w q l (scanProbe a) (probeAnswers w.inTx w.polls st .acked) (.error (.err .outOfMemory))
      (probeEvents w.inTx w.line w.polls st a .acked) false [] :=
  Scans.probeAcked ha hst (Runs.stopOk rfl (hst 10))
    (Scans.step (a := true) (Scans.look fun s hq hs => by simp [hq, hs, hl]) (Scans.freeTwAndRaise _))

/-- The addresses that acknowledge, as the scan lists them. -/
def answering (pr : BitVec 7 → Probe) (as : List (BitVec 7)) : List Byte :=
  (as.filter fun a => pr a = .acked).map fun a => BitVec.ofNat 8 a.toNat

/-- A probe that does not end the scan. -/
theorem Scans.probeGoesOn {pr : BitVec 7 → Probe} (ha : a ∉ q.reservedAddrs) (hst : ∀ j, st j < w.polls)
    (hl : (l ++ answering pr [a]).length ≤ q.maxTwDevices) :
    Scans w q l (scanProbe a) (probeAnswers w.inTx w.polls st (pr a)) (.ok ())
      (probeEvents w.inTx w.line w.polls st a (pr a)) false (l ++ answering pr [a]) := by
  cases hp : pr a with
  | acked =>
    have hfound : answering pr [a] = [a.setWidth 8] := by simp [answering, hp]
    rw [hfound] at hl ⊢
    refine Scans.probeAcked ha hst (Runs.stopOk rfl (hst 10))
      (Scans.step (a := false) (Scans.look fun s hq hs => ?_) (Scans.setTwDevList fun s hs => by rw [hs]))
    rw [List.length_append, List.length_singleton] at hl
    rw [hq, hs]
    exact beq_eq_false_iff_ne.mpr (by omega)
  | nacked =>
    have hfound : answering pr [a] = [] := by simp [answering, hp]
    rw [hfound, List.append_nil]
    exact Scans.cast (Scans.probe ha (Runs.startRwStopped hst) (Scans.pure ())) (List.append_nil _) (List.append_nil _)
  | nackedHeld =>
    have hfound : answering pr [a] = [] := by simp [answering, hp]
    rw [hfound, List.append_nil]
    exact Scans.cast (Scans.probe ha (Runs.startRwStopHeld hst) (Scans.pure ())) (List.append_nil _) (List.append_nil _)

/-! ## The probes of a list of addresses (rules R143, R144) -/

/-- The addresses of a list that are probed: those not reserved. -/
def unreserved (q : Params) (as : List (BitVec 7)) : List (BitVec 7) := as.filter fun a => a ∉ q.reservedAddrs

theorem unreserved_scanAddresses (q : Params) : unreserved q scanAddresses = probed q := rfl

theorem unreserved_cons_reserved {as : List (BitVec 7)} (ha : a ∈ q.reservedAddrs) :
    unreserved q (a :: as) = unreserved q as := List.filter_cons_of_neg (by simpa using ha)

theorem unreserved_cons {as : List (BitVec 7)} (ha : a ∉ q.reservedAddrs) :
    unreserved q (a :: as) = a :: unreserved q as := List.filter_cons_of_pos (by simpa using ha)

theorem answering_append (pr : BitVec 7 → Probe) (as bs : List (BitVec 7)) :
    answering pr (as ++ bs) = answering pr as ++ answering pr bs := by simp [answering]

theorem answering_cons (pr : BitVec 7 → Probe) (a : BitVec 7) (as : List (BitVec 7)) :
    answering pr (a :: as) = answering pr [a] ++ answering pr as := answering_append pr [a] as

theorem scanProbes_append (as bs : List (BitVec 7)) :
    scanProbes (as ++ bs) = scanProbes as >>= fun _ => scanProbes bs := by
  induction as with
  | nil => rfl
  | cons a as ih => rw [List.cons_append, scanProbes, scanProbes, ih, bind_assoc]

variable {n : Nat} {sts : BitVec 7 → Nat → Nat} {prs : BitVec 7 → Probe} {as bs pre post : List (BitVec 7)}

theorem scanAnswers_concat (n : Nat) (sts : BitVec 7 → Nat → Nat) (prs : BitVec 7 → Probe) (i : Bool)
    (as : List (BitVec 7)) (a : BitVec 7) :
    scanAnswers n sts prs i (as ++ [a]) =
      scanAnswers n sts prs i as ++ probeAnswers (i && as.isEmpty) n (sts a) (prs a) := by
  induction as generalizing i with
  | nil => simp [scanAnswers]
  | cons a as ih => simp [scanAnswers, ih]

theorem scanEvents_concat (ln : TwLine) (n : Nat) (sts : BitVec 7 → Nat → Nat) (prs : BitVec 7 → Probe) (i : Bool)
    (as : List (BitVec 7)) (a : BitVec 7) :
    scanEvents ln n sts prs i (as ++ [a]) =
      scanEvents ln n sts prs i as ++ probeEvents (i && as.isEmpty) ln n (sts a) a (prs a) := by
  induction as generalizing i with
  | nil => simp [scanEvents]
  | cons a as ih => simp [scanEvents, ih]

/-- Probes that go on to the end: those that answer are listed. -/
theorem Scans.probes (hst : ∀ a j, sts a j < w.polls)
    (hl : (l ++ answering prs (unreserved q as)).length ≤ q.maxTwDevices) :
    Scans w q l (scanProbes as) (scanAnswers w.polls sts prs w.inTx (unreserved q as)) (.ok ())
      (scanEvents w.line w.polls sts prs w.inTx (unreserved q as)) (w.inTx && (unreserved q as).isEmpty)
      (l ++ answering prs (unreserved q as)) := by
  induction as generalizing w l with
  | nil =>
    have h : Scans w q l (scanProbes []) [] (.ok ()) [] w.inTx l := Scans.pure ()
    simpa [unreserved, scanAnswers, scanEvents, answering] using h
  | cons a as ih =>
    by_cases ha : a ∈ q.reservedAddrs
    · rw [unreserved_cons_reserved ha] at hl ⊢
      exact Scans.step (Scans.reserved ha) (ih hst hl)
    · rw [unreserved_cons ha, answering_cons, ← List.append_assoc] at hl ⊢
      have hfirst : (l ++ answering prs [a]).length ≤ q.maxTwDevices := by
        rw [List.length_append] at hl
        omega
      have hrest := ih (w := { w with inTx := false }) hst hl
      rw [List.isEmpty_cons, Bool.and_false]
      exact Scans.bind (Scans.probeGoesOn ha (hst a) hfirst) hrest

/-- A list of addresses cut at one that is probed. -/
theorem unreserved_split (h : unreserved q as = pre ++ a :: post) :
    ∃ bs cs, as = bs ++ a :: cs ∧ unreserved q bs = pre ∧ a ∉ q.reservedAddrs := by
  obtain ⟨bs, rest, rfl, hbs, hrest⟩ := List.filter_eq_append_iff.mp h
  obtain ⟨cs, ds, rfl, hcs, ha, -⟩ := List.filter_eq_cons_iff.mp hrest
  refine ⟨bs ++ cs, ds, by simp, ?_, by simpa using ha⟩
  rw [unreserved, List.filter_append, hbs, List.filter_eq_nil_iff.mpr hcs, List.append_nil]

/-- A scan that the probe of one address ends. -/
theorem Scans.stops (hst : ∀ a j, sts a j < w.polls) (hsplit : unreserved q as = pre ++ a :: post)
    (hl : (answering prs pre).length ≤ q.maxTwDevices)
    (hprobe : a ∉ q.reservedAddrs → Scans { w with inTx := w.inTx && pre.isEmpty } q (answering prs pre) (scanProbe a)
      ans (.error (.err e)) es b l') :
    Scans w q [] (scanProbes as) (scanAnswers w.polls sts prs w.inTx pre ++ ans) (.error (.err e))
      (scanEvents w.line w.polls sts prs w.inTx pre ++ es) b l' := by
  obtain ⟨bs, cs, rfl, rfl, ha⟩ := unreserved_split hsplit
  have hpre := Scans.probes (l := []) hst (by rwa [List.nil_append])
  rw [List.nil_append] at hpre
  rw [scanProbes_append, scanProbes]
  exact Scans.bind hpre (Scans.fail (hprobe ha))

/-! ## The command -/

/-- A scan completed: its code, result and trace, the bus idle, the list `l`, all else as before. -/
def ScanDone (s t : State) (code v : Byte) (es : List Event) (l : List Byte) : Prop :=
  Completes s t code v es ∧ KeepsOutside s t ∧ t.tw = { s.tw with inTx := false } ∧ t.cursor = s.cursor ∧
    KeepsBuffers s t ∧ t.twDevList = l ∧ t.owDevList = s.owDevList ∧ KeepsOtherPins s t s.twPins ∧
    TwLinesAre s t .rel .rel

/-- The state a scan's probes end in, once a result is written. -/
def State.scanned (s : State) (es : List Event) (b : Bool) (l : List Byte) (v : Byte) : State :=
  (((s.begin.play es).setInTx b).setResult v).setTwDevList l

theorem CommandKeeps.scanned (s : State) (es : List Event) (b : Bool) (l : List Byte) (v : Byte) :
    CommandKeeps s (s.scanned es b l v) := (CommandKeeps.events s es b v).write (.twDevList _ l)

/-- What a scan leaves, whatever became of the lines. -/
theorem State.scanned_frame (s : State) (es : List Event) (b : Bool) (l : List Byte) (v : Byte) :
    (s.scanned es b l v).trace = es ∧ (s.scanned es b l v).result = v ∧ (s.scanned es b l v).cursor = s.cursor ∧
      (s.scanned es b l v).txbuf = s.txbuf ∧ (s.scanned es b l v).rxbuf = s.rxbuf ∧
      (s.scanned es b l v).twDevList = l ∧ (s.scanned es b l v).owDevList = s.owDevList := by
  simp [State.scanned, State.trace]

theorem scanned_completes (s : State) (es : List Event) (b : Bool) (l : List Byte) (code v : Byte) :
    Completes s ((s.scanned es b l v).complete code) code v es := by
  obtain ⟨htrace, hresult, -⟩ := s.scanned_frame es b l v
  simpa only [htrace, hresult] using (CommandKeeps.scanned s es b l v).completes code

theorem EndsIdle.scanDone {v : Byte} (h : EndsIdle s (s.scanned es b l v)) (code : Byte) :
    ScanDone s ((s.scanned es b l v).complete code) code v es l := by
  obtain ⟨htw, hothers, hlines⟩ := h
  obtain ⟨-, -, hcursor, htx, hrx, htwl, howl⟩ := s.scanned_frame es b l v
  exact ⟨scanned_completes s es b l code v, (CommandKeeps.scanned s es b l v).outside code, htw, hcursor,
    .of_eq htx hrx, htwl, howl, hothers, hlines⟩

/-- The command's body, where every probe goes on. -/
theorem Scans.body_ok (h : Scans s.tw s.params [] (scanProbes scanAddresses) ans (.ok ()) es b l)
    (hb : Presents s ans) :
    bodyOf .twScan s.begin = .ok () (s.scanned es b l (BitVec.ofNat 8 l.length)) := by
  rw [bodyOf, bind_ok (update_run ..), bind_ok (h.runs_to (s.begin.setTwDevList []) rfl rfl rfl hb)]
  rfl

/-- The command's body, where a probe ends it. -/
theorem Scans.body_error (h : Scans s.tw s.params [] (scanProbes scanAddresses) ans (.error (.err e)) es b l)
    (hb : Presents s ans) : bodyOf .twScan s.begin = .error (.err e) (s.scanned es b l s.result) := by
  rw [bodyOf, bind_ok (update_run ..), bind_error (h.runs_to (s.begin.setTwDevList []) rfl rfl rfl hb)]
  rfl

/-- Settles O39: each probe goes on or ends the scan, and the probes compose. -/
theorem twScanListsTheAnsweringAddresses : Obligations.TwScanListsTheAnsweringAddresses := by
  unfold Obligations.TwScanListsTheAnsweringAddresses
  intro s st pr hr hw hst
  have hi := initialized_of_check hr.2
  have hgo := Scans.probes (w := s.tw) (q := s.params) (l := []) (prs := pr) (as := scanAddresses) hst
  rw [List.nil_append, unreserved_scanAddresses] at hgo
  refine ⟨fun hp hl hb => ?_, fun hp => ?_, fun pre a post hsplit => ?_⟩
  · have hrun := (hgo hl).body_ok hb
    exact ⟨_, exec_ok hr hrun, EndsIdle.scanDone ((ends_scan hw hi hp).ok rfl hrun) 0x00⟩
  · rw [hp] at hgo
    have hrun := (hgo (Nat.zero_le _)).body_ok (Presents.nil s)
    rw [List.isEmpty_nil, Bool.and_true] at hrun
    obtain ⟨-, -, hcursor, htx, hrx, htwl, howl⟩ := s.scanned_frame [] s.tw.inTx [] 0x00
    exact ⟨_, exec_ok hr hrun, scanned_completes .., (CommandKeeps.scanned ..).outside _, rfl, hcursor,
      .of_eq htx hrx, htwl, howl, .of_eq rfl []⟩
  · have hp : probed s.params ≠ [] := by simp [hsplit]
    have hdone {ans e es} (h : Scans s.tw s.params [] (scanProbes scanAddresses) ans (.error (.err e)) es false [])
        (hb : Presents s ans) :
        ∃ t, exec .twScan s = .next t ∧ ScanDone s t e.code s.result es [] :=
      have hrun := h.body_error hb
      ⟨_, exec_err hr hrun, EndsIdle.scanDone ((ends_scan hw hi hp).error rfl hrun) e.code⟩
    have hstops {e ans es} (hl : (answering pr pre).length ≤ s.params.maxTwDevices) :=
      Scans.stops (w := s.tw) (q := s.params) (e := e) (ans := ans) (es := es) (b := false) (l' := []) hst hsplit hl
    have hst' : ∀ j, st a j < ({ s.tw with inTx := s.tw.inTx && pre.isEmpty } : TwRegs).polls := hst a
    refine ⟨fun ha hl hb => ?_, fun hl => ⟨fun hx => ?_, ?_, fun j hj => ?_, ?_⟩⟩
    · have hfull := hstops hl.le fun hfree => Scans.probeFull hfree hst' hl
      rw [scanAnswers_concat, ha] at hb
      rw [scanEvents_concat, ha]
      exact hdone hfull hb
    · exact hdone (hstops hl fun hfree =>
        Scans.probeFails (e := .arbitrationLost) hfree nofun (Runs.startRwFails (Runs.startLost hx)))
    · exact hdone (hstops hl fun hfree =>
        Scans.probeFails (e := .longClockStretch) hfree nofun (Runs.startRwFails Runs.startHeld))
    · exact hdone (hstops hl fun hfree =>
        Scans.probeFails (e := .longClockStretch) hfree nofun (Runs.startRwHeld hst' hj))
    · exact hdone (hstops hl fun hfree => Scans.probeStopHeld hfree hst')

end Sys2Proof.Machine
end

section
/-! One-wire commands but the search, on a bus whose answers are known (O42 to O46, O49, O50). The laws of
Laws/Plays.lean give a command's events, `OwEnd s p u` says how the pins stand after them, and together they are a
completed command (`OwEnd.owDone`, `OwEnd.rxDone`). -/

namespace Sys2Proof.Machine

variable {s : State} {p : PinId} {es : List Event} {ans : List Bool} {xs : List Byte} {instr : Instr}

/-! ## How the pins stand after a one-wire operation -/

/-- The pin `p` is released, and no other pin and no mode has changed since `s`. -/
def OwEnd (s : State) (p : PinId) (u : State) : Prop := KeepsOtherPins s u [p] ∧ Releases s u p

/-- Events on `p` that leave it released. -/
theorem owEnd_play (he : ∀ e ∈ es, OwEvent p e) (hr : (pinAfter p (s.pin p) es).drive = .rel) :
    OwEnd s p (s.begin.play es) := by
  replace he := fun e hm => (he e hm).pinEvent
  have hpin : ∀ q, (s.begin.play es).pin q = pinAfter q (s.pin q) es := State.play_pin s.begin es
  refine ⟨fun q hq => ?_, ?_⟩
  · rw [hpin, pinAfter_other he (by simpa using hq)]
  · rw [Releases, hpin, ← hr, ← pinAfter_mode he p (s.pin p)]

theorem OwRun.owEnd (h : OwRun p es) : OwEnd s p (s.begin.play es) := owEnd_play h.events (h.released _)

/-- A transfer of no byte leaves its pin as it was. -/
theorem owEnd_flatMap {f : Byte → List Event} (hf : ∀ x, OwRun p (f x)) (hp : (s.pin p).drive = .rel)
    (xs : List Byte) : OwEnd s p (s.begin.play (xs.flatMap f)) := by
  cases xs with
  | nil => exact owEnd_play (by simp) hp
  | cons x xs => exact (OwRun.flatMap hf (List.cons_ne_nil x xs)).owEnd

theorem OwRun.readByte (q : Params) (p : PinId) (x : Byte) : OwRun p (owReadByteEvents q p x) :=
  .flatMap (OwRun.readSlot q p) (by simp [lsbBits])

/-- After the reset pulse there are only polls and waits. -/
theorem owResetEvents_pulse (q : Params) (p : PinId) (o : Option Nat) :
    ∃ polls, owResetEvents q p o = [.low p, .wait q.owRstLow, .rel p] ++ polls ∧
      ∀ e ∈ polls, PinEvent (fun _ => False) e := by
  cases o with
  | none => exact ⟨_, List.append_assoc .., by simp +contextual [quietPolls, or_imp, PinEvent]⟩
  | some k => exact ⟨_, List.append_assoc .., by simp +contextual [quietPolls, or_imp, PinEvent]⟩

theorem OwRun.reset (q : Params) (p : PinId) (o : Option Nat) : OwRun p (owResetEvents q p o) where
  events := owResetEvents_events q p o
  released v := by
    obtain ⟨polls, heq, hquiet⟩ := owResetEvents_pulse q p o
    rw [heq, pinAfter_append, pinAfter_other hquiet not_false]
    simp [pinAfter, pinAfterEvent]

/-- A pin the one-wire engine may use is released between commands (rules R38, R180). -/
theorem OwPin.released (hp : OwPin s p) (hlow : s.LowOnlyInTx) (hw : s.TwInv) : (s.pin p).drive = .rel := by
  cases hd : (s.pin p).drive with
  | rel => rfl
  | low =>
    obtain ⟨hx, hscl⟩ := hlow p hd
    obtain ⟨hne, -⟩ := hp.free (hw.initialized hx)
    exact absurd hscl hne

/-! ## A one-wire command completed -/

/-- A command whose body did nothing but its events and wrote `v` into `RESULT`. -/
theorem OwEnd.owDone (h : OwEnd s p (s.begin.play es)) (code v : Byte) :
    OwDone s (((s.begin.play es).setResult v).complete code) code v es p := by
  obtain ⟨hothers, hpin⟩ := h
  have hkeep : CommandKeeps s ((s.begin.play es).setResult v) := CommandKeeps.events s es s.tw.inTx v
  have hdone := hkeep.completes code
  rw [show ((s.begin.play es).setResult v).trace = es from trace_begin_play s es] at hdone
  exact ⟨hdone, ⟨hkeep.outside code, rfl, rfl, .of_eq rfl rfl, ⟨rfl, rfl⟩, hothers⟩, hpin⟩

/-- A command whose body received `xs` into `RXBUF` and did nothing but that and its events. -/
theorem OwEnd.rxDone (h : OwEnd s p (s.begin.play es)) (xs : List Byte) (code : Byte) :
    let t := ((s.begin.writeRxs 0 xs).play es).complete code
    Completes s t code s.result es ∧ KeepsOutside s t ∧ t.tw = s.tw ∧ t.cursor = s.cursor ∧ KeepsTx s t ∧
      RxHolds s t xs ∧ KeepsLists s t ∧ KeepsOtherPins s t [p] ∧ Releases s t p := by
  obtain ⟨hothers, hpin⟩ := h
  have hkeep : CommandKeeps s ((s.begin.writeRxs 0 xs).play es) := ⟨rfl, rfl, rfl, rfl, rfl, rfl, rfl, rfl⟩
  have hdone := hkeep.completes code
  rw [show ((s.begin.writeRxs 0 xs).play es).trace = es from trace_begin_play s es] at hdone
  exact ⟨hdone, hkeep.outside code, rfl, rfl, fun _ => rfl, rxHolds_writeRxs s xs, ⟨rfl, rfl⟩, hothers, hpin⟩

/-- A command whose body is its events. -/
theorem owDone_events (hr : Ready instr s) (hx : bodyOf instr s.begin = .ok () (s.begin.play es))
    (hend : OwEnd s p (s.begin.play es)) : ∃ t, exec instr s = .next t ∧ OwDone s t 0x00 s.result es p :=
  ⟨_, exec_ok hr hx, hend.owDone 0x00 s.result⟩

/-- A command that writes `RESULT` from what its operation came back with. -/
theorem owDone_result {β : Type} {op : Op β} {a : β} {f : β → Byte} (hr : Ready instr s)
    (hbody : bodyOf instr = do setResult (f (← op))) (hb : Presents s ans)
    (hplay : Plays s.tw s.params op ans a es) (hrun : OwRun p es) :
    ∃ t, exec instr s = .next t ∧ OwDone s t 0x00 (f a) es p :=
  ⟨_, exec_ok hr (by rw [hbody]; exact bind_ok (hplay.run (s := s.begin) hb)), hrun.owEnd.owDone 0x00 (f a)⟩

theorem zext8_eq (b : Bool) : zext8 b = if b then 0x01 else 0x00 := by cases b <;> rfl

/-! ## `OW_INIT` (rule R181) -/

/-- Settles O42: the body is one `Cfg` event. -/
theorem owInitConfiguresThePin : Obligations.OwInitConfiguresThePin := by
  unfold Obligations.OwInitConfiguresThePin
  intro p s hr
  have hpin : ∀ q, (s.begin.play [.cfg p .inputPullup]).pin q = if p = q then ⟨.rel, .inputPullup⟩ else s.pin q :=
    State.play_pin s.begin _
  have hkeep : CommandKeeps s (s.begin.play [.cfg p .inputPullup]) := ⟨rfl, rfl, rfl, rfl, rfl, rfl, rfl, rfl⟩
  refine ⟨_, exec_ok hr (cfg_run p .inputPullup s.begin), hkeep.completes 0x00,
    ⟨hkeep.outside 0x00, rfl, rfl, .of_eq rfl rfl, ⟨rfl, rfl⟩, fun q hq => ?_⟩, (hpin p).trans (if_pos rfl)⟩
  exact (hpin q).trans (if_neg fun h => hq (by simp [h]))

/-! ## Reset, bits and bytes (rules R183 to R187) -/

theorem Plays.owReset {w : TwRegs} {q : Params} (p : PinId) {o : Option Nat}
    (ho : ∀ k, o = some k → k < q.owPresPolls) :
    Plays w q (owReset p) (owResetAnswers q o) o.isSome (owResetEvents q p o) := by
  cases o with
  | none => exact Plays.owResetNone p
  | some k => exact Plays.owResetSeen p (ho k rfl)

/-- Settles O43: a reset ends at the first poll that reads low, or after the last. -/
theorem owResetFollowsItsRule : Obligations.OwResetFollowsItsRule := by
  unfold Obligations.OwResetFollowsItsRule
  intro p s o hr ho hb
  rw [← zext8_eq]
  exact owDone_result hr rfl hb (Plays.owReset p ho) (OwRun.reset s.params p o)

/-- Settles O44: each body is its slot. -/
theorem owBitsAreOneSlot : Obligations.OwBitsAreOneSlot := by
  unfold Obligations.OwBitsAreOneSlot
  refine fun p s => ⟨fun v hr hb => ?_, fun b hr => ?_⟩
  · rw [← zext8_eq]
    exact owDone_result hr rfl hb (Plays.owReadBit p v) (OwRun.readSlot s.params p v)
  · exact owDone_events hr ((Plays.owWriteBit p b).run (Presents.nil _)) (OwRun.writeSlot s.params p b).owEnd

/-- Settles O45: each body is its eight slots. -/
theorem owBytesGoLsbFirst : Obligations.OwBytesGoLsbFirst := by
  unfold Obligations.OwBytesGoLsbFirst
  refine fun p x s => ⟨fun hr hb => ?_, fun hr => ?_⟩
  · exact owDone_result (f := id) hr rfl hb (Plays.owReadByte p x) (OwRun.readByte s.params p x)
  · exact owDone_events hr ((Plays.owWriteByte p x).run (Presents.nil _)) (OwRun.writeByte s.params p x).owEnd

/-! ## Buffered transfers (rules R188, R189) -/

theorem TxHolds.play {i : Nat} (h : TxHolds s i xs) (es : List Event) : TxHolds (s.play es) i xs := h

/-- The bytes of `TXBUF` are sent one after the other. -/
theorem owWriteTx_run {i : Nat} (htx : TxHolds s i xs) :
    owWriteTx p xs.length i s = .ok () (s.play (xs.flatMap (owWriteByteEvents s.params p))) := by
  induction xs generalizing s i with
  | nil => rfl
  | cons x xs ih =>
    have hbyte := (Plays.owWriteByte p x).run (Presents.nil s)
    have hrest := ih (s := s.play (owWriteByteEvents s.params p x)) (htx.tail.play _)
    rw [List.length_cons, owWriteTx, bind_ok (readTx_run htx.head), bind_ok hbyte, hrest, State.play_play,
      State.play_params, List.flatMap_cons]

/-- The bytes received are written one after the other, and are what the transfer comes back with. -/
theorem owReadRx_run {i : Nat} (hb : Presents s (xs.flatMap lsbBits)) :
    owReadRx p xs.length i s = .ok xs ((s.writeRxs i xs).play (xs.flatMap (owReadByteEvents s.params p))) := by
  induction xs generalizing s i with
  | nil => rfl
  | cons x xs ih =>
    rw [List.flatMap_cons] at hb
    have hbyte := Plays.owReadByte (w := s.tw) (q := s.params) p x
    have hrest := ih (s := (s.writeRx i x).play (owReadByteEvents s.params p x)) (i := i + 1) (hbyte.after (s := s) hb)
    rw [List.length_cons, owReadRx, bind_ok (hbyte.run hb.append.1)]
    rw [bind_ok (writeRx_run ..), State.play_writeRx, bind_ok hrest, pure_run, State.play_writeRxs, State.play_play,
      State.play_params, State.writeRx_params, List.flatMap_cons, State.writeRxs_cons]

/-- Settles O46: byte after byte; where there is none the pin was released before. -/
theorem owTransfersGoInIndexOrder : Obligations.OwTransfersGoInIndexOrder := by
  unfold Obligations.OwTransfersGoInIndexOrder
  refine fun p len xs s hlow hw hlen => ⟨fun hr hb => ?_, fun hr htx => ?_⟩
  · have hrel := (OwPin.of_checks hr.2).released hlow hw
    have hrun := owReadRx_run (s := s.begin) (p := p) (i := 0) hb
    rw [hlen] at hrun
    exact ⟨_, exec_ok hr (bind_ok hrun), (owEnd_flatMap (OwRun.readByte s.params p) hrel xs).rxDone xs 0x00⟩
  · have hrel := (OwPin.of_checks hr.2).released hlow hw
    have hholds : TxHolds s.begin 0 xs := fun j hj => by rw [Nat.zero_add]; exact htx j (hlen ▸ hj)
    have hrun := owWriteTx_run (p := p) hholds
    rw [hlen] at hrun
    exact owDone_events hr hrun (owEnd_flatMap (OwRun.writeByte s.params p) hrel xs)

/-! ## ROM commands (rules R193 to R195) -/

theorem OwRun.matchRom (q : Params) (p : PinId) (hxs : xs ≠ []) :
    OwRun p (owWriteByteEvents q p matchRomCode ++ xs.flatMap (owWriteByteEvents q p)) :=
  (OwRun.flatMap (OwRun.writeByte q p) hxs).after (OwRun.writeByte q p matchRomCode).events

theorem Plays.matchRom {w : TwRegs} {q : Params} (p : PinId) (xs : List Byte) :
    Plays w q (matchRom p xs) [] ()
      (owWriteByteEvents q p matchRomCode ++ xs.flatMap (owWriteByteEvents q p)) :=
  (Plays.owWriteByte p matchRomCode).bind (Plays.owWriteList p xs)

theorem romBytes_flatMap (rom : Rom) (f : Byte → List Event) :
    (romBytes rom).flatMap f = (List.range 8).flatMap fun i => f (romByte rom i) := List.flatMap_map ..

theorem matchDeviceBody_run {idx : Byte} {r : OwRecord} (h : s.owDevList[idx.toNat]? = some r) :
    matchDeviceBody idx s = Machine.matchRom r.pin (romBytes r.rom) s := by
  rw [matchDeviceBody, bind_ok (look_run ..), h]

/-- The match command and the eight bytes in `TXBUF`. -/
theorem owMatchRom_run (hlen : xs.length = 8) (htx : TxHolds s 0 xs) :
    bodyOf (.owMatchRom p) s = .ok () (s.play
      (owWriteByteEvents s.params p matchRomCode ++ xs.flatMap (owWriteByteEvents s.params p))) := by
  have hcode := (Plays.owWriteByte p matchRomCode).run (Presents.nil s)
  have hrom := owWriteTx_run (s := s.play (owWriteByteEvents s.params p matchRomCode)) (p := p) (htx.play _)
  rw [hlen, State.play_play] at hrom
  rw [bodyOf, bind_ok hcode, hrom, State.play_params]

/-- Settles O49: the match command, then the ROM's eight bytes. -/
theorem owMatchSendsTheRom : Obligations.OwMatchSendsTheRom := by
  unfold Obligations.OwMatchSendsTheRom
  refine fun s => ⟨fun p xs hr hlen htx => ?_, fun idx r hr hfound => ?_⟩
  · have hholds : TxHolds s.begin 0 xs := fun j hj => by rw [Nat.zero_add]; exact htx j (hlen ▸ hj)
    have hxs : xs ≠ [] := List.ne_nil_of_length_eq_add_one hlen
    exact owDone_events hr (owMatchRom_run hlen hholds) (OwRun.matchRom s.params p hxs).owEnd
  · have hplay := (Plays.matchRom r.pin (romBytes r.rom)).run (Presents.nil s.begin)
    have hrun := OwRun.matchRom (xs := romBytes r.rom) s.params r.pin (by simp [romBytes])
    rw [← romBytes_flatMap r.rom (owWriteByteEvents s.params r.pin)]
    exact owDone_events hr ((matchDeviceBody_run (s := s.begin) hfound).trans hplay) hrun.owEnd

/-- The read command and eight bytes; the CRC decides only how the body ends. -/
theorem owReadRom_run (hlen : xs.length = 8) (hb : Presents s (xs.flatMap lsbBits)) :
    bodyOf (.owReadRom p) s =
      errIf (crcOf xs != 0x00) .badCrc ((s.writeRxs 0 xs).play
        (owWriteByteEvents s.params p readRomCode ++ xs.flatMap (owReadByteEvents s.params p))) := by
  have hcode := Plays.owWriteByte (w := s.tw) (q := s.params) p readRomCode
  have hrom := owReadRx_run (s := s.play (owWriteByteEvents s.params p readRomCode)) (p := p) (i := 0)
    (hcode.after (rest := xs.flatMap lsbBits) hb)
  rw [hlen, State.play_writeRxs, State.play_play] at hrom
  rw [bodyOf, bind_ok (hcode.run (Presents.nil s)), bind_ok hrom, State.play_params]

/-- Settles O50: the bytes stand in `RXBUF` before the CRC is judged. -/
theorem owReadRomChecksTheCrc : Obligations.OwReadRomChecksTheCrc := by
  unfold Obligations.OwReadRomChecksTheCrc
  intro p xs s hr hlen hb
  have hbody := owReadRom_run (s := s.begin) (p := p) hlen hb
  have hxs : xs ≠ [] := List.ne_nil_of_length_eq_add_one hlen
  have hrun : OwRun p (owWriteByteEvents s.params p readRomCode ++ xs.flatMap (owReadByteEvents s.params p)) :=
    (OwRun.flatMap (OwRun.readByte s.params p) hxs).after (OwRun.writeByte s.params p readRomCode).events
  by_cases hcrc : crcOf xs = 0x00
  · rw [if_pos hcrc]
    rw [bne_eq_false_iff_eq.mpr hcrc] at hbody
    exact ⟨_, exec_ok hr hbody, hrun.owEnd.rxDone xs 0x00⟩
  · rw [if_neg hcrc]
    rw [bne_iff_ne.mpr hcrc] at hbody
    exact ⟨_, exec_err hr hbody, hrun.owEnd.rxDone xs 0x06⟩

end Sys2Proof.Machine
end

section
/-! The CRC (O47, O48): a round shifts the running value and the byte alike, so that `crc8 c x` depends on `c xor x`
alone (rule R190); what is left is a table of 256 entries. -/

namespace Sys2Proof.Machine

/-- The rounds on `c` and `x` are those on `c xor x` and no byte, with what is left of `x` put back. -/
theorem crcRounds_eq_xor (n : Nat) (c x : Byte) : crcRounds n c x = crcRounds n (c ^^^ x) 0#8 ^^^ (x >>> n) := by
  induction n generalizing c x with
  | zero => simp [crcRounds]
  | succ n ih =>
    have hmix : ∀ k : Byte, (c >>> 1 ^^^ k) ^^^ x >>> 1 = (c ^^^ x) >>> 1 ^^^ k := fun k => by
      rw [BitVec.ushiftRight_xor_distrib, BitVec.xor_assoc, BitVec.xor_comm k, ← BitVec.xor_assoc]
    have hmix0 : c >>> 1 ^^^ x >>> 1 = (c ^^^ x) >>> 1 := (BitVec.ushiftRight_xor_distrib ..).symm
    have hshift : x >>> 1 >>> n = x >>> (n + 1) := by rw [← BitVec.shiftRight_add, Nat.add_comm]
    rw [crcRounds, crcRounds, ih, hshift, BitVec.xor_zero, BitVec.zero_ushiftRight]
    cases (c ^^^ x).getLsbD 0
    · simp [hmix0]
    · simp [hmix]

/-- `crc8` takes its two arguments together. -/
theorem crc8_eq_xor (c x : Byte) : crc8 c x = crc8 (c ^^^ x) 0#8 := by
  have hgone : x >>> 8 = 0#8 := BitVec.ushiftRight_eq_zero (Nat.le_refl 8)
  rw [crc8, crcRounds_eq_xor, hgone, BitVec.xor_zero, crc8]

theorem crcTable_getElem? (y : Byte) : crcTable[y.toNat]? = some (crc8 y 0#8) := by revert y; decide +kernel

theorem crc8_zero_eq_zero_iff (y : Byte) : crc8 y 0#8 = 0x00 ↔ y = 0#8 := by revert y; decide +kernel

/-- Settles O47: the table holds `crc8` of every byte, and `crc8` takes its two arguments together. -/
theorem owCrc8IsTheTable : Obligations.OwCrc8IsTheTable := by
  unfold Obligations.OwCrc8IsTheTable
  intro c x s hf
  have hentry := crcTable_getElem? (c ^^^ x)
  rw [← crc8_eq_xor] at hentry
  have hr : Ready (.owCrc8 c x) s := ⟨hf, rfl⟩
  have hkeep := (CommandKeeps.begin s).setResult (crc8 c x)
  exact ⟨_, _, exec_ok hr (setResult_run ..), hentry, hkeep.completes 0x00, hkeep.outside 0x00, rfl, rfl,
    .of_eq rfl rfl, ⟨rfl, rfl⟩, .of_eq rfl []⟩

/-- `crc8` is 0 exactly on equal arguments (rule R192). -/
theorem crc8_eq_zero_iff (c x : Byte) : crc8 c x = 0x00 ↔ x = c := by
  rw [crc8_eq_xor, crc8_zero_eq_zero_iff, BitVec.xor_eq_zero_iff, eq_comm]

/-- Settles O48: the eighth step of the running CRC is 0 exactly on the CRC of the seven before. -/
theorem crcValidMeansLastByteIsTheCrc : Obligations.CrcValidMeansLastByteIsTheCrc := by
  unfold Obligations.CrcValidMeansLastByteIsTheCrc
  refine ⟨crc8_eq_zero_iff, fun rom => ?_⟩
  rw [crcValid, beq_iff_eq]
  exact (crc8_eq_zero_iff _ (romByte rom 7)).trans eq_comm

end Sys2Proof.Machine
end

section
/-! The checks of a search command (O51), and how a pass ends (R211, R213, R214): `PassRaises` is a pass that raises on
a bus whose answers are known. A pass that fails ends its command, and the search it belongs to (O52, O53). -/

namespace Sys2Proof.Machine

variable {α : Type} {w : TwRegs} {q : Params} {s u : State} {p : PinId} {cmd : Byte} {sd : Bool} {c : Cursor}
  {n k m z : Nat} {r rom : Rom} {e : Err} {pre post : List Rom} {vs : Nat → Bool × Bool} {ans : List Bool}
  {es : List Event} {ks : Nat → Nat} {instr : Instr}

/-! ## The checks of a search command (rules R215 to R217) -/

theorem isSearchCommand_iff : isSearchCommand cmd = true ↔ cmd = 0xF0 ∨ cmd = 0xEC := by
  simp [isSearchCommand, searchRomCode, alarmSearchCode]

/-- A bad command byte is the first thing a search command looks at. -/
theorem bodyOf_badCommand {f : Byte} (h : isSearchCommand cmd = false) (s : State) :
    ∀ i ∈ [Instr.owSearchPass p cmd sd, .owSearch p cmd, .owSearchFamily p cmd f],
      bodyOf i s = .error (.err .badCommand) s := by
  have herr : errIf (!isSearchCommand cmd) .badCommand s = .error (.err .badCommand) s := by rw [h]; rfl
  have hsearch : searchBody p cmd s = .error (.err .badCommand) s := bind_error herr
  simp only [List.forall_mem_cons, List.not_mem_nil, false_imp_iff, implies_true, and_true]
  exact ⟨bind_error herr, bind_error hsearch, bind_error hsearch⟩

/-- A list that is not empty is what a search that lists looks at next. -/
theorem bodyOf_rootNotEmpty {f : Byte} (h : isSearchCommand cmd = true) (hl : s.owDevList ≠ []) :
    ∀ i ∈ [Instr.owSearch p cmd, .owSearchFamily p cmd f], bodyOf i s = .error (.err .rootNotEmpty) s := by
  have hused : (s.owDevCount != 0) = true := by simpa [State.owDevCount] using hl
  have hsearch : searchBody p cmd s = .error (.err .rootNotEmpty) s := by
    rw [searchBody, bind_ok (errIf_pass (by rw [h]; rfl) ..), bind_ok (look_run ..), hused]
    rfl
  simp only [List.forall_mem_cons, List.not_mem_nil, false_imp_iff, implies_true, and_true]
  exact ⟨bind_error hsearch, bind_error hsearch⟩

/-- Settles O51: the command byte is looked at before the list, and both before anything is done. -/
theorem searchChecksItsCommandFirst : Obligations.SearchChecksItsCommandFirst := by
  unfold Obligations.SearchChecksItsCommandFirst
  refine fun p cmd f sd s => ⟨fun h1 h2 i hi hr => ?_, fun hcmd hl i hi hr => ?_⟩
  · have hcmd : isSearchCommand cmd = false := by
      rw [Bool.eq_false_iff, Ne, isSearchCommand_iff]
      exact fun h => h.elim h1 h2
    exact ⟨_, exec_err hr (bodyOf_badCommand hcmd s.begin i hi), quietDone_begin s 0x02⟩
  · exact ⟨_, exec_err hr (bodyOf_rootNotEmpty (s := s.begin) (isSearchCommand_iff.mpr hcmd) hl i hi),
      quietDone_begin s 0x0A⟩

/-! ## A search command completed -/

/-- As `OwRun.searchDone`, for a command that writes `RESULT`. -/
theorem OwRun.searchDoneWith (h : OwRun p es) (c : Cursor) (l : List OwRecord) (code v : Byte) :
    SearchDone s ((((s.begin.play es).searched c l).setResult v).complete code) code v es p c l := by
  obtain ⟨hothers, hpin⟩ := h.owEnd (s := s)
  have hkeep : CommandKeeps s (((s.begin.play es).searched c l).setResult v) := ⟨rfl, rfl, rfl, rfl, rfl, rfl, rfl, rfl⟩
  have hdone := hkeep.completes code
  rw [show (((s.begin.play es).searched c l).setResult v).trace = es from trace_begin_play s es] at hdone
  exact ⟨hdone, hkeep.outside code, rfl, rfl, .of_eq rfl rfl, rfl, rfl, hothers, hpin⟩

/-- A search command whose body succeeds with `v` in `RESULT`. -/
theorem searchDone_ok {v : Byte} (hr : Ready instr s)
    (hx : bodyOf instr s.begin = .ok () (((s.begin.play es).searched c l).setResult v)) (hrun : OwRun p es) :
    ∃ t, exec instr s = .next t ∧ SearchDone s t 0x00 v es p c l :=
  ⟨_, exec_ok hr hx, hrun.searchDoneWith c l 0x00 v⟩

/-- A search command whose body raises an error. -/
theorem searchDone_err (hr : Ready instr s)
    (hx : bodyOf instr s.begin = .error (.err e) ((s.begin.play es).searched c l)) (hrun : OwRun p es) :
    ∃ t, exec instr s = .next t ∧ SearchDone s t e.code s.result es p c l :=
  ⟨_, exec_err hr hx, hrun.searchDone c l e.code⟩

/-- The cursor a pass command begins its pass with: seeded, or as it stands (rules R212, R215). -/
def cursorFrom (sd : Bool) (c : Cursor) : Cursor := if sd then Cursor.seed else c

/-- A good pass command is a pass from the seed or from the cursor as it stands (rule R215). -/
theorem searchPassBody_run (hcmd : isSearchCommand cmd = true) (sd : Bool) (s : State) :
    searchPassBody p cmd sd s =
      (do let _ ← searchPass p cmd; pure ()) (s.setCursor (cursorFrom sd s.cursor)) := by
  rw [searchPassBody, bind_ok (errIf_pass (by rw [hcmd]; rfl) ..)]
  cases sd with
  | false => rfl
  | true => rfl

/-! ## What the events of a pass are on -/

theorem OwRun.passStep (q : Params) (p : PinId) (v : Bool × Bool) (b : Bool) :
    OwRun p (Machine.readSlot q p v.1 ++ Machine.readSlot q p v.2 ++ Machine.writeSlot q p b) :=
  (OwRun.writeSlot q p b).after ((OwRun.readSlot q p v.2).after (OwRun.readSlot q p v.1).events).events

theorem stepsEvents_events (q : Params) (p : PinId) (c : Cursor) (vs : Nat → Bool × Bool) (m : Nat) :
    ∀ e ∈ stepsEvents q p c vs m, OwEvent p e := fun e he => by
  obtain ⟨n, -, he⟩ := List.mem_flatMap.mp he
  exact (OwRun.passStep q p (vs n) _).events e he

theorem OwRun.steps (q : Params) (p : PinId) (cmd : Byte) (c : Cursor) (k : Nat) (vs : Nat → Bool × Bool) :
    OwRun p (owResetEvents q p (some k) ++ owWriteByteEvents q p cmd ++ stepsEvents q p c vs 64) :=
  (OwRun.flatMap (fun n => OwRun.passStep q p (vs n) (chosen c n (vs n))) (by simp)).after
    ((OwRun.writeByte q p cmd).after (owResetEvents_events q p _)).events

theorem OwRun.silent (q : Params) (p : PinId) (cmd : Byte) (c : Cursor) (k : Nat) (vs : Nat → Bool × Bool) (m : Nat) :
    OwRun p (silentEvents q p cmd c k vs m) := by
  have hbegin := ((OwRun.writeByte q p cmd).after (owResetEvents_events q p (some k))).events
  have hsteps : ∀ e ∈ owResetEvents q p (some k) ++ owWriteByteEvents q p cmd ++ stepsEvents q p c vs m, OwEvent p e :=
    fun e he => (List.mem_append.mp he).elim (hbegin e) (stepsEvents_events q p c vs m e)
  exact (OwRun.readSlot q p true).after ((OwRun.readSlot q p true).after hsteps).events

theorem searchEvents_events (q : Params) (p : PinId) (cmd : Byte) (devs : List Rom) (ks : Nat → Nat) (n : Nat)
    (l : List Rom) : ∀ e ∈ searchEvents q p cmd devs ks n l, OwEvent p e := by
  cases l with
  | nil => exact fun e he => nomatch he
  | cons r l => exact (OwRun.search q p cmd devs ks n (List.cons_ne_nil r l)).events

/-! ## A pass that fails (rules R211, R213, R214) -/

/-- A pass from the cursor `c`, on a bus that answers `ans`, raises `e` after the events `es` on `p`, having changed
nothing but what they change. -/
structure PassRaises (q : Params) (p : PinId) (cmd : Byte) (c : Cursor) (ans : List Bool) (e : Err) (es : List Event) :
    Prop where
  runs : ∀ w, Runs w q (passSteps p cmd c >>= judgeRom) ans (.error (.err e)) es w.inTx
  owRun : OwRun p es

theorem PassRaises.searchPass (h : PassRaises s.params p cmd s.cursor ans e es) (hb : Presents s ans) :
    searchPass p cmd s = .error (.err e) (s.play es) := by
  rw [searchPass_eq, bind_ok (look_run ..), (h.runs s.tw).run hb]
  rfl

theorem Runs.of_error {x : Op α} {e : Raise} (h : ∀ s, x s = .error e s) : Runs w q x [] (.error e) [] w.inTx :=
  ⟨rfl, fun s hw _ _ => by rw [h, ← hw]; rfl⟩

theorem Plays.errIf_pass (e : Err) : Plays w q (errIf false e) [] () [] := Plays.pure ()

/-- No presence pulse: the pass ends with its reset. -/
theorem PassRaises.noPresence (q : Params) (p : PinId) (cmd : Byte) (c : Cursor) :
    PassRaises q p cmd c (owResetAnswers q none) .noDevice (owResetEvents q p none) where
  runs w := by
    have herr : Runs w q (do errIf (!false) .noDevice; owWriteByte p cmd; Machine.searchSteps p c 64 1 0 0) []
        (.error (.err .noDevice)) [] w.inTx := .of_error fun s => bind_error (errIf_true ..)
    exact (Runs.step (Plays.owResetNone p) herr).fail.cast (List.append_nil _) (List.append_nil _)
  owRun := OwRun.reset q p none

/-- One step of a pass, not both slots reading 1, and what follows it. -/
theorem Runs.searchStep {v : Bool × Bool} {x : Except Raise (Rom × Nat)} {b : Bool} (hv : v ≠ (true, true))
    (hrest : ∀ rom z, Runs w q (searchSteps p c k (n + 1) rom z) ans x es b) :
    Runs w q (searchSteps p c (k + 1) n rom z) ([v.1, v.2] ++ ans) x
      (readSlot q p v.1 ++ readSlot q p v.2 ++ writeSlot q p (chosen c n v) ++ es) b := by
  have hstep : Runs w q (Machine.searchSteps p c (k + 1) n rom z) ([v.1] ++ ([v.2] ++ ([] ++ ans))) x _ b :=
    .step (Plays.owReadBit p v.1) <| .step (Plays.owReadBit p v.2) <| by
      simp only [direction_eq hv]
      exact .step (Plays.owWriteBit p _) (hrest _ _)
  exact hstep.cast rfl (by simp only [List.append_assoc])

/-- The steps of a pass up to the one at which both slots read 1: no write slot there (rule R213). -/
theorem Runs.searchSteps_silent (h : ∀ j, n ≤ j → j < n + m → vs j ≠ (true, true)) :
    Runs w q (searchSteps p c (m + (k + 1)) n rom z)
      (((List.range' n m).flatMap fun j => [(vs j).1, (vs j).2]) ++ [true, true]) (.error (.err .noDevice))
      (((List.range' n m).flatMap fun j =>
        readSlot q p (vs j).1 ++ readSlot q p (vs j).2 ++ writeSlot q p (chosen c j (vs j))) ++
          (readSlot q p true ++ readSlot q p true)) w.inTx := by
  induction m generalizing n rom z with
  | zero =>
    rw [Nat.zero_add]
    have hsilent : Runs w q (Machine.searchSteps p c (k + 1) n rom z) ([true] ++ ([true] ++ [])) _ _ _ :=
      .step (Plays.owReadBit p true) <| .step (Plays.owReadBit p true) <| .raiseErr .noDevice
    exact hsilent.cast rfl (by rw [List.append_nil]; rfl)
  | succ m ih =>
    have hstep := Runs.searchStep (rom := rom) (z := z) (h n (Nat.le_refl n) (by omega)) fun rom z =>
      ih (n := n + 1) (rom := rom) (z := z) fun j h1 h2 => h j (by omega) (by omega)
    rw [Nat.add_right_comm m 1]
    exact hstep.cast (by rw [List.range'_succ, List.flatMap_cons, List.append_assoc])
      (by rw [List.range'_succ, List.flatMap_cons]; simp only [List.append_assoc])

/-- A pass that meets silence. -/
theorem PassRaises.silent (hk : k < q.owPresPolls) (hm : m < 64)
    (h : ∀ n, 1 ≤ n → n ≤ m → vs n ≠ (true, true)) :
    PassRaises q p cmd c (silentAnswers q k vs m) .noDevice (silentEvents q p cmd c k vs m) where
  runs w := by
    have hsteps := Runs.searchSteps_silent (w := w) (q := q) (p := p) (c := c) (vs := vs) (n := 1) (m := m)
      (k := 63 - m) (rom := 0) (z := 0) fun j h1 h2 => h j h1 (by omega)
    rw [show m + (63 - m + 1) = 64 by omega] at hsteps
    have hpass : Runs w q (passSteps p cmd c) _ _ _ _ := .step (Plays.owResetSeen p hk) <|
      .step (Plays.errIf_pass .noDevice) <| .step (Plays.owWriteByte p cmd) hsteps
    exact hpass.fail.cast (by simp [silentAnswers, stepsAnswers]) (by simp [silentEvents, stepsEvents])
  owRun := OwRun.silent q p cmd c k vs m

/-- What is raised on a ROM that is no device's (rule R213). -/
def romErr (r : Rom) : Err := if r = 0 then .pinFlapping else .badCrc

theorem judgeRom_invalid (h : ¬ (r ≠ 0 ∧ crcValid r = true)) (z : Nat) (s : State) :
    judgeRom (r, z) s = .error (.err (romErr r)) s := by
  by_cases h0 : r = 0
  · rw [romErr, if_pos h0]
    exact bind_error (by rw [h0]; rfl)
  · have hv : crcValid r = false := Bool.eq_false_iff.mpr fun hv => h ⟨h0, hv⟩
    rw [romErr, if_neg h0, judgeRom, bind_ok (Machine.errIf_pass (beq_eq_false_iff_ne.mpr h0) ..)]
    exact bind_error (by rw [hv]; rfl)

/-- A pass answered at every step whose directions make no device's ROM. -/
theorem PassRaises.invalid (hk : k < q.owPresPolls) (hpath : Follows c vs r) (h : ¬ (r ≠ 0 ∧ crcValid r = true)) :
    PassRaises q p cmd c (owResetAnswers q (some k) ++ stepsAnswers vs 64) (romErr r)
      (owResetEvents q p (some k) ++ owWriteByteEvents q p cmd ++ stepsEvents q p c vs 64) where
  runs _ := (Runs.step (Plays.passSteps hk hpath) (.of_error (judgeRom_invalid h _))).cast
    (List.append_nil _) (List.append_nil _)
  owRun := OwRun.steps q p cmd c k vs

/-! ## The command whose pass fails -/

/-- `OW_SEARCH_PASS`: the cursor is as it was, or seeded (rules R214, R215). -/
theorem PassRaises.pass (h : PassRaises s.params p cmd (cursorFrom sd s.cursor) ans e es)
    (hcmd : isSearchCommand cmd = true) (hr : Ready (.owSearchPass p cmd sd) s) (hb : Presents s ans) :
    ∃ t, exec (.owSearchPass p cmd sd) s = .next t ∧
      SearchDone s t e.code s.result es p (cursorFrom sd s.cursor) s.owDevList := by
  have hpass := h.searchPass (s := s.begin.setCursor (cursorFrom sd s.cursor)) hb
  exact searchDone_err hr ((searchPassBody_run hcmd sd s.begin).trans (bind_error hpass)) h.owRun

/-- A pass that fails ends the loop, the list freed (rule R216). -/
theorem searchLoop_raises (h : searchPass p cmd s = .error (.err e) u) (n : Nat) :
    searchLoop p cmd n s = .error (.err e) (u.setOwDevList []) := by
  cases n with
  | zero => rw [searchLoop, bind_ok (attempt_error h)]; rfl
  | succ n => rw [searchLoop, bind_ok (attempt_error h)]; rfl

/-- The search whose passes find the devices of `pre` and whose next pass fails. -/
theorem PassRaises.searchBody (h : PassRaises s.params p cmd (cursorAfter (pre ++ post) pre) ans e es)
    (hcmd : isSearchCommand cmd = true) (hl : s.owDevList = []) (hd : SearchDevices (pre ++ post)) (hne : post ≠ [])
    (hlen : pre.length ≤ s.params.maxOwDevices) (hks : ∀ i, ks i < s.params.owPresPolls)
    (hb : Presents s (searchAnswers s.params (pre ++ post) ks 0 pre ++ ans)) :
    searchBody p cmd s = .error (.err e)
      ((s.play (searchEvents s.params p cmd (pre ++ post) ks 0 pre ++ es)).searched
        (cursorAfter (pre ++ post) pre) []) := by
  obtain ⟨r, post, rfl⟩ := List.exists_cons_of_ne_nil hne
  obtain ⟨room, hroom⟩ := Nat.exists_eq_add_of_le hlen
  obtain ⟨u, hu, hrest, hstate⟩ := searchLoop_passes (p := p) (cmd := cmd) (k := room) (pre := []) (n := 0)
    (s := s.setCursor Cursor.seed) pre rfl hd (cursorAfter_none rfl).symm hks hb
  have hfails : PassRaises u.params p cmd u.cursor ans e es := by rw [hstate]; exact h
  rw [searchBody_run hcmd hl, hroom, hu, searchLoop_raises (hfails.searchPass hrest), hstate]
  simp

/-- `OW_SEARCH` and `OW_SEARCH_FAMILY`: the list is freed, the cursor that of the pass before, or the seed (rules R55,
R216, R217). -/
theorem PassRaises.search {f : Byte} (h : PassRaises s.params p cmd (cursorAfter (pre ++ post) pre) ans e es)
    (hcmd : isSearchCommand cmd = true) (hl : s.owDevList = []) (hd : SearchDevices (pre ++ post)) (hne : post ≠ [])
    (hlen : pre.length ≤ s.params.maxOwDevices) (hks : ∀ i, ks i < s.params.owPresPolls)
    (hb : Presents s (searchAnswers s.params (pre ++ post) ks 0 pre ++ ans)) :
    ∀ i ∈ [Instr.owSearch p cmd, .owSearchFamily p cmd f], Ready i s →
      ∃ t, exec i s = .next t ∧
        SearchDone s t e.code s.result (searchEvents s.params p cmd (pre ++ post) ks 0 pre ++ es) p
          (cursorAfter (pre ++ post) pre) [] := by
  have hbody := PassRaises.searchBody (s := s.begin) h hcmd hl hd hne hlen hks hb
  have hrun := h.owRun.after (searchEvents_events s.params p cmd (pre ++ post) ks 0 pre)
  simp only [List.forall_mem_cons, List.not_mem_nil, false_imp_iff, implies_true, and_true]
  exact ⟨fun hr => searchDone_err hr (bind_error hbody) hrun, fun hr => searchDone_err hr (bind_error hbody) hrun⟩

/-- Settles O53: no presence pulse, or silence at a step, fails the pass and the search it belongs to. -/
theorem passFailsWhereNothingAnswers : Obligations.PassFailsWhereNothingAnswers := by
  unfold Obligations.PassFailsWhereNothingAnswers
  intro p cmd s hcmd
  rw [← isSearchCommand_iff] at hcmd
  refine ⟨fun sd hr => ⟨?_, fun vs k m hk hm hvs => ?_⟩, fun f pre post ks hl hd hne hlen hks i hi hr =>
    ⟨?_, fun vs k m hk hm hvs => ?_⟩⟩
  · exact (PassRaises.noPresence s.params p cmd _).pass hcmd hr
  · exact (PassRaises.silent hk hm hvs).pass hcmd hr
  · exact fun hb => (PassRaises.noPresence s.params p cmd _).search hcmd hl hd hne hlen hks hb i hi hr
  · exact fun hb => (PassRaises.silent hk hm hvs).search hcmd hl hd hne hlen hks hb i hi hr

/-! ## A pass that is answered at every step (rules R213, R214) -/

/-- The status of a pass whose directions were those of `r` (rule R213). -/
def romStatus (r : Rom) : Byte := if r = 0 then 0x07 else if crcValid r = true then 0x00 else 0x06

theorem romErr_code (h : ¬ (r ≠ 0 ∧ crcValid r = true)) : (romErr r).code = romStatus r := by
  by_cases h0 : r = 0
  · rw [romErr, romStatus, if_pos h0, if_pos h0]; rfl
  · rw [romErr, romStatus, if_neg h0, if_neg h0, if_neg fun hv => h ⟨h0, hv⟩]; rfl

theorem romStatus_valid (h : r ≠ 0 ∧ crcValid r = true) : romStatus r = 0x00 := by
  obtain ⟨h0, hv⟩ := h
  rw [romStatus, if_neg h0, if_pos hv]

/-- A pass command along `r`'s path: `r` is judged, and the cursor moves to it only where it is valid. -/
theorem searchPass_validates (hcmd : isSearchCommand cmd = true) (hk : k < s.params.owPresPolls)
    (hr : Ready (.owSearchPass p cmd sd) s) (hpath : Follows (cursorFrom sd s.cursor) vs r)
    (hb : Presents s (owResetAnswers s.params (some k) ++ stepsAnswers vs 64)) :
    ∃ t, exec (.owSearchPass p cmd sd) s = .next t ∧
      SearchDone s t (romStatus r) s.result
        (owResetEvents s.params p (some k) ++ owWriteByteEvents s.params p cmd ++
          stepsEvents s.params p (cursorFrom sd s.cursor) vs 64) p
        (if r ≠ 0 ∧ crcValid r = true then Cursor.after r (lastZeroIn vs r) else cursorFrom sd s.cursor)
        s.owDevList := by
  by_cases hvalid : r ≠ 0 ∧ crcValid r = true
  · have ⟨h0, hv⟩ := hvalid
    rw [romStatus_valid hvalid, if_pos hvalid]
    have hpass := searchPass_run (s := s.begin.setCursor (cursorFrom sd s.cursor)) (cmd := cmd) (p := p)
      (Plays.passSteps hk hpath) hb h0 hv
    exact searchDone_ok hr ((searchPassBody_run hcmd sd s.begin).trans (bind_ok hpass)) (OwRun.steps ..)
  · rw [← romErr_code hvalid, if_neg hvalid]
    exact (PassRaises.invalid hk hpath hvalid).pass hcmd hr hb

/-! ## A device alone on the bus (rule R220) -/

/-- What the two slots read of one device (rule R210). -/
def aloneBits (r : Rom) (n : Nat) : Bool × Bool := (romBit r n, !romBit r n)

theorem aloneBits_ne (r : Rom) (n : Nat) (b : Bool) : aloneBits r n ≠ (b, b) := by
  cases h : romBit r n <;> cases b <;> simp [aloneBits, h]

theorem chosen_aloneBits (c : Cursor) (r : Rom) (n : Nat) : chosen c n (aloneBits r n) = romBit r n := by
  simp [chosen, aloneBits]

/-- A device alone is found from any cursor. -/
theorem follows_alone (c : Cursor) (r : Rom) : Follows c (aloneBits r) r :=
  fun n _ _ => ⟨aloneBits_ne r n true, chosen_aloneBits c r n⟩

theorem stepsEvents_alone (q : Params) (p : PinId) (c : Cursor) (r : Rom) :
    stepsEvents q p c (aloneBits r) 64 = aloneEvents q p r 64 := by
  simp only [stepsEvents, chosen_aloneBits]
  rfl

/-- With no conflict on a 0 there is no last zero. -/
theorem lastZeroIn_eq_zero (h : ∀ n, 1 ≤ n → n ≤ 64 → ¬ (vs n = (false, false) ∧ romBit r n = false)) :
    lastZeroIn vs r = 0 :=
  (List.foldl_ext _ (fun z _ => z) 0 fun z n hn => by
    rw [List.mem_range'_1] at hn
    exact if_neg (h n hn.1 (by omega))).trans (List.foldl_fixed ..)

theorem lastZeroIn_alone (r : Rom) : lastZeroIn (aloneBits r) r = 0 :=
  lastZeroIn_eq_zero fun n _ _ h => aloneBits_ne r n false h.1

/-- Settles O52: a pass answered at every step judges the ROM of its directions, and a search frees its list where the
ROM is no device's. -/
theorem passValidatesTheRom : Obligations.PassValidatesTheRom := by
  unfold Obligations.PassValidatesTheRom
  intro p cmd s hcmd code answered
  rw [← isSearchCommand_iff] at hcmd
  have hfollows : ∀ {c vs r}, answered c vs r → Follows c vs r := fun h n h1 h64 =>
    have ⟨hne, hbit⟩ := h n h1 h64
    ⟨hne, hbit.symm⟩
  refine ⟨fun sd r k hr hk => ⟨fun hb => ?_, fun vs hpath hb => ?_⟩,
    fun f pre post ks vs r k hl hd hne hlen hks hk hpath hcode hb => ?_⟩
  · have hpass := searchPass_validates hcmd hk hr (follows_alone _ r) hb
    rw [stepsEvents_alone, lastZeroIn_alone] at hpass
    exact hpass
  · exact searchPass_validates hcmd hk hr (hfollows hpath) hb
  · have hinvalid : ¬ (r ≠ 0 ∧ crcValid r = true) := fun h => hcode (romStatus_valid h)
    rw [List.append_assoc] at hb
    have hfails := PassRaises.invalid (p := p) (cmd := cmd) hk (hfollows hpath) hinvalid
    have hsearch := hfails.search (f := f) hcmd hl hd hne hlen hks hb
    rw [romErr_code hinvalid, ← List.append_assoc, ← List.append_assoc] at hsearch
    exact hsearch

end Sys2Proof.Machine
end

section
/-! What the search finds (O54 to O56, O58): a pass that takes a device's path completes with that device, and the last
device of a set leaves no conflict unexplored, so that the search ends there (R211, R214 to R217, R219, R220). -/

namespace Sys2Proof.Machine

variable {s u : State} {p : PinId} {cmd : Byte} {sd : Bool} {c : Cursor} {k n : Nat}
  {a b r : Rom} {devs pre post : List Rom} {vs : Nat → Bool × Bool} {ks : Nat → Nat}

/-! ## A pass that finds a device (rules R211, R214, R215) -/

/-- The trace of a pass along `r`'s path writes `r`'s bits. -/
theorem stepsEvents_follows (q : Params) (p : PinId) (cmd : Byte) (k : Nat)
    (hpath : Follows c (stepBits devs r) r) :
    owResetEvents q p (some k) ++ owWriteByteEvents q p cmd ++ stepsEvents q p c (stepBits devs r) 64 =
      passEvents q p cmd devs k r := by
  rw [passEvents, stepsEvents]
  congr 1
  refine List.flatMap_congr fun n hn => ?_
  rw [List.mem_range'_1] at hn
  rw [(hpath n hn.1 (by omega)).2]

/-- A pass command that takes the path of a device on the bus finds it. -/
theorem searchPass_finds_from (hcmd : isSearchCommand cmd = true) (hk : k < s.params.owPresPolls)
    (hd : SearchDevices devs) (hmem : r ∈ devs) (hr : Ready (.owSearchPass p cmd sd) s)
    (hpath : Follows (cursorFrom sd s.cursor) (stepBits devs r) r) (hb : Presents s (passAnswers s.params devs k r)) :
    ∃ t, exec (.owSearchPass p cmd sd) s = .next t ∧
      SearchDone s t 0x00 s.result (passEvents s.params p cmd devs k r) p (cursorAt devs r) s.owDevList := by
  obtain ⟨-, hvalid, -⟩ := hd
  obtain ⟨hv, h0⟩ := hvalid r hmem
  have hpass := searchPass_validates hcmd hk hr hpath hb
  rw [romStatus_valid ⟨h0, hv⟩, if_pos ⟨h0, hv⟩, stepsEvents_follows _ _ _ _ hpath] at hpass
  exact hpass

/-- A cursor with no discrepancy chooses as the seed does (rules R211, R215). -/
theorem Follows.of_lastDisc_zero (hc : c.lastDisc = 0) (h : Follows Cursor.seed vs r) : Follows c vs r :=
  fun n h1 h64 => by
    have hchosen : chosen c n (vs n) = chosen Cursor.seed n (vs n) := by
      simp [chosen, hc, Cursor.seed]
    rw [hchosen]
    exact h n h1 h64

/-- The first device is on the path of a pass from the seed. -/
theorem SearchDevices.follows_seed (h : SearchDevices (r :: post)) :
    Follows Cursor.seed (stepBits (r :: post) r) r := SearchDevices.follows (pre := []) h

/-- The device after `a` is on the path of a pass from `a`'s cursor. -/
theorem SearchDevices.follows_next (h : SearchDevices (pre ++ a :: b :: post)) :
    Follows (cursorAt (pre ++ a :: b :: post) a) (stepBits (pre ++ a :: b :: post) b) b := by
  have hsplit : pre ++ a :: b :: post = (pre ++ [a]) ++ b :: post := List.append_cons ..
  rw [hsplit] at h ⊢
  rw [← cursorAfter_append _ pre a]
  exact h.follows

/-- Settles O54: each pass takes the path of the device it finds. -/
theorem passFindsTheNextDevice : Obligations.PassFindsTheNextDevice := by
  unfold Obligations.PassFindsTheNextDevice
  intro p cmd devs k s hd hcmd hk
  rw [← isSearchCommand_iff] at hcmd
  refine ⟨fun r rest hdevs hr hb => ?_, fun pre a b post hdevs hr hc hb => ?_, fun r rest hdevs hr hc hb => ?_⟩
  · subst hdevs
    exact searchPass_finds_from hcmd hk hd List.mem_cons_self hr hd.follows_seed hb
  · subst hdevs
    exact searchPass_finds_from hcmd hk hd (by simp) hr (hc ▸ hd.follows_next) hb
  · subst hdevs
    exact searchPass_finds_from hcmd hk hd List.mem_cons_self hr (.of_lastDisc_zero hc hd.follows_seed) hb

/-! ## The last device (rules R214, R219, R220) -/

theorem SearchDevices.searchKey_le_last (h : SearchDevices (pre ++ [r])) (ha : a ∈ pre ++ [r]) :
    searchKey a ≤ searchKey r := by
  obtain ⟨-, -, hsorted⟩ := h
  obtain ⟨-, -, hcross⟩ := List.pairwise_append.mp hsorted
  obtain ha | ha := List.mem_append.mp ha
  · exact (hcross a ha r (List.mem_singleton_self r)).le
  · rw [List.mem_singleton.mp ha]

/-- The last device's pass leaves no conflict unexplored: one would lead to a later device. -/
theorem SearchDevices.lastZeroOf_last (h : SearchDevices (pre ++ [r])) : lastZeroOf (pre ++ [r]) r = 0 :=
  lastZeroIn_eq_zero fun n h1 h64 ⟨hconf, hzero⟩ => by
    obtain ⟨-, d, hmem, hagree, hone⟩ := stepBits_conflict.mp hconf
    have hlt : searchKey r < searchKey d := FirstDiff.searchKey_lt ⟨h1, h64, hagree.symm, hzero, hone⟩
    have hle := h.searchKey_le_last hmem
    omega

theorem SearchDevices.cursorAt_last (h : SearchDevices (pre ++ [r])) : cursorAt (pre ++ [r]) r = ⟨r, 0, true⟩ := by
  rw [cursorAt, h.lastZeroOf_last]
  rfl

/-! ## A search that finds every device (rules R216, R219) -/

/-- A pass that finds a device while there is room, and leaves no conflict unexplored: the record is listed and the
search ends. -/
theorem searchLoop_last (h : searchPass p cmd s = .ok r u) (hlast : u.cursor.lastDev = true) :
    searchLoop p cmd (n + 1) s = .ok () (u.setOwDevList (u.owDevList ++ [⟨r, p⟩])) := by
  rw [searchLoop, bind_ok (attempt_ok h)]
  dsimp only
  rw [bind_ok (update_run ..), bind_ok (look_run ..), State.setOwDevList_cursor, hlast]
  rfl

theorem SearchDevices.ne_nil (h : SearchDevices devs) : devs ≠ [] := h.1

/-- One pass for each device, each listed in turn, and the last ends the search. -/
theorem searchBody_all (hd : SearchDevices devs) (hl : s.owDevList = []) (hlen : devs.length ≤ s.params.maxOwDevices)
    (hcmd : isSearchCommand cmd = true) (hks : ∀ i, ks i < s.params.owPresPolls)
    (hb : Presents s (searchAnswers s.params devs ks 0 devs)) :
    ∃ last, devs.getLast? = some last ∧
      searchBody p cmd s = .ok ()
        ((s.play (searchEvents s.params p cmd devs ks 0 devs)).searched ⟨last, 0, true⟩
          (devs.map fun d => ⟨d, p⟩)) := by
  obtain ⟨pre, r, rfl⟩ : ∃ pre r, devs = pre ++ [r] := ⟨_, _, (List.dropLast_append_getLast hd.ne_nil).symm⟩
  refine ⟨r, List.getLast?_concat .., ?_⟩
  obtain ⟨room, hroom⟩ := Nat.exists_eq_add_of_le hlen
  rw [List.length_append, List.length_singleton, Nat.add_assoc, Nat.add_comm 1] at hroom
  rw [searchAnswers_append, searchAnswers, searchAnswers, List.append_nil] at hb
  obtain ⟨u, hu, hlast, hstate⟩ := searchLoop_passes (p := p) (cmd := cmd) (k := room + 1) (pre := []) (n := 0)
    (s := s.setCursor Cursor.seed) pre rfl hd (cursorAfter_none rfl).symm hks hb
  have hcursor : u.cursor = cursorAfter (pre ++ [r]) pre := by rw [hstate]; rfl
  have hparams : u.params = s.params := by rw [hstate]; rfl
  have hfind := searchPass_finds (p := p) (cmd := cmd) rfl hd hcursor (hparams ▸ hks _) (hparams ▸ hlast)
  rw [hd.cursorAt_last] at hfind
  rw [searchBody_run hcmd hl, hroom, hu, searchLoop_last hfind rfl, hparams, hstate, searchEvents_append]
  simp [searchEvents, hl]

/-- After the search the list is counted. -/
theorem bodyOf_owSearch (hbody : searchBody p cmd s = .ok () (u.searched c (devs.map fun d => ⟨d, p⟩))) :
    bodyOf (.owSearch p cmd) s =
      .ok () ((u.searched c (devs.map fun d => ⟨d, p⟩)).setResult (BitVec.ofNat 8 devs.length)) := by
  rw [bodyOf, bind_ok hbody, bind_ok (look_run ..), setResult_run, owCountLow, State.owDevCount,
    State.searched_owDevList, List.length_map]

/-- Settles O56: the passes find the devices one after the other, and the last ends the search. -/
theorem searchFindsEveryDeviceInOrder : Obligations.SearchFindsEveryDeviceInOrder := by
  unfold Obligations.SearchFindsEveryDeviceInOrder
  intro p cmd devs ks s hr hcmd hl hd hlen hks hb
  rw [← isSearchCommand_iff] at hcmd
  obtain ⟨last, hlast, hbody⟩ := searchBody_all (s := s.begin) (p := p) hd hl hlen hcmd hks hb
  have hrun : OwRun p (searchEvents s.params p cmd devs ks 0 devs) := .search _ _ _ _ _ _ hd.ne_nil
  obtain ⟨t, hexec, hdone⟩ := searchDone_ok hr (bodyOf_owSearch hbody) hrun
  exact ⟨t, last, hexec, hlast, hdone⟩

/-! ## The family search (rule R217) -/

/-- The records of a family. -/
theorem filter_family (f : Byte) (p : PinId) (devs : List Rom) :
    (devs.map fun d => (⟨d, p⟩ : OwRecord)).filter (fun r => romByte r.rom 0 == f) =
      (devs.filter fun d => romByte d 0 == f).map fun d => ⟨d, p⟩ := List.filter_map

/-- After the search the list is filtered, and counted if it is not empty. -/
theorem bodyOf_owSearchFamily {f : Byte}
    (hbody : searchBody p cmd s = .ok () (u.searched c (devs.map fun d => ⟨d, p⟩))) :
    let kept := devs.filter fun d => romByte d 0 == f
    let t := u.searched c (kept.map fun d => ⟨d, p⟩)
    bodyOf (.owSearchFamily p cmd f) s =
      if kept = [] then .error (.err .noDevice) t else .ok () (t.setResult (BitVec.ofNat 8 kept.length)) := by
  intro kept t
  have hcount : t.owDevCount = kept.length := List.length_map ..
  have hjudge : bodyOf (.owSearchFamily p cmd f) s =
      (do errIf (t.owDevCount == 0) .noDevice; setResult (← look owCountLow) : Op Unit) t := by
    rw [bodyOf, bind_ok hbody, bind_ok (update_run ..), bind_ok (look_run ..), State.searched_setOwDevList,
      State.searched_owDevList, filter_family]
  rw [hjudge, hcount]
  by_cases hkept : kept = []
  · rw [if_pos hkept, hkept]
    rfl
  · rw [if_neg hkept, bind_ok (errIf_pass (beq_eq_false_iff_ne.mpr (mt List.length_eq_zero_iff.mp hkept)) ..),
      bind_ok (look_run ..), owCountLow, hcount]
    rfl

/-- Settles O58: the whole search, then the records of the family. -/
theorem familySearchKeepsItsFamily : Obligations.FamilySearchKeepsItsFamily := by
  unfold Obligations.FamilySearchKeepsItsFamily
  intro p cmd f devs ks s hr hcmd hl hd hlen hks hb kept
  rw [← isSearchCommand_iff] at hcmd
  obtain ⟨last, hlast, hbody⟩ := searchBody_all (s := s.begin) (p := p) hd hl hlen hcmd hks hb
  have hrun : OwRun p (searchEvents s.params p cmd devs ks 0 devs) := .search _ _ _ _ _ _ hd.ne_nil
  have hfilter := bodyOf_owSearchFamily (f := f) hbody
  by_cases hkept : kept = []
  · obtain ⟨t, hexec, hdone⟩ := searchDone_err hr (hfilter.trans (if_pos hkept)) hrun
    rw [if_pos hkept, if_pos hkept]
    exact ⟨t, last, hexec, hlast, hdone⟩
  · obtain ⟨t, hexec, hdone⟩ := searchDone_ok hr (hfilter.trans (if_neg hkept)) hrun
    rw [if_neg hkept, if_neg hkept]
    exact ⟨t, last, hexec, hlast, hdone⟩

/-! ## One device and two (rule R220) -/

/-- A device alone: its bits and their complements. -/
theorem stepBits_singleton (a : Rom) : stepBits [a] a = aloneBits a := by
  funext n
  have hon : onBus [a] a n = [a] := by simp [onBus]
  simp [stepBits, hon, aloneBits]

theorem searchDevices_singleton (h0 : a ≠ 0) (hv : crcValid a = true) : SearchDevices [a] :=
  ⟨List.cons_ne_nil a [], List.forall_mem_singleton.mpr ⟨hv, h0⟩, List.pairwise_singleton ..⟩

theorem SearchDevices.pair (ha0 : a ≠ 0) (ha : crcValid a = true) (hb : crcValid b = true) (h : FirstDiff a b n) :
    SearchDevices [a, b] := by
  have hb0 : b ≠ 0 := fun hb0 => by
    have hone := h.one
    rw [hb0, romBit_eq_getLsbD] at hone
    simp at hone
  exact ⟨List.cons_ne_nil a [b], List.forall_mem_cons.mpr ⟨⟨ha, ha0⟩, List.forall_mem_singleton.mpr ⟨hb, hb0⟩⟩,
    List.pairwise_pair.mpr h.searchKey_lt⟩

/-- The first of two devices leaves the conflict at which the other differs. -/
theorem SearchDevices.cursorAt_first (h : SearchDevices [a, b]) (hq : FirstDiff a b n) :
    cursorAt [a, b] a = ⟨a, BitVec.ofNat 8 n, false⟩ := by
  have hpos := hq.pos
  have hlast : lastZeroOf [a, b] a = n := SearchDevices.lastZeroOf_eq (pre := [a]) h rfl hq
  rw [cursorAt, hlast, beq_eq_false_iff_ne.mpr (by omega)]

/-- Settles O55: a device alone leaves no conflict; of two, the first leaves the one at which they differ. -/
theorem twoDevicesTakeTwoPasses : Obligations.TwoDevicesTakeTwoPasses := by
  unfold Obligations.TwoDevicesTakeTwoPasses
  intro p cmd k s hcmd hk finds
  have hgood := isSearchCommand_iff.mpr hcmd
  refine ⟨fun a h0 hv => ⟨fun sd hr hb => ?_, fun hl hroom hr hb => ?_⟩,
    fun a b n h0 ha hb h1 h64 hzero hone hagree => ⟨fun hr hans => ?_, fun hc hr hans => ?_⟩⟩
  · have hd := searchDevices_singleton h0 hv
    rw [← hd.cursorAt_last (pre := [])]
    exact searchPass_finds_from hgood hk hd List.mem_cons_self hr (stepBits_singleton a ▸ follows_alone _ a) hb
  · have hd := searchDevices_singleton h0 hv
    have hans : searchAnswers s.params [a] (fun _ => k) 0 [a] = passAnswers s.params [a] k a := List.append_nil _
    have htrace : searchEvents s.params p cmd [a] (fun _ => k) 0 [a] = passEvents s.params p cmd [a] k a :=
      List.append_nil _
    obtain ⟨t, last, hexec, hlast, hdone⟩ :=
      searchFindsEveryDeviceInOrder p cmd [a] (fun _ => k) s hr hcmd hl hd hroom (fun _ => hk) (hans ▸ hb)
    cases hlast
    exact ⟨t, hexec, htrace ▸ hdone⟩
  · have hdiff : FirstDiff a b n := ⟨h1, h64, hagree, hzero, hone⟩
    have hd := SearchDevices.pair h0 ha hb hdiff
    rw [← hd.cursorAt_first hdiff]
    exact searchPass_finds_from hgood hk hd List.mem_cons_self hr hd.follows_seed hans
  · have hdiff : FirstDiff a b n := ⟨h1, h64, hagree, hzero, hone⟩
    have hd := SearchDevices.pair h0 ha hb hdiff
    rw [← hd.cursorAt_first hdiff] at hc
    rw [← hd.cursorAt_last (pre := [a])]
    exact searchPass_finds_from hgood hk hd (by simp) hr (hc ▸ hd.follows_next (pre := [])) hans

end Sys2Proof.Machine
end

section
/-! What an error and a power cycle leave (O22, O11). The invariant says how the lines stand for each value of the
transaction flag, and rule R146 (O21) says what the flag is after a command. -/

namespace Sys2Proof.Machine

variable {s t : State}

/-! ## The lines, from the flag (rules R38, R248) -/

/-- In a transaction the clock is driven low (rule R38 b). -/
theorem Sound.clock_low (h : Sound s) (hx : s.tw.inTx = true) : (s.pin s.tw.sclPin).drive = .low := by
  obtain ⟨-, hlines, -⟩ := h.tw
  obtain ⟨hscl, -⟩ := hlines hx
  exact hscl

/-! ## A scan that probes no address -/

theorem scanProbes_reserved {as : List (BitVec 7)} (h : ∀ a ∈ as, a ∈ s.params.reservedAddrs) :
    scanProbes as s = .ok () s := by
  induction as with
  | nil => rfl
  | cons a as ih =>
    obtain ⟨ha, has⟩ := List.forall_mem_cons.mp h
    rw [scanProbes, bind_ok (scanProbe_reserved ha), ih has]

/-- A scan that skips every address samples no line, so it has nothing to fail on (rule R143; log 21). -/
theorem status_of_scan_probing_none (hp : probed s.params = []) (h : exec .twScan s = .next t)
    (hf : t.faulted = false) : t.status = 0x00 := by
  have hreserved : ∀ a ∈ scanAddresses, a ∈ (s.begin.setTwDevList []).params.reservedAddrs := fun a ha => by
    simpa using List.filter_eq_nil_iff.mp hp a ha
  have hrun : bodyOf .twScan s.begin = .ok () ((s.begin.setTwDevList []).setResult 0x00) := by
    rw [bodyOf, bind_ok (update_run ..), bind_ok (scanProbes_reserved hreserved)]
    rfl
  obtain rfl := Host.Outcome.next.inj (h.symm.trans (exec_ok (ready_of_completed h hf) hrun))
  rfl

/-! ## Two-wire errors (rules R247, R248) -/

/-- Settles O22: the flag is clear after every error but the NACK that keeps the transaction, and the invariant of the
state after the command says how the lines stand. -/
theorem twoWireErrorsReleaseTheBus : Obligations.TwoWireErrorsReleaseTheBus := by
  unfold Obligations.TwoWireErrorsReleaseTheBus
  intro i s t hs h hf hi hst
  have ht : Sound t := exec_sound hs.sound h
  have hclear (hx : t.tw.inTx = decide (t.status = 0x00)) : t.tw.inTx = false := hx.trans (decide_eq_false hst)
  have hflag : t.tw.inTx = true ↔ (∃ ab, i = .twStartRw ab false) ∧ t.status = 0x05 := by
    have hafter := transactionFlagFollowsTheStateMachine i s t hs.sound.tw h hf
    cases i with
    | twStart => simp [hclear hafter]
    | twStop => simp [hafter]
    | twWriteByte x => simp [hclear hafter.2]
    | twReadByte k => simp [hclear hafter.2]
    | twWriteBytes len => simp [hclear hafter.2]
    | twReadBytes len => simp [hclear hafter.2]
    | twStartRw ab son => rw [hafter, decide_eq_false hst]; simp [and_comm]
    | twStartWrite a r => simp [hclear hafter]
    | twStartRead a r => simp [hclear hafter]
    | twScan =>
      have hp : probed s.params ≠ [] := fun hp => hst (status_of_scan_probing_none hp h hf)
      simp [hafter hp]
    | _ => exact hi.elim
  split
  next hopen =>
    have hx := hflag.mpr hopen
    exact ⟨hx, ht.clock_low hx⟩
  next hclosed =>
    have hx : t.tw.inTx = false := Bool.eq_false_iff.mpr fun hx => hclosed (hflag.mp hx)
    exact ⟨hx, ht.released hx _, ht.released hx _⟩

/-! ## A power cycle (rules R256, R270) -/

/-- Settles O11: the host's step is `powerOn`, on the state whose list has lost the action. -/
theorem powerCycleResetsTheBlock : Obligations.PowerCycleResetsTheBlock := by
  unfold Obligations.PowerCycleResetsTheBlock
  intro s rest hh
  have hstep : step s = .next (powerOn (s.withHost rest)) := step_cons hh
  exact ⟨_, hstep, rfl⟩

end Sys2Proof.Machine
end

section
/-! The state right after reset (O9, O15): whatever the free values are, the parameters built from them are valid, and a
block fresh from reset with valid parameters meets the invariant. -/

namespace Sys2Proof.Machine

variable {q : Params}

/-! ## The free parameters (rule R3) -/

theorem Config.hostMap_injective : injectivePlacement Config.hostMap := by
  unfold Config.hostMap
  split
  next h => exact h
  next => exact ⟨List.nodup_nil, List.nodup_nil⟩

/-- Each preset is larger than the next, and all lie below 2^31. -/
theorem Config.short_delays :
    Config.short0 > Config.short1 ∧ Config.short1 > Config.short2 ∧ Config.short2 > Config.short3 ∧
      Config.short3 ≥ 1 ∧ Config.short0 < 2 ^ 31 := by
  have h3 : Config.short3 < 2 ^ 31 - 3 := Nat.succ_lt_succ (Nat.mod_lt _ (by decide))
  have h2 : Config.short2 < 2 ^ 31 - 2 := by
    have := Nat.mod_lt Config.openValues.gap2 (show 2 ^ 31 - 3 - Config.short3 > 0 by omega)
    unfold Config.short2
    omega
  have h1 : Config.short1 < 2 ^ 31 - 1 := by
    have := Nat.mod_lt Config.openValues.gap1 (show 2 ^ 31 - 2 - Config.short2 > 0 by omega)
    unfold Config.short1
    omega
  have h0 := Nat.mod_lt Config.openValues.gap0 (show 2 ^ 31 - 1 - Config.short1 > 0 by omega)
  refine ⟨?_, ?_, ?_, ?_, ?_⟩
  · unfold Config.short0; omega
  · unfold Config.short1; omega
  · unfold Config.short2; omega
  · unfold Config.short3; omega
  · unfold Config.short0; omega

theorem Config.params_valid : Config.params.Valid := by
  have hpins := Config.openValues.numPins.isLt
  have hstretch := Config.openValues.maxStretch.isLt
  have hlist := Config.openValues.maxTwDevices.isLt
  have htx := Config.openValues.txbufSize.isLt
  have hrx := Config.openValues.rxbufSize.isLt
  refine ⟨?_, Config.short_delays, ?_, ?_, ?_, ?_, ?_, ?_, ?_, ?_, ?_, ?_, Config.hostMap_injective⟩ <;>
    simp only [Config.params] <;> omega

/-! ## The invariant (rules R38, R270) -/

/-- The stretch bound fits its register (rule R30). -/
theorem toNat_maxStretch (h : q.Valid) : (BitVec.ofNat 32 q.maxStretch).toNat = q.maxStretch := by
  obtain ⟨-, -, ⟨-, hlt⟩, -⟩ := h
  exact (BitVec.toNat_ofNat _ _).trans (Nat.mod_eq_of_lt hlt)

theorem sound_resetWith (h : q.Valid) : Sound (State.resetWith q) where
  valid := h
  tw := ⟨nofun, nofun, nofun, nofun, toNat_maxStretch h⟩
  low := nofun
  cursor := CursorOk.seed
  lists := ⟨Nat.zero_le _, nofun, Nat.zero_le _, nofun⟩
  data := ⟨.nil, nofun, .nil, nofun, .nil, nofun⟩
  results := ⟨(by decide : (0 : Byte).toNat ≤ 0x0B), (by decide : (0 : Byte).toNat ≤ 0x0C),
    (by decide : false = true ↔ (0 : Byte) ≠ 0)⟩

/-- Settles O15: the reset parameters are valid, and that is all the reset state's invariant needs. -/
theorem resetMeetsTheInvariant : Obligations.ResetMeetsTheInvariant := by
  unfold Obligations.ResetMeetsTheInvariant
  exact (sound_resetWith Config.params_valid).inv

/-! ## What the host reads (rules R39, R58, R270) -/

/-- What is not there right after reset. -/
theorem hostRead_reset_absent {n : HostName}
    (hn : n ∈ [HostName.twSclPin, .twSdaPin, .twSpeed, .twShort, .twLong, .twDevList, .owDevList, .rxbuf]) (i : Nat) :
    n ≠ .txbuf ∧ State.reset.hostRead n i = none := by
  revert n
  simp only [List.forall_mem_cons, List.not_mem_nil, false_imp_iff, implies_true, and_true]
  exact ⟨⟨nofun, rfl⟩, ⟨nofun, rfl⟩, ⟨nofun, rfl⟩, ⟨nofun, rfl⟩, ⟨nofun, rfl⟩, ⟨nofun, rfl⟩, ⟨nofun, rfl⟩,
    nofun, rfl⟩

/-- Settles O9: each register is read off the reset state, and where nothing is there the read is a usage fault. -/
theorem resetRegistersReadAsListed : Obligations.ResetRegistersReadAsListed := by
  unfold Obligations.ResetRegistersReadAsListed
  refine ⟨?_, fun i hi => ?_, ?_, fun p => rfl, fun n hn i => ?_, rfl⟩
  · simp only [List.forall_mem_cons, List.not_mem_nil, false_imp_iff, implies_true, and_true]
    exact ⟨rfl, rfl, rfl, rfl, rfl, rfl, rfl, rfl, rfl, rfl⟩
  · have hbyte : (romByte 0 i).toNat = 0 := by rw [romByte_toNat]; simp
    have hread : State.reset.hostRead .owPrevRom i = some (.value 0) := by
      show onlyIf (i < 8) (some (.value (romByte 0 i).toNat)) = _
      rw [hbyte, decide_eq_true hi]
      rfl
    exact hostReads_some nofun hread
  · have hread : State.reset.hostRead .twMaxStretch 0 = some (.value State.reset.params.maxStretch) :=
      congrArg (fun v => some (HostValue.value v)) (toNat_maxStretch Config.params_valid)
    exact hostReads_some nofun hread
  · obtain ⟨htx, hnone⟩ := hostRead_reset_absent hn i
    exact ⟨_, hostReads_none htx hnone, rfl, rfl⟩

end Sys2Proof.Machine
end

section
/-! What the traces of the rules wait in all and how many events they hold (R279, R280): one lemma for each list of
Traces.lean. -/

namespace Sys2Proof.Machine

variable {q : Params} {p : PinId} {l : TwLine} {st : Nat → Nat} {es : List Event}

/-! ## The sum of the waits -/

@[simp] theorem waitTotal_nil : waitTotal [] = 0 := rfl
@[simp] theorem waitTotal_cfg (p : PinId) (m : CfgMode) (es : List Event) :
    waitTotal (.cfg p m :: es) = waitTotal es := Nat.zero_add _
@[simp] theorem waitTotal_low (p : PinId) (es : List Event) : waitTotal (.low p :: es) = waitTotal es := Nat.zero_add _
@[simp] theorem waitTotal_rel (p : PinId) (es : List Event) : waitTotal (.rel p :: es) = waitTotal es := Nat.zero_add _
@[simp] theorem waitTotal_sample (p : PinId) (v : Bool) (es : List Event) :
    waitTotal (.sample p v :: es) = waitTotal es := Nat.zero_add _
@[simp] theorem waitTotal_wait (n : Nat) (es : List Event) : waitTotal (.wait n :: es) = n + waitTotal es := rfl

@[simp] theorem waitTotal_append (a b : List Event) : waitTotal (a ++ b) = waitTotal a + waitTotal b := by
  simp [waitTotal]

theorem waitTotal_flatMap {β : Type} (xs : List β) (f : β → List Event) :
    waitTotal (xs.flatMap f) = (xs.map fun x => waitTotal (f x)).sum := by
  induction xs with
  | nil => rfl
  | cons x xs ih => simp [ih]

/-- Parts that all wait the same. -/
theorem waitTotal_flatMap_const {β : Type} {xs : List β} {f : β → List Event} {k : Nat}
    (h : ∀ x ∈ xs, waitTotal (f x) = k) : waitTotal (xs.flatMap f) = xs.length * k := by
  rw [waitTotal_flatMap, List.map_congr_left h, List.map_const', List.sum_replicate_nat]

@[simp] theorem waitTotal_samples (k : Nat) (p : PinId) (v : Bool) :
    waitTotal (List.replicate k (.sample p v)) = 0 := by
  induction k with
  | zero => rfl
  | succ k ih => rw [List.replicate_succ, waitTotal_sample, ih]

/-! ## One-wire slots, bytes and resets (rules R182, R183) -/

theorem waitTotal_writeSlot (q : Params) (p : PinId) (b : Bool) : waitTotal (writeSlot q p b) = writeSlotTotal q b := by
  cases b <;> simp [writeSlot, writeSlotTotal]

theorem waitTotal_readSlot (q : Params) (p : PinId) (v : Bool) : waitTotal (readSlot q p v) = readSlotTotal q := by
  simp [readSlot, readSlotTotal, Nat.add_assoc]

theorem waitTotal_owWriteByteEvents (q : Params) (p : PinId) (x : Byte) :
    waitTotal (owWriteByteEvents q p x) = owByteTotal q x := by
  simp only [owWriteByteEvents, waitTotal_flatMap, waitTotal_writeSlot]
  rfl

theorem waitTotal_owReadByteEvents (q : Params) (p : PinId) (x : Byte) :
    waitTotal (owReadByteEvents q p x) = 8 * readSlotTotal q :=
  waitTotal_flatMap_const fun v _ => waitTotal_readSlot q p v

theorem waitTotal_writeBytes (q : Params) (p : PinId) (xs : List Byte) :
    waitTotal (xs.flatMap (owWriteByteEvents q p)) = (xs.map (owByteTotal q)).sum := by
  simp only [waitTotal_flatMap, waitTotal_owWriteByteEvents]

theorem waitTotal_readBytes (q : Params) (p : PinId) (xs : List Byte) :
    waitTotal (xs.flatMap (owReadByteEvents q p)) = xs.length * (8 * readSlotTotal q) :=
  waitTotal_flatMap_const fun x _ => waitTotal_owReadByteEvents q p x

theorem waitTotal_quietPolls (q : Params) (p : PinId) (n : Nat) :
    waitTotal (quietPolls q p n) = n * q.owPresInterval := by
  rw [quietPolls, ← List.flatMap_id, waitTotal_flatMap_const (k := q.owPresInterval), List.length_replicate]
  exact fun x hx => by rw [List.eq_of_mem_replicate hx]; simp

/-- A reset takes the same time whenever presence is seen: what is left of its high time is waited for after
(rule R183). -/
theorem waitTotal_owResetEvents {o : Option Nat} (ho : ∀ k, o = some k → k < q.owPresPolls)
    (hfit : q.owPresPolls * q.owPresInterval ≤ q.owRstHigh) :
    waitTotal (owResetEvents q p o) = q.owRstLow + q.owRstHigh := by
  cases o with
  | none => simp [owResetEvents, waitTotal_quietPolls]; omega
  | some k =>
    have hle := (Nat.mul_le_mul_right q.owPresInterval (ho k rfl)).trans hfit
    rw [Nat.succ_mul] at hle
    simp [owResetEvents, waitTotal_quietPolls, Nat.succ_mul]
    omega

theorem length_writeSlot (q : Params) (p : PinId) (b : Bool) : (writeSlot q p b).length = 4 := by cases b <;> rfl

theorem length_readSlot (q : Params) (p : PinId) (v : Bool) : (readSlot q p v).length = 6 := rfl

/-- Parts that are all as long. -/
theorem length_flatMap_const {β : Type} {xs : List β} {f : β → List Event} {k : Nat}
    (h : ∀ x, (f x).length = k) : (xs.flatMap f).length = xs.length * k := by
  simp [List.length_flatMap, h]

theorem length_owWriteByteEvents (q : Params) (p : PinId) (x : Byte) : (owWriteByteEvents q p x).length = 32 :=
  length_flatMap_const (length_writeSlot q p)

theorem length_owReadByteEvents (q : Params) (p : PinId) (x : Byte) : (owReadByteEvents q p x).length = 48 :=
  length_flatMap_const (length_readSlot q p)

theorem length_owResetEvents_le {o : Option Nat} (ho : ∀ k, o = some k → k < q.owPresPolls) :
    (owResetEvents q p o).length ≤ owResetBound q := by
  cases o with
  | none => simp [owResetEvents, quietPolls, owResetBound]; omega
  | some k =>
    have := ho k rfl
    simp [owResetEvents, quietPolls, owResetBound]
    omega

/-! ## The steps of a pass (rules R211, R213) -/

/-- The steps along `r`'s path write the bits of `r`. -/
theorem waitTotal_stepsEvents {c : Cursor} {vs : Nat → Bool × Bool} {r : Rom} (hpath : Follows c vs r) :
    waitTotal (stepsEvents q p c vs 64) =
      ((List.range' 1 64).map fun n => 2 * readSlotTotal q + writeSlotTotal q (romBit r n)).sum := by
  rw [stepsEvents, waitTotal_flatMap]
  refine congrArg List.sum (List.map_congr_left fun n hn => ?_)
  rw [List.mem_range'_1] at hn
  obtain ⟨-, hbit⟩ := hpath n hn.1 (by omega)
  rw [hbit, waitTotal_append, waitTotal_append, waitTotal_readSlot, waitTotal_readSlot, waitTotal_writeSlot,
    Nat.two_mul]

theorem length_stepsEvents (q : Params) (p : PinId) (c : Cursor) (vs : Nat → Bool × Bool) (m : Nat) :
    (stepsEvents q p c vs m).length = m * 16 := by
  rw [stepsEvents, length_flatMap_const (k := 16), List.length_range']
  exact fun n => by simp [length_readSlot, length_writeSlot]

/-! ## Two-wire traces (rules R112 to R143), a long delay being two short ones -/

@[simp] theorem waitTotal_riseEvents (p : PinId) (k : Nat) : waitTotal (riseEvents p k) = 0 := by simp [riseEvents]

@[simp] theorem waitTotal_stopEvents (l : TwLine) (k : Nat) : waitTotal (stopEvents l k) = 3 * l.S := by
  simp [stopEvents]; omega

@[simp] theorem waitTotal_stopHeldEvents (l : TwLine) (n : Nat) : waitTotal (stopHeldEvents l n) = l.S := by
  simp [stopHeldEvents, stretchOutEvents, failFastEvents]

@[simp] theorem waitTotal_startEvents (i : Bool) (l : TwLine) (k : Nat) : waitTotal (startEvents i l k) = 4 * l.S := by
  cases i <;> (simp [startEvents, startHead, startConditionEvents]; omega)

section
variable (hl : l.L = 2 * l.S)
include hl

theorem waitTotal_putBitEvents (k : Nat) (b : Bool) : waitTotal (putBitEvents l k b) = 4 * l.S := by
  cases b <;> (simp [putBitEvents, tickEvents, hl]; omega)

theorem waitTotal_getBitEvents (k : Nat) (v : Bool) : waitTotal (getBitEvents l k v) = 4 * l.S := by
  simp [getBitEvents, tickEvents, hl]; omega

theorem waitTotal_writeByteEvents (st : Nat → Nat) (x : Byte) (a : Bool) :
    waitTotal (writeByteEvents l st x a) = 36 * l.S := by
  rw [writeByteEvents, waitTotal_append, waitTotal_getBitEvents hl,
    waitTotal_flatMap_const (k := 4 * l.S) fun j _ => waitTotal_putBitEvents hl _ _, List.length_range]
  omega

theorem waitTotal_addressEvents (i : Bool) (st : Nat → Nat) (ab : Byte) (a : Bool) :
    waitTotal (addressEvents i l st ab a) = 40 * l.S := by
  rw [addressEvents, waitTotal_append, waitTotal_startEvents, waitTotal_writeByteEvents hl]
  omega

/-- A probe: START, address byte and STOP; a STOP whose clock is held low waits once (rules R140, R143). -/
theorem waitTotal_probeEvents (i : Bool) (n : Nat) (st : Nat → Nat) (a : BitVec 7) (pr : Probe) :
    waitTotal (probeEvents i l n st a pr) = if pr = .nackedHeld then 41 * l.S else 43 * l.S := by
  rw [probeEvents, waitTotal_append, waitTotal_addressEvents hl]
  split
  · rw [waitTotal_stopHeldEvents]; omega
  · rw [waitTotal_stopEvents]; omega

theorem waitTotal_scanEvents (n : Nat) (st : BitVec 7 → Nat → Nat) (pr : BitVec 7 → Probe) (i : Bool)
    (as : List (BitVec 7)) :
    waitTotal (scanEvents l n st pr i as) =
      (as.map fun a => if pr a = .nackedHeld then 41 * l.S else 43 * l.S).sum := by
  induction as generalizing i with
  | nil => rfl
  | cons a as ih => rw [scanEvents, waitTotal_append, waitTotal_probeEvents hl, ih, List.map_cons, List.sum_cons]

end

end Sys2Proof.Machine
end

section
/-! What a two-wire command that succeeds waits in all, whatever the bus answers (R280): `Waits S x k` says that `x`,
where it succeeds, waits `k`, the short delay being `S` and the long one twice that. How often a clock is polled does
not count, and a clock held low raises. -/

namespace Sys2Proof.Machine

variable {α β : Type} {S n k m : Nat} {s t : State} {i : Instr} {E : Raise → State → Prop}

/-- The delays are `S` and twice `S`, and the trace waits `n` in all. -/
def Waited (S n : Nat) (s : State) : Prop :=
  s.tw.short.toNat = S ∧ s.tw.long.toNat = 2 * S ∧ waitTotal s.trace = n

/-- Where `x` succeeds it has waited `k`; of a raise nothing is said. -/
def Waits (S : Nat) (x : Op α) (k : Nat) : Prop :=
  ∀ n, Triple (Waited S n) x (fun _ => Waited S (n + k)) (fun _ _ => True)

/-- `x` ends in a raise. -/
def Raises (x : Op α) : Prop := Triple (fun _ => True) x (fun _ _ => False) (fun _ _ => True)

/-! ## Sequencing -/

theorem Waited.play (h : Waited S n s) (es : List Event) : Waited S (n + waitTotal es) (s.play es) := by
  obtain ⟨hshort, hlong, htotal⟩ := h
  exact ⟨hshort, hlong, by rw [State.trace_play, waitTotal_append, htotal]⟩

theorem Waits.cast {x : Op α} (h : Waits S x k) (e : k = m) : Waits S x m := e ▸ h

theorem Waits.bind {x : Op α} {f : α → Op β} (hx : Waits S x k) (hf : ∀ a, Waits S (f a) m) :
    Waits S (x >>= f) (k + m) :=
  fun n => (hx n).bind fun a => (hf a (n + k)).post fun _ _ h => by rwa [← Nat.add_assoc]

/-- As `Waits.bind`, where the first part does not wait. -/
theorem Waits.then {x : Op α} {f : α → Op β} (hx : Waits S x 0) (hf : ∀ a, Waits S (f a) m) :
    Waits S (x >>= f) m :=
  (hx.bind hf).cast (Nat.zero_add m)

/-- As `Waits.bind`, where the second part does not wait. -/
theorem Waits.before {x : Op α} {f : α → Op β} (hx : Waits S x k) (hf : ∀ a, Waits S (f a) 0) :
    Waits S (x >>= f) k := hx.bind hf

theorem Waits.ite {c : Bool} {x y : Op α} (hx : Waits S x k) (hy : Waits S y k) : Waits S (if c then x else y) k :=
  fun n => Triple.ite (fun _ => hx n) fun _ => hy n

/-- A piece that only raises never succeeds. -/
theorem Raises.waits {x : Op α} (h : Raises x) : Waits S x k :=
  fun _ => h.imp (fun _ _ => trivial) (fun _ _ => False.elim) fun _ _ h => h

theorem Raises.after {x : Op α} {f : α → Op β} (hf : ∀ a, Raises (f a)) : Raises (x >>= f) :=
  Triple.bind (Q := fun _ _ => True) (Triple.of (fun _ _ _ _ _ => trivial) fun _ _ _ _ _ => trivial) hf

theorem raises_raiseErr (e : Err) : Raises (raiseErr e : Op α) := Triple.raiseErr fun _ _ => trivial
theorem raises_reraise (r : Raise) : Raises (reraise r : Op α) := Triple.reraise fun _ _ => trivial

theorem waits_pure (a : α) : Waits S (pure a : Op α) 0 := fun _ => Triple.pure fun _ h => h
theorem waits_look (f : State → α) : Waits S (look f) 0 := fun _ => Triple.look fun _ h => h
theorem waits_errIf (c : Bool) (e : Err) : Waits S (errIf c e) 0 :=
  fun _ => Triple.errIf (fun _ h _ => h) fun _ _ _ => trivial
theorem waits_readTx (j : Nat) : Waits S (readTx j) 0 := fun _ => Triple.readTx (fun _ _ h _ => h) fun _ _ _ => trivial
theorem waits_writeRx (j : Nat) (b : Byte) : Waits S (writeRx j b) 0 := fun _ => Triple.update fun _ h => h
theorem waits_setResult (v : Byte) : Waits S (setResult v) 0 := fun _ => Triple.update fun _ h => h
theorem waits_setInTx (b : Bool) : Waits S (setInTx b) 0 := fun _ => Triple.update fun _ h => h

/-! ## The lines and the delays (rule R7) -/

theorem waits_lowScl : Waits S lowScl 0 := fun _ => ⟨fun s h => by rw [lowScl_run]; exact h.play [.low _]⟩
theorem waits_relScl : Waits S relScl 0 := fun _ => ⟨fun s h => by rw [relScl_run]; exact h.play [.rel _]⟩
theorem waits_lowSda : Waits S lowSda 0 := fun _ => ⟨fun s h => by rw [lowSda_run]; exact h.play [.low _]⟩
theorem waits_relSda : Waits S relSda 0 := fun _ => ⟨fun s h => by rw [relSda_run]; exact h.play [.rel _]⟩
theorem waits_sampleScl : Waits S sampleScl 0 :=
  fun _ => ⟨fun s h => by rw [sampleScl_run]; exact h.play [.sample _ _]⟩
theorem waits_sampleSda : Waits S sampleSda 0 :=
  fun _ => ⟨fun s h => by rw [sampleSda_run]; exact h.play [.sample _ _]⟩

theorem waits_waitShort : Waits S waitShort S := fun n => ⟨fun s h => by
  have ⟨hshort, _⟩ := h
  rw [waitShort_run, hshort]
  exact h.play [.wait S]⟩

theorem waits_waitLong : Waits S waitLong (2 * S) := fun n => ⟨fun s h => by
  have ⟨_, hlong, _⟩ := h
  rw [waitLong_run, hlong]
  exact h.play [.wait (2 * S)]⟩

/-! ## Ticks and bits (rules R110 to R113, R120) -/

theorem waits_pollScl (k : Nat) : Waits S (pollScl k) 0 := by
  induction k with
  | zero => exact waits_pure false
  | succ k ih => exact waits_sampleScl.then fun _ => .ite (waits_pure true) ih

theorem waits_stretchWait : Waits S stretchWait 0 :=
  (waits_look _).then fun k => (waits_pollScl k).then fun _ => .ite (waits_pure ()) <|
    (Raises.after fun _ => raises_raiseErr _).waits

theorem waits_tickSample (smp : Bool) : Waits S (tickSample smp) 0 := .ite waits_sampleSda (waits_pure true)

/-- A tick: short, long, short. -/
theorem waits_tick (smp : Bool) : Waits S (tick smp) (4 * S) :=
  (waits_lowScl.then fun _ => waits_waitShort.bind fun _ => waits_relScl.then fun _ => waits_stretchWait.then fun _ =>
    waits_waitLong.bind fun _ => (waits_tickSample smp).then fun _ => waits_lowScl.then fun _ =>
    waits_waitShort.before fun _ => waits_pure _).cast (by omega)

theorem waits_putBit (b : Bool) : Waits S (putBit b) (4 * S) :=
  Waits.then (.ite waits_relSda waits_lowSda) fun _ => (waits_tick false).before fun _ => waits_pure ()

theorem waits_getBit : Waits S getBit (4 * S) := waits_relSda.then fun _ => waits_tick true

/-! ## START, STOP and bytes (rules R133 to R137) -/

theorem waits_startCondition : Waits S startCondition (3 * S) :=
  (waits_waitShort.bind fun _ => waits_lowSda.then fun _ => waits_waitShort.bind fun _ => waits_lowScl.then fun _ =>
    waits_waitShort.before fun _ => waits_relSda).cast (by omega)

theorem waits_startIdle : Waits S startIdle (4 * S) := by
  have hopen : Waits S (do stretchWait; startCondition; setInTx true) (3 * S) :=
    waits_stretchWait.then fun _ => waits_startCondition.before fun _ => waits_setInTx true
  have hlost : Raises (do failFast; raiseErr .arbitrationLost : Op Unit) := .after fun _ => raises_raiseErr _
  exact (waits_relSda.then fun _ => waits_relScl.then fun _ => waits_waitShort.bind fun _ =>
    waits_sampleSda.then fun _ => .ite hopen hlost.waits).cast (by omega)

theorem waits_startRepeated : Waits S startRepeated (4 * S) :=
  (waits_relSda.then fun _ => waits_waitShort.bind fun _ => waits_relScl.then fun _ => waits_stretchWait.then fun _ =>
    waits_startCondition).cast (by omega)

theorem waits_start : Waits S start (4 * S) :=
  (waits_look _).then fun _ => .ite waits_startRepeated waits_startIdle

theorem waits_stop : Waits S stop (3 * S) :=
  ((waits_look _).then fun _ => (waits_errIf _ _).then fun _ => waits_lowSda.then fun _ => waits_waitShort.bind fun _ =>
    waits_relScl.then fun _ => waits_stretchWait.then fun _ => waits_waitShort.bind fun _ => waits_relSda.then fun _ =>
    waits_waitShort.before fun _ => waits_setInTx false).cast (by omega)

theorem waits_putBits (x : Byte) (k : Nat) : Waits S (putBits x k) (k * (4 * S)) := by
  induction k with
  | zero => exact (waits_pure ()).cast (Nat.zero_mul _).symm
  | succ k ih => exact ((waits_putBit _).bind fun _ => ih).cast (by ring)

theorem waits_writeByte (x : Byte) : Waits S (writeByte x) (36 * S) :=
  ((waits_putBits x 8).bind fun _ => waits_getBit).cast (by omega)

theorem waits_getBits (k : Nat) (x : Byte) : Waits S (getBits k x) (k * (4 * S)) := by
  induction k generalizing x with
  | zero => exact (waits_pure x).cast (Nat.zero_mul _).symm
  | succ k ih => exact (waits_getBit.bind fun _ => ih _).cast (by ring)

theorem waits_readByte (k : Bool) : Waits S (readByte k) (36 * S) :=
  ((waits_getBits 8 0).bind fun _ => (waits_putBit k).before fun _ => waits_relSda.then fun _ => waits_pure _).cast
    (by omega)

/-! ## Transactions (rules R138 to R142) -/

theorem raises_nackAddress (son : Bool) : Raises (nackAddress son) := by
  refine Triple.ite (fun _ => Raises.after fun r => ?_) fun _ => raises_raiseErr _
  split
  · exact raises_raiseErr _
  · exact raises_raiseErr _
  · exact raises_reraise _

theorem raises_nackData : Raises nackData := .after fun _ => raises_raiseErr _

theorem waits_startRw (ab : Byte) (son : Bool) : Waits S (startRw ab son) (40 * S) :=
  (waits_start.bind fun _ => (waits_writeByte ab).before fun _ =>
    .ite (raises_nackAddress son).waits (waits_pure ())).cast (by omega)

theorem waits_startWrite (a : BitVec 7) (r : Byte) : Waits S (startWrite a r) (76 * S) :=
  ((waits_startRw _ true).bind fun _ => (waits_writeByte r).before fun _ =>
    .ite raises_nackData.waits (waits_pure ())).cast (by omega)

theorem waits_writeTxBytes (k j : Nat) : Waits S (writeTxBytes k j) (k * (36 * S)) := by
  induction k generalizing j with
  | zero => exact (waits_pure ()).cast (Nat.zero_mul _).symm
  | succ k ih =>
    exact ((waits_readTx j).then fun x => (waits_writeByte x).bind fun _ =>
      .ite raises_nackData.waits (ih (j + 1))).cast (by ring)

theorem waits_readRxBytes (k j : Nat) : Waits S (readRxBytes k j) (k * (36 * S)) := by
  induction k generalizing j with
  | zero => exact (waits_pure ()).cast (Nat.zero_mul _).symm
  | succ k ih =>
    exact ((waits_readByte _).bind fun x => (waits_writeRx j x).then fun _ => ih (j + 1)).cast
      (by ring)

/-! ## A command that completes with `OK` -/

/-- The body of a command that completed with `OK` succeeded (rule R240). -/
theorem exec_succeeded (h : exec i s = .next t) (hf : t.faulted = false) (hst : t.status = 0x00) :
    ∃ u, bodyOf i s.begin = .ok () u ∧ t = u.complete 0x00 := by
  have hend : FromStart s (bodyOf i) (fun _ u => bodyOf i s.begin = .ok () u) (fun _ _ => True) :=
    Triple.of (fun _ _ _ hs hx => hs ▸ hx) fun _ _ _ _ _ => trivial
  obtain ⟨u, hu, rfl⟩ | ⟨e, u, -, rfl⟩ := exec_completed h hf hend
  · exact ⟨u, hu, rfl⟩
  · exact absurd hst e.code_ne_ok

/-- The trace of a command whose body is known to wait `k`. -/
theorem Waits.total (hx : Waits s.tw.short.toNat (bodyOf i) k) (hlong : s.tw.long.toNat = 2 * s.tw.short.toNat)
    (h : exec i s = .next t) (hf : t.faulted = false) (hst : t.status = 0x00) : waitTotal t.trace = k := by
  obtain ⟨u, hu, rfl⟩ := exec_succeeded h hf hst
  obtain ⟨-, -, htotal⟩ := (hx 0).ok (s := s.begin) ⟨rfl, hlong, rfl⟩ hu
  exact htotal.trans (Nat.zero_add k)

/-- The long delay of an initialised engine is twice its short one (rules R31, R131). -/
theorem State.TwInv.long_eq (h : s.TwInv) (hi : s.tw.initialized = true) :
    s.tw.long.toNat = 2 * s.tw.short.toNat := by
  obtain ⟨-, -, hinit, hspeed, -⟩ := h
  obtain ⟨-, -, -, -, -, hwritten⟩ := hinit hi
  obtain ⟨-, hlong⟩ := hspeed hwritten
  exact hlong

/-- A STOP that succeeds was in a transaction (rule R135). -/
theorem inTx_of_stop_ok (h : exec .twStop s = .next t) (hf : t.faulted = false) (hst : t.status = 0x00) :
    s.tw.inTx = true := by
  obtain ⟨u, hu, -⟩ := exec_succeeded h hf hst
  refine Bool.of_not_eq_false fun hx => ?_
  have hidle : bodyOf .twStop s.begin = .error (.err .stopOutsideTransaction) s.begin := stop_idle hx
  rw [hidle] at hu
  cases hu

end Sys2Proof.Machine
end

section
/-! The trace of a scan that completes with `OK` on a bus whose probes are known: the probes', as a device more than
the list holds would have ended it with `OutOfMemory` (R143). -/

namespace Sys2Proof.Machine

variable {s t : State} {n : Nat} {st : BitVec 7 → Nat → Nat} {pr : BitVec 7 → Probe} {as : List (BitVec 7)}

theorem scanAnswers_append (n : Nat) (st : BitVec 7 → Nat → Nat) (pr : BitVec 7 → Probe) (i : Bool)
    (as bs : List (BitVec 7)) :
    scanAnswers n st pr i (as ++ bs) = scanAnswers n st pr i as ++ scanAnswers n st pr (i && as.isEmpty) bs := by
  induction as generalizing i with
  | nil => simp [scanAnswers]
  | cons a as ih => simp [scanAnswers, ih]

/-- Where more than `n` addresses answer there is one that `n` come before. -/
theorem exists_answering_after (h : n < (answering pr as).length) :
    ∃ pre a post, as = pre ++ a :: post ∧ pr a = .acked ∧ (answering pr pre).length = n := by
  induction as generalizing n with
  | nil => exact absurd h (Nat.not_lt_zero n)
  | cons a as ih =>
    rw [answering_cons, List.length_append] at h
    by_cases ha : pr a = .acked
    · have hone : (answering pr [a]).length = 1 := by simp [answering, ha]
      cases n with
      | zero => exact ⟨[], a, as, rfl, ha, rfl⟩
      | succ n =>
        obtain ⟨pre, b, post, rfl, hb, hlen⟩ := ih (n := n) (by omega)
        exact ⟨a :: pre, b, post, rfl, hb, by rw [answering_cons, List.length_append]; omega⟩
    · have hnone : (answering pr [a]).length = 0 := by simp [answering, ha]
      obtain ⟨pre, b, post, rfl, hb, hlen⟩ := ih (n := n) (by omega)
      exact ⟨a :: pre, b, post, rfl, hb, by rw [answering_cons, List.length_append]; omega⟩

theorem twScan_trace (hw : s.TwInv) (h : exec .twScan s = .next t) (hf : t.faulted = false) (hok : t.status = 0x00)
    (hst : ∀ a j, st a j < s.tw.maxStretch.toNat)
    (hb : Presents s (scanAnswers s.tw.maxStretch.toNat st pr s.tw.inTx (probed s.params))) :
    t.trace = scanEvents s.line s.tw.maxStretch.toNat st pr s.tw.inTx (probed s.params) := by
  obtain ⟨hall, hnone, hends⟩ :=
    twScanListsTheAnsweringAddresses s st pr (ready_of_completed h hf) hw hst
  by_cases hp : probed s.params = []
  · obtain ⟨u, hu, ⟨-, -, htrace, -⟩, -⟩ := hnone hp
    obtain rfl := Host.Outcome.next.inj (h.symm.trans hu)
    rw [htrace, hp]
    rfl
  by_cases hfits : (answering pr (probed s.params)).length ≤ s.params.maxTwDevices
  · obtain ⟨u, hu, ⟨-, -, htrace, -⟩, -⟩ := hall hp hfits hb
    obtain rfl := Host.Outcome.next.inj (h.symm.trans hu)
    exact htrace
  · obtain ⟨pre, a, post, hsplit, ha, hlen⟩ := exists_answering_after (Nat.lt_of_not_le hfits)
    obtain ⟨hfull, -⟩ := hends pre a post hsplit
    rw [hsplit, List.append_cons, scanAnswers_append] at hb
    obtain ⟨u, hu, ⟨hcode, -⟩, -⟩ := hfull ha hlen hb.append.1
    obtain rfl := Host.Outcome.next.inj (h.symm.trans hu)
    rw [hok] at hcode
    exact absurd hcode (by decide)

end Sys2Proof.Machine
end

section
/-! The traces of the one-wire commands, whatever the bus answers: any bus is one of those the rules describe, so the
laws for a bus whose answers are known give every trace. A pass of the search is measured, in events and in waits, and
the passes of a search add up. -/

namespace Sys2Proof.Machine

variable {α β : Type} {s t u : State} {p : PinId} {q : Params} {cmd : Byte} {sd : Bool} {n k : Nat} {i : Instr}
  {a b : List Bool} {es : List Event} {r : Rom}

/-! ## Any bus -/

/-- Answers that come one after the other; `es` are the events that use up the first of them. -/
theorem Presents.concat (ha : Presents s a) (he : sampleCount es = a.length) (hb : Presents (s.play es) b) :
    Presents s (a ++ b) := by
  have hrest : (List.range b.length).map (fun j => s.answer (a.length + j)) = b := by
    rw [← he]
    exact (List.map_congr_left fun j _ => (State.answer_play s es j).symm).trans hb
  rw [Presents, List.length_append, List.range_add, List.map_append, List.map_map]
  exact congrArg₂ (· ++ ·) ha hrest

/-- A reset is answered by a presence pulse at one of the polls, or by none (rule R183). -/
theorem exists_presents_reset (s : State) (q : Params) :
    ∃ o, (∀ k, o = some k → k < q.owPresPolls) ∧ Presents s (owResetAnswers q o) := by
  have hhigh : ∀ k, (∀ j < k, s.answer j = true) → Presents s (List.replicate k true) := fun k hk => by
    rw [Presents, List.length_replicate, List.map_congr_left fun j hj => hk j (List.mem_range.mp hj), List.map_const',
      List.length_range]
  by_cases hseen : ∃ k, s.answer k = false ∧ k < q.owPresPolls
  · obtain ⟨k, ⟨hlow, hk⟩, hfirst⟩ := Nat.findX hseen
    have hbefore : Presents s (List.replicate k true) :=
      hhigh k fun j hj => Bool.of_not_eq_false fun hj' => hfirst j hj ⟨hj', hj.trans hk⟩
    refine ⟨some k, fun k' hk' => Option.some_inj.mp hk' ▸ hk, ?_⟩
    rw [owResetAnswers, Presents, List.length_append, List.length_singleton, List.range_succ, List.map_append]
    exact congrArg₂ (· ++ ·) hbefore (by simpa using hlow)
  · refine ⟨none, nofun, hhigh _ fun j hj => Bool.of_not_eq_false fun hj' => hseen ⟨j, hj', hj⟩⟩

/-- Any eight answers are a byte. -/
theorem exists_presents_byte (s : State) : ∃ x, Presents s (lsbBits x) := by
  refine ⟨BitVec.ofFnLE fun j : Fin 8 => s.answer j, ?_⟩
  rw [Presents, lsbBits, List.length_map, List.length_range]
  refine List.map_congr_left fun j hj => ?_
  rw [BitVec.getLsbD_ofFnLE, dif_pos (List.mem_range.mp hj)]

theorem exists_presents_bytes (s : State) (n : Nat) :
    ∃ xs : List Byte, xs.length = n ∧ Presents s (xs.flatMap lsbBits) := by
  induction n generalizing s with
  | zero => exact ⟨[], rfl, Presents.nil s⟩
  | succ n ih =>
    obtain ⟨x, hx⟩ := exists_presents_byte s
    obtain ⟨xs, hlen, hxs⟩ := ih (s.play (owReadByteEvents s.params 0 x))
    have hcount := (Plays.owReadByte (w := s.tw) (q := s.params) 0 x).count
    exact ⟨x :: xs, by rw [List.length_cons, hlen], hx.concat hcount hxs⟩

/-- Any answers are the read slots of the steps of a pass (rule R210). -/
theorem exists_presents_steps (s : State) : ∃ vs, ∀ m, Presents s (stepsAnswers vs m) := by
  refine ⟨fun n => (s.answer (2 * (n - 1)), s.answer (2 * (n - 1) + 1)), fun m => ?_⟩
  have hanswers : stepsAnswers (fun n => (s.answer (2 * (n - 1)), s.answer (2 * (n - 1) + 1))) m =
      (List.range (2 * m)).map s.answer := by
    induction m with
    | zero => rfl
    | succ m ih =>
      rw [stepsAnswers] at ih ⊢
      rw [List.range'_1_concat, List.flatMap_append, ih, Nat.mul_succ, List.range_add, List.map_append]
      simp [List.range_succ]
  rw [hanswers, Presents, List.length_map, List.length_range]

/-- Any directions are the bits of a ROM. -/
theorem exists_follows {c : Cursor} {vs : Nat → Bool × Bool}
    (h : ∀ n, 1 ≤ n → n ≤ 64 → vs n ≠ (true, true)) : ∃ r, Follows c vs r := by
  refine ⟨BitVec.ofFnLE fun j : Fin 64 => chosen c (j + 1) (vs (j + 1)), fun n h1 h64 => ⟨h n h1 h64, ?_⟩⟩
  rw [romBit_eq_getLsbD, BitVec.getLsbD_ofFnLE, dif_pos (by omega)]
  simp only [Nat.sub_add_cancel h1]

/-! ## A pass (rules R213, R214) -/

/-- The presence polls fit the time a reset waits after its pulse (rule R3). -/
def PollsFit (q : Params) : Prop := q.owPresPolls * q.owPresInterval ≤ q.owRstHigh

/-- What a pass that found `r` did: no more events than its bound, and the waits of R280's row. -/
def PassDid (q : Params) (cmd : Byte) (r : Rom) (es : List Event) : Prop :=
  es.length ≤ searchPassBound q ∧ (PollsFit q → waitTotal es = searchPassTotal q cmd r)

theorem passDid_steps {c : Cursor} {vs : Nat → Bool × Bool} (hk : k < q.owPresPolls) (hpath : Follows c vs r) :
    PassDid q cmd r (owResetEvents q p (some k) ++ owWriteByteEvents q p cmd ++ stepsEvents q p c vs 64) := by
  have ho : ∀ k', some k = some k' → k' < q.owPresPolls := fun k' h => Option.some_inj.mp h ▸ hk
  refine ⟨?_, fun hfit => ?_⟩
  · have := length_owResetEvents_le (p := p) ho
    rw [List.length_append, List.length_append, length_owWriteByteEvents, length_stepsEvents, searchPassBound]
    omega
  · rw [waitTotal_append, waitTotal_append, waitTotal_owResetEvents ho hfit, waitTotal_owWriteByteEvents,
      waitTotal_stepsEvents hpath, searchPassTotal]

theorem length_silentEvents_le {c : Cursor} {vs : Nat → Bool × Bool} {m : Nat} (hk : k < q.owPresPolls)
    (hm : m < 64) : (silentEvents q p cmd c k vs m).length ≤ searchPassBound q := by
  have := length_owResetEvents_le (q := q) (p := p) (o := some k) fun k' h => Option.some_inj.mp h ▸ hk
  simp only [silentEvents, List.length_append, length_owWriteByteEvents, length_stepsEvents, length_readSlot,
    searchPassBound]
  omega

/-- Whatever the bus answers, a pass fails with nothing but its events done, or finds a ROM: there is no presence pulse,
or a step at which both slots read 1, or the steps make a ROM that is judged. -/
theorem searchPass_cases (p : PinId) (cmd : Byte) (s : State) :
    (∃ e es, searchPass p cmd s = .error (.err e) (s.play es) ∧ es.length ≤ searchPassBound s.params) ∨
      ∃ r z es, searchPass p cmd s = .ok r ((s.play es).setCursor (Cursor.after r z)) ∧
        PassDid s.params cmd r es := by
  obtain ⟨o, ho, hreset⟩ := exists_presents_reset s s.params
  cases o with
  | none =>
    have hlen := length_owResetEvents_le (p := p) ho
    exact .inl ⟨_, _, (PassRaises.noPresence s.params p cmd s.cursor).searchPass hreset,
      hlen.trans (by unfold searchPassBound; omega)⟩
  | some k =>
    have hk := ho k rfl
    obtain ⟨vs, hvs⟩ := exists_presents_steps (s.play (owResetEvents s.params p (some k)))
    have hcount := (Plays.owResetSeen (w := s.tw) (q := s.params) p hk).count
    have hb : ∀ m, Presents s (owResetAnswers s.params (some k) ++ stepsAnswers vs m) :=
      fun m => hreset.concat hcount (hvs m)
    by_cases hsilent : ∃ m, m < 64 ∧ vs (m + 1) = (true, true)
    · obtain ⟨m, ⟨hm, hboth⟩, hfirst⟩ := Nat.findX hsilent
      have hanswered : ∀ n, 1 ≤ n → n ≤ m → vs n ≠ (true, true) := fun n h1 hn hv =>
        hfirst (n - 1) (by omega) ⟨by omega, by rwa [Nat.sub_add_cancel h1]⟩
      have hlast : owResetAnswers s.params (some k) ++ stepsAnswers vs (m + 1) =
          silentAnswers s.params k vs m := by
        simp [silentAnswers, stepsAnswers, List.range'_1_concat, Nat.add_comm 1 m, hboth]
      exact .inl ⟨_, _, (PassRaises.silent hk hm hanswered).searchPass (hlast ▸ hb (m + 1)),
        length_silentEvents_le hk hm⟩
    · have hanswered : ∀ n, 1 ≤ n → n ≤ 64 → vs n ≠ (true, true) := fun n h1 h64 hv =>
        hsilent ⟨n - 1, by omega, by rwa [Nat.sub_add_cancel h1]⟩
      obtain ⟨r, hpath⟩ := exists_follows (c := s.cursor) hanswered
      have hdid := passDid_steps (p := p) (cmd := cmd) hk hpath
      by_cases hvalid : r ≠ 0 ∧ crcValid r = true
      · obtain ⟨h0, hv⟩ := hvalid
        exact .inr ⟨r, _, _, searchPass_run (Plays.passSteps hk hpath) (hb 64) h0 hv, hdid⟩
      · obtain ⟨hlen, -⟩ := hdid
        exact .inl ⟨_, _, (PassRaises.invalid hk hpath hvalid).searchPass (hb 64), hlen⟩

/-! ## The passes of a search (rules R216, R219) -/

/-- A search whose trace is that of at most `n` passes and waits what the passes of the ROMs listed do. -/
def Searching (q : Params) (cmd : Byte) (n : Nat) (s : State) : Prop :=
  s.params = q ∧ s.trace.length ≤ n * searchPassBound q ∧
    (PollsFit q → waitTotal s.trace = (s.owDevList.map fun r => searchPassTotal q cmd r.rom).sum)

/-- The same after one pass more, its ROM `rom` not yet listed. -/
def Found (q : Params) (cmd : Byte) (n : Nat) (rom : Rom) (s : State) : Prop :=
  s.params = q ∧ s.trace.length ≤ (n + 1) * searchPassBound q ∧
    (PollsFit q → waitTotal s.trace =
      (s.owDevList.map fun r => searchPassTotal q cmd r.rom).sum + searchPassTotal q cmd rom)

/-- A search whose trace is that of at most `n` passes, however it ends. -/
def Ended (q : Params) (n : Nat) (s : State) : Prop := s.trace.length ≤ n * searchPassBound q

theorem Ended.mono (h : Ended q n s) (hle : n ≤ k) : Ended q k s := Nat.le_trans h (Nat.mul_le_mul_right _ hle)

theorem Searching.mono (h : Searching q cmd n s) (hle : n ≤ k) : Searching q cmd k s := by
  obtain ⟨hq, hlen, hwait⟩ := h
  exact ⟨hq, Ended.mono hlen hle, hwait⟩

theorem Found.ended {rom : Rom} (h : Found q cmd n rom s) : Ended q (n + 1) s := by
  obtain ⟨-, hlen, -⟩ := h
  exact hlen

/-- The ROM found is listed (rule R216). -/
theorem Found.listed {rom : Rom} (h : Found q cmd n rom s) :
    Searching q cmd (n + 1) (s.setOwDevList (s.owDevList ++ [⟨rom, p⟩])) := by
  obtain ⟨hq, hlen, hwait⟩ := h
  refine ⟨hq, hlen, fun hfit => (hwait hfit).trans ?_⟩
  rw [State.setOwDevList_owDevList, List.map_append, List.sum_append, List.map_singleton, List.sum_singleton]

theorem triple_searchPass_measured :
    Triple (Searching q cmd n) (searchPass p cmd) (Found q cmd n) (fun _ => Ended q (n + 1)) := ⟨fun v hv => by
  obtain ⟨rfl, hlen, htotal⟩ := hv
  obtain ⟨e, es, hx, hes⟩ | ⟨rom, z, es, hx, hes, hwait⟩ := searchPass_cases p cmd v
  · rw [hx]
    show (v.play es).trace.length ≤ _
    rw [State.trace_play, List.length_append, Nat.succ_mul]
    omega
  · have htrace : ((v.play es).setCursor (Cursor.after rom z)).trace = v.trace ++ es := State.trace_play v es
    rw [hx]
    refine ⟨rfl, ?_, fun hfit => ?_⟩
    · rw [htrace, List.length_append, Nat.succ_mul]
      exact Nat.add_le_add hlen hes
    · rw [htrace, waitTotal_append, htotal hfit, hwait hfit]
      rfl⟩

theorem triple_freeOwAndRaise_ended (e : Raise) {Q : Unit → State → Prop} :
    Triple (Ended q n) (freeOwAndRaise e) Q (fun _ => Ended q n) :=
  Triple.bind (Q := fun _ => Ended q n) (Triple.update fun _ h => h) fun _ => Triple.reraise fun _ h => h

/-- What an attempted pass leaves. -/
def Attempted (q : Params) (cmd : Byte) (n : Nat) : Except Raise Rom → State → Prop
  | .ok rom => Found q cmd n rom
  | .error _ => Ended q (n + 1)

theorem triple_searchLoop_measured (k : Nat) :
    Triple (Searching q cmd n) (searchLoop p cmd k) (fun _ => Searching q cmd (n + (k + 1)))
      (fun _ => Ended q (n + (k + 1))) := by
  induction k generalizing n with
  | zero =>
    refine Triple.bind (Q := fun _ => Ended q (n + 1))
      (triple_searchPass_measured.attempt (fun _ _ h => h.ended) fun _ _ h => h) fun x => ?_
    split
    · exact triple_freeOwAndRaise_ended _
    · exact triple_freeOwAndRaise_ended _
  | succ k ih =>
    refine Triple.bind (Q := Attempted q cmd n)
      (triple_searchPass_measured.attempt (fun _ _ h => h) fun _ _ h => h) fun x => ?_
    cases x with
    | error e =>
      exact (triple_freeOwAndRaise_ended e).imp (fun _ h => h) (fun _ _ h => h) fun _ _ h => h.mono (by omega)
    | ok rom =>
      refine Triple.bind (Q := fun _ => Searching q cmd (n + 1)) (Triple.update fun _ h => h.listed) fun _ => ?_
      refine Triple.bind (Q := fun _ => Searching q cmd (n + 1)) (Triple.look fun _ h => h) fun last => ?_
      refine Triple.ite (fun _ => Triple.pure fun _ h => h.mono (by omega)) fun _ => ?_
      rw [Nat.add_comm (k + 1) 1, ← Nat.add_assoc]
      exact ih

/-- A search: at most one pass more than fit the list, and the waits of the passes of the ROMs listed. -/
theorem searchBody_measured (s : State) (p : PinId) (cmd : Byte) :
    FromStart s (searchBody p cmd) (fun _ => Searching s.params cmd (s.params.maxOwDevices + 1))
      (fun _ => Ended s.params (s.params.maxOwDevices + 1)) := by
  refine Triple.bind (Q := fun _ => (· = s.begin)) (Triple.errIf (fun _ hs _ => hs) fun _ hs _ => hs ▸ Nat.zero_le _)
    fun _ => ?_
  refine Triple.bind (Q := fun used v => used = s.owDevCount ∧ v = s.begin)
    (Triple.look fun _ hs => ⟨by rw [hs]; rfl, hs⟩) fun used => Triple.assume fun hused => ?_
  refine Triple.bind (Q := fun _ => Searching s.params cmd 0)
    (Triple.errIf (fun v hs hc => ?_) fun _ hs _ => hs ▸ Nat.zero_le _) fun _ => ?_
  · have hnil : s.owDevList = [] := List.length_eq_zero_iff.mp (by simpa [hused, State.owDevCount] using hc)
    subst hs
    exact ⟨rfl, Nat.zero_le _, fun _ => by rw [State.begin_owDevList, hnil]; rfl⟩
  refine Triple.bind (Q := fun _ => Searching s.params cmd 0) (Triple.update fun _ h => h) fun _ => ?_
  refine Triple.bind (Q := fun room v => room = s.params.maxOwDevices ∧ Searching s.params cmd 0 v)
    (Triple.look fun v ⟨hq, h⟩ => ⟨congrArg Params.maxOwDevices hq, hq, h⟩) fun room =>
    Triple.assume fun hroom => ?_
  rw [hroom]
  simpa only [Nat.zero_add] using triple_searchLoop_measured (n := 0) s.params.maxOwDevices

/-! ## The traces of the commands -/

/-- What every end of a body says of its trace holds of the command's trace. -/
theorem trace_of_ends {P : List Event → Prop} (hr : Ready i s) (h : exec i s = .next t)
    (hx : FromStart s (bodyOf i) (fun _ u => P u.trace) (fun _ u => P u.trace)) : P t.trace := by
  rw [exec_ready hr] at h
  obtain ⟨-, ⟨u, hu, rfl⟩ | ⟨e, u, hu, rfl⟩ | ⟨v, u, hu, rfl⟩⟩ := runCommand_next h
  · have hend : P u.trace := hx.ok rfl hu
    exact hend
  · have hend : P u.trace := hx.error rfl hu
    exact hend
  · have hend : P u.trace := hx.error rfl hu
    exact hend

/-- The trace of a command whose body is known to succeed. -/
theorem trace_of_body (hr : Ready i s) (h : exec i s = .next t) (hx : bodyOf i s.begin = .ok () u) :
    t.trace = u.trace := by
  obtain rfl := Host.Outcome.next.inj (h.symm.trans (exec_ok hr hx))
  rfl

/-- The trace of a command that writes `RESULT` from what its operation came back with. -/
theorem trace_of_result {op : Op β} {v : β} {f : β → Byte} (hr : Ready i s) (h : exec i s = .next t)
    (hbody : bodyOf i = do setResult (f (← op))) (hx : op s.begin = .ok v (s.begin.play es)) : t.trace = es := by
  have hrun : bodyOf i s.begin = .ok () ((s.begin.play es).setResult (f v)) := by rw [hbody, bind_ok hx]; rfl
  exact (trace_of_body hr h hrun).trans (trace_begin_play s es)

theorem owReset_trace (hr : Ready (.owReset p) s) (h : exec (.owReset p) s = .next t) :
    ∃ o, (∀ k, o = some k → k < s.params.owPresPolls) ∧ t.trace = owResetEvents s.params p o := by
  obtain ⟨o, ho, hb⟩ := exists_presents_reset s s.params
  exact ⟨o, ho, trace_of_result hr h rfl ((Plays.owReset p ho).run (s := s.begin) hb)⟩

theorem owReadBit_trace (hr : Ready (.owReadBit p) s) (h : exec (.owReadBit p) s = .next t) :
    ∃ v, t.trace = readSlot s.params p v := by
  have hb : Presents s [s.answer 0] := rfl
  exact ⟨_, trace_of_result hr h rfl ((Plays.owReadBit p _).run (s := s.begin) hb)⟩

theorem owWriteBit_trace {b : Bool} (hr : Ready (.owWriteBit p b) s) (h : exec (.owWriteBit p b) s = .next t) :
    t.trace = writeSlot s.params p b :=
  (trace_of_body hr h ((Plays.owWriteBit p b).run (Presents.nil s.begin))).trans (trace_begin_play s _)

theorem owRead_trace (hr : Ready (.owRead p) s) (h : exec (.owRead p) s = .next t) :
    ∃ x, t.trace = owReadByteEvents s.params p x := by
  obtain ⟨x, hb⟩ := exists_presents_byte s
  exact ⟨x, trace_of_result (f := id) hr h rfl ((Plays.owReadByte p x).run (s := s.begin) hb)⟩

theorem owWrite_trace {x : Byte} (hr : Ready (.owWrite p x) s) (h : exec (.owWrite p x) s = .next t) :
    t.trace = owWriteByteEvents s.params p x :=
  (trace_of_body hr h ((Plays.owWriteByte p x).run (Presents.nil s.begin))).trans (trace_begin_play s _)

theorem owReadBytes_trace {len : Byte} (hr : Ready (.owReadBytes p len) s)
    (h : exec (.owReadBytes p len) s = .next t) :
    ∃ xs : List Byte, xs.length = len.toNat ∧ t.trace = xs.flatMap (owReadByteEvents s.params p) := by
  obtain ⟨xs, hlen, hb⟩ := exists_presents_bytes s len.toNat
  have hrun := owReadRx_run (s := s.begin) (p := p) (i := 0) hb
  rw [hlen] at hrun
  exact ⟨xs, hlen, (trace_of_body hr h (bind_ok hrun)).trans (trace_begin_play s _)⟩

/-- The first `n` bytes of `TXBUF`. -/
def State.txBytes (s : State) (n : Nat) : List Byte := (List.range n).map fun j => (Memory.read s.txbuf j).getD 0

theorem State.length_txBytes (s : State) (n : Nat) : (s.txBytes n).length = n := by simp [State.txBytes]

theorem txHolds_txBytes (h : absentBelow s n = false) : TxHolds s 0 (s.txBytes n) := fun j hj => by
  rw [s.length_txBytes] at hj
  obtain ⟨x, hx⟩ := Option.isSome_iff_exists.mp (txWritten_of_check h j hj)
  simp [State.txBytes, hj, hx]

/-- The checks of a one-wire command that sends bytes of `TXBUF` end with that of the bytes. -/
theorem txWritten_of_checks {checks : List (Bool × Usage)}
    (h : firstOf (checks ++ [(absentBelow s n, .txUnwritten)]) = none) : absentBelow s n = false := by
  obtain ⟨-, hrest⟩ := firstOf_append_none.mp h
  exact (firstOf_cons_none.mp hrest).1

theorem owWriteBytes_trace {len : Byte} (hr : Ready (.owWriteBytes p len) s)
    (h : exec (.owWriteBytes p len) s = .next t) :
    t.trace = (s.txBytes len.toNat).flatMap (owWriteByteEvents s.params p) := by
  have hwritten : absentBelow s len.toNat = false :=
    txWritten_of_checks (checks := pinChecks s p ++ [(decide (s.params.txbufSize < len.toNat), .lenTooBig)])
      (by rw [List.append_assoc]; exact hr.2)
  have hrun := owWriteTx_run (s := s.begin) (p := p) (txHolds_txBytes hwritten)
  rw [State.length_txBytes] at hrun
  exact (trace_of_body hr h hrun).trans (trace_begin_play s _)

theorem owMatchRom_trace (hr : Ready (.owMatchRom p) s) (h : exec (.owMatchRom p) s = .next t) :
    t.trace = owWriteByteEvents s.params p matchRomCode ++
      (s.txBytes 8).flatMap (owWriteByteEvents s.params p) := by
  have hwritten : absentBelow s 8 = false := txWritten_of_checks (checks := pinChecks s p) hr.2
  have hrun := owMatchRom_run (s := s.begin) (p := p) (State.length_txBytes _ 8) (txHolds_txBytes hwritten)
  exact (trace_of_body hr h hrun).trans (trace_begin_play s _)

theorem owMatchDevice_trace {idx : Byte} (hr : Ready (.owMatchDevice idx) s)
    (h : exec (.owMatchDevice idx) s = .next t) :
    ∃ r, s.owDevList[idx.toNat]? = some r ∧
      t.trace = owWriteByteEvents s.params r.pin matchRomCode ++
        (romBytes r.rom).flatMap (owWriteByteEvents s.params r.pin) := by
  have ⟨_, hu⟩ := hr
  cases hfound : s.owDevList[idx.toNat]? with
  | none => simp [usageOf, hfound] at hu
  | some r =>
    have hplay := (Plays.matchRom r.pin (romBytes r.rom)).run (Presents.nil s.begin)
    exact ⟨r, rfl, (trace_of_body hr h ((matchDeviceBody_run (s := s.begin) hfound).trans hplay)).trans
      (trace_begin_play s _)⟩

theorem owReadRom_trace (hr : Ready (.owReadRom p) s) (h : exec (.owReadRom p) s = .next t) :
    ∃ xs : List Byte, xs.length = 8 ∧ t.trace = owWriteByteEvents s.params p readRomCode ++
      xs.flatMap (owReadByteEvents s.params p) := by
  obtain ⟨xs, hlen, hb⟩ := exists_presents_bytes s 8
  obtain ⟨u, hu, ⟨-, -, htrace, -⟩, -⟩ := owReadRomChecksTheCrc p xs s hr hlen hb
  obtain rfl := Host.Outcome.next.inj (h.symm.trans hu)
  exact ⟨xs, hlen, htrace⟩

/-- A pass command: no more events than a pass, and where it succeeds the waits of the pass that found the ROM now in
the cursor (rules R214, R215). -/
theorem owSearchPass_ends (s : State) (p : PinId) (cmd : Byte) (sd : Bool) :
    FromStart s (bodyOf (.owSearchPass p cmd sd)) (fun _ u => PassDid s.params cmd u.cursor.prevRom u.trace)
      (fun _ u => u.trace.length ≤ searchPassBound s.params) := ⟨fun v hv => by
  subst hv
  cases hcmd : isSearchCommand cmd with
  | false =>
    rw [bodyOf_badCommand (f := 0) hcmd s.begin _ List.mem_cons_self]
    exact Nat.zero_le _
  | true =>
    rw [bodyOf, searchPassBody_run hcmd, bind_run]
    obtain ⟨e, es, hx, hes⟩ | ⟨rom, z, es, hx, hes⟩ :=
      searchPass_cases p cmd (s.begin.setCursor (cursorFrom sd s.begin.cursor))
    · rw [hx]
      exact (congrArg List.length (trace_begin_play s es)).trans_le hes
    · rw [hx]
      show PassDid s.params cmd rom (s.begin.play es).trace
      rw [trace_begin_play]
      exact hes⟩

end Sys2Proof.Machine
end

section
/-! No command hangs (O19): the laws of the two-wire operations count their events, and the one-wire traces are known
whatever the bus answers. -/

namespace Sys2Proof.Machine

variable {α : Type} {s s₀ t u : State} {x : Op α} {c d : Drive} {b : Bool} {n m : Nat} {i : Instr} {p : PinId}

/-- At most `n` events have been issued. -/
def IssuedAtMost (n : Nat) (u : State) : Prop := u.trace.length ≤ n

/-- `x`, begun on `s`, issues at most `n` events, however it ends. -/
def Bounded (s : State) (x : Op α) (n : Nat) : Prop :=
  FromStart s x (fun _ => IssuedAtMost n) (fun _ => IssuedAtMost n)

theorem Bounded.mono (h : Bounded s x n) (hm : n ≤ m) : Bounded s x m :=
  h.imp (fun _ hs => hs) (fun _ _ hn => Nat.le_trans hn hm) fun _ _ hn => Nat.le_trans hn hm

/-- A register read into `RESULT` is no event. -/
theorem triple_setResult_look (f : State → Byte) :
    Triple (IssuedAtMost n) (do setResult (← look f)) (fun _ => IssuedAtMost n) (fun _ => IssuedAtMost n) :=
  Triple.bind (Q := fun _ => IssuedAtMost n) (Triple.look fun _ h => h) fun _ => Triple.update fun _ h => h

theorem Bounded.thenResult {f : α → Byte} (h : Bounded s x n) : Bounded s (do setResult (f (← x))) n :=
  Triple.bind h fun _ => Triple.update fun _ hn => hn

theorem Bounded.trace_le (h : Bounded s (bodyOf i) n) (hr : Ready i s) (hx : exec i s = .next t) :
    t.trace.length ≤ n :=
  trace_of_ends (P := fun es => es.length ≤ n) hr hx h

/-! ## Two-wire commands -/

/-- What the laws of the two-wire operations count is the trace's length. -/
theorem At.trace_le (h : At s₀ n b c d u) (hs : s₀.trace = []) : u.trace.length ≤ n := by
  obtain ⟨⟨es, b', rfl, -, hlen⟩, -⟩ := h
  have htrace : ((s₀.play es).setInTx b').trace = s₀.trace ++ es := State.trace_play s₀ es
  rwa [htrace, hs, List.nil_append]

theorem AddressFails.trace_le {son : Bool} {r : Raise} (h : AddressFails s₀ n son r u) (hs : s₀.trace = []) :
    u.trace.length ≤ n := by
  obtain ⟨-, hidle⟩ | ⟨-, hend⟩ := h
  · exact At.trace_le hidle hs
  · cases son with
    | true => exact At.trace_le hend hs
    | false => exact At.trace_le hend hs

theorem startWriteBound_begin_le (s : State) :
    startWriteBound s.begin ≤ addressBound s.tw.maxStretch.toNat + byteBound s.tw.maxStretch.toNat := by
  simp [startWriteBound, addressEventBound, bitEvents, addressBound, byteBound]
  omega

section
variable (hw : s.TwInv)
include hw

theorem bounded_start (hi : s.tw.initialized = true) : Bounded s start (s.tw.maxStretch.toNat + 10) :=
  Bounded.mono ((triple_start (s₀ := s.begin) (hw.twoLines hi)).fromStart (at_start s)
    (fun _ _ h => At.trace_le h rfl) fun _ _ ⟨_, h⟩ => At.trace_le h rfl) (Nat.le_of_eq (by simp))

/-- A STOP outside a transaction issues nothing (rule R135). -/
theorem bounded_stop : Bounded s stop (s.tw.maxStretch.toNat + 6) := by
  cases hx : s.tw.inTx with
  | true =>
    exact Bounded.mono ((triple_stop (s₀ := s.begin) (hw.twoLines (hw.initialized hx))).fromStart (hw.openStart hx)
      (fun _ _ h => At.trace_le h rfl) fun _ _ ⟨_, h⟩ => At.trace_le h rfl) (Nat.le_of_eq (by simp))
  | false =>
    refine ⟨fun v hv => ?_⟩
    subst hv
    rw [show stop s.begin = _ from stop_idle (s := s.begin) hx]
    exact Nat.zero_le _

theorem bounded_writeByte (hx : s.tw.inTx = true) (y : Byte) :
    Bounded s (writeByte y) (byteBound s.tw.maxStretch.toNat) :=
  Bounded.mono ((triple_writeByte (s₀ := s.begin) (hw.twoLines (hw.initialized hx)) y).fromStart (hw.openStart hx)
    (fun _ _ h => At.trace_le h rfl) fun _ _ ⟨_, h⟩ => At.trace_le h rfl) (by simp [bitEvents, byteBound])

theorem bounded_readByte (hx : s.tw.inTx = true) (k : Bool) :
    Bounded s (readByte k) (byteBound s.tw.maxStretch.toNat) :=
  Bounded.mono ((triple_readByte (s₀ := s.begin) (hw.twoLines (hw.initialized hx)) k).fromStart (hw.openStart hx)
    (fun _ _ h => At.trace_le h rfl) fun _ _ ⟨_, h⟩ => At.trace_le h rfl) (by simp [bitEvents, byteBound])

theorem bounded_writeTxBytes (hx : s.tw.inTx = true) {k : Nat} (hk : absentBelow s k = false) :
    Bounded s (writeTxBytes k 0) (k * (byteBound s.tw.maxStretch.toNat + 2)) := by
  refine Bounded.mono ((triple_writeTxBytes (s₀ := s.begin) (hw.twoLines (hw.initialized hx)) k 0 fun y _ hlt =>
    txWritten_of_check hk y (by omega)).fromStart (hw.openStart hx) (fun _ _ h => At.trace_le h rfl)
    fun _ _ ⟨_, h⟩ => At.trace_le h rfl) ?_
  rw [Nat.zero_add]
  exact Nat.mul_le_mul_left k (by simp [bitEvents, byteBound])

theorem bounded_readRxBytes (hx : s.tw.inTx = true) (k : Nat) :
    Bounded s (readRxBytes k 0) (k * byteBound s.tw.maxStretch.toNat) := by
  refine Bounded.mono ((triple_readRxBytes (s₀ := s.begin) (hw.twoLines (hw.initialized hx)) k 0).fromStart
    (hw.openStart hx) (fun _ _ ⟨_, _, h⟩ => At.trace_le h rfl) fun _ _ ⟨_, _, _, h⟩ => At.trace_le h rfl) ?_
  rw [Nat.zero_add]
  exact Nat.mul_le_mul_left k (by simp [bitEvents, byteBound])

theorem bounded_startRw (hi : s.tw.initialized = true) (ab : Byte) (son : Bool) :
    Bounded s (startRw ab son) (addressBound s.tw.maxStretch.toNat) := by
  have hlen : addressEventBound s.begin + s.tw.maxStretch.toNat + 6 ≤ addressBound s.tw.maxStretch.toNat := by
    simp [addressEventBound, bitEvents, addressBound, byteBound]
    omega
  refine Bounded.mono (n := 0 + addressEventBound s.begin + s.tw.maxStretch.toNat + 6)
    ((triple_startRw (s₀ := s.begin) (hw.twoLines hi) ab son).fromStart (at_start s)
      (fun _ _ h => (At.trace_le h rfl).trans (by omega)) fun _ _ h => h.trace_le rfl) (by omega)

theorem bounded_startWrite (hi : s.tw.initialized = true) (a : BitVec 7) (r : Byte) :
    Bounded s (startWrite a r) (addressBound s.tw.maxStretch.toNat + byteBound s.tw.maxStretch.toNat) := by
  have hlen := startWriteBound_begin_le s
  exact Bounded.mono ((triple_startWrite (s₀ := s.begin) (hw.twoLines hi) a r).fromStart (at_start s)
    (fun _ _ h => At.trace_le h rfl) fun _ _ ⟨_, h⟩ => At.trace_le h rfl) (by omega)

theorem bounded_startRead (hi : s.tw.initialized = true) (a : BitVec 7) (r : Byte) :
    Bounded s (bodyOf (.twStartRead a r))
      (2 * (addressBound s.tw.maxStretch.toNat + byteBound s.tw.maxStretch.toNat)) := by
  have hlen := startWriteBound_begin_le s
  exact Bounded.mono ((triple_startRead (s₀ := s.begin) (hw.twoLines hi) a r).fromStart (at_start s)
    (fun _ _ h => At.trace_le h rfl) fun _ _ ⟨_, h⟩ => At.trace_le h rfl) (by omega)

theorem bounded_scan (hi : s.tw.initialized = true) :
    Bounded s (bodyOf .twScan) (127 * addressBound s.tw.maxStretch.toNat) := by
  have hnil : ScanList s.params [] := ⟨Nat.zero_le _, by simp⟩
  have hprobe : probeBound s.begin ≤ addressBound s.tw.maxStretch.toNat := by
    simp [probeBound, addressEventBound, bitEvents, addressBound, byteBound]
    omega
  have hlen : 0 + scanAddresses.length * probeBound s.begin ≤ 127 * addressBound s.tw.maxStretch.toNat := by
    rw [show scanAddresses.length = 127 by simp [scanAddresses]]
    omega
  have hprobes := triple_scanProbes (s₀ := s.begin) (n := 0) (i := s.tw.inTx) (c := (s.pin s.tw.sclPin).drive)
    (d := (s.pin s.tw.sdaPin).drive) (hw.twoLines hi) scanAddresses scanAddresses_ne_zero
  refine Triple.bind (Q := fun _ => (· = s.begin.setTwDevList []))
    (Triple.update fun _ hs => congrArg (·.setTwDevList []) hs) fun _ => ?_
  refine Triple.bind (hprobes.imp (fun u hu => ⟨[], hnil, .inl (hu ▸ (at_start s).setTwDevList [])⟩)
    (fun _ u hu => ?_) fun _ _ ⟨_, h⟩ => (At.trace_le h rfl).trans hlen)
    fun _ => triple_setResult_look _
  obtain ⟨l, -, ⟨-, h⟩ | h⟩ := hu
  · exact (At.trace_le h rfl).trans hlen
  · exact (At.trace_le h rfl).trans hlen

end

/-! ## Commands that only configure -/

theorem twInit_trace {c d : PinId} (hr : Ready (.twInit c d) s) (h : exec (.twInit c d) s = .next t) :
    t.trace = [] ∨ t.trace = [.cfg c .input, .cfg d .input] := by
  cases hi : s.tw.initialized with
  | true =>
    obtain ⟨u, hu, hquiet⟩ := exec_twInit_initialized hr hi
    obtain rfl := Host.Outcome.next.inj (h.symm.trans hu)
    split at hquiet
    · obtain ⟨⟨-, -, htrace, -⟩, -⟩ := hquiet
      exact .inl htrace
    · obtain ⟨⟨-, -, htrace, -⟩, -⟩ := hquiet
      exact .inl htrace
  | false =>
    obtain ⟨u, hu, ⟨-, -, htrace, -⟩, -⟩ := exec_twInit_configures hr hi
    obtain rfl := Host.Outcome.next.inj (h.symm.trans hu)
    exact .inr htrace

theorem owInit_trace (hr : Ready (.owInit p) s) (h : exec (.owInit p) s = .next t) :
    t.trace = [.cfg p .inputPullup] :=
  (trace_of_body hr h (cfg_run p .inputPullup s.begin)).trans (trace_begin_play s [.cfg p .inputPullup])

/-! ## Searches -/

theorem bounded_owSearchPass (s : State) (p : PinId) (cmd : Byte) (sd : Bool) :
    Bounded s (bodyOf (.owSearchPass p cmd sd)) (searchPassBound s.params) :=
  (owSearchPass_ends s p cmd sd).imp (fun _ hs => hs) (fun _ _ ⟨hlen, _⟩ => hlen) fun _ _ hlen => hlen

theorem bounded_searchBody (s : State) (p : PinId) (cmd : Byte) :
    Bounded s (searchBody p cmd) ((s.params.maxOwDevices + 1) * searchPassBound s.params) :=
  (searchBody_measured s p cmd).imp (fun _ hs => hs) (fun _ _ ⟨_, hlen, _⟩ => hlen) fun _ _ hlen => hlen

theorem bounded_owSearch (s : State) (p : PinId) (cmd : Byte) :
    Bounded s (bodyOf (.owSearch p cmd)) ((s.params.maxOwDevices + 1) * searchPassBound s.params) :=
  Triple.bind (bounded_searchBody s p cmd) fun _ => triple_setResult_look _

/-- The filter of the list is no event (rule R217). -/
theorem bounded_owSearchFamily (s : State) (p : PinId) (cmd f : Byte) :
    Bounded s (bodyOf (.owSearchFamily p cmd f)) ((s.params.maxOwDevices + 1) * searchPassBound s.params) :=
  Triple.bind (bounded_searchBody s p cmd) fun _ =>
    Triple.bind (Q := fun _ => IssuedAtMost _) (Triple.update fun _ h => h) fun _ =>
    Triple.bind (Q := fun _ => IssuedAtMost _) (Triple.look fun _ h => h) fun _ =>
    Triple.bind (Q := fun _ => IssuedAtMost _) (Triple.errIf (fun _ h _ => h) fun _ h _ => h) fun _ =>
    triple_setResult_look _

/-! ## Every command -/

/-- A command that passes its checks is bounded; one that does not issues nothing. -/
theorem trace_le_eventBound (hw : s.TwInv) (hr : Ready i s) (h : exec i s = .next t) :
    t.trace.length ≤ eventBound i s := by
  have ⟨_, hu⟩ := hr
  cases i with
  | twInit c d =>
    obtain htrace | htrace := twInit_trace hr h
    · exact htrace ▸ Nat.zero_le _
    · exact htrace ▸ Nat.le_refl _
  | twSetSpeed lvl => exact (trace_of_body hr h rfl) ▸ Nat.le_refl _
  | twStart => exact (bounded_start hw (initialized_of_check hu)).trace_le hr h
  | twStop => exact (bounded_stop hw).trace_le hr h
  | twWriteByte y => exact (bounded_writeByte hw (inTx_of_checks hu) y).thenResult.trace_le hr h
  | twReadByte k => exact ((bounded_readByte hw (inTx_of_checks hu) k).thenResult (f := id)).trace_le hr h
  | twWriteBytes len =>
    obtain ⟨hx, hk⟩ := writeBytes_checked hr
    exact (bounded_writeTxBytes hw hx hk).trace_le hr h
  | twReadBytes len =>
    have hx := inTx_of_checks (firstOf_append_none.mp hu).1
    exact (bounded_readRxBytes hw hx len.toNat).trace_le hr h
  | twStartRw ab son => exact (bounded_startRw hw (initialized_of_check hu) ab son).trace_le hr h
  | twStartWrite a r => exact (bounded_startWrite hw (initialized_of_check hu) a r).trace_le hr h
  | twStartRead a r => exact (bounded_startRead hw (initialized_of_check hu) a r).trace_le hr h
  | twScan => exact (bounded_scan hw (initialized_of_check hu)).trace_le hr h
  | twFree => exact (trace_of_body hr h rfl) ▸ Nat.le_refl _
  | owInit p => exact (owInit_trace hr h) ▸ Nat.le_refl _
  | owReset p =>
    obtain ⟨o, ho, htrace⟩ := owReset_trace hr h
    exact htrace ▸ length_owResetEvents_le ho
  | owReadBit p =>
    obtain ⟨v, htrace⟩ := owReadBit_trace hr h
    exact htrace ▸ (length_readSlot _ p v).le
  | owWriteBit p b => exact (owWriteBit_trace hr h) ▸ (length_writeSlot _ p b).le
  | owRead p =>
    obtain ⟨y, htrace⟩ := owRead_trace hr h
    exact htrace ▸ (length_owReadByteEvents _ p y).le
  | owWrite p y => exact (owWrite_trace hr h) ▸ (length_owWriteByteEvents _ p y).le
  | owReadBytes p len =>
    obtain ⟨xs, hlen, htrace⟩ := owReadBytes_trace hr h
    rw [htrace, length_flatMap_const (length_owReadByteEvents _ p), hlen]
    exact Nat.le_refl _
  | owWriteBytes p len =>
    rw [owWriteBytes_trace hr h, length_flatMap_const (length_owWriteByteEvents _ p), State.length_txBytes]
    exact Nat.le_refl _
  | owCrc8 c y => exact (trace_of_body hr h rfl) ▸ Nat.le_refl _
  | owMatchRom p =>
    rw [owMatchRom_trace hr h, List.length_append, length_owWriteByteEvents,
      length_flatMap_const (length_owWriteByteEvents _ p), State.length_txBytes]
    exact Nat.le_refl _
  | owMatchDevice idx =>
    obtain ⟨r, -, htrace⟩ := owMatchDevice_trace hr h
    rw [htrace, List.length_append, length_owWriteByteEvents,
      length_flatMap_const (length_owWriteByteEvents _ r.pin), romBytes, List.length_map, List.length_range]
    exact Nat.le_refl _
  | owReadRom p =>
    obtain ⟨xs, hlen, htrace⟩ := owReadRom_trace hr h
    rw [htrace, List.length_append, length_owWriteByteEvents, length_flatMap_const (length_owReadByteEvents _ p), hlen]
    exact Nat.le_refl _
  | owSearchPass p cmd sd => exact (bounded_owSearchPass s p cmd sd).trace_le hr h
  | owSearch p cmd => exact (bounded_owSearch s p cmd).trace_le hr h
  | owSearchFamily p cmd f => exact (bounded_owSearchFamily s p cmd f).trace_le hr h
  | owFree => exact (trace_of_body hr h rfl) ▸ Nat.le_refl _

/-- Settles O19: a command that fails a check issues nothing. -/
theorem everyCommandIsBounded : Obligations.EveryCommandIsBounded := by
  unfold Obligations.EveryCommandIsBounded
  intro i s t hw h
  obtain ⟨_, -, rfl⟩ | ⟨hr, -⟩ := exec_next h
  · exact Nat.zero_le _
  · exact trace_le_eventBound hw hr h

end Sys2Proof.Machine
end

section
/-! The waits of the commands that complete with `OK` (O59): a two-wire command by what its ticks wait, a one-wire
command by its trace, which is known whatever the bus answers. -/

namespace Sys2Proof.Machine

variable {s t : State} {i : Instr} {p : PinId} {q : Params} {n : Nat}

theorem pollsFit_of_valid (h : q.Valid) : PollsFit q := by
  obtain ⟨-, -, -, -, -, -, -, -, hfit, -⟩ := h
  exact hfit

theorem waitTotal_writeTxBytes (s : State) (q : Params) (p : PinId) (n : Nat) :
    waitTotal ((s.txBytes n).flatMap (owWriteByteEvents q p)) =
      ((List.range n).map fun j => owByteTotal q ((Memory.read s.txbuf j).getD 0)).sum := by
  rw [waitTotal_writeBytes, State.txBytes, List.map_map]
  rfl

theorem waitTotal_romBytes (q : Params) (p : PinId) (r : Rom) :
    waitTotal ((romBytes r).flatMap (owWriteByteEvents q p)) =
      ((List.range 8).map fun j => owByteTotal q (romByte r j)).sum := by
  rw [waitTotal_writeBytes, romBytes, List.map_map]
  rfl

/-- The probes of the default set where none answers. -/
theorem waitTotal_defaultProbes {pr : BitVec 7 → Probe} {S : Nat} (hq : q.reservedAddrs = defaultReservedAddrs)
    (hnone : ∀ a, pr a = .nacked) :
    ((probed q).map fun a => if pr a = .nackedHeld then 41 * S else 43 * S).sum = 4816 * S := by
  obtain ⟨hprobed, -, -⟩ := defaultProbesAreTheMiddleAddresses q hq
  have hlen : (probed q).length = 112 := by rw [hprobed, List.length_map, List.length_range']
  have heach : ∀ a ∈ probed q, (if pr a = .nackedHeld then 41 * S else 43 * S) = 43 * S := fun a _ => by
    simp [hnone a]
  rw [List.map_congr_left heach, List.map_const', List.sum_replicate_nat, hlen]
  omega

theorem waits_startRead (S : Nat) (a : BitVec 7) (r : Byte) : Waits S (bodyOf (.twStartRead a r)) (116 * S) :=
  ((waits_startWrite a r).bind fun _ => waits_startRw (addressByte a true) true).cast (by omega)

/-- A scan that completes with `OK` (rules R140, R143). -/
theorem twScan_waitTotal {st : BitVec 7 → Nat → Nat} {pr : BitVec 7 → Probe} (hw : s.TwInv)
    (hi : s.tw.initialized = true) (h : exec .twScan s = .next t) (hf : t.faulted = false) (hok : t.status = 0x00)
    (hst : ∀ a j, st a j < s.tw.maxStretch.toNat)
    (hb : Presents s (scanAnswers s.tw.maxStretch.toNat st pr s.tw.inTx (probed s.params))) :
    waitTotal t.trace = ((probed s.params).map fun a =>
      if pr a = .nackedHeld then 41 * s.tw.short.toNat else 43 * s.tw.short.toNat).sum := by
  rw [twScan_trace hw h hf hok hst hb, waitTotal_scanEvents (hw.long_eq hi)]
  rfl

theorem owMatchRom_waitTotal (hr : Ready (.owMatchRom p) s) (h : exec (.owMatchRom p) s = .next t) :
    waitTotal t.trace = owByteTotal s.params matchRomCode +
      ((List.range 8).map fun j => owByteTotal s.params ((Memory.read s.txbuf j).getD 0)).sum := by
  rw [owMatchRom_trace hr h, waitTotal_append, waitTotal_owWriteByteEvents, waitTotal_writeTxBytes]

theorem owMatchDevice_waitTotal {idx : Byte} {r : OwRecord} (hr : Ready (.owMatchDevice idx) s)
    (h : exec (.owMatchDevice idx) s = .next t) (hfound : s.owDevList[idx.toNat]? = some r) :
    waitTotal t.trace = owByteTotal s.params matchRomCode +
      ((List.range 8).map fun j => owByteTotal s.params (romByte r.rom j)).sum := by
  obtain ⟨r', hfound', htrace⟩ := owMatchDevice_trace hr h
  obtain rfl : r = r' := Option.some_inj.mp (hfound.symm.trans hfound')
  rw [htrace, waitTotal_append, waitTotal_owWriteByteEvents, waitTotal_romBytes]

theorem owReadRom_waitTotal (hr : Ready (.owReadRom p) s) (h : exec (.owReadRom p) s = .next t) :
    waitTotal t.trace = owByteTotal s.params readRomCode + 8 * (8 * readSlotTotal s.params) := by
  obtain ⟨xs, hlen, htrace⟩ := owReadRom_trace hr h
  rw [htrace, waitTotal_append, waitTotal_owWriteByteEvents, waitTotal_readBytes, hlen]

/-- A pass that succeeded left the ROM it found in the cursor (rule R214). -/
theorem owSearchPass_waitTotal {cmd : Byte} {sd : Bool} (hfit : PollsFit s.params)
    (h : exec (.owSearchPass p cmd sd) s = .next t) (hf : t.faulted = false) (hok : t.status = 0x00) :
    waitTotal t.trace = searchPassTotal s.params cmd t.cursor.prevRom := by
  obtain ⟨u, hu, rfl⟩ := exec_succeeded h hf hok
  obtain ⟨-, hwait⟩ := (owSearchPass_ends s p cmd sd).ok rfl hu
  exact hwait hfit

/-- A search that succeeded listed the ROM of each of its passes (rule R216). -/
theorem owSearch_waitTotal {cmd : Byte} (hfit : PollsFit s.params) (h : exec (.owSearch p cmd) s = .next t)
    (hf : t.faulted = false) (hok : t.status = 0x00) :
    waitTotal t.trace = (t.owDevList.map fun r => searchPassTotal s.params cmd r.rom).sum := by
  have hbody : FromStart s (bodyOf (.owSearch p cmd))
      (fun _ => Searching s.params cmd (s.params.maxOwDevices + 1)) (fun _ _ => True) :=
    Triple.bind ((searchBody_measured s p cmd).imp (fun _ hs => hs) (fun _ _ hu => hu) fun _ _ _ => trivial) fun _ =>
      Triple.bind (Q := fun _ => Searching s.params cmd _) (Triple.look fun _ hu => hu) fun _ =>
      Triple.update fun _ hu => hu
  obtain ⟨u, hu, rfl⟩ := exec_succeeded h hf hok
  obtain ⟨-, -, hwait⟩ := hbody.ok rfl hu
  exact hwait hfit

/-- Settles O59: the table's rows, command by command. -/
theorem waitTotalsAreTheTables : Obligations.WaitTotalsAreTheTables := by
  unfold Obligations.WaitTotalsAreTheTables
  intro i s t hs h hf hok
  have hr := ready_of_completed h hf
  have ⟨_, hu⟩ := hr
  have hw := hs.sound.tw
  have hfit := pollsFit_of_valid hs.sound.valid
  have hopen (hx : s.tw.inTx = true) := hw.long_eq (hw.initialized hx)
  have hinit (hc) := hw.long_eq (initialized_of_check hc)
  cases i with
  | twInit c d =>
    obtain htrace | htrace := twInit_trace hr h
    · exact congrArg waitTotal htrace
    · exact congrArg waitTotal htrace
  | twSetSpeed lvl => exact congrArg waitTotal (trace_of_body hr h rfl)
  | twStart => exact waits_start.total (hinit hu) h hf hok
  | twStop => exact waits_stop.total (hopen (inTx_of_stop_ok h hf hok)) h hf hok
  | twWriteByte x =>
    exact ((waits_writeByte x).before fun _ => waits_setResult _).total (hopen (inTx_of_checks hu)) h hf hok
  | twReadByte k =>
    exact ((waits_readByte k).before fun _ => waits_setResult _).total (hopen (inTx_of_checks hu)) h hf hok
  | twWriteBytes len =>
    obtain ⟨hx, -⟩ := writeBytes_checked hr
    exact (waits_writeTxBytes len.toNat 0).total (hopen hx) h hf hok
  | twReadBytes len =>
    have hx := inTx_of_checks (firstOf_append_none.mp hu).1
    exact (waits_readRxBytes len.toNat 0).total (hopen hx) h hf hok
  | twStartRw ab son => exact (waits_startRw ab son).total (hinit hu) h hf hok
  | twStartWrite a r => exact (waits_startWrite a r).total (hinit hu) h hf hok
  | twStartRead a r => exact (waits_startRead _ a r).total (hinit hu) h hf hok
  | twScan =>
    intro S q total txTotal st pr hst hb
    have htotal := twScan_waitTotal hw (initialized_of_check hu) h hf hok hst hb
    exact ⟨htotal, fun hq hnone => htotal.trans (waitTotal_defaultProbes hq hnone)⟩
  | twFree => exact congrArg waitTotal (trace_of_body hr h rfl)
  | owInit p => exact congrArg waitTotal (owInit_trace hr h)
  | owReset p =>
    obtain ⟨o, ho, htrace⟩ := owReset_trace hr h
    exact (congrArg waitTotal htrace).trans (waitTotal_owResetEvents ho hfit)
  | owReadBit p =>
    obtain ⟨v, htrace⟩ := owReadBit_trace hr h
    exact (congrArg waitTotal htrace).trans (waitTotal_readSlot s.params p v)
  | owWriteBit p b => exact (congrArg waitTotal (owWriteBit_trace hr h)).trans (waitTotal_writeSlot s.params p b)
  | owRead p =>
    obtain ⟨x, htrace⟩ := owRead_trace hr h
    exact (congrArg waitTotal htrace).trans (waitTotal_owReadByteEvents s.params p x)
  | owWrite p x => exact (congrArg waitTotal (owWrite_trace hr h)).trans (waitTotal_owWriteByteEvents s.params p x)
  | owReadBytes p len =>
    obtain ⟨xs, hlen, htrace⟩ := owReadBytes_trace hr h
    exact (congrArg waitTotal htrace).trans (hlen ▸ waitTotal_readBytes s.params p xs)
  | owWriteBytes p len =>
    exact (congrArg waitTotal (owWriteBytes_trace hr h)).trans (waitTotal_writeTxBytes s s.params p len.toNat)
  | owCrc8 c x => exact congrArg waitTotal (trace_of_body hr h rfl)
  | owMatchRom p => exact owMatchRom_waitTotal hr h
  | owMatchDevice idx =>
    intro S q total txTotal r hfound
    exact owMatchDevice_waitTotal hr h hfound
  | owReadRom p => exact owReadRom_waitTotal hr h
  | owSearchPass p cmd sd => exact owSearchPass_waitTotal hfit h hf hok
  | owSearch p cmd => exact owSearch_waitTotal hfit h hf hok
  | owSearchFamily p cmd f => trivial
  | owFree => exact congrArg waitTotal (trace_of_body hr h rfl)

end Sys2Proof.Machine
end
